-- ==== Sys2Proof/Word.lean ====
section
/-!
DEFINITION. Word.lean: the word types of the machine and their plainest arithmetic (spec R5, R9, R78).
-/
namespace Sys2Proof

/-- A scalar register, a pointer or a control word: 64 bits. -/
abbrev Word := BitVec 64
/-- A byte of any storage. -/
abbrev Byte := BitVec 8
/-- A 32-bit word: a CSR of 32 bits, an LH128 word, an fp32 pattern. -/
abbrev W32 := BitVec 32
/-- A token of the fabric carries up to 512 bits (R71). -/
abbrev Wide := BitVec 512
/-- A register number, s0 to s63. -/
abbrev Reg := BitVec 6

/-- Bits [hi:lo] of a number, as a number (R5). -/
def bitsOf (n hi lo : Nat) : Nat := (n / 2 ^ lo) % 2 ^ (hi + 1 - lo)

/-- SEXT(v, w) of R78: the low `w` bits of `v` taken as a two's-complement integer. -/
def sextInt (w v : Nat) : Int :=
  if v % 2 ^ w < 2 ^ (w - 1) then (v % 2 ^ w : Nat) else (v % 2 ^ w : Nat) - (2 ^ w : Nat)

/-- An integer as a 64-bit register value (R9: wraps modulo 2^64). -/
def Word.ofInt (i : Int) : Word := BitVec.ofInt 64 i

end Sys2Proof
end

