-- ==== Sys2Proof/Syntax.lean ====
section
/-!
DEFINITION. Syntax.lean: the whole opcode table as one inductive. A control word carries its next-address form and its
operands; a step of a hardware agent carries the numbers of the agent it happens at.
-/
namespace Sys2Proof

/-- The next-address selector (R83). -/
inductive Nx where
  | next
  | go (d : BitVec 12)
  | ift (f : BitVec 3) (d : BitVec 9)
  | iff (f : BitVec 3) (d : BitVec 9)
  | loop (k : BitVec 2) (d : BitVec 10)
  | call (d : BitVec 12)
  | ret
  | wait (ch : BitVec 6)
  | case (mk s : BitVec 6)
  | stop
  deriving DecidableEq, Repr

/-- The width of a format-R word: WD 0, 1, 2 (R86). -/
inductive Wd where
  | w64 | w32s | w32z
  deriving DecidableEq, Repr

/-- Comparison conditions of cmp and cmpi, codes 0 to 5 (R150). -/
inductive Cond where
  | eq | ne | lt | ge | ltu | geu
  deriving DecidableEq, Repr

/-- Sub-functions of bits, FN 0 to 5 (R152). -/
inductive BitsFn where
  | cnt | clz | ctz | ext | exts | rev
  deriving DecidableEq, Repr

/-- Conditions of pcmp, FN 0 to 3 (R154). -/
inductive PCond where
  | eq | ne | lt | ge
  deriving DecidableEq, Repr

/-- Fields of a pointer: SPACE 0, RANK 1, OFFSET 2 (R154). -/
inductive PField where
  | space | rank | off
  deriving DecidableEq, Repr

/-- Ordering codes (R90). -/
inductive Ord where
  | plain | acq | rel | sc
  deriving DecidableEq, Repr

/-- Scope codes (R90). -/
inductive Scope where
  | tile | span | cluster | die | module | pod
  deriving DecidableEq, Repr

/-- Kinds of fence (R381). -/
inductive FenceKind where
  | ar | acq | rel | sc
  deriving DecidableEq, Repr

/-- Conditions of cwait (R385). -/
inductive CwCond where
  | eq | ne | geu | ge
  deriving DecidableEq, Repr

/-- Kinds of bound stream (R275). -/
inductive SKind where
  | port | ring | core
  deriving DecidableEq, Repr

/-- Items of sstat (R279). -/
inductive SItem where
  | st | bmp | dep | flt
  deriving DecidableEq, Repr

/-- Kinds of inner node, with OVERLAP's window D from 2 to 8 as D − 1 (R165). -/
inductive GKind where
  | chain | overlap (dm1 : BitVec 3) | gang
  deriving DecidableEq, Repr

/-- Modes of hmask (R159). -/
inductive MaskMode where
  | wr | set | clr
  deriving DecidableEq, Repr

/-- Modes of eret (R412). -/
inductive EretMode where
  | retry | skip | stop
  deriving DecidableEq, Repr

/-- Modes of wpre (R315). -/
inductive WpreMode where
  | cfg | off | pert | delta | zonly
  deriving DecidableEq, Repr

/-- Kinds of rnd (R321). -/
inductive RndKind where
  | w0 | lo | hi | gauss
  deriving DecidableEq, Repr

/-- Parameters of cpl.set (R191). -/
inductive CplParam where
  | sp | kp | ki | uper | imax | basep | basec | wmin | wmax | irst
  deriving DecidableEq, Repr

/-- Items of cpl.get (R194). -/
inductive CplItem where
  | occ | integ | u | ptick | ctick | nupd
  deriving DecidableEq, Repr

/-- Modes of a collapse (R354); K is the constant of TOPP and TOPK. -/
inductive ColMode where
  | argmax | sample | topp (k : BitVec 9) | topk (k : BitVec 9)
  deriving DecidableEq, Repr

/-- Policies of a mask deadline (R359). -/
inductive MaskPolicy where
  | wait | open_ | trap
  deriving DecidableEq, Repr

/-- The atomic operations, as a handler word or a peer's request makes them (R379, R430). -/
inductive AmoFn where
  | add | and | or | xor | min | max | minu | maxu | swap | cas | fadd
  deriving DecidableEq, Repr

/-- Operands of a register-form word with a width and a flag (R86, R147). -/
structure RegOp where
  sd : Reg
  sa : Reg
  sb : Reg
  fd : BitVec 3
  fe : Bool
  wd : Wd
  deriving DecidableEq, Repr

/-- Operands of an immediate-form word (R87). -/
structure ImmOp where
  sd : Reg
  sa : Reg
  fd : BitVec 3
  fe : Bool
  imm : BitVec 24
  deriving DecidableEq, Repr

/-- Operands of an immediate shift: IMM[5:0] (R149). -/
structure ShOp where
  sd : Reg
  sa : Reg
  fd : BitVec 3
  fe : Bool
  sh : BitVec 6
  deriving DecidableEq, Repr

/-- Operands of a pointer word of format R (R154). -/
structure PtrOp where
  sd : Reg
  sa : Reg
  sb : Reg
  fd : BitVec 3
  fe : Bool
  deriving DecidableEq, Repr

/-- Operands of ld and st: SZ 0 to 3 (R89, R273). -/
structure MemOp where
  sd : Reg
  sa : Reg
  sz : BitVec 2
  sgn : Bool
  ord : Ord
  scope : Scope
  disp : BitVec 18
  deriving DecidableEq, Repr

/-- Operands of lds: n1 is the word count minus 1 (R273). -/
structure LdsOp where
  sd : Reg
  sa : Reg
  n1 : BitVec 3
  ord : Ord
  scope : Scope
  disp : BitVec 18
  deriving DecidableEq, Repr

/-- Operands of recv (R155). -/
structure RecvOp where
  sd : Reg
  ch : BitVec 6
  part : BitVec 3
  peek : Bool
  fd : BitVec 3
  fe : Bool
  deriving DecidableEq, Repr

/-- Operands of an atomic: `dbl` is SZ 3, 8 bytes (R379). -/
structure AmoOp where
  sd : Reg
  sa : Reg
  sb : Reg
  ord : Ord
  scope : Scope
  dbl : Bool
  deriving DecidableEq, Repr

/-- Operands of sbind (R275). -/
structure SbindOp where
  sd : Reg
  sa : Reg
  sid : BitVec 5
  kind : SKind
  out : Bool
  port : BitVec 5
  shp : BitVec 6
  fmt : BitVec 6
  tok : Bool
  deriving DecidableEq, Repr

/-- Operands of tk.col (R358). -/
structure ColOp where
  td : BitVec 4
  ta : BitVec 4
  sa : Reg
  sb : Reg
  msk : Bool
  gate : Bool
  mode : ColMode
  deriving DecidableEq, Repr

/-- The source of a word that enters a channel (R143): an outbound link of a tile, or an end-of-transfer token that
waits at its unit. -/
inductive ArrSrc where
  | link (tile k : Nat)
  | token (i : Nat)
  deriving DecidableEq, Repr

/-- A peer's request (R430): 1 to 256 bytes read or written, or an atomic of 4 or 8 bytes. -/
inductive PeerReq where
  | read (n : Nat)
  | write (bytes : List Byte)
  | amo (fn : AmoFn) (dbl : Bool) (b e : Word)
  deriving DecidableEq, Repr

/-- The answer of the pod translation service to one request (R431): a peer physical address and a page size in
bytes, a refusal, or no reply within PODTO. -/
inductive PodReply where
  | mapped (pa size : Nat)
  | refused
  | none_
  deriving DecidableEq, Repr

/-- What management sets (R438). -/
inductive NodeId where
  | own | service | host
  deriving DecidableEq, Repr

/-- One constructor per row of spec/opcode_table.json: first the control words, with the next-address form as their first
argument, then the firings of element slots (tile, slot), then the steps of the other agents. -/
inductive Instr where
  -- integer words (R147 to R153)
  | add (nx : Nx) (o : RegOp) | sub (nx : Nx) (o : RegOp) | mul (nx : Nx) (o : RegOp)
  | mulh (nx : Nx) (o : RegOp) | mulhu (nx : Nx) (o : RegOp)
  | div (nx : Nx) (o : RegOp) | divu (nx : Nx) (o : RegOp) | rem (nx : Nx) (o : RegOp) | remu (nx : Nx) (o : RegOp)
  | and (nx : Nx) (o : RegOp) | or (nx : Nx) (o : RegOp) | xor (nx : Nx) (o : RegOp)
  | sll (nx : Nx) (o : RegOp) | srl (nx : Nx) (o : RegOp) | sra (nx : Nx) (o : RegOp)
  | min (nx : Nx) (o : RegOp) | max (nx : Nx) (o : RegOp) | minu (nx : Nx) (o : RegOp) | maxu (nx : Nx) (o : RegOp)
  | addi (nx : Nx) (o : ImmOp) | andi (nx : Nx) (o : ImmOp) | ori (nx : Nx) (o : ImmOp) | xori (nx : Nx) (o : ImmOp)
  | slli (nx : Nx) (o : ShOp) | srli (nx : Nx) (o : ShOp) | srai (nx : Nx) (o : ShOp)
  | li (nx : Nx) (sd : Reg) (imm : BitVec 32) | liHi (nx : Nx) (sd : Reg) (imm : BitVec 32)
  | cmp (nx : Nx) (o : RegOp) (c : Cond)
  | cmpi (nx : Nx) (sd sa : Reg) (fd : BitVec 3) (fe : Bool) (c : Cond) (imm : BitVec 21)
  | sel (nx : Nx) (sd sa sb : Reg) (f : BitVec 3)
  | bits (nx : Nx) (o : RegOp) (se : Reg) (fn : BitsFn)
  -- pointer words (R154)
  | pmk (nx : Nx) (o : PtrOp) (space : BitVec 4)
  | padd (nx : Nx) (o : PtrOp) | paddi (nx : Nx) (o : ImmOp) | pdiff (nx : Nx) (o : PtrOp)
  | pget (nx : Nx) (sd sa : Reg) (fd : BitVec 3) (fe : Bool) (f : PField)
  | pset (nx : Nx) (o : PtrOp) (f : PField)
  | pchk (nx : Nx) (o : PtrOp) (wr : Bool)
  | pcmp (nx : Nx) (o : PtrOp) (c : PCond)
  -- memory words (R273, R274)
  | ld (nx : Nx) (o : MemOp) | lds (nx : Nx) (o : LdsOp) | st (nx : Nx) (o : MemOp)
  -- channel words (R155, R156)
  | recv (nx : Nx) (o : RecvOp) | send (nx : Nx) (sa : Reg) (empty : Bool) (ch : BitVec 6)
  -- atomics (R379, R380)
  | amoAdd (nx : Nx) (o : AmoOp) | amoAnd (nx : Nx) (o : AmoOp) | amoOr (nx : Nx) (o : AmoOp) | amoXor (nx : Nx) (o : AmoOp)
  | amoMin (nx : Nx) (o : AmoOp) | amoMax (nx : Nx) (o : AmoOp) | amoMinu (nx : Nx) (o : AmoOp) | amoMaxu (nx : Nx) (o : AmoOp)
  | amoSwap (nx : Nx) (o : AmoOp)
  | amoCas (nx : Nx) (o : AmoOp) (se : Reg) (fd : BitVec 3) (fe : Bool)
  | amoFadd (nx : Nx) (o : AmoOp)
  -- synchronising words (R381 to R388)
  | fence (nx : Nx) (k : FenceKind) (scope : Scope)
  | sfence (nx : Nx) (sd : Reg) (sid : BitVec 5) (scope : Scope)
  | barInit (nx : Nx) (sd sa sb : Reg)
  | barArrive (nx : Nx) (sd sa sb : Reg) (scope : Scope) (fd : BitVec 3) (fe : Bool)
  | barWait (nx : Nx) (sd sa sb : Reg) (scope : Scope)
  | cwait (nx : Nx) (sd sa sb : Reg) (dbl : Bool) (c : CwCond) (scope : Scope)
  | signal (nx : Nx) (sa : Reg) (ch : BitVec 6) (scope : Scope)
  | drain (nx : Nx) (scope : Scope)
  -- stream words (R275 to R282)
  | sbind (nx : Nx) (o : SbindOp)
  | sgather (nx : Nx) (sd sa : Reg) (sid : BitVec 5) (tok : Bool)
  | sscatter (nx : Nx) (sd sa : Reg) (sid : BitVec 5) (tok : Bool)
  | sresp (nx : Nx) (sd : Reg) (sid : BitVec 5) (part : BitVec 3) (peek test : Bool)
  | scancel (nx : Nx) (sd : Reg) (sid : BitVec 5)
  | sstat (nx : Nx) (sd : Reg) (sid : BitVec 5) (item : SItem)
  | shape (nx : Nx) (sd sa : Reg) (sid : BitVec 5) (shp : BitVec 6)
  | sdepth (nx : Nx) (sd sa : Reg) (sid : BitVec 5)
  -- tree words (R164 to R166), configuration words (R132, R133)
  | step (nx : Nx) (sa : Reg) (c : BitVec 8) (shp : BitVec 6)
  | stepKeep (nx : Nx) (sa : Reg) (shp : BitVec 6)
  | grpOpen (nx : Nx) (sa : Reg) (k : GKind) (shp : BitVec 6)
  | grpClose (nx : Nx)
  | cfgLoad (nx : Nx) (sa : Reg) (c : BitVec 8)
  | cfgPart (nx : Nx) (sa : Reg) (c : BitVec 8)
  | clear (nx : Nx) (sa : Reg) (classes : BitVec 4)
  -- matrix words (R314 to R321)
  | sysmodeOn (nx : Nx) (sd sa sb : Reg) (auto : Bool) (nt1 : BitVec 3) (kpl : BitVec 12)
  | sysmodeOff (nx : Nx) (sd : Reg)
  | wpre (nx : Nx) (sa sb : Reg) (keep : Bool) (mode : WpreMode)
  | mma (nx : Nx) (last keepa : Bool) (klen1 : BitVec 7)
  | epi (nx : Nx) (sa : Reg) (e1 m : BitVec 6)
  | accShape (nx : Nx) (sd sa : Reg) (slot : BitVec 3)
  | accDrop (nx : Nx) (sd : Reg) (all : Bool) (slot : BitVec 3)
  | pseed (nx : Nx) (sd sa sb : Reg)
  | pmemb (nx : Nx) (sd sa : Reg) | pmembInc (nx : Nx) (sd : Reg)
  | ptau (nx : Nx) (sd sa : Reg)
  | rnd (nx : Nx) (sd sa : Reg) (k : RndKind)
  -- coupler and digest words (R191 to R195, R399, R400)
  | cplSet (nx : Nx) (sd sa sb : Reg) (p : CplParam)
  | cplGet (nx : Nx) (sd sa : Reg) (it : CplItem)
  | digOn (nx : Nx) (sd : Reg) (rst : Bool)
  | digRead (nx : Nx) (sd : Reg) (hi : Bool)
  -- attention words (R334 to R337)
  | cbk (nx : Nx) (sd sa sb : Reg) (lg : BitVec 3) (mask : BitVec 12)
  | attQ (nx : Nx) (sd sa sb : Reg) (lg : BitVec 3) (mask : BitVec 12)
  | attRun (nx : Nx) (sd sa sb : Reg)
  | attMerge (nx : Nx) (sd sa sb : Reg) (bf16 : Bool)
  -- token words (R346 to R365)
  | tkText (nx : Nx) (td : BitVec 4) (sa sb : Reg)
  | tkMix (nx : Nx) (td : BitVec 4) (sa sb : Reg) (n : BitVec 4)
  | tkHid (nx : Nx) (td : BitVec 4) (sa sb : Reg) (fp32 : Bool)
  | tkEmb (nx : Nx) (ta : BitVec 4) (sa sb : Reg) (proj : Bool)
  | tkCol (nx : Nx) (o : ColOp)
  | tkMask (nx : Nx) (sa : Reg) (p : MaskPolicy) (ch : BitVec 6)
  | tkMaskOff (nx : Nx)
  | tkLog (nx : Nx) (ta : BitVec 4) (sa sb : Reg)
  | tkLogChk (nx : Nx) (ta : BitVec 4) (sa sb : Reg)
  | tkDig (nx : Nx) (ta : BitVec 4) (sa : Reg) (chain : Bool)
  | tkMatch (nx : Nx) (sa sb : Reg)
  | tkMov (nx : Nx) (td ta : BitVec 4) | tkMovEmpty (nx : Nx) (td : BitVec 4) (sa : Reg)
  | tkLd (nx : Nx) (td : BitVec 4) (sa : Reg) | tkSt (nx : Nx) (ta : BitVec 4) (sa : Reg)
  -- tag words (R283 to R286), launch words (R127 to R130)
  | lookup (nx : Nx) (sd sa : Reg) (ci : BitVec 6) (fd : BitVec 3) (fe : Bool)
  | tagSet (nx : Nx) (sd sa sb : Reg) (ci : BitVec 6)
  | tagInv (nx : Nx) (sd sa : Reg) (ci : BitVec 6) (all : Bool)
  | depSet (nx : Nx) (sd sa sb : Reg)
  | depDec (nx : Nx) (sd sa : Reg) (n : BitVec 10)
  | depRead (nx : Nx) (sd sa : Reg) (w : BitVec 3)
  | arm (nx : Nx) (sd sa sb : Reg)
  -- system words (R157 to R160, R411, R412, R426)
  | nop (nx : Nx)
  | csrr (nx : Nx) (sd : Reg) (csr : BitVec 12)
  | csrw (nx : Nx) (sd sa : Reg) (csr : BitVec 12)
  | csrs (nx : Nx) (sd sa : Reg) (csr : BitVec 12)
  | csrc (nx : Nx) (sd sa : Reg) (csr : BitVec 12)
  | trap (nx : Nx) (sa : Reg) (code : BitVec 12)
  | eret (nx : Nx) (m : EretMode)
  | kill (nx : Nx) (sd sa : Reg) (wait : Bool)
  | hmask (nx : Nx) (sd sa : Reg) (m : MaskMode)
  | hwake (nx : Nx) (sd sa : Reg)
  -- the core's own steps
  | handlerIssue (sp : Nat) | programBufferFill (sp line : Nat) | channelArrival (sp ch : Nat) (src : ArrSrc)
  | trapDeliver (sp : Nat) | operationStageEnd (sp h : Nat) | clearComplete (sp h : Nat)
  -- firings of element slot e of tile t (R198 to R239)
  | vadd (t e : Nat) | vsub (t e : Nat) | vmul (t e : Nat) | vfma (t e : Nat) | vmin (t e : Nat) | vmax (t e : Nat)
  | vabs (t e : Nat) | vneg (t e : Nat) | vdiv (t e : Nat) | vsqrt (t e : Nat) | vexp2 (t e : Nat) | vlog2 (t e : Nat)
  | vrcpe (t e : Nat) | vrsqe (t e : Nat)
  | viadd (t e : Nat) | visub (t e : Nat) | vimul (t e : Nat) | vand (t e : Nat) | vor (t e : Nat) | vxor (t e : Nat)
  | vshl (t e : Nat) | vshr (t e : Nat) | vimin (t e : Nat) | vimax (t e : Nat)
  | vcmp (t e : Nat) | vsel (t e : Nat) | vcvt (t e : Nat) | vscale (t e : Nat) | vquant (t e : Nat) | vdeq (t e : Nat)
  | vdot (t e : Nat) | vlut (t e : Nat) | vnoise (t e : Nat) | vtopk (t e : Nat) | vred (t e : Nat) | vscan (t e : Nat)
  | rnet (t e : Nat) | vperm (t e : Nat) | vbcast (t e : Nat) | vpack (t e : Nat) | vunpack (t e : Nat) | vslide (t e : Nat)
  | steer (t e : Nat) | merge (t e : Nat) | gate (t e : Nat) | limit (t e : Nat) | init (t e : Nat) | count (t e : Nat)
  | drop (t e : Nat) | fill (t e : Nat) | copy (t e : Nat)
  | mrd (t e : Nat) | mwr (t e : Nat) | mrdx (t e : Nat) | mwrx (t e : Nat)
  | rnetRoundResult (t e : Nat) | drainPass (t e : Nat)
  -- fabric steps
  | routerForward (t p k : Nat) | sequencerEmit (t : Nat) | fabricPortOffer (sp n : Nat)
  | couplerUpdate (t c : Nat) | contributionArrival (t c : Nat) | depthWindowEnd (sp sid : Nat)
  | configCommit (sp h : Nat) | leafStart (sp n : Nat) | leafDrainComplete (sp n : Nat)
  -- memory steps; id numbers an access, a walk or a pending barrier update
  | accessDispatch (id : Nat) | accessPerform (id : Nat) | accessComplete (id : Nat) | scTokenPass
  | podAccessExpire (id : Nat) | podCwaitReread (id : Nat)
  | pageWalkStart (die : Nat) | pageWalkComplete (id : Nat) | invalidationComplete (tenant : Nat)
  | barrierUpdate (id : Nat)
  | streamDeliver (sp sid : Nat) | portInRequest (sp sid : Nat) | portOutWrite (sp sid : Nat)
  | ringInPosition (sp sid : Nat) | ringOutPosition (sp sid : Nat) | coreStreamPlace (sp sid : Nat)
  | jobStart (sp sid : Nat) | jobElementIssue (sp sid : Nat) | jobElementPerform (sp sid job e : Nat)
  | sfenceTokenComplete (sp h : Nat)
  -- matrix steps
  | wpreStart (sp : Nat) | wpreComplete (sp : Nat) | mmaStart (sp : Nat) | mmaLastRow (sp : Nat) | mmaComplete (sp : Nat)
  | epiStart (sp : Nat) | epilogueEmit (sp t : Nat) | epiEnd (sp : Nat)
  -- attention and collapse steps
  | attPageAttend (sp h pg : Nat) | attPageRetry (sp h pg : Nat) | attPageAbandon (sp h pg : Nat) | attRunEnd (sp h : Nat)
  | collapseStart (sp : Nat) | collapseComplete (sp : Nat) | maskDeadlineExpire (sp : Nat) | maskGraceExpire (sp : Nat)
  -- launch steps; slot numbers a Bellwether slot, die × 16 + k
  | launchDispatch (die : Nat) | graphCheck (slot : Nat) | sectionPlace (slot sec : Nat) | handlersStart (sp : Nat)
  | spanEnd (sp : Nat) | sectionRetire (sp : Nat) | launchRetire (slot : Nat)
  -- CONTROL steps: the perform step of the queued access id, when it is of the row's kind
  | entryPcntWrite (id : Nat) | armStore (id : Nat) | disarmStore (id : Nat) | qctlWrite (id : Nat)
  | resume (id : Nat) | preempt (id : Nat) | launchControlKill (id : Nat)
  | inval (id : Nat) | windowWrite (id : Nat) | ownerWordStore (id : Nat) | controlRegisterWrite (id : Nat)
  -- pre-emption, kill and watchdog steps
  | preemptSave (sp : Nat) | preemptGraceExpire (slot : Nat) | preemptRestore (sp : Nat) | killDone (slot : Nat)
  | watchdogExpire (q : Nat) | watchdogGraceExpire (q : Nat) | watchdogResetDone (q : Nat)
  | ownerClearDone (rank : Nat)
  -- the outside
  | inboundAccess (node pa : Nat) (r : PeerReq) | apertureAccess (node off : Nat) (r : PeerReq)
  | podTranslationReply (id : Nat) (r : PodReply) | podInvalidation (node va size : Nat)
  | powerOn | thermalThrottle (cycles : Nat) | thermalCritical | powerRemove
  | attestationRequest (nonce : BitVec 256)
  | firmwareUpdate (service : Bool) (version : BitVec 64) (image : Nat) (signed : Bool)
  | nodeIdSet (which : NodeId) (value : BitVec 10)
  | uncorrectableError (line : Nat)
  deriving DecidableEq, Repr

end Sys2Proof
end

