-- ==== Sys2Proof/WellFormed.lean ====
section
/-!
DEFINITION. WellFormed.lean: which instructions the opcode table admits, as checks a decoder and an encoder share.
A term that breaks one encodes no instruction (R92: ILLEGAL at decode).
-/
namespace Sys2Proof

/-- The CSR numbers of R144. -/
def csrAssigned (n : Nat) : Bool :=
  (n ≤ 0x01B) || (0x020 ≤ n && n ≤ 0x024) || n == 0x028 || n == 0x029

/-- The CSRs that csrw, csrs and csrc may write (R144, access RW). -/
def csrWritable (n : Nat) : Bool :=
  n == 0x00A || (0x00C ≤ n && n ≤ 0x01B) || (0x020 ≤ n && n ≤ 0x024)

/-- The assigned format codes of R12; 0x27 and 0x2B to 0x3F are reserved (R13). -/
def fmtAssigned (n : Nat) : Bool := n ≤ 0x2A && n != 0x27

/-- ORD and SCOPE together (R90): plain takes scope code 0 alone, SC goes up to MODULE. -/
def ordScopeOk (o : Ord) (s : Scope) : Bool :=
  match o with
  | .plain => s == .tile
  | .sc => s != .pod
  | _ => true

def MemOp.wfLoad (o : MemOp) : Bool := o.ord != .rel && ordScopeOk o.ord o.scope
def MemOp.wfStore (o : MemOp) : Bool := o.ord != .acq && !o.sgn && ordScopeOk o.ord o.scope
/-- lds needs SD ≠ 0 and SD + SZ at most 63 (R273). -/
def LdsOp.wf (o : LdsOp) : Bool :=
  o.sd != 0 && o.sd.toNat + o.n1.toNat ≤ 63 && (o.ord == .plain || o.ord == .acq) && ordScopeOk o.ord o.scope
def AmoOp.wf (o : AmoOp) : Bool := ordScopeOk o.ord o.scope
/-- The fields of sbind that each kind uses (R275). -/
def SbindOp.wf (o : SbindOp) : Bool :=
  o.shp.toNat ≤ 62 &&
  match o.kind with
  | .port => fmtAssigned o.fmt.toNat
  | .ring => o.port == 0 && o.fmt == 0
  | .core => !o.out && o.port == 0 && fmtAssigned o.fmt.toNat
/-- K of TOPP and TOPK is 1 to 256 (R358). -/
def ColMode.wf : ColMode → Bool
  | .topp k | .topk k => 1 ≤ k.toNat && k.toNat ≤ 256
  | _ => true
/-- A digest pair register: even, from 2 to 62 (R361). -/
def pairOk (r : Reg) : Bool := r != 0 && r.toNat % 2 == 0

/-- A control word, with an encoding of 64 bits; the other constructors are steps with no encoding of their own. -/
def Instr.isWord : Instr → Bool
  | .add .. | .sub .. | .mul .. | .mulh .. | .mulhu .. | .div .. | .divu .. | .rem .. | .remu .. | .and .. | .or ..
  | .xor .. | .sll .. | .srl .. | .sra .. | .min .. | .max .. | .minu .. | .maxu .. | .addi .. | .andi .. | .ori ..
  | .xori .. | .slli .. | .srli .. | .srai .. | .li .. | .liHi .. | .cmp .. | .cmpi .. | .sel .. | .bits .. | .pmk ..
  | .padd .. | .paddi .. | .pdiff .. | .pget .. | .pset .. | .pchk .. | .pcmp .. | .ld .. | .lds .. | .st .. | .recv ..
  | .send .. | .amoAdd .. | .amoAnd .. | .amoOr .. | .amoXor .. | .amoMin .. | .amoMax .. | .amoMinu .. | .amoMaxu ..
  | .amoSwap .. | .amoCas .. | .amoFadd .. | .fence .. | .sfence .. | .barInit .. | .barArrive .. | .barWait ..
  | .cwait .. | .signal .. | .drain .. | .sbind .. | .sgather .. | .sscatter .. | .sresp .. | .scancel .. | .sstat ..
  | .shape .. | .sdepth .. | .step .. | .stepKeep .. | .grpOpen .. | .grpClose .. | .cfgLoad .. | .cfgPart ..
  | .clear .. | .sysmodeOn .. | .sysmodeOff .. | .wpre .. | .mma .. | .epi .. | .accShape .. | .accDrop .. | .pseed ..
  | .pmemb .. | .pmembInc .. | .ptau .. | .rnd .. | .cplSet .. | .cplGet .. | .digOn .. | .digRead .. | .cbk ..
  | .attQ .. | .attRun .. | .attMerge .. | .tkText .. | .tkMix .. | .tkHid .. | .tkEmb .. | .tkCol .. | .tkMask ..
  | .tkMaskOff .. | .tkLog .. | .tkLogChk .. | .tkDig .. | .tkMatch .. | .tkMov .. | .tkMovEmpty .. | .tkLd ..
  | .tkSt .. | .lookup .. | .tagSet .. | .tagInv .. | .depSet .. | .depDec .. | .depRead .. | .arm .. | .nop ..
  | .csrr .. | .csrw .. | .csrs .. | .csrc .. | .trap .. | .eret .. | .kill .. | .hmask .. | .hwake .. => true
  | _ => false

/-- Every rule that a decoder can check on the fields of one instruction (R92). -/
def Instr.wf : Instr → Bool
  | .pmk _ _ sp => sp.toNat ≤ 5
  | .ld _ o => o.wfLoad
  | .lds _ o => o.wf
  | .st _ o => o.wfStore
  | .send _ sa empty _ => !empty || sa == 0
  | .amoAdd _ o | .amoAnd _ o | .amoOr _ o | .amoXor _ o | .amoMin _ o | .amoMax _ o | .amoMinu _ o | .amoMaxu _ o
  | .amoSwap _ o | .amoCas _ o _ _ _ => o.wf
  | .amoFadd _ o => o.wf && !o.dbl
  | .fence _ k s => !(k == .sc && s == .pod)
  | .sbind _ o => o.wf
  | .sresp _ _ _ part peek test => !test || (part == 0 && !peek)
  | .shape _ _ _ _ shp => shp.toNat ≤ 62
  | .sdepth _ _ _ sid => sid.toNat < 16
  | .bits _ o se fn => fn == .ext || fn == .exts || (o.sb == 0 && se == 0)
  | .grpOpen _ _ (.overlap d) _ => d != 0
  | .clear _ _ c => c != 0
  | .sysmodeOn _ _ _ sb auto _ kpl => if auto then kpl != 0 else sb == 0 && kpl == 0
  | .epi _ _ e1 m => m.toNat ≤ e1.toNat
  | .accDrop _ _ all slot => !all || slot == 0
  | .cplSet _ _ _ sb p => p != .irst || sb == 0
  | .cbk _ _ _ _ lg mask | .attQ _ _ _ _ lg mask => lg != 0 && lg != 7 && mask != 0
  | .tkMix _ _ _ _ n => 1 ≤ n.toNat && n.toNat ≤ 8
  | .tkCol _ o => o.mode.wf
  | .tkLog _ _ _ sb | .tkLogChk _ _ _ sb => pairOk sb
  | .tkDig _ _ sa _ => pairOk sa
  | .tagInv _ _ sa _ all => !all || sa == 0
  | .depDec _ _ _ n => n != 0
  | .csrr _ _ c => csrAssigned c.toNat
  | .csrw _ _ _ c | .csrs _ _ _ c | .csrc _ _ _ c => csrWritable c.toNat
  | _ => true

end Sys2Proof
end

