-- ==== Sys2Proof/Decode.lean ====
section
/-!
DEFINITION. Decode.lean: the 64-bit control word to an instruction or a refusal, and back (R80 to R92). Total on any
word. The checks that need the state (a channel bound to the handler, the depth of the return stack, the entry's own
checks) are made when the word issues.
-/
namespace Sys2Proof

/-- `w` bits of `n` from bit `lo` up. -/
def fld (n lo w : Nat) : Nat := n / 2 ^ lo % 2 ^ w

/-! ### Fields -/

def Wd.code : Wd → Nat | .w64 => 0 | .w32s => 1 | .w32z => 2
def Wd.ofCode : Nat → Option Wd | 0 => some .w64 | 1 => some .w32s | 2 => some .w32z | _ => none
def Cond.code : Cond → Nat | .eq => 0 | .ne => 1 | .lt => 2 | .ge => 3 | .ltu => 4 | .geu => 5
def Cond.ofCode : Nat → Option Cond
  | 0 => some .eq | 1 => some .ne | 2 => some .lt | 3 => some .ge | 4 => some .ltu | 5 => some .geu | _ => none
def BitsFn.code : BitsFn → Nat | .cnt => 0 | .clz => 1 | .ctz => 2 | .ext => 3 | .exts => 4 | .rev => 5
def BitsFn.ofCode : Nat → Option BitsFn
  | 0 => some .cnt | 1 => some .clz | 2 => some .ctz | 3 => some .ext | 4 => some .exts | 5 => some .rev | _ => none
def PCond.code : PCond → Nat | .eq => 0 | .ne => 1 | .lt => 2 | .ge => 3
def PCond.ofCode : Nat → Option PCond | 0 => some .eq | 1 => some .ne | 2 => some .lt | 3 => some .ge | _ => none
def PField.code : PField → Nat | .space => 0 | .rank => 1 | .off => 2
def PField.ofCode : Nat → Option PField | 0 => some .space | 1 => some .rank | 2 => some .off | _ => none
def Ord.code : Ord → Nat | .plain => 0 | .acq => 1 | .rel => 2 | .sc => 3
def Ord.ofCode : Nat → Option Ord | 0 => some .plain | 1 => some .acq | 2 => some .rel | 3 => some .sc | _ => none
def Scope.code : Scope → Nat | .tile => 0 | .span => 1 | .cluster => 2 | .die => 3 | .module => 4 | .pod => 5
def Scope.ofCode : Nat → Option Scope
  | 0 => some .tile | 1 => some .span | 2 => some .cluster | 3 => some .die | 4 => some .module | 5 => some .pod | _ => none
def FenceKind.code : FenceKind → Nat | .ar => 0 | .acq => 1 | .rel => 2 | .sc => 3
def FenceKind.ofCode : Nat → Option FenceKind | 0 => some .ar | 1 => some .acq | 2 => some .rel | 3 => some .sc | _ => none
def CwCond.code : CwCond → Nat | .eq => 0 | .ne => 1 | .geu => 2 | .ge => 3
def CwCond.ofCode : Nat → Option CwCond | 0 => some .eq | 1 => some .ne | 2 => some .geu | 3 => some .ge | _ => none
def SKind.code : SKind → Nat | .port => 0 | .ring => 1 | .core => 2
def SKind.ofCode : Nat → Option SKind | 0 => some .port | 1 => some .ring | 2 => some .core | _ => none
def SItem.code : SItem → Nat | .st => 0 | .bmp => 1 | .dep => 2 | .flt => 3
def SItem.ofCode : Nat → Option SItem | 0 => some .st | 1 => some .bmp | 2 => some .dep | 3 => some .flt | _ => none
def MaskMode.code : MaskMode → Nat | .wr => 0 | .set => 1 | .clr => 2
def MaskMode.ofCode : Nat → Option MaskMode | 0 => some .wr | 1 => some .set | 2 => some .clr | _ => none
def EretMode.code : EretMode → Nat | .retry => 0 | .skip => 1 | .stop => 2
def EretMode.ofCode : Nat → Option EretMode | 0 => some .retry | 1 => some .skip | 2 => some .stop | _ => none
def WpreMode.code : WpreMode → Nat | .cfg => 0 | .off => 1 | .pert => 2 | .delta => 3 | .zonly => 4
def WpreMode.ofCode : Nat → Option WpreMode
  | 0 => some .cfg | 1 => some .off | 2 => some .pert | 3 => some .delta | 4 => some .zonly | _ => none
def RndKind.code : RndKind → Nat | .w0 => 0 | .lo => 1 | .hi => 2 | .gauss => 3
def RndKind.ofCode : Nat → Option RndKind | 0 => some .w0 | 1 => some .lo | 2 => some .hi | 3 => some .gauss | _ => none
def CplParam.code : CplParam → Nat
  | .sp => 0 | .kp => 1 | .ki => 2 | .uper => 3 | .imax => 4 | .basep => 5 | .basec => 6 | .wmin => 7 | .wmax => 8 | .irst => 9
def CplParam.ofCode : Nat → Option CplParam
  | 0 => some .sp | 1 => some .kp | 2 => some .ki | 3 => some .uper | 4 => some .imax | 5 => some .basep | 6 => some .basec
  | 7 => some .wmin | 8 => some .wmax | 9 => some .irst | _ => none
def CplItem.code : CplItem → Nat | .occ => 0 | .integ => 1 | .u => 2 | .ptick => 3 | .ctick => 4 | .nupd => 5
def CplItem.ofCode : Nat → Option CplItem
  | 0 => some .occ | 1 => some .integ | 2 => some .u | 3 => some .ptick | 4 => some .ctick | 5 => some .nupd | _ => none
def MaskPolicy.code : MaskPolicy → Nat | .wait => 0 | .open_ => 1 | .trap => 2
def MaskPolicy.ofCode : Nat → Option MaskPolicy | 0 => some .wait | 1 => some .open_ | 2 => some .trap | _ => none
/-- KA[4:0] of grp.open (R165): the kind in [1:0], D − 1 in [4:2]. -/
def GKind.code : GKind → Nat | .chain => 0 | .overlap d => 1 + 4 * d.toNat | .gang => 2
def GKind.ofCode (k d : Nat) : Option GKind :=
  match k with
  | 0 => if d = 0 then some .chain else none
  | 1 => if d = 0 then none else some (.overlap (BitVec.ofNat 3 d))
  | 2 => if d = 0 then some .gang else none
  | _ => none
/-- MODE[2:0] and KT[8:0] of tk.col (R358). -/
def ColMode.code : ColMode → Nat × Nat
  | .argmax => (0, 0) | .sample => (1, 0) | .topp k => (2, k.toNat) | .topk k => (3, k.toNat)
def ColMode.ofCode (m k : Nat) : Option ColMode :=
  match m with
  | 0 => if k = 0 then some .argmax else none
  | 1 => if k = 0 then some .sample else none
  | 2 => some (.topp (BitVec.ofNat 9 k))
  | 3 => some (.topk (BitVec.ofNat 9 k))
  | _ => none

/-! ### The next-address selector (R83) -/

def decNx (nx nt : Nat) : Option Nx :=
  match nx with
  | 0 => if nt = 0 then some .next else none
  | 1 => some (.go (BitVec.ofNat 12 nt))
  | 2 => some (.ift (BitVec.ofNat 3 (fld nt 9 3)) (BitVec.ofNat 9 (fld nt 0 9)))
  | 3 => some (.iff (BitVec.ofNat 3 (fld nt 9 3)) (BitVec.ofNat 9 (fld nt 0 9)))
  | 4 => some (.loop (BitVec.ofNat 2 (fld nt 10 2)) (BitVec.ofNat 10 (fld nt 0 10)))
  | 5 => some (.call (BitVec.ofNat 12 nt))
  | 6 => if nt = 0 then some .ret else none
  | 7 => if fld nt 6 6 = 0 then some (.wait (BitVec.ofNat 6 (fld nt 0 6))) else none
  | 8 => some (.case (BitVec.ofNat 6 (fld nt 6 6)) (BitVec.ofNat 6 (fld nt 0 6)))
  | 9 => if nt = 0 then some .stop else none
  | _ => none

/-- NX × 2^12 + NT. -/
def encNx : Nx → Nat
  | .next => 0
  | .go d => 1 * 2 ^ 12 + d.toNat
  | .ift f d => 2 * 2 ^ 12 + f.toNat * 2 ^ 9 + d.toNat
  | .iff f d => 3 * 2 ^ 12 + f.toNat * 2 ^ 9 + d.toNat
  | .loop k d => 4 * 2 ^ 12 + k.toNat * 2 ^ 10 + d.toNat
  | .call d => 5 * 2 ^ 12 + d.toNat
  | .ret => 6 * 2 ^ 12
  | .wait ch => 7 * 2 ^ 12 + ch.toNat
  | .case mk s => 8 * 2 ^ 12 + mk.toNat * 2 ^ 6 + s.toNat
  | .stop => 9 * 2 ^ 12

/-! ### Operand formats (R86 to R89), as numbers -/

def b2n (b : Bool) : Nat := if b then 1 else 0
def r6 (n lo : Nat) : Reg := BitVec.ofNat 6 (fld n lo 6)
def t4 (n lo : Nat) : BitVec 4 := BitVec.ofNat 4 (fld n lo 4)
def bit (n lo : Nat) : Bool := fld n lo 1 == 1
def f3 (n lo : Nat) : BitVec 3 := BitVec.ofNat 3 (fld n lo 3)

/-- Format R: SD SA SB SE FN FD FE WD (R86). -/
def encR (sd sa sb se fn fd fe wd : Nat) : Nat :=
  sd * 2 ^ 34 + sa * 2 ^ 28 + sb * 2 ^ 22 + se * 2 ^ 16 + fn * 2 ^ 8 + fd * 2 ^ 5 + fe * 2 ^ 4 + wd * 2 ^ 2
/-- Format I (R87). -/
def encI (sd sa fd fe imm : Nat) : Nat := sd * 2 ^ 34 + sa * 2 ^ 28 + fd * 2 ^ 25 + fe * 2 ^ 24 + imm
/-- Format M (R89). -/
def encM (sd sa sz sgn ord scope disp : Nat) : Nat :=
  sd * 2 ^ 34 + sa * 2 ^ 28 + sz * 2 ^ 25 + sgn * 2 ^ 24 + ord * 2 ^ 21 + scope * 2 ^ 18 + disp
/-- Format S (R89). -/
def encS (sd sa sid dir port shp fmt opt : Nat) : Nat :=
  sd * 2 ^ 34 + sa * 2 ^ 28 + sid * 2 ^ 23 + dir * 2 ^ 22 + port * 2 ^ 17 + shp * 2 ^ 11 + fmt * 2 ^ 5 + opt
/-- Format T (R89). -/
def encT (td ta sa sb mode kt : Nat) : Nat :=
  td * 2 ^ 36 + ta * 2 ^ 32 + sa * 2 ^ 26 + sb * 2 ^ 20 + mode * 2 ^ 12 + kt
/-- Format X (R89). -/
def encX (sd sa sb ka kb : Nat) : Nat := sd * 2 ^ 34 + sa * 2 ^ 28 + sb * 2 ^ 22 + ka * 2 ^ 12 + kb

/-- The operands of a register-form word: FN, SE and [1:0] zero, WD 0 to 2 (R147). -/
def regOp? (d : Nat) : Option RegOp :=
  if fld d 0 2 = 0 then
    (Wd.ofCode (fld d 2 2)).map fun wd => ⟨r6 d 34, r6 d 28, r6 d 22, f3 d 5, bit d 4, wd⟩
  else none
/-- As above, with SE and FN zero. -/
def aluOp? (d : Nat) : Option RegOp := if fld d 8 8 = 0 ∧ fld d 16 6 = 0 then regOp? d else none
/-- The operands of a pointer word: SE, WD and [1:0] zero (R154). -/
def ptrOp? (d : Nat) : Option PtrOp :=
  if fld d 0 4 = 0 ∧ fld d 16 6 = 0 then some ⟨r6 d 34, r6 d 28, r6 d 22, f3 d 5, bit d 4⟩ else none
def immOp (d : Nat) : ImmOp := ⟨r6 d 34, r6 d 28, f3 d 25, bit d 24, BitVec.ofNat 24 (fld d 0 24)⟩
def shOp? (d : Nat) : Option ShOp :=
  if fld d 6 18 = 0 then some ⟨r6 d 34, r6 d 28, f3 d 25, bit d 24, BitVec.ofNat 6 (fld d 0 6)⟩ else none
def memOp? (d : Nat) : Option MemOp :=
  if fld d 27 1 = 0 then
    (Ord.ofCode (fld d 21 3)).bind fun o => (Scope.ofCode (fld d 18 3)).map fun s =>
      ⟨r6 d 34, r6 d 28, BitVec.ofNat 2 (fld d 25 2), bit d 24, o, s, BitVec.ofNat 18 (fld d 0 18)⟩
  else none
def ldsOp? (d : Nat) : Option LdsOp :=
  if fld d 24 1 = 0 then
    (Ord.ofCode (fld d 21 3)).bind fun o => (Scope.ofCode (fld d 18 3)).map fun s =>
      ⟨r6 d 34, r6 d 28, f3 d 25, o, s, BitVec.ofNat 18 (fld d 0 18)⟩
  else none
/-- The operands of an atomic: FN holds ORD, SCOPE, SZ; WD and [1:0] zero (R379). -/
def amoOp? (d : Nat) : Option AmoOp :=
  if fld d 0 4 = 0 ∧ fld d 9 1 = 1 then
    (Ord.ofCode (fld d 13 3)).bind fun o => (Scope.ofCode (fld d 10 3)).map fun s =>
      ⟨r6 d 34, r6 d 28, r6 d 22, o, s, bit d 8⟩
  else none
/-- An atomic other than amo.cas: SE, FD and FE zero. -/
def amoPlain? (d : Nat) : Option AmoOp := if fld d 16 6 = 0 ∧ fld d 4 4 = 0 then amoOp? d else none

def RegOp.enc (o : RegOp) (se fn : Nat) : Nat :=
  encR o.sd.toNat o.sa.toNat o.sb.toNat se fn o.fd.toNat (b2n o.fe) o.wd.code
def PtrOp.enc (o : PtrOp) (fn : Nat) : Nat := encR o.sd.toNat o.sa.toNat o.sb.toNat 0 fn o.fd.toNat (b2n o.fe) 0
def ImmOp.enc (o : ImmOp) : Nat := encI o.sd.toNat o.sa.toNat o.fd.toNat (b2n o.fe) o.imm.toNat
def ShOp.enc (o : ShOp) : Nat := encI o.sd.toNat o.sa.toNat o.fd.toNat (b2n o.fe) o.sh.toNat
def MemOp.enc (o : MemOp) : Nat :=
  encM o.sd.toNat o.sa.toNat o.sz.toNat (b2n o.sgn) o.ord.code o.scope.code o.disp.toNat
def LdsOp.enc (o : LdsOp) : Nat := encM o.sd.toNat o.sa.toNat o.n1.toNat 0 o.ord.code o.scope.code o.disp.toNat
def AmoOp.enc (o : AmoOp) (se fd fe : Nat) : Nat :=
  encR o.sd.toNat o.sa.toNat o.sb.toNat se (o.ord.code * 2 ^ 5 + o.scope.code * 2 ^ 2 + 2 + b2n o.dbl) fd fe 0

/-! ### The major opcodes (R91), each with its entry's fields. The state-free checks of R92 follow as `Instr.wf`. -/

/-- OP 0x01 to 0x1F: integer words (R147 to R153). -/
def decInt (op : Nat) (nx : Nx) (d : Nat) : Option Instr :=
  match op with
  | 0x01 => (aluOp? d).map (.add nx) | 0x02 => (aluOp? d).map (.sub nx) | 0x03 => (aluOp? d).map (.mul nx)
  | 0x04 => (aluOp? d).map (.mulh nx) | 0x05 => (aluOp? d).map (.mulhu nx) | 0x06 => (aluOp? d).map (.div nx)
  | 0x07 => (aluOp? d).map (.divu nx) | 0x08 => (aluOp? d).map (.rem nx) | 0x09 => (aluOp? d).map (.remu nx)
  | 0x0A => (aluOp? d).map (.and nx) | 0x0B => (aluOp? d).map (.or nx) | 0x0C => (aluOp? d).map (.xor nx)
  | 0x0D => (aluOp? d).map (.sll nx) | 0x0E => (aluOp? d).map (.srl nx) | 0x0F => (aluOp? d).map (.sra nx)
  | 0x10 => some (.addi nx (immOp d)) | 0x11 => some (.andi nx (immOp d)) | 0x12 => some (.ori nx (immOp d))
  | 0x13 => some (.xori nx (immOp d))
  | 0x14 => (shOp? d).map (.slli nx) | 0x15 => (shOp? d).map (.srli nx) | 0x16 => (shOp? d).map (.srai nx)
  | 0x17 =>
    if fld d 32 1 ≠ 0 then none
    else if bit d 33 then some (.liHi nx (r6 d 34) (BitVec.ofNat 32 (fld d 0 32)))
    else some (.li nx (r6 d 34) (BitVec.ofNat 32 (fld d 0 32)))
  | 0x18 =>
    if fld d 11 5 = 0 ∧ fld d 16 6 = 0 then
      (Cond.ofCode (fld d 8 3)).bind fun c => (regOp? d).map fun o => .cmp nx o c
    else none
  | 0x19 => (Cond.ofCode (fld d 21 3)).map fun c =>
      .cmpi nx (r6 d 34) (r6 d 28) (f3 d 25) (bit d 24) c (BitVec.ofNat 21 (fld d 0 21))
  | 0x1A => (aluOp? d).map (.min nx) | 0x1B => (aluOp? d).map (.max nx) | 0x1C => (aluOp? d).map (.minu nx)
  | 0x1D => (aluOp? d).map (.maxu nx)
  | 0x1E => if fld d 0 8 = 0 ∧ fld d 11 11 = 0 then some (.sel nx (r6 d 34) (r6 d 28) (r6 d 22) (f3 d 8)) else none
  | 0x1F => (BitsFn.ofCode (fld d 8 8)).bind fun fn => (regOp? d).map fun o => .bits nx o (r6 d 16) fn
  | _ => none

/-- OP 0x20 to 0x27: pointer words (R154). -/
def decPtr (op : Nat) (nx : Nx) (d : Nat) : Option Instr :=
  match op with
  | 0x20 => if fld d 12 4 = 0 then (ptrOp? d).map fun o => .pmk nx o (t4 d 8) else none
  | 0x21 => if fld d 8 8 = 0 then (ptrOp? d).map (.padd nx) else none
  | 0x22 => some (.paddi nx (immOp d))
  | 0x23 => if fld d 8 8 = 0 then (ptrOp? d).map (.pdiff nx) else none
  | 0x24 =>
    if fld d 22 6 = 0 then
      (ptrOp? d).bind fun o => (PField.ofCode (fld d 8 8)).map fun f => .pget nx o.sd o.sa o.fd o.fe f
    else none
  | 0x25 => (ptrOp? d).bind fun o => (PField.ofCode (fld d 8 8)).map fun f => .pset nx o f
  | 0x26 => if fld d 9 7 = 0 then (ptrOp? d).map fun o => .pchk nx o (bit d 8) else none
  | 0x27 => (ptrOp? d).bind fun o => (PCond.ofCode (fld d 8 8)).map fun c => .pcmp nx o c
  | _ => none

/-- OP 0x30 to 0x57: memory, channel, atomic and synchronising words. -/
def decMem (op : Nat) (nx : Nx) (d : Nat) : Option Instr :=
  match op with
  | 0x30 => (memOp? d).map (.ld nx) | 0x31 => (memOp? d).map (.st nx) | 0x32 => (ldsOp? d).map (.lds nx)
  | 0x33 =>
    if fld d 20 14 = 0 ∧ fld d 6 6 = 0 then
      some (.recv nx ⟨r6 d 34, r6 d 0, f3 d 12, bit d 15, f3 d 16, bit d 19⟩) else none
  | 0x34 => if fld d 34 6 = 0 ∧ fld d 13 15 = 0 ∧ fld d 6 6 = 0 then some (.send nx (r6 d 28) (bit d 12) (r6 d 0)) else none
  | 0x40 => (amoPlain? d).map (.amoAdd nx) | 0x41 => (amoPlain? d).map (.amoAnd nx) | 0x42 => (amoPlain? d).map (.amoOr nx)
  | 0x43 => (amoPlain? d).map (.amoXor nx) | 0x44 => (amoPlain? d).map (.amoMin nx) | 0x45 => (amoPlain? d).map (.amoMax nx)
  | 0x46 => (amoPlain? d).map (.amoMinu nx) | 0x47 => (amoPlain? d).map (.amoMaxu nx) | 0x48 => (amoPlain? d).map (.amoSwap nx)
  | 0x49 => (amoOp? d).map fun o => .amoCas nx o (r6 d 16) (f3 d 5) (bit d 4)
  | 0x4A => (amoPlain? d).map (.amoFadd nx)
  | 0x50 =>
    if fld d 14 26 = 0 ∧ fld d 3 9 = 0 then
      (FenceKind.ofCode (fld d 12 2)).bind fun k => (Scope.ofCode (fld d 0 3)).map fun s => .fence nx k s else none
  | 0x51 =>
    if fld d 28 6 = 0 ∧ fld d 3 20 = 0 then
      (Scope.ofCode (fld d 0 3)).map fun s => .sfence nx (r6 d 34) (BitVec.ofNat 5 (fld d 23 5)) s else none
  | 0x52 => if fld d 0 22 = 0 then some (.barInit nx (r6 d 34) (r6 d 28) (r6 d 22)) else none
  | 0x53 =>
    if fld d 0 4 = 0 ∧ fld d 8 2 = 0 ∧ fld d 13 9 = 0 then
      (Scope.ofCode (fld d 10 3)).map fun s => .barArrive nx (r6 d 34) (r6 d 28) (r6 d 22) s (f3 d 5) (bit d 4) else none
  | 0x54 =>
    if fld d 0 10 = 0 ∧ fld d 13 9 = 0 then
      (Scope.ofCode (fld d 10 3)).map fun s => .barWait nx (r6 d 34) (r6 d 28) (r6 d 22) s else none
  | 0x55 =>
    if fld d 3 9 = 0 ∧ fld d 17 5 = 0 ∧ fld d 14 1 = 0 ∧ fld d 16 1 = 1 then
      (CwCond.ofCode (fld d 12 2)).bind fun c => (Scope.ofCode (fld d 0 3)).map fun s =>
        .cwait nx (r6 d 34) (r6 d 28) (r6 d 22) (bit d 15) c s else none
  | 0x56 =>
    if fld d 34 6 = 0 ∧ fld d 18 10 = 0 ∧ fld d 3 9 = 0 then
      (Scope.ofCode (fld d 0 3)).map fun s => .signal nx (r6 d 28) (r6 d 12) s else none
  | 0x57 => if fld d 3 37 = 0 then (Scope.ofCode (fld d 0 3)).map (.drain nx) else none
  | _ => none

def s5 (d : Nat) : BitVec 5 := BitVec.ofNat 5 (fld d 23 5)

/-- OP 0x60 to 0x67: stream words (R275). -/
def decStream (op : Nat) (nx : Nx) (d : Nat) : Option Instr :=
  match op with
  | 0x60 =>
    if fld d 3 2 = 0 then
      (SKind.ofCode (fld d 0 2)).map fun k =>
        .sbind nx ⟨r6 d 34, r6 d 28, s5 d, k, bit d 22, BitVec.ofNat 5 (fld d 17 5), r6 d 11, r6 d 5, bit d 2⟩ else none
  | 0x61 => if fld d 1 22 = 0 then some (.sgather nx (r6 d 34) (r6 d 28) (s5 d) (bit d 0)) else none
  | 0x62 => if fld d 1 22 = 0 then some (.sscatter nx (r6 d 34) (r6 d 28) (s5 d) (bit d 0)) else none
  | 0x63 =>
    if fld d 28 6 = 0 ∧ fld d 5 18 = 0 then some (.sresp nx (r6 d 34) (s5 d) (f3 d 0) (bit d 3) (bit d 4)) else none
  | 0x64 => if fld d 28 6 = 0 ∧ fld d 0 23 = 0 then some (.scancel nx (r6 d 34) (s5 d)) else none
  | 0x65 =>
    if fld d 28 6 = 0 ∧ fld d 3 20 = 0 then (SItem.ofCode (fld d 0 3)).map fun i => .sstat nx (r6 d 34) (s5 d) i else none
  | 0x66 => if fld d 17 6 = 0 ∧ fld d 0 11 = 0 then some (.shape nx (r6 d 34) (r6 d 28) (s5 d) (r6 d 11)) else none
  | 0x67 => if fld d 0 23 = 0 then some (.sdepth nx (r6 d 34) (r6 d 28) (s5 d)) else none
  | _ => none

/-- OP 0x70 to 0x75: tree and configuration words (R132, R133, R164 to R166). -/
def decTree (op : Nat) (nx : Nx) (d : Nat) : Option Instr :=
  match op with
  | 0x70 =>
    if fld d 34 6 = 0 ∧ fld d 19 9 = 0 ∧ fld d 8 4 = 0 then
      if bit d 18 then (if fld d 0 8 = 0 then some (.stepKeep nx (r6 d 28) (r6 d 12)) else none)
      else some (.step nx (r6 d 28) (BitVec.ofNat 8 (fld d 0 8)) (r6 d 12))
    else none
  | 0x71 =>
    if fld d 34 6 = 0 ∧ fld d 17 11 = 0 ∧ fld d 6 6 = 0 then
      (GKind.ofCode (fld d 12 2) (fld d 14 3)).map fun k => .grpOpen nx (r6 d 28) k (r6 d 0) else none
  | 0x72 => if d = 0 then some (.grpClose nx) else none
  | 0x73 => if fld d 34 6 = 0 ∧ fld d 8 20 = 0 then some (.cfgLoad nx (r6 d 28) (BitVec.ofNat 8 (fld d 0 8))) else none
  | 0x74 => if fld d 34 6 = 0 ∧ fld d 8 20 = 0 then some (.cfgPart nx (r6 d 28) (BitVec.ofNat 8 (fld d 0 8))) else none
  | 0x75 =>
    if fld d 34 6 = 0 ∧ fld d 16 12 = 0 ∧ fld d 0 12 = 0 then some (.clear nx (r6 d 28) (t4 d 12)) else none
  | _ => none

/-- OP 0x80 to 0x85 and 0xB0 to 0xB7: matrix, perturbation, coupler and digest words. -/
def decMat (op : Nat) (nx : Nx) (d : Nat) : Option Instr :=
  match op with
  | 0x80 =>
    if fld d 15 5 ≠ 0 then none
    else if bit d 20 then
      some (.sysmodeOn nx (r6 d 34) (r6 d 28) (r6 d 22) (bit d 21) (f3 d 12) (BitVec.ofNat 12 (fld d 0 12)))
    else if fld d 0 34 = 0 then some (.sysmodeOff nx (r6 d 34)) else none
  | 0x81 =>
    if fld d 34 6 = 0 ∧ fld d 16 6 = 0 ∧ fld d 0 12 = 0 then
      (WpreMode.ofCode (fld d 12 3)).map fun m => .wpre nx (r6 d 28) (r6 d 22) (bit d 15) m else none
  | 0x82 =>
    if fld d 22 18 = 0 ∧ fld d 19 1 = 0 ∧ fld d 0 12 = 0 then
      some (.mma nx (bit d 21) (bit d 20) (BitVec.ofNat 7 (fld d 12 7))) else none
  | 0x83 =>
    if fld d 34 6 = 0 ∧ fld d 18 10 = 0 ∧ fld d 6 6 = 0 then some (.epi nx (r6 d 28) (r6 d 12) (r6 d 0)) else none
  | 0x84 => if fld d 3 25 = 0 then some (.accShape nx (r6 d 34) (r6 d 28) (f3 d 0)) else none
  | 0x85 => if fld d 13 21 = 0 ∧ fld d 3 9 = 0 then some (.accDrop nx (r6 d 34) (bit d 12) (f3 d 0)) else none
  | 0xB0 => if fld d 0 22 = 0 then some (.pseed nx (r6 d 34) (r6 d 28) (r6 d 22)) else none
  | 0xB1 =>
    if fld d 0 12 = 0 ∧ fld d 13 15 = 0 then
      if bit d 12 then (if fld d 28 6 = 0 then some (.pmembInc nx (r6 d 34)) else none)
      else some (.pmemb nx (r6 d 34) (r6 d 28))
    else none
  | 0xB2 => if fld d 0 28 = 0 then some (.ptau nx (r6 d 34) (r6 d 28)) else none
  | 0xB3 =>
    if fld d 0 12 = 0 ∧ fld d 14 14 = 0 then
      (RndKind.ofCode (fld d 12 2)).map fun k => .rnd nx (r6 d 34) (r6 d 28) k else none
  | 0xB4 =>
    if fld d 0 12 = 0 ∧ fld d 16 6 = 0 then
      (CplParam.ofCode (fld d 12 4)).map fun p => .cplSet nx (r6 d 34) (r6 d 28) (r6 d 22) p else none
  | 0xB5 =>
    if fld d 0 12 = 0 ∧ fld d 15 13 = 0 then
      (CplItem.ofCode (fld d 12 3)).map fun i => .cplGet nx (r6 d 34) (r6 d 28) i else none
  | 0xB6 => if fld d 0 12 = 0 ∧ fld d 13 21 = 0 then some (.digOn nx (r6 d 34) (bit d 12)) else none
  | 0xB7 => if fld d 0 12 = 0 ∧ fld d 13 21 = 0 then some (.digRead nx (r6 d 34) (bit d 12)) else none
  | _ => none

/-- OP 0x90 to 0x93 and 0xA0 to 0xAB: attention and token words. -/
def decTok (op : Nat) (nx : Nx) (d : Nat) : Option Instr :=
  match op with
  | 0x90 =>
    if fld d 15 7 = 0 then some (.cbk nx (r6 d 34) (r6 d 28) (r6 d 22) (f3 d 12) (BitVec.ofNat 12 (fld d 0 12))) else none
  | 0x91 =>
    if fld d 15 7 = 0 then some (.attQ nx (r6 d 34) (r6 d 28) (r6 d 22) (f3 d 12) (BitVec.ofNat 12 (fld d 0 12))) else none
  | 0x92 => if fld d 0 22 = 0 then some (.attRun nx (r6 d 34) (r6 d 28) (r6 d 22)) else none
  | 0x93 =>
    if fld d 13 9 = 0 ∧ fld d 0 12 = 0 then some (.attMerge nx (r6 d 34) (r6 d 28) (r6 d 22) (bit d 12)) else none
  | 0xA0 => if fld d 32 4 = 0 ∧ fld d 0 20 = 0 then some (.tkText nx (t4 d 36) (r6 d 26) (r6 d 20)) else none
  | 0xA1 => if fld d 32 4 = 0 ∧ fld d 4 16 = 0 then some (.tkMix nx (t4 d 36) (r6 d 26) (r6 d 20) (t4 d 0)) else none
  | 0xA2 =>
    if fld d 32 4 = 0 ∧ fld d 13 7 = 0 ∧ fld d 0 12 = 0 then some (.tkHid nx (t4 d 36) (r6 d 26) (r6 d 20) (bit d 12))
    else none
  | 0xA3 =>
    if fld d 36 4 = 0 ∧ fld d 13 7 = 0 ∧ fld d 0 12 = 0 then some (.tkEmb nx (t4 d 32) (r6 d 26) (r6 d 20) (bit d 12))
    else none
  | 0xA4 =>
    if fld d 17 3 = 0 ∧ fld d 9 3 = 0 then
      (ColMode.ofCode (fld d 12 3) (fld d 0 9)).map fun m =>
        .tkCol nx ⟨t4 d 36, t4 d 32, r6 d 26, r6 d 20, bit d 16, bit d 15, m⟩ else none
  | 0xA5 =>
    if fld d 32 8 = 0 ∧ fld d 20 6 = 0 ∧ fld d 15 5 = 0 ∧ fld d 6 6 = 0 then
      if bit d 14 then
        (if fld d 26 6 = 0 ∧ fld d 12 2 = 0 ∧ fld d 0 6 = 0 then some (.tkMaskOff nx) else none)
      else (MaskPolicy.ofCode (fld d 12 2)).map fun p => .tkMask nx (r6 d 26) p (r6 d 0)
    else none
  | 0xA6 =>
    if fld d 36 4 = 0 ∧ fld d 13 7 = 0 ∧ fld d 0 12 = 0 then
      some (if bit d 12 then .tkLogChk nx (t4 d 32) (r6 d 26) (r6 d 20) else .tkLog nx (t4 d 32) (r6 d 26) (r6 d 20))
    else none
  | 0xA7 =>
    if fld d 36 4 = 0 ∧ fld d 13 13 = 0 ∧ fld d 0 12 = 0 then some (.tkDig nx (t4 d 32) (r6 d 26) (bit d 12)) else none
  | 0xA8 => if fld d 32 8 = 0 ∧ fld d 0 20 = 0 then some (.tkMatch nx (r6 d 26) (r6 d 20)) else none
  | 0xA9 =>
    if fld d 13 13 = 0 ∧ fld d 0 12 = 0 then
      if bit d 12 then (if fld d 32 4 = 0 then some (.tkMovEmpty nx (t4 d 36) (r6 d 26)) else none)
      else (if fld d 26 6 = 0 then some (.tkMov nx (t4 d 36) (t4 d 32)) else none)
    else none
  | 0xAA => if fld d 32 4 = 0 ∧ fld d 0 26 = 0 then some (.tkLd nx (t4 d 36) (r6 d 26)) else none
  | 0xAB => if fld d 36 4 = 0 ∧ fld d 0 26 = 0 then some (.tkSt nx (t4 d 32) (r6 d 26)) else none
  | _ => none

def c12 (d : Nat) : BitVec 12 := BitVec.ofNat 12 (fld d 0 12)

/-- OP 0xC0 to 0xC6 and 0xF0 to 0xF9: tag, launch and system words. -/
def decSys (op : Nat) (nx : Nx) (d : Nat) : Option Instr :=
  match op with
  | 0xC0 =>
    if fld d 16 12 = 0 ∧ fld d 6 6 = 0 then some (.lookup nx (r6 d 34) (r6 d 28) (r6 d 0) (f3 d 12) (bit d 15)) else none
  | 0xC1 => if fld d 6 16 = 0 then some (.tagSet nx (r6 d 34) (r6 d 28) (r6 d 22) (r6 d 0)) else none
  | 0xC2 =>
    if fld d 13 15 = 0 ∧ fld d 6 6 = 0 then some (.tagInv nx (r6 d 34) (r6 d 28) (r6 d 0) (bit d 12)) else none
  | 0xC3 => if fld d 0 22 = 0 then some (.depSet nx (r6 d 34) (r6 d 28) (r6 d 22)) else none
  | 0xC4 =>
    if fld d 22 6 = 0 ∧ fld d 0 12 = 0 then some (.depDec nx (r6 d 34) (r6 d 28) (BitVec.ofNat 10 (fld d 12 10))) else none
  | 0xC5 => if fld d 3 25 = 0 then some (.depRead nx (r6 d 34) (r6 d 28) (f3 d 0)) else none
  | 0xC6 => if fld d 0 22 = 0 then some (.arm nx (r6 d 34) (r6 d 28) (r6 d 22)) else none
  | 0xF0 => if d = 0 then some (.nop nx) else none
  | 0xF1 => if fld d 12 22 = 0 then some (.csrr nx (r6 d 34) (c12 d)) else none
  | 0xF2 => if fld d 12 16 = 0 then some (.csrw nx (r6 d 34) (r6 d 28) (c12 d)) else none
  | 0xF3 => if fld d 12 16 = 0 then some (.csrs nx (r6 d 34) (r6 d 28) (c12 d)) else none
  | 0xF4 => if fld d 12 16 = 0 then some (.csrc nx (r6 d 34) (r6 d 28) (c12 d)) else none
  | 0xF5 => if fld d 34 6 = 0 ∧ fld d 12 16 = 0 then some (.trap nx (r6 d 28) (c12 d)) else none
  | 0xF6 =>
    if fld d 14 26 = 0 ∧ fld d 0 12 = 0 then (EretMode.ofCode (fld d 12 2)).map (.eret nx) else none
  | 0xF7 => if fld d 13 15 = 0 ∧ fld d 0 12 = 0 then some (.kill nx (r6 d 34) (r6 d 28) (bit d 12)) else none
  | 0xF8 =>
    if fld d 14 14 = 0 ∧ fld d 0 12 = 0 then
      (MaskMode.ofCode (fld d 12 2)).map fun m => .hmask nx (r6 d 34) (r6 d 28) m else none
  | 0xF9 => if fld d 0 28 = 0 then some (.hwake nx (r6 d 34) (r6 d 28)) else none
  | _ => none

/-- The operation that OP and OPD name, before the checks of `Instr.wf`. -/
def decOp (op : Nat) (nx : Nx) (d : Nat) : Option Instr :=
  if op < 0x20 then decInt op nx d
  else if op < 0x30 then decPtr op nx d
  else if op < 0x60 then decMem op nx d
  else if op < 0x70 then decStream op nx d
  else if op < 0x80 then decTree op nx d
  else if op < 0x90 then decMat op nx d
  else if op < 0xB0 then decTok op nx d
  else if op < 0xC0 then decMat op nx d
  else decSys op nx d

/-- Decode a control word (R80, R91, R92): an instruction, or nothing where the word is ILLEGAL. -/
def decode (w : Word) : Option Instr :=
  (decNx (fld w.toNat 60 4) (fld w.toNat 48 12)).bind fun nx =>
    (decOp (fld w.toNat 40 8) nx (fld w.toNat 0 40)).bind fun i => if i.wf then some i else none

/-! ### The encoder -/

/-- OP and OPD of a control word, with its next-address form; nothing for the steps that have no encoding. -/
def encOp : Instr → Option (Nx × Nat × Nat)
  | .add nx o => some (nx, 0x01, o.enc 0 0) | .sub nx o => some (nx, 0x02, o.enc 0 0) | .mul nx o => some (nx, 0x03, o.enc 0 0)
  | .mulh nx o => some (nx, 0x04, o.enc 0 0) | .mulhu nx o => some (nx, 0x05, o.enc 0 0) | .div nx o => some (nx, 0x06, o.enc 0 0)
  | .divu nx o => some (nx, 0x07, o.enc 0 0) | .rem nx o => some (nx, 0x08, o.enc 0 0) | .remu nx o => some (nx, 0x09, o.enc 0 0)
  | .and nx o => some (nx, 0x0A, o.enc 0 0) | .or nx o => some (nx, 0x0B, o.enc 0 0) | .xor nx o => some (nx, 0x0C, o.enc 0 0)
  | .sll nx o => some (nx, 0x0D, o.enc 0 0) | .srl nx o => some (nx, 0x0E, o.enc 0 0) | .sra nx o => some (nx, 0x0F, o.enc 0 0)
  | .min nx o => some (nx, 0x1A, o.enc 0 0) | .max nx o => some (nx, 0x1B, o.enc 0 0) | .minu nx o => some (nx, 0x1C, o.enc 0 0)
  | .maxu nx o => some (nx, 0x1D, o.enc 0 0)
  | .addi nx o => some (nx, 0x10, o.enc) | .andi nx o => some (nx, 0x11, o.enc) | .ori nx o => some (nx, 0x12, o.enc)
  | .xori nx o => some (nx, 0x13, o.enc)
  | .slli nx o => some (nx, 0x14, o.enc) | .srli nx o => some (nx, 0x15, o.enc) | .srai nx o => some (nx, 0x16, o.enc)
  | .li nx sd imm => some (nx, 0x17, sd.toNat * 2 ^ 34 + imm.toNat)
  | .liHi nx sd imm => some (nx, 0x17, sd.toNat * 2 ^ 34 + 2 ^ 33 + imm.toNat)
  | .cmp nx o c => some (nx, 0x18, o.enc 0 c.code)
  | .cmpi nx sd sa fd fe c imm => some (nx, 0x19, encI sd.toNat sa.toNat fd.toNat (b2n fe) (c.code * 2 ^ 21 + imm.toNat))
  | .sel nx sd sa sb f => some (nx, 0x1E, encR sd.toNat sa.toNat sb.toNat 0 f.toNat 0 0 0)
  | .bits nx o se fn => some (nx, 0x1F, o.enc se.toNat fn.code)
  | .pmk nx o sp => some (nx, 0x20, o.enc sp.toNat) | .padd nx o => some (nx, 0x21, o.enc 0) | .paddi nx o => some (nx, 0x22, o.enc)
  | .pdiff nx o => some (nx, 0x23, o.enc 0)
  | .pget nx sd sa fd fe f => some (nx, 0x24, encR sd.toNat sa.toNat 0 0 f.code fd.toNat (b2n fe) 0)
  | .pset nx o f => some (nx, 0x25, o.enc f.code) | .pchk nx o wr => some (nx, 0x26, o.enc (b2n wr))
  | .pcmp nx o c => some (nx, 0x27, o.enc c.code)
  | .ld nx o => some (nx, 0x30, o.enc) | .st nx o => some (nx, 0x31, o.enc) | .lds nx o => some (nx, 0x32, o.enc)
  | .recv nx o => some (nx, 0x33,
      encX o.sd.toNat 0 0 (b2n o.fe * 2 ^ 7 + o.fd.toNat * 2 ^ 4 + b2n o.peek * 2 ^ 3 + o.part.toNat) o.ch.toNat)
  | .send nx sa empty ch => some (nx, 0x34, encX 0 sa.toNat 0 (b2n empty) ch.toNat)
  | .amoAdd nx o => some (nx, 0x40, o.enc 0 0 0) | .amoAnd nx o => some (nx, 0x41, o.enc 0 0 0) | .amoOr nx o => some (nx, 0x42, o.enc 0 0 0)
  | .amoXor nx o => some (nx, 0x43, o.enc 0 0 0) | .amoMin nx o => some (nx, 0x44, o.enc 0 0 0) | .amoMax nx o => some (nx, 0x45, o.enc 0 0 0)
  | .amoMinu nx o => some (nx, 0x46, o.enc 0 0 0) | .amoMaxu nx o => some (nx, 0x47, o.enc 0 0 0) | .amoSwap nx o => some (nx, 0x48, o.enc 0 0 0)
  | .amoCas nx o se fd fe => some (nx, 0x49, o.enc se.toNat fd.toNat (b2n fe)) | .amoFadd nx o => some (nx, 0x4A, o.enc 0 0 0)
  | .fence nx k s => some (nx, 0x50, encX 0 0 0 k.code s.code)
  | .sfence nx sd sid s => some (nx, 0x51, encS sd.toNat 0 sid.toNat 0 0 0 0 s.code)
  | .barInit nx sd sa sb => some (nx, 0x52, encR sd.toNat sa.toNat sb.toNat 0 0 0 0 0)
  | .barArrive nx sd sa sb s fd fe => some (nx, 0x53, encR sd.toNat sa.toNat sb.toNat 0 (s.code * 2 ^ 2) fd.toNat (b2n fe) 0)
  | .barWait nx sd sa sb s => some (nx, 0x54, encR sd.toNat sa.toNat sb.toNat 0 (s.code * 2 ^ 2) 0 0 0)
  | .cwait nx sd sa sb dbl c s =>
      some (nx, 0x55, encX sd.toNat sa.toNat sb.toNat ((2 + b2n dbl) * 2 ^ 3 + c.code) s.code)
  | .signal nx sa ch s => some (nx, 0x56, encX 0 sa.toNat 0 ch.toNat s.code)
  | .drain nx s => some (nx, 0x57, encX 0 0 0 0 s.code)
  | .sbind nx o => some (nx, 0x60,
      encS o.sd.toNat o.sa.toNat o.sid.toNat (b2n o.out) o.port.toNat o.shp.toNat o.fmt.toNat (b2n o.tok * 2 ^ 2 + o.kind.code))
  | .sgather nx sd sa sid tok => some (nx, 0x61, encS sd.toNat sa.toNat sid.toNat 0 0 0 0 (b2n tok))
  | .sscatter nx sd sa sid tok => some (nx, 0x62, encS sd.toNat sa.toNat sid.toNat 0 0 0 0 (b2n tok))
  | .sresp nx sd sid part peek test =>
      some (nx, 0x63, encS sd.toNat 0 sid.toNat 0 0 0 0 (b2n test * 2 ^ 4 + b2n peek * 2 ^ 3 + part.toNat))
  | .scancel nx sd sid => some (nx, 0x64, encS sd.toNat 0 sid.toNat 0 0 0 0 0)
  | .sstat nx sd sid i => some (nx, 0x65, encS sd.toNat 0 sid.toNat 0 0 0 0 i.code)
  | .shape nx sd sa sid shp => some (nx, 0x66, encS sd.toNat sa.toNat sid.toNat 0 0 shp.toNat 0 0)
  | .sdepth nx sd sa sid => some (nx, 0x67, encS sd.toNat sa.toNat sid.toNat 0 0 0 0 0)
  | .step nx sa c shp => some (nx, 0x70, encX 0 sa.toNat 0 shp.toNat c.toNat)
  | .stepKeep nx sa shp => some (nx, 0x70, encX 0 sa.toNat 0 (2 ^ 6 + shp.toNat) 0)
  | .grpOpen nx sa k shp => some (nx, 0x71, encX 0 sa.toNat 0 k.code shp.toNat)
  | .grpClose nx => some (nx, 0x72, 0)
  | .cfgLoad nx sa c => some (nx, 0x73, encX 0 sa.toNat 0 0 c.toNat)
  | .cfgPart nx sa c => some (nx, 0x74, encX 0 sa.toNat 0 0 c.toNat)
  | .clear nx sa c => some (nx, 0x75, encX 0 sa.toNat 0 c.toNat 0)
  | .sysmodeOn nx sd sa sb auto nt1 kpl =>
      some (nx, 0x80, encX sd.toNat sa.toNat sb.toNat (b2n auto * 2 ^ 9 + 2 ^ 8 + nt1.toNat) kpl.toNat)
  | .sysmodeOff nx sd => some (nx, 0x80, encX sd.toNat 0 0 0 0)
  | .wpre nx sa sb keep m => some (nx, 0x81, encX 0 sa.toNat sb.toNat (b2n keep * 2 ^ 3 + m.code) 0)
  | .mma nx last keepa k1 => some (nx, 0x82, encX 0 0 0 (b2n last * 2 ^ 9 + b2n keepa * 2 ^ 8 + k1.toNat) 0)
  | .epi nx sa e1 m => some (nx, 0x83, encX 0 sa.toNat 0 e1.toNat m.toNat)
  | .accShape nx sd sa slot => some (nx, 0x84, encX sd.toNat sa.toNat 0 0 slot.toNat)
  | .accDrop nx sd all slot => some (nx, 0x85, encX sd.toNat 0 0 (b2n all) slot.toNat)
  | .pseed nx sd sa sb => some (nx, 0xB0, encX sd.toNat sa.toNat sb.toNat 0 0)
  | .pmemb nx sd sa => some (nx, 0xB1, encX sd.toNat sa.toNat 0 0 0)
  | .pmembInc nx sd => some (nx, 0xB1, encX sd.toNat 0 0 1 0)
  | .ptau nx sd sa => some (nx, 0xB2, encX sd.toNat sa.toNat 0 0 0)
  | .rnd nx sd sa k => some (nx, 0xB3, encX sd.toNat sa.toNat 0 k.code 0)
  | .cplSet nx sd sa sb p => some (nx, 0xB4, encX sd.toNat sa.toNat sb.toNat p.code 0)
  | .cplGet nx sd sa i => some (nx, 0xB5, encX sd.toNat sa.toNat 0 i.code 0)
  | .digOn nx sd rst => some (nx, 0xB6, encX sd.toNat 0 0 (b2n rst) 0)
  | .digRead nx sd hi => some (nx, 0xB7, encX sd.toNat 0 0 (b2n hi) 0)
  | .cbk nx sd sa sb lg mask => some (nx, 0x90, encX sd.toNat sa.toNat sb.toNat lg.toNat mask.toNat)
  | .attQ nx sd sa sb lg mask => some (nx, 0x91, encX sd.toNat sa.toNat sb.toNat lg.toNat mask.toNat)
  | .attRun nx sd sa sb => some (nx, 0x92, encX sd.toNat sa.toNat sb.toNat 0 0)
  | .attMerge nx sd sa sb bf => some (nx, 0x93, encX sd.toNat sa.toNat sb.toNat (b2n bf) 0)
  | .tkText nx td sa sb => some (nx, 0xA0, encT td.toNat 0 sa.toNat sb.toNat 0 0)
  | .tkMix nx td sa sb n => some (nx, 0xA1, encT td.toNat 0 sa.toNat sb.toNat 0 n.toNat)
  | .tkHid nx td sa sb f => some (nx, 0xA2, encT td.toNat 0 sa.toNat sb.toNat (b2n f) 0)
  | .tkEmb nx ta sa sb p => some (nx, 0xA3, encT 0 ta.toNat sa.toNat sb.toNat (b2n p) 0)
  | .tkCol nx o => some (nx, 0xA4, encT o.td.toNat o.ta.toNat o.sa.toNat o.sb.toNat
      (b2n o.msk * 2 ^ 4 + b2n o.gate * 2 ^ 3 + o.mode.code.1) o.mode.code.2)
  | .tkMask nx sa p ch => some (nx, 0xA5, encT 0 0 sa.toNat 0 p.code ch.toNat)
  | .tkMaskOff nx => some (nx, 0xA5, encT 0 0 0 0 4 0)
  | .tkLog nx ta sa sb => some (nx, 0xA6, encT 0 ta.toNat sa.toNat sb.toNat 0 0)
  | .tkLogChk nx ta sa sb => some (nx, 0xA6, encT 0 ta.toNat sa.toNat sb.toNat 1 0)
  | .tkDig nx ta sa chain => some (nx, 0xA7, encT 0 ta.toNat sa.toNat 0 (b2n chain) 0)
  | .tkMatch nx sa sb => some (nx, 0xA8, encT 0 0 sa.toNat sb.toNat 0 0)
  | .tkMov nx td ta => some (nx, 0xA9, encT td.toNat ta.toNat 0 0 0 0)
  | .tkMovEmpty nx td sa => some (nx, 0xA9, encT td.toNat 0 sa.toNat 0 1 0)
  | .tkLd nx td sa => some (nx, 0xAA, encT td.toNat 0 sa.toNat 0 0 0)
  | .tkSt nx ta sa => some (nx, 0xAB, encT 0 ta.toNat sa.toNat 0 0 0)
  | .lookup nx sd sa ci fd fe => some (nx, 0xC0, encX sd.toNat sa.toNat 0 (b2n fe * 2 ^ 3 + fd.toNat) ci.toNat)
  | .tagSet nx sd sa sb ci => some (nx, 0xC1, encX sd.toNat sa.toNat sb.toNat 0 ci.toNat)
  | .tagInv nx sd sa ci all => some (nx, 0xC2, encX sd.toNat sa.toNat 0 (b2n all) ci.toNat)
  | .depSet nx sd sa sb => some (nx, 0xC3, encX sd.toNat sa.toNat sb.toNat 0 0)
  | .depDec nx sd sa n => some (nx, 0xC4, encX sd.toNat sa.toNat 0 n.toNat 0)
  | .depRead nx sd sa w => some (nx, 0xC5, encX sd.toNat sa.toNat 0 0 w.toNat)
  | .arm nx sd sa sb => some (nx, 0xC6, encX sd.toNat sa.toNat sb.toNat 0 0)
  | .nop nx => some (nx, 0xF0, 0)
  | .csrr nx sd c => some (nx, 0xF1, encX sd.toNat 0 0 0 c.toNat)
  | .csrw nx sd sa c => some (nx, 0xF2, encX sd.toNat sa.toNat 0 0 c.toNat)
  | .csrs nx sd sa c => some (nx, 0xF3, encX sd.toNat sa.toNat 0 0 c.toNat)
  | .csrc nx sd sa c => some (nx, 0xF4, encX sd.toNat sa.toNat 0 0 c.toNat)
  | .trap nx sa c => some (nx, 0xF5, encX 0 sa.toNat 0 0 c.toNat)
  | .eret nx m => some (nx, 0xF6, encX 0 0 0 m.code 0)
  | .kill nx sd sa w => some (nx, 0xF7, encX sd.toNat sa.toNat 0 (b2n w) 0)
  | .hmask nx sd sa m => some (nx, 0xF8, encX sd.toNat sa.toNat 0 m.code 0)
  | .hwake nx sd sa => some (nx, 0xF9, encX sd.toNat sa.toNat 0 0 0)
  | _ => none

/-- The control word of an instruction: NX, NT, OP and OPD in their places (R80). -/
def encode (i : Instr) : Option Word :=
  (encOp i).map fun (nx, op, d) => BitVec.ofNat 64 (encNx nx * 2 ^ 48 + op * 2 ^ 40 + d)

/-- The next-address form of a control word. -/
def Instr.nx? (i : Instr) : Option Nx := (encOp i).map (·.1)

/-- What the decoder reads from an instruction whose bits are `w`, as spec/opcode_table.json numbers them. A control
word is one 64-bit word, so the bits above `nbits` are zero and the word is `w` itself. -/
def decodeTableWord (nbits w : Nat) : Option Instr := decode (BitVec.ofNat 64 (w % 2 ^ nbits))

end Sys2Proof
end

