-- ==== Sys2Proof/Config.lean ====
section
/-!
DEFINITION. Config.lean: the free values. Each stands where the spec leaves a value open; none has a body, so that
nothing can be proved of the value itself. The first argument is the state's counter `free`, which every use advances.
-/
namespace Sys2Proof.Config

/-- The start state of an issue selector when DET = 0: "an unspecified nonzero state" (R125). The use of it replaces
zero by 1, so that only nonzero states occur. -/
opaque selectorSeed : Nat → BitVec 32

/-- Which line a full program buffer replaces (R140 names none). -/
opaque bufferVictim : Nat → Nat

/-- Whether a write that may or may not have been applied was: an expired POD write (R377), a dispatched write of a
killed launch (R416). One draw for each byte. -/
opaque appliedOrNot : Nat → Bool

/-- Whether a later fault of a job takes the place of the one found before it: R266 names none of several. -/
opaque laterFault : Nat → Bool

/-- The SHAKE256 measurement of a firmware image (R434): the hash is named and not defined by the spec. -/
opaque measure : Nat → BitVec 512

/-- The Ed448 signature of an attestation report (R435): 114 bytes over bytes 0 to 189, under a key that never leaves
the root. -/
opaque sign : BitVec 1520 → BitVec 912

/-- Bytes 184 to 189 of a report: the node id and the strict-mode bit of each tenant, in a packing that R435 does not
give. -/
opaque reportCfg : BitVec 10 → BitVec 16 → BitVec 48

/-- A stored byte that the spec does not define: of the record of a page left out (R330), of the parts of a save area whose
layout R414 does not give. -/
opaque openByte : Nat → BitVec 8

end Sys2Proof.Config
end

