-- ==== Sys2Proof/Machine/Num.lean ====
section
/-!
DEFINITION. Machine/Num.lean: the numbers work is described in (01_numbers.md): exact values, decoding of every format
code, rounding and conversion, correctly rounded functions, LH128 (R295).
-/
namespace Sys2Proof.Machine

/-- An exact value: NaN, an infinity, or (−1)^neg × m × 2^e. A result that is not dyadic is held with so many bits that
its lowest bit can stand for all below it. -/
inductive XV where
  | nan
  | inf (neg : Bool)
  | fin (neg : Bool) (m : Nat) (e : Int)
  deriving DecidableEq, Repr, Inhabited

/-- +0. -/
def XV.zero : XV := .fin false 0 0
/-- 1.0. -/
def XV.one : XV := .fin false 1 0

/-- Rounding codes (R30). -/
inductive Rm where
  | rne | rtz | rup | rdn | sr
  deriving DecidableEq, Repr, Inhabited

/-- The rounding code `n`, none where reserved (R30). -/
def Rm.of (n : Nat) : Option Rm :=
  match n with
  | 0 => some .rne | 1 => some .rtz | 2 => some .rup | 3 => some .rdn | 4 => some .sr | _ => none

/-- What a format code encodes (R12). -/
inductive FClass where
  /-- P3109 binary8 of precision p (R15, R16). -/
  | p3109 (p : Nat) (uns ext : Bool)
  /-- OCP element: exponent bits, trailing bits, bias (R17). -/
  | ocp (eb t : Nat) (bias : Int)
  /-- IEEE: exponent bits, trailing bits (R22). -/
  | ieee (eb t : Nat)
  /-- Integer of a width, signed or not (R21). -/
  | int (w : Nat) (sg : Bool)
  /-- ue8m0 (R18). -/
  | scale
  /-- Weight pair of a width (R25, R27). -/
  | pair (w : Nat)
  deriving DecidableEq, Repr, Inhabited

/-- The format code table (R12); none where reserved (R13). -/
def fmtClass (c : Nat) : Option FClass :=
  if c < 0x1C then some (.p3109 (c / 4 + 1) (c / 2 % 2 == 1) (c % 2 == 1)) else
  match c with
  | 0x1C => some (.ocp 2 1 1) | 0x1D => some (.ocp 2 3 1) | 0x1E => some (.ocp 3 2 3)
  | 0x1F => some (.int 4 true) | 0x20 => some (.int 8 true) | 0x21 => some (.int 8 false)
  | 0x22 => some (.ieee 8 7) | 0x23 => some (.ieee 5 10) | 0x24 => some (.ieee 8 23)
  | 0x25 => some (.int 32 true) | 0x26 => some (.int 64 true)
  | 0x28 => some .scale | 0x29 => some (.pair 16) | 0x2A => some (.pair 8)
  | _ => none

/-- Width in bits of a format (R12). -/
def FClass.width : FClass → Nat
  | .p3109 .. => 8
  | .ocp eb t _ => eb + t + 1
  | .ieee eb t => eb + t + 1
  | .int w _ => w
  | .scale => 8
  | .pair w => w

/-- Width of a format code, 0 where reserved. -/
def fmtWidth (c : Nat) : Nat := ((fmtClass c).map FClass.width).getD 0

/-- Codes used below. -/
def fBf16 : Nat := 0x22
def fFp16 : Nat := 0x23
def fFp32 : Nat := 0x24
def fInt32 : Nat := 0x25
def fInt64 : Nat := 0x26
def fUint8 : Nat := 0x21

def isIeee (c : Nat) : Bool := c == 0x22 || c == 0x23 || c == 0x24
def isP3109 (c : Nat) : Bool := c < 0x1C
def isOcp (c : Nat) : Bool := c == 0x1C || c == 0x1D || c == 0x1E
def isInt (c : Nat) : Bool := c == 0x1F || c == 0x20 || c == 0x21 || c == 0x25 || c == 0x26
def isPair (c : Nat) : Bool := c == 0x29 || c == 0x2A
/-- Any format of R12 except the weight pairs. -/
def isPlainFmt (c : Nat) : Bool := (fmtClass c).isSome && !isPair c
/-- The 36 matrix operand formats (R14). -/
def isMatrixFmt (c : Nat) : Bool := isP3109 c || isOcp c || c == 0x1F || c == 0x20 || isIeee c

/-! ## Exact arithmetic -/

/-- Exact value of an integer. -/
def XV.ofInt (i : Int) : XV := .fin (decide (i < 0)) i.natAbs 0

/-- m × 2^e as an integer numerator over 2^(−lo). -/
def scaledTo (neg : Bool) (m : Nat) (e lo : Int) : Int :=
  let v : Int := (m <<< (e - lo).toNat : Nat)
  if neg then -v else v

/-- Exact sum; `rdn` decides the sign of an exact zero (R207). -/
def XV.add (rdn : Bool) : XV → XV → XV
  | .nan, _ => .nan
  | _, .nan => .nan
  | .inf a, .inf b => if a == b then .inf a else .nan
  | .inf a, _ => .inf a
  | _, .inf b => .inf b
  | .fin n1 m1 e1, .fin n2 m2 e2 =>
    if m1 = 0 ∧ m2 = 0 then .fin (if n1 == n2 then n1 else rdn) 0 0
    else if m1 = 0 then .fin n2 m2 e2
    else if m2 = 0 then .fin n1 m1 e1
    else
      let lo := min e1 e2
      let s := scaledTo n1 m1 e1 lo + scaledTo n2 m2 e2 lo
      if s = 0 then .fin rdn 0 0 else .fin (decide (s < 0)) s.natAbs lo

/-- Negation. -/
def XV.neg : XV → XV
  | .nan => .nan
  | .inf a => .inf (!a)
  | .fin n m e => .fin (!n) m e

/-- Magnitude. -/
def XV.abs : XV → XV
  | .nan => .nan
  | .inf _ => .inf false
  | .fin _ m e => .fin false m e

/-- Exact product. -/
def XV.mul : XV → XV → XV
  | .nan, _ => .nan
  | _, .nan => .nan
  | .inf a, .inf b => .inf (a != b)
  | .inf a, .fin n m _ => if m = 0 then .nan else .inf (a != n)
  | .fin n m _, .inf b => if m = 0 then .nan else .inf (n != b)
  | .fin n1 m1 e1, .fin n2 m2 e2 => .fin (n1 != n2) (m1 * m2) (e1 + e2)

/-- Product with 2^k. -/
def XV.scale (x : XV) (k : Int) : XV :=
  match x with
  | .fin n m e => .fin n m (e + k)
  | y => y

/-- Quotient, with the lowest bit standing for a remainder. -/
def XV.div : XV → XV → XV
  | .nan, _ => .nan
  | _, .nan => .nan
  | .inf _, .inf _ => .nan
  | .inf a, .fin n _ _ => .inf (a != n)
  | .fin n _ _, .inf b => .fin (n != b) 0 0
  | .fin n1 m1 e1, .fin n2 m2 e2 =>
    if m2 = 0 then (if m1 = 0 then .nan else .inf (n1 != n2))
    else if m1 = 0 then .fin (n1 != n2) 0 0
    else
      let s := 160 + Nat.log2 m2
      let q := (m1 <<< s) / m2
      let r := (m1 <<< s) % m2
      .fin (n1 != n2) (2 * q + (if r = 0 then 0 else 1)) (e1 - e2 - s - 1)

/-- Integer square root of `n`, from bit `k` down. -/
def isqrtFrom (n : Nat) : Nat → Nat → Nat
  | 0, r => if (r + 1) * (r + 1) ≤ n then r + 1 else r
  | k + 1, r =>
    let c := r + 2 ^ (k + 1)
    isqrtFrom n k (if c * c ≤ n then c else r)

/-- Square root of R207. -/
def XV.sqrt : XV → XV
  | .nan => .nan
  | .inf n => if n then .nan else .inf false
  | .fin n m e =>
    if m = 0 then .fin n 0 0
    else if n then .nan
    else
      let odd := (e % 2).toNat
      let s := 300 + odd
      let v := m <<< s
      let r := isqrtFrom v (Nat.log2 v / 2 + 1) 0
      .fin false (2 * r + (if r * r = v then 0 else 1)) ((e - s) / 2 - 1)

/-- Is the value zero. -/
def XV.isZero : XV → Bool
  | .fin _ m _ => m == 0
  | _ => false
def XV.isNan : XV → Bool
  | .nan => true
  | _ => false
def XV.isInf : XV → Bool
  | .inf _ => true
  | _ => false
def XV.isFin : XV → Bool
  | .fin .. => true
  | _ => false
/-- Sign, of zero too. -/
def XV.sign : XV → Bool
  | .nan => false
  | .inf n => n
  | .fin n _ _ => n

/-- a < b for values that are not NaN; +0 and −0 are equal. -/
def XV.lt : XV → XV → Bool
  | .nan, _ => false
  | _, .nan => false
  | .inf a, .inf b => a && !b
  | .inf a, .fin .. => a
  | .fin .., .inf b => !b
  | .fin n1 m1 e1, .fin n2 m2 e2 =>
    let lo := min e1 e2
    decide (scaledTo n1 m1 e1 lo < scaledTo n2 m2 e2 lo)

/-- a = b as numbers; false with a NaN. -/
def XV.eq (a b : XV) : Bool := !a.isNan && !b.isNan && !a.lt b && !b.lt a

/-- FLOOR(LOG2 |x|) of a finite nonzero value. -/
def XV.log2f : XV → Int
  | .fin _ m e => Nat.log2 m + e
  | _ => 0

/-- vmin and vmax order −0 below +0 (R207). -/
def XV.ltz (a b : XV) : Bool := a.lt b || (a.isZero && b.isZero && a.sign && !b.sign)

def XV.vmin (a b : XV) : XV := if a.isNan || b.isNan then .nan else if b.ltz a then b else a
def XV.vmax (a b : XV) : XV := if a.isNan || b.isNan then .nan else if a.ltz b then b else a

/-! ## 2^x and log2 x, to more than 300 bits (R208) -/

/-- ln 2 × 2^320, rounded down. -/
def ln2c : Nat := 0xb17217f7d1cf79abc9e3b39803f2f6af40f343267298b62d8a0d175b8baafa2be7b876206debac98
/-- log2 e × 2^320, rounded down. -/
def log2e : Nat := 0x171547652b82fe1777d0ffda0d23a7d11d6aef551bad2b4b1164a2cd9a342648fbc3887eeaa2ed9ac

/-- Sum of y^n / n! in units of 2^−320, from the term `t` at index `n`. -/
def expSum (y : Nat) : Nat → Nat → Nat → Nat → Nat
  | 0, _, _, acc => acc
  | k + 1, n, t, acc =>
    let t' := t * y / 2 ^ 320 / n
    expSum y k (n + 1) t' (acc + t')

/-- 2^x. -/
def XV.exp2 : XV → XV
  | .nan => .nan
  | .inf n => if n then .zero else .inf false
  | .fin n m e =>
    if m = 0 then .one
    else
      let big := decide ((Nat.log2 m : Int) + e ≥ 10)
      if big then (if n then .fin false 1 (-4000) else .fin false 1 4000)
      else
        let v := scaledTo n m e (min e 0)
        let d : Int := (2 ^ (-(min e 0)).toNat : Nat)
        let i := v / d
        let f := v % d
        if f = 0 then .fin false 1 i
        else
          let ff := (f.toNat <<< 320) / d.toNat
          let y := ff * ln2c / 2 ^ 320
          let r := expSum y 90 1 (2 ^ 320) (2 ^ 320)
          .fin false (2 * r + 1) (i - 321)

/-- Sum of t^(2k+1)/(2k+1) in units of 2^−320. -/
def atanhSum (t2 : Nat) : Nat → Nat → Nat → Nat → Nat
  | 0, _, _, acc => acc
  | k + 1, n, p, acc =>
    let p' := p * t2 / 2 ^ 320
    atanhSum t2 k (n + 2) p' (acc + p' / n)

/-- log2 x. -/
def XV.log2 : XV → XV
  | .nan => .nan
  | .inf n => if n then .nan else .inf false
  | .fin n m e =>
    if m = 0 then .inf true
    else if n then .nan
    else
      let l := Nat.log2 m
      let E : Int := l + e
      if m = 2 ^ l then .ofInt E
      else
        let z := (m <<< 320) / 2 ^ l
        let t := ((z - 2 ^ 320) <<< 320) / (z + 2 ^ 320)
        let s := atanhSum (t * t / 2 ^ 320) 110 3 t t
        let lg : Nat := 2 * s * log2e / 2 ^ 320
        let v : Int := E * (2 ^ 320 : Nat) + lg
        .fin (decide (v < 0)) (2 * v.natAbs + 1) (-321)

/-! ## Rounding -/

/-- Bias and trailing bits of a floating format: (T, exponent of the least normal). -/
def FClass.grid : FClass → Nat × Int
  | .p3109 p uns _ => (p - 1, 1 - (2 ^ ((if uns then 9 - p else 8 - p) - 1) : Nat))
  | .ocp _ t b => (t, 1 - b)
  | .ieee eb t => (t, 2 - (2 ^ (eb - 1) : Nat))
  | _ => (0, 0)

/-- Magnitude code of the largest finite value. -/
def FClass.maxCode : FClass → Nat
  | .p3109 _ uns ext => match uns, ext with
    | false, true => 0x7E | false, false => 0x7F | true, true => 0xFD | true, false => 0xFE
  | .ocp eb t _ => 2 ^ (eb + t) - 1
  | .ieee eb t => (2 ^ eb - 1) * 2 ^ t - 1
  | .int w sg => 2 ^ (if sg then w - 1 else w) - 1
  | .scale => 0xFE
  | .pair _ => 0

/-- Value of a magnitude code of a floating format. -/
def magValue (f : FClass) (neg : Bool) (c : Nat) : XV :=
  let (t, emin) := f.grid
  let E := c / 2 ^ t
  let M := c % 2 ^ t
  if E = 0 then .fin neg M (emin - t) else .fin neg (2 ^ t + M) (emin + (E - 1 : Nat) - t)

/-- DEC: the exact value of a code (R15 to R23). -/
def decodeF (f : FClass) (c : Nat) : XV :=
  match f with
  | .p3109 _ false ext =>
    let c := c % 256
    if c = 0x80 then .nan
    else if ext ∧ c = 0x7F then .inf false
    else if ext ∧ c = 0xFF then .inf true
    else magValue f (128 ≤ c) (c % 128)
  | .p3109 _ true ext =>
    let c := c % 256
    if c = 0xFF then .nan
    else if ext ∧ c = 0xFE then .inf false
    else magValue f false c
  | .ocp eb t _ => magValue f (c / 2 ^ (eb + t) % 2 == 1) (c % 2 ^ (eb + t))
  | .ieee eb t =>
    let mag := c % 2 ^ (eb + t)
    let neg := c / 2 ^ (eb + t) % 2 == 1
    let top := (2 ^ eb - 1) * 2 ^ t
    if mag = top then .inf neg else if mag > top then .nan else magValue f neg mag
  | .int w sg => if sg then .ofInt (sextInt w c) else .fin false (c % 2 ^ w) 0
  | .scale => if c % 256 = 255 then .nan else .fin false 1 ((c % 256 : Nat) - 127)
  | .pair _ => .nan

/-- DEC by format code. -/
def dec (fmt c : Nat) : XV :=
  match fmtClass fmt with
  | some f => decodeF f c
  | none => .nan

/-- One rounding step: of lo (even or odd) with remainder r of 2^k, is the upper candidate taken. -/
def roundUp (rm : Rm) (v : Nat) (neg odd : Bool) (r k : Nat) : Bool :=
  if r = 0 then false else
  match rm with
  | .rne => let half := 2 ^ k / 2
            if 2 * r = 2 ^ k then odd else decide (r > half)
  | .rtz => false
  | .rup => !neg
  | .rdn => neg
  | .sr => decide (v < r * 2 ^ 32 / 2 ^ k)

/-- The magnitude code nearest to m × 2^e (m > 0) on a floating grid, exponent unbounded above (R31, R32). -/
def roundMag (t : Nat) (emin : Int) (rm : Rm) (v : Nat) (neg : Bool) (m : Nat) (e : Int) : Nat :=
  let qmin := emin - t
  let qe := max ((Nat.log2 m : Int) + e - t) qmin
  let base := (qe - qmin).toNat * 2 ^ t
  if qe ≤ e then base + (m <<< (e - qe).toNat)
  else
    let k := (qe - e).toNat
    let c := base + m / 2 ^ k
    if roundUp rm v neg (c % 2 == 1) (m % 2 ^ k) k then c + 1 else c

/-- Does an overflow under `rm` deliver an infinity (R31). -/
def ovInf (rm : Rm) (neg : Bool) : Bool :=
  match rm with
  | .rne => true | .rtz => false | .rup => !neg | .rdn => neg | .sr => true

/-- CONV: the code of a value in a format, under a rounding mode, the draw `v` of R33 and SAT (R31 to R37). -/
def encodeF (f : FClass) (rm : Rm) (sat : Bool) (v : Nat) (x : XV) : Nat :=
  match f with
  | .p3109 _ false ext =>
    match x with
    | .nan => 0x80
    | .inf n => if n then 0xFF else 0x7F
    | .fin n m e =>
      if m = 0 then 0 else
      let c := roundMag f.grid.1 f.grid.2 rm v n m e
      let c := if c ≤ f.maxCode then c
               else if ext && !sat && ovInf rm n then 0x7F else f.maxCode
      if c = 0 then 0 else if n then 128 + c else c
  | .p3109 _ true ext =>
    match x with
    | .nan => 0xFF
    | .inf n => if n then (if ext then 0xFF else 0) else 0xFE
    | .fin n m e =>
      if m = 0 then 0 else
      let c := roundMag f.grid.1 f.grid.2 rm v n m e
      if c = 0 then 0
      else if n then (if ext && !sat then 0xFF else 0)
      else if c ≤ f.maxCode then c
      else if ext && !sat && ovInf rm false then 0xFE else f.maxCode
  | .ocp eb t _ =>
    let s := 2 ^ (eb + t)
    match x with
    | .nan => 0
    | .inf n => f.maxCode + (if n then s else 0)
    | .fin n m e =>
      let c := if m = 0 then 0 else roundMag f.grid.1 f.grid.2 rm v n m e
      min c f.maxCode + (if n then s else 0)
  | .ieee eb t =>
    let s := 2 ^ (eb + t)
    let inf := (2 ^ eb - 1) * 2 ^ t
    match x with
    | .nan => inf + 2 ^ (t - 1)
    | .inf n => inf + (if n then s else 0)
    | .fin n m e =>
      let c := if m = 0 then 0 else roundMag f.grid.1 f.grid.2 rm v n m e
      let c := if c ≤ f.maxCode then c else if !sat && ovInf rm n then inf else f.maxCode
      c + (if n then s else 0)
  | .int w sg =>
    let hi : Int := f.maxCode
    let lo : Int := if sg then -(2 ^ (w - 1) : Nat) else 0
    let clamp (i : Int) : Nat := (max lo (min hi i) % (2 ^ w : Nat)).toNat
    match x with
    | .nan => 0
    | .inf n => clamp (if n then lo else hi)
    | .fin n m e =>
      if 0 ≤ e then clamp (scaledTo n m (min e 70) 0)
      else
        let k := (-e).toNat
        let q := m / 2 ^ k
        let q := if roundUp rm v n (q % 2 == 1) (m % 2 ^ k) k then q + 1 else q
        clamp (if n then -(q : Int) else q)
  | .scale =>
    match x with
    | .nan => 0xFF
    | .inf _ => 0xFF
    | .fin _ m e => if m = 0 then 0 else (max 0 (min 254 ((Nat.log2 m : Int) + e + 127))).toNat
  | .pair _ => 0

/-- CONV by format code. -/
def enc (fmt : Nat) (rm : Rm) (sat : Bool) (v : Nat) (x : XV) : Nat :=
  match fmtClass fmt with
  | some f => encodeF f rm sat v x
  | none => 0

/-- RNE to a format. -/
def rne (fmt : Nat) (x : XV) : Nat := enc fmt .rne false 0 x
/-- RNE to fp32, as a value. -/
def r32 (x : XV) : XV := dec fFp32 (rne fFp32 x)
/-- Value of an fp32 pattern. -/
def d32 (c : Nat) : XV := dec fFp32 c

/-- An integer wrapped to the code of an integer format. -/
def wrapInt (w : Nat) (i : Int) : Nat := (i % (2 ^ w : Nat)).toNat

/-- An integer clamped to the range of an integer format, as its code (R21, R39). -/
def clampInt (w : Nat) (sg : Bool) (i : Int) : Nat := encodeF (.int w sg) .rne true 0 (.ofInt i)

/-- The integer a code of an integer format denotes. -/
def intOf (fmt c : Nat) : Int :=
  match fmtClass fmt with
  | some (.int w true) => sextInt w c
  | some (.int w false) => ((c % 2 ^ w : Nat) : Int)
  | _ => 0

/-- vrcpe and vrsqe: RNE to 8 significant bits, delivered as fp32 (R209). -/
def est8 (x : XV) : Nat := rne fBf16 x * 65536

/-! ## Tree sums (R43) -/

/-- One level of the pairwise tree. -/
def pairUp {α : Type} (f : α → α → α) : List α → List α
  | a :: b :: l => f a b :: pairUp f l
  | l => l

/-- The tree of R43, levels by fuel. -/
def treeFold {α : Type} (f : α → α → α) : Nat → List α → Option α
  | _, [] => none
  | _, [a] => some a
  | 0, a :: _ => some a
  | n + 1, l => treeFold f n (pairUp f l)

/-- Tree sum in a format, each addition rounded once under RNE; +0 of nothing. -/
def treeSum (fmt : Nat) (l : List XV) : XV :=
  (treeFold (fun a b => dec fmt (rne fmt (a.add false b))) 64 l).getD .zero

/-- Exact sum of R41: NaN with a NaN or infinities of both signs, an infinity with one sign, +0 for exact zero. -/
def exactSum (l : List XV) : XV :=
  match l.foldl (XV.add false) .zero with
  | .fin n m e => if m = 0 then .zero else .fin n m e
  | y => y

/-! ## LH128 (R295) -/

abbrev Q4 := W32 × W32 × W32 × W32

/-- One round. -/
def lhRound (k : Q4) (i : Nat) (x : Q4) : Q4 :=
  let (x0, x1, x2, x3) := x
  let x0 := x0 + x1; let x3 := (x3 ^^^ x0).rotateLeft 16
  let x2 := x2 + x3; let x1 := (x1 ^^^ x2).rotateLeft 12
  let x0 := x0 + x1; let x3 := (x3 ^^^ x0).rotateLeft 8
  let x2 := x2 + x3; let x1 := (x1 ^^^ x2).rotateLeft 7
  (((x0 ^^^ k.1) + BitVec.ofNat 32 i), x1 ^^^ k.2.1, x2 ^^^ k.2.2.1, x3 ^^^ k.2.2.2)

/-- LH128 of a key and a counter. -/
def lh128 (k c : Q4) : Q4 := [1, 2, 3, 4, 5, 6].foldl (fun x i => lhRound k i x) c

/-- Word-wise XOR. -/
def q4xor (a b : Q4) : Q4 := (a.1 ^^^ b.1, a.2.1 ^^^ b.2.1, a.2.2.1 ^^^ b.2.2.1, a.2.2.2 ^^^ b.2.2.2)

def w32 (n : Nat) : W32 := BitVec.ofNat 32 n
def q4 (a b c d : Nat) : Q4 := (w32 a, w32 b, w32 c, w32 d)

/-- Sum of the four bytes of a word. -/
def byteSum (w : W32) : Nat :=
  w.toNat % 256 + w.toNat / 256 % 256 + w.toNat / 65536 % 256 + w.toNat / 16777216

/-- The Gaussian of one evaluation (R296), exact. -/
def gauss (x : Q4) : XV :=
  let S : Int := byteSum x.1 + byteSum x.2.1 + byteSum x.2.2.1 + byteSum x.2.2.2
  (XV.ofInt ((S - 2040) * 887)).scale (-18)

/-- c_f of R26. -/
def cf (f : Nat) : Nat :=
  match f with
  | 0 => 0x3F800000 | 1 => 0x3F9837F0 | 2 => 0x3FB504F3 | _ => 0x3FD744FD

/-! ## Lanes (R20) -/

/-- Lane i of width w. -/
def lane (x : Wide) (w i : Nat) : Nat := (x.toNat >>> (i * w)) % 2 ^ w

/-- All n lanes. -/
def lanes (x : Wide) (w n : Nat) : List Nat := (List.range n).map (lane x w)

/-- Pack lanes of width w from the low end. -/
def packNat (w : Nat) : List Nat → Nat
  | [] => 0
  | c :: l => c % 2 ^ w + 2 ^ w * packNat w l

def pack (w : Nat) (l : List Nat) : Wide := BitVec.ofNat 512 (packNat w l)

/-- The conversion of a link (R72): element by element, × 2^RSC, RNE, SAT. -/
def convWord (fp fc lanesN : Nat) (rsc : Int) (sat : Bool) (x : Wide) : Wide :=
  if fp = fc ∧ rsc = 0 then x else
  pack (fmtWidth fc) ((lanes x (fmtWidth fp) lanesN).map fun c => enc fc .rne sat 0 ((dec fp c).scale rsc))

/-! ## Bytes (R5) -/

/-- The n little-endian bytes of a number. -/
def toBytes (n v : Nat) : List Byte := (List.range n).map fun i => BitVec.ofNat 8 (v >>> (8 * i))

/-- The number of little-endian bytes. -/
def ofBytes : List Byte → Nat
  | [] => 0
  | b :: l => b.toNat + 256 * ofBytes l

end Sys2Proof.Machine
end

