-- ==== Sys2Proof/Machine/State.lean ====
section
/-!
DEFINITION. Machine/State.lean: everything the spec gives the module to hold, as plain data, the reasons a step can
stop, and the state after reset (R436).
A table (`Tab`) is a list of (key, value) pairs with rising keys; an absent key reads as the default that its accessor
names.
-/
namespace Sys2Proof.Machine

/-- A sparse table: keys rise, an absent key reads as a default. -/
abbrev Tab (α : Type) := List (Nat × α)

/-- A token of a link or channel (R168). -/
inductive Token where
  | word (w : Wide)
  | empty
  | drain
  deriving DecidableEq, Repr, Inhabited

/-- A trap cause (R403). -/
inductive Cause where
  | illegal | configReject | ptrSpace | translation | protection | ue | ueMerge | conflict | accLive | maskDeadline
  | replayDiverge | align | rstack | podTimeout | watchdog | preempt | killed | software
  deriving DecidableEq, Repr, Inhabited

/-- A recorded trap (R404, R405, R408): its cause, agent fields and values. -/
structure Trap where
  cause : Cause := .illegal
  tval : Word := 0
  agent : BitVec 4 := 0
  loc : BitVec 12 := 0
  slot : BitVec 3 := 0
  sw : BitVec 12 := 0
  pc : BitVec 24 := 0
  h : Nat := 0
  cbmp : Word := 0
  deriving DecidableEq, Repr, Inhabited

/-- A translation entry (R251): the page at `va` of a space (0 GLOBAL, 5 POD) is the page at `pa`. -/
structure Xlat where
  pod : Bool := false
  /-- The peer, for a POD page. -/
  rank : Nat := 0
  va : Nat := 0
  pa : Nat := 0
  size : Nat := 0
  wr : Bool := false
  deriving DecidableEq, Repr, Inhabited

/-- State of a handler (R134). -/
inductive HState where
  | stopped | runnable | blocked | waiting (ch : BitVec 6)
  deriving DecidableEq, Repr, Inhabited

/-- The writes of a word: registers, a flag, counters (R82). -/
structure Writes where
  regs : List (Reg × Word) := []
  flag : Option (BitVec 3 × Bool) := none
  deriving DecidableEq, Repr, Inhabited

/-- An operation stage that outlasts its issue cycle (R82, R138). -/
inductive Op where
  /-- The writes stand ready and land at cycle `due` (R138). -/
  | late (due : Nat) (w : Writes) (nx : Nx)
  /-- The word waits for a condition, with the operand values it read in its issue cycle, and for the mark `m`
  (accesses issued before it, or a deadline). -/
  | wait (i : Instr) (a b e : Word) (m : Nat)
  /-- The word has issued the accesses of group `grp` and ends when all are complete. -/
  | mem (i : Instr) (grp : Nat)
  /-- Handler 0 runs a tree (R161). -/
  | tree (nx : Nx)
  /-- A configuration load waits for its commit (R132): the stream's pointer and length are those of the descriptor it has read. -/
  | cfg (nx : Nx) (full : Bool) (rect : Word) (c : Nat) (ptr : Word) (len : Nat)
  /-- The clear engine works until cycle `due` (R133). -/
  | clear (nx : Nx) (rect : Word) (classes : BitVec 4) (due : Nat)
  /-- An attention run (R336). -/
  | att (nx : Nx) (sd : Reg)
  /-- The word's writes to a peer are the accesses of group `grp`; its register writes land when all are complete (R345). -/
  | put (nx : Nx) (w : Writes) (grp : Nat)
  /-- A collapse queued on or running in the collapse unit (R358). -/
  | col (nx : Nx) (sb : Reg)
  /-- An stream fence whose token `id` stands in the stream's queue (R382). -/
  | sfence (nx : Nx) (sd : Reg) (sid : Nat) (id : Nat)
  deriving DecidableEq, Repr

/-- A handler (R134, R139): s0 to s31, flags, loop counters, return stack, PC, and the bits beside its state. -/
structure Handler where
  regs : Tab Word := []
  flags : BitVec 8 := 0
  k0 : W32 := 0
  k1 : W32 := 0
  k2 : W32 := 0
  k3 : W32 := 0
  rstack : List (BitVec 24) := []
  pc : BitVec 24 := 0
  st : HState := .stopped
  mask : Bool := false
  pend : Bool := false
  prio : BitVec 3 := 0
  entry : BitVec 24 := 0
  /-- The handler's recorded trap: it is held at its word (R405, R408). -/
  held : Option Trap := none
  /-- A trap has been delivered to it while it ran: when it stops, it starts at ENTRY for that trap (R406). -/
  trapWait : Bool := false
  op : Option Op := none
  /-- The cycle in which its word issued (R139). -/
  issued : Nat := 0
  /-- An event of this cycle has made it RUNNABLE, which counts for the pick of the next (R136, R138). -/
  fresh : Bool := false
  /-- Its next word is missing from the program buffer (R140). -/
  miss : Bool := false
  xlat : Option Xlat := none
  /-- Translations that the running word holds beside the entry (R251, R431), and the pages whose walk or request has failed. -/
  pods : List Xlat := []
  refused : List (Word × Cause) := []
  /-- What the running word has read so far, where it had to wait for a peer: pointer and bytes. -/
  reads : List (Word × List Byte) := []
  /-- The fault of a posted POD write recorded on the handler's port (R377). -/
  podFault : Option (Cause × Word × Bool) := none
  /-- An attention run in progress (R336): descriptor, pages to attend, translated pages (with the physical page),
  absent pages, whether the retry round has begun, completion bitmap, faulted pages. -/
  attDesc : List Word := []
  attTodo : List Nat := []
  attHeld : Tab Nat := []
  /-- The order in which the translations of the held pages completed (R333). -/
  attSeq : Tab Nat := []
  attAbsent : List Nat := []
  attRetry : Bool := false
  attBmp : Word := 0
  attFault : List (Nat × Cause × Word) := []
  deriving DecidableEq, Repr, Inhabited

/-- A shape record (R56). -/
structure Shape where
  order : List Nat := []
  ext : List Nat := []
  pad : List Nat := []
  deriving DecidableEq, Repr, Inhabited

/-- A rectangle of tiles within the region (R131). -/
structure Rect where
  y0 : Nat := 0
  x0 : Nat := 0
  h : Nat := 0
  w : Nat := 0
  deriving DecidableEq, Repr, Inhabited

/-- Kind of a tree node (R58). -/
inductive NKind where
  | chain | overlap (d : Nat) | gang | leaf (keep : Bool) (c : Nat)
  deriving DecidableEq, Repr, Inhabited

/-- A node of the controller tree (R58 to R60, R161 to R163). `started` and `completed` count its iterations within the
parent's current execution; `runs` its earlier executions in the run of the tree. The rest is a leaf's running phase:
its shape, the tiles' sequencer positions, the sampled CSRs (R146), its phase number (R373). -/
structure Node where
  parent : Option Nat := none
  kind : NKind := .chain
  rect : Rect := {}
  n : Nat := 1
  shp : Nat := 63
  started : Nat := 0
  completed : Nat := 0
  runs : Nat := 0
  shape : Shape := {}
  running : Bool := false
  iters : List Nat := []
  seq : Tab Nat := []
  /-- Epilogue commands queued when a tile's last position was visited (R312). -/
  epiMark : Tab Nat := []
  csrs : List Nat := []
  phase : Nat := 0
  /-- It names a full stream, as grp.close found it (R166). -/
  full : Bool := false
  deriving DecidableEq, Repr, Inhabited

/-- The controller tree of a span: nodes in declaration order, the open nodes (innermost first), whether it runs, and
whether no further leaf may start (R167). -/
structure Tree where
  nodes : List Node := []
  opened : List Nat := []
  running : Bool := false
  stopped : Bool := false
  deriving DecidableEq, Repr, Inhabited

/-- State of a stream number (R253). -/
inductive SState where
  | free | idle | active | done | faulted
  deriving DecidableEq, Repr, Inhabited

/-- A queued gather or scatter job (R263 to R266): its descriptor, its completion bitmap, elements issued and in flight
(with the number each was issued under), elements to rewrite after a fault in deterministic mode (R396). -/
structure Job where
  gather : Bool := true
  tok : Bool := false
  desc : List Word := []
  bmp : Word := 0
  started : Bool := false
  issued : Nat := 0
  flight : Tab Nat := []
  /-- Source and destination pointers of each element in flight. -/
  ptrs : Tab (Word × Word) := []
  /-- A number that no other job has, and how many of its elements, from the first, have been issued before a fault (R266). -/
  uid : Nat := 0
  again : Nat := 0
  redo : List Nat := []
  faulted : Bool := false
  /-- It has resumed after a fault (R264, R266); in deterministic mode, and has not yet begun to perform overlapped elements again
  (R396). -/
  late : Bool := false
  /-- The fault of an element and its number, until the elements in flight are complete and the span freezes (R266). -/
  err : Option (Nat × Cause × Word) := none
  deriving DecidableEq, Repr, Inhabited

/-- A stream number of a span (R253 to R262, R270): what is bound, the pass in progress, its responses, the depth
controller and the queued jobs. -/
structure Stream where
  st : SState := .free
  /-- Kind code of R261: 0 PORT in, 1 PORT out, 2 RING in, 3 RING out, 4 CORE, 5 gather, 6 scatter, 7 none. -/
  kind : Nat := 7
  tok : Bool := false
  port : Nat := 0
  fmt : Nat := 0
  shp : Nat := 0
  shape : Shape := {}
  /-- Shape index, shape and new base, if any, that take effect at the next pass (R281). -/
  nextShp : Option (Nat × Shape × Option Word) := none
  desc : List Word := []
  /-- The pass: in progress, leaf node, iteration vector, next position to request, positions completed, bytes. -/
  pass : Bool := false
  leaf : Nat := 0
  phase : Nat := 0
  iters : List Nat := []
  next : Nat := 0
  doneP : Nat := 0
  bytes : Nat := 0
  /-- Response slots: position and its token, or none while in flight (R257, R259, R260). -/
  resp : Tab (Option Token) := []
  /-- RING: cycle at which each active stage began; RING out: kept bytes (R262, R270). -/
  stage : Tab Nat := []
  /-- RING: bytes that each active stage registered when it started (R269). -/
  regd : Tab Nat := []
  /-- Positions below it have been requested before a fault (R262). -/
  redoTo : Nat := 0
  /-- The cycle from which the stream's next job request may be made: one in a cycle (R265). -/
  reqAt : Nat := 0
  kept : Tab (List Byte) := []
  /-- The drain token of a PORT out pass has come, or a PORT in pass has placed its last position. -/
  drained : Bool := false
  /-- Response queue of a CORE stream (R260). -/
  queue : List Token := []
  /-- scancel has stopped it and waits for its requests (R280). -/
  cancel : Bool := false
  dmin : Nat := 0
  dmax : Nat := 0
  depth : Nat := 0
  winStart : Nat := 0
  winN : Nat := 0
  winLat : Nat := 0
  winUsed : Nat := 0
  jobs : List Job := []
  fault : Option (Cause × Word) := none
  lastFault : Word := 0
  xlat : Option Xlat := none
  /-- The index that its next element has read (R264). -/
  reads : List (Word × List Byte) := []
  deriving DecidableEq, Repr, Inhabited

/-- A slot of the accumulator ring (R301, R302): state 0 EMPTY, 1 LIVE, 2 FULL, 3 MOM; type; shape. -/
structure ASlot where
  st : BitVec 2 := 0
  int : Bool := false
  m : Nat := 0
  n : Nat := 0
  deriving DecidableEq, Repr, Inhabited

/-- An array command (R305). `run`: 0 queued, 1 started, 2 last row entered. `got` counts slabs read or link words
taken. -/
inductive ACmd where
  | wpre (plane : Nat) (mode : Nat) (keep : Bool) (ix0 gst ld : Nat) (csrs : List Nat) (run got : Nat) (bytes : Tab (List Byte))
  | mma (plane : Nat) (last keepa : Bool) (klen : Nat) (slot : Nat) (run got : Nat)
  deriving DecidableEq, Repr, Inhabited

/-- An epilogue command (R305, R307, R310): vector offset, member, size; whether it runs; each tile's emission
position. -/
structure ECmd where
  voff : Nat := 0
  m : Nat := 0
  e1 : Nat := 0
  slot : Nat := 0
  run : Bool := false
  pos : Tab Nat := []
  /-- The CSRs of R146 as the word took them. -/
  csrs : List Nat := []
  deriving DecidableEq, Repr, Inhabited

/-- The systolic mode of a span and its queues (R287 to R318). -/
structure Sys where
  on : Bool := false
  auto : Bool := false
  nt : Nat := 1
  kpl : Nat := 0
  voff : Nat := 0
  rect : Rect := {}
  slots : List ASlot := []
  head : Nat := 0
  tail : Nat := 0
  wpres : Nat := 0
  arr : List ACmd := []
  epi : List ECmd := []
  /-- Delivered plane values: key (plane × 2^12 + tile) × 2^16 + k × 64 + j; the value is a code of the delivered
  format. -/
  planes : Tab W32 := []
  /-- Delivered block scales of the planes: key (plane × 2^12 + tile) × 2^16 + b × 64 + j. -/
  scales : Tab (BitVec 8) := []
  /-- The member the epilogue expects next and the ensemble's size minus 1 (R310). -/
  momM : Nat := 0
  momE : Nat := 0
  /-- Result tiles emitted by the groups of the span together (R312); epilogue commands queued, and ended. -/
  emitted : Nat := 0
  epiQ : Nat := 0
  epiD : Nat := 0
  /-- Automatic mode: plane of the result tile in progress; stop asked by sysmode.off (R311, R314). -/
  autoP : Nat := 0
  /-- Result tiles begun in automatic mode; the CSRs that its epilogue uses. -/
  csrs : List Nat := []
  autoN : Nat := 0
  stopping : Bool := false
  deriving DecidableEq, Repr, Inhabited

/-- A collapse on the collapse unit or queued for it (R358, R359): its handler, word fields, sampled values, and the mask
binding it took. -/
structure Collapse where
  id : Nat := 0
  h : Nat := 0
  td : Nat := 0
  ta : BitVec 768 := 0
  /-- Pointer of the descriptor, and its words once it has been read. -/
  ptr : Word := 0
  desc : List Word := []
  msk : Bool := false
  gate : Bool := false
  mode : ColMode := .argmax
  sseed : Word := 0
  running : Bool := false
  /-- The OPEN policy took the collapse: no mask is applied (R359). -/
  opened : Bool := false
  bind : Option (Nat × Nat × Nat × MaskPolicy) := none
  deriving DecidableEq, Repr, Inhabited

/-- Dynamic state of an element slot (R173, R203): firings of the phase, age, end of its issue interval, and what its
opcode keeps. -/
structure Elem where
  f : Nat := 0
  age : Nat := 0
  busy : Nat := 0
  cnt : Nat := 0
  grp : Nat := 0
  carry : List Int := []
  held : Option Token := none
  cand : List (BitVec 64 × BitVec 32) := []
  /-- rnet: contributions without a result (value and id tokens), results waiting for credit. -/
  contrib : List (Token × Token) := []
  res : List (Token × Token) := []
  /-- Drain passed in this phase; cycle inputs being discarded (R205). -/
  drained : Bool := false
  discard : List Nat := []
  deriving DecidableEq, Repr, Inhabited

/-- Dynamic state of a coupler (R180), its contributions as used by each party, and updates on their way to the
producer (R183). -/
structure Cpl where
  integ : Int := 0
  u : Int := 0
  nupd : W32 := 0
  timer : Nat := 0
  /-- UPER in force until TIMER returns to 0, when cpl.set has changed the field (R193). -/
  uper : Option Nat := none
  cons : Int := 0
  prod : Int := 0
  flight : List (Nat × Int) := []
  /-- An update has been made in this cycle (R181). -/
  upd : Bool := false
  /-- Occupancy of the coupled link at the start of the cycle; none before a cycle has begun on it (R181). -/
  occ : Option Nat := none
  deriving DecidableEq, Repr, Inhabited

/-- A tile (R2, R97 to R106, R173, R243): configuration, link buffers, element slots, selector, couplers, sequencer,
full/empty bits, accumulator store. The memory node's bytes are part of `mem`. -/
structure Tile where
  /-- Configuration: key element × 32 + field. -/
  cfg : Tab (BitVec 12) := []
  /-- Committed values of the coupler fields that cpl.set has written since (R193). -/
  wasCfg : Tab (BitVec 12) := []
  /-- Configuration index last committed with nothing since (R162). -/
  last : Option Nat := none
  /-- Sequence number last committed plus 1, 0 for none, and the launch that committed it (R70). -/
  seqno : Nat := 0
  seqUid : Nat := 0
  /-- The tile's index in the rectangle that configured each element, and that rectangle (R179, R200, R223). -/
  ti : Tab Nat := []
  rects : Tab Rect := []
  bufs : Tab (List Token) := []
  /-- Cycles until each of the last tokens of a buffer stands at its place (R448). -/
  waits : Tab (List Nat) := []
  /-- The contenders of the cycle with their tickets, as they were at its start (R170, R174); none before a cycle has begun on
  the tile, when they are taken as the state stands. -/
  seen : Option (Tab Nat) := none
  elems : Tab Elem := []
  x : BitVec 32 := 1
  rot : Nat := 7
  unitFree : Nat := 0
  cpl : Tab Cpl := []
  /-- Full bits: key buffer × 16 + entry. -/
  full : Tab Bool := []
  acc : Tab W32 := []
  aptr : Nat := 0
  bptr : Nat := 0
  /-- The span and leaf node running on the tile. -/
  leaf : Option (Nat × Nat) := none
  deriving DecidableEq, Repr, Inhabited

/-- A span (R141 to R146): its place, program, handlers and everything that belongs to it. -/
structure Span where
  live : Bool := false
  /-- Not yet started: it clears and loads configuration 0 (R123). -/
  starting : Bool := false
  loadPending : Bool := false
  clearDue : Nat := 0
  /-- Saved by a pre-emption (R414): where its records stand, and the parts of its tiles whose layout in them the spec does not
  give. -/
  saved : Bool := false
  saveAt : Nat := 0
  savedTiles : Tab Tile := []
  /-- Poisoned lines of its tiles' accumulator stores. -/
  savedBad : List Nat := []
  ended : Bool := false
  slot : Nat := 0
  sec : Nat := 0
  die : Nat := 0
  entry : Nat := 0
  tenant : BitVec 4 := 0
  det : Bool := false
  anchor : Nat := 0
  rh : Nat := 1
  rw : Nat := 1
  prog : Word := 0
  cfgt : Word := 0
  shpt : Word := 0
  args : Word := 0
  ncfg : Nat := 1
  nhnd : Nat := 0
  ten : Bool := false
  thnd : Nat := 0
  isMatrix : Bool := false
  tcnt : Nat := 0
  seed : BitVec 128 := 0
  hs : Tab Handler := []
  /-- s32 to s63. -/
  shared : Tab Word := []
  /-- When each was last written: the cycle of the write, the cycle in which its word issued (R139). -/
  sharedAt : Tab (Nat × Nat) := []
  tk : Tab (BitVec 768) := []
  /-- The same for the soft-token registers (R340). -/
  tkAt : Tab (Nat × Nat) := []
  /-- The software CSRs of scope S by number (R144). -/
  csr : Tab Word := []
  phase : Word := 0
  cfgno : BitVec 24 := 0
  /-- The channel map: a bound channel's handler (R54). -/
  chmap : Tab Nat := []
  ch : Tab (List Token) := []
  /-- The last entries of a channel that a token and that a send placed in this cycle: how many of each (R143). -/
  chNow : Tab (Nat × Nat) := []
  /-- Words that entered a channel and that its handler's wait has not consumed are its entries; end-of-transfer tokens
  that wait at their unit (R143, R261): (to a port, number, token). -/
  toks : List (Bool × Nat × Word) := []
  /-- Program buffer: line number to its 8 words (R140). -/
  pbuf : Tab (List Word) := []
  /-- The places in a line of the words that could not be read (R81). -/
  pbufGaps : Tab (List Nat) := []
  /-- Rotation pointer of each priority, and whether the core has picked in this cycle (R137). -/
  rot : Tab Nat := []
  picked : Bool := false
  tree : Tree := {}
  streams : Tab Stream := []
  fi : Tab (List Token) := []
  /-- The links that have taken the head token of each fi port. -/
  fiTaken : Tab (List Nat) := []
  /-- Ports fi whose drain token waits at its unit for room (R102, R257). -/
  fiDrain : List Nat := []
  fo : Tab (List Token) := []
  /-- Cycles until each of the last tokens of an fo port stands at its place (R448). -/
  foWaits : Tab (List Nat) := []
  sys : Sys := {}
  cols : List Collapse := []
  /-- The mask binding: channel, deadline, grace, policy (R359). -/
  bind : Option (Nat × Nat × Nat × MaskPolicy) := none
  /-- The delivered trap and whether it froze the span (R408); a fabric fault recorded but not delivered. -/
  trap : Option Trap := none
  fabric : Option Trap := none
  /-- The fabric fault of this cycle that is recorded when the span freezes at the cycle's end (R409). -/
  faulted : Option Trap := none
  /-- The trap was posted to system software, no handler has it (R407). -/
  toSys : Bool := false
  frozen : Bool := false
  /-- Stopped by a pre-emption or the watchdog (R413, R420). -/
  quiesced : Bool := false
  /-- Digest: enabled, lines of W, sums (R397, R398). -/
  digOn : Bool := false
  digW : List (Nat × Word) := []
  /-- Phases begun; and for each completed phase, how many had begun when it completed (R373). -/
  phases : Nat := 0
  phaseEnd : Tab Nat := []
  deriving DecidableEq, Repr, Inhabited

/-- A residency tag (R120): launch AFF, section AFF, CFGT, index of the last full stream committed to the whole region,
and the region (anchor, height, width). -/
structure Resid where
  laff : W32 := 0
  saff : W32 := 0
  cfgt : Word := 0
  index : Nat := 0
  anchor : Nat := 0
  rh : Nat := 0
  rw : Nat := 0
  deriving DecidableEq, Repr, Inhabited

/-- A cluster (R2, R119, R120, R271): the span placed on it, its tag table, its residency tag. -/
structure Cluster where
  span : Option Nat := none
  tags : Tab Word := []
  resid : Option Resid := none
  /-- The cycle at which the clears of an ownership change end (R422). -/
  clearDue : Nat := 0
  deriving DecidableEq, Repr, Inhabited

/-- A port of the ordering machine (R245, R392). -/
inductive PortId where
  | handler (sp h : Nat) | stream (sp sid : Nat) | slots (t : Nat) | slot (t e : Nat) | matrix (t : Nat)
  /-- The device itself, for a tenant: the NOTIFY write (R423). -/
  | device (tenant : Nat)
  deriving DecidableEq, Repr, Inhabited

/-- What an access does. -/
inductive AKind where
  | read
  | write (bytes : List Byte)
  | amo (fn : AmoFn) (dbl : Bool) (b e : Word)
  | cwait (c : CwCond) (cmp : Word)
  | fence (k : FenceKind)
  deriving DecidableEq, Repr, Inhabited

/-- Where an access stands (R366): in its port queue, waiting for a walk or a pod reply, dispatched, performed. A complete
access leaves the list. -/
inductive AStat where
  | queued | walk | walking | translated | dispatched | performed
  deriving DecidableEq, Repr, Inhabited

/-- What a stream's access is for. -/
inductive ATag where
  | none_
  | pos (q : Nat)
  /-- A request of element e of a job, which was issued under number `id` (R265). -/
  | job (e id : Nat)
  /-- Only the translation of a page is asked for (R251, R431). -/
  | probe
  /-- Bytes that a port reads in the course of its work: of a peer for a control word or a record; the index of a job's element. -/
  | fetch
  /-- The walk of page i of an attention run (R329). -/
  | att (i : Nat)
  /-- A write of a pass that `shape` has ended, with the bytes that it lands (R281). -/
  | old (n : Nat)
  deriving DecidableEq, Repr, Inhabited

/-- An access (R366 to R371), in the module-wide list in issue order. `key` is the home address once translated; `grp`
joins the parts of one word. -/
structure Access where
  id : Nat := 0
  port : PortId := .handler 0 0
  grp : Nat := 0
  tag : ATag := .none_
  kind : AKind := .read
  ptr : Word := 0
  n : Nat := 0
  ord : Ord := .plain
  scope : Scope := .tile
  phase : Option Nat := none
  posted : Bool := false
  stat : AStat := .queued
  key : Option Nat := none
  data : List Byte := []
  fault : Option Cause := none
  issued : Nat := 0
  /-- The cycle in which the translation of its page was asked for (R431). -/
  asked : Nat := 0
  /-- Of a job's access: its cluster (R263, R368), and the clock that counts it (R378); none where they are those of its port. -/
  clus : Option Nat := none
  comp : Option Nat := none
  /-- How often a cwait has been evaluated without holding (R386); of the token of sfence, the positions it stands behind (R382). -/
  tries : Nat := 0
  /-- A cwait that a write has just completed, before deterministic mode has judged its read (R391). -/
  woken : Bool := false
  deriving DecidableEq, Repr, Inhabited

/-- A pending barrier update (R268): registration or landing bytes, a transfer arrival, on behalf of a stream. -/
structure BarUpd where
  id : Nat := 0
  sp : Nat := 0
  sid : Nat := 0
  ptr : Word := 0
  delta : Int := 0
  arrive : Bool := false
  /-- Whose clock it carries: the stream's, or its job's (R378). -/
  comp : Nat := 0
  deriving DecidableEq, Repr, Inhabited

/-- A record of deterministic mode (R391): a performed access of a port to a line, with the count at it of the clock that counts it,
that of the port or of a job; a write's bytes, and what is ordered before who observes it (R378). -/
structure DetRec where
  line : Nat := 0
  port : Nat := 0
  comp : Nat := 0
  at_ : Nat := 0
  key : Nat := 0
  n : Nat := 0
  clk : Tab Nat := []
  write : Bool := false
  sc : Option Nat := none
  slot : Nat := 0
  deriving DecidableEq, Repr, Inhabited

/-- The ordering machine (R366): accesses, walks, SC ring and serialisers, barrier updates, and what deterministic mode
keeps to judge R378. -/
structure Net where
  acc : List Access := []
  /-- Last tenant the walker of each die served (R252). -/
  walkRot : Tab Nat := []
  /-- Walk requests that wait, oldest first (R252). -/
  walkQ : List Nat := []
  scNode : Nat := 0
  scGrants : Nat := 0
  /-- Access or fence that holds each die's serialiser (R372). -/
  serial : Tab Nat := []
  bars : List BarUpd := []
  det : List DetRec := []
  /-- Vector clocks of ports and of the objects that carry an order. -/
  clocks : Tab (Tab Nat) := []
  objs : Tab (Tab Nat) := []
  /-- Answers given to peers, newest first: the node, and the bytes read or none for an error completion (R432, R433). -/
  replies : List (Nat × Option (List Byte)) := []
  /-- In deterministic mode, what each token of a queue carries: the clock of the port that placed it (R392). -/
  marks : Tab (List (Tab Nat)) := []
  deriving DecidableEq, Repr, Inhabited

/-- State of a section of a running launch. -/
inductive SecState where
  | waiting | armed (cycle : Nat) | placed | retired | ended
  deriving DecidableEq, Repr, Inhabited

/-- A section as the Bellwether holds it (R118): record, remaining predecessors, state. -/
structure Sec where
  record : Wide := 0
  preds : Nat := 0
  st : SecState := .waiting
  deriving DecidableEq, Repr, Inhabited

/-- SST of a Bellwether slot (R418). -/
inductive Sst where
  | running | frozen | preempting | preempted | killing
  deriving DecidableEq, Repr, Inhabited

/-- A Bellwether slot (R116, R118, R418): the launch's recorded entry, its graph, and what befell it. -/
structure Launch where
  v : Bool := false
  /-- A number that no other launch has. -/
  uid : Nat := 0
  sst : Sst := .running
  entry : Nat := 0
  img : Wide := 0
  save : BitVec 36 := 0
  checked : Bool := false
  secs : List Sec := []
  succ : List (List Nat) := []
  cfgt : Word := 0
  /-- A failure: CODE, SEC, cause, TVAL (R76). -/
  failed : Option (BitVec 8 × BitVec 12 × Cause × Word) := none
  retired : Nat := 0
  digW : List (Nat × Word) := []
  /-- What the record of its kill carries (R408, R416, R444): TCAUSE, section, w3. -/
  kill : Word × Nat × Word := (0, 0, 0)
  /-- Pre-emption: cycle of the command (R413). -/
  since : Nat := 0
  resume : Bool := false
  deriving DecidableEq, Repr, Inhabited

/-- A die's dispatcher (R116): xorshift state, rotation pointer, head ages. -/
structure Disp where
  x : BitVec 32 := 0
  rot : Nat := 63
  /-- Ages by entry, of the entries that head their lists. -/
  ages : Tab Nat := []
  nextAt : Nat := 0
  deriving DecidableEq, Repr, Inhabited

/-- The watchdog of a queue (R419, R420): progress timer, cycle of expiry, clusters to reset. -/
structure Dog where
  timer : Nat := 0
  since : Nat := 0
  slots : List Nat := []
  clusters : List Nat := []
  deriving DecidableEq, Repr, Inhabited

/-- The CONTROL space and the launch machinery (04, 14, 15). -/
structure Control where
  /-- Dependence tables: key die × 4096 + index (R108). -/
  entries : Tab Wide := []
  /-- QCTL words without NREADY (R113, R419). -/
  qctl : Tab Word := []
  /-- Tenant blocks (R421). -/
  tenants : Tab Wide := []
  /-- Window entries (R421). -/
  windows : Tab (BitVec 128) := []
  /-- Cluster owner words by rank (R422). -/
  owners : Tab Word := []
  /-- Ready lists: key die × 64 + queue (R114). -/
  ready : Tab (List Nat) := []
  disp : Tab Disp := []
  launches : Tab Launch := []
  /-- Placement list of each die: (slot, section), oldest first (R118). -/
  place : Tab (List (Nat × Nat)) := []
  dogs : Tab Dog := []
  /-- The cycle in which the pending invalidation of a tenant arrived (R332). -/
  invAt : Tab Nat := []
  /-- What the reads of a tenant's records hold while they last, by tenant: translations, pages whose walk or request has failed, bytes
  of peers (R252, R430, R431). -/
  pods : Tab (List Xlat) := []
  refused : Tab (List (Word × Cause)) := []
  reads : Tab (List (Word × List Byte)) := []
  deriving DecidableEq, Repr, Inhabited

/-- Firmware, attestation and management (R434, R435, R438). -/
structure Firm where
  rootVer : BitVec 64 := 0
  svcVer : BitVec 64 := 0
  rollback : BitVec 64 := 0
  rootImg : Nat := 0
  svcImg : Nat := 0
  /-- Does each image carry a valid signature (R434)? -/
  rootSigned : Bool := true
  svcSigned : Bool := true
  mroot : Wide := 0
  msvc : Wide := 0
  node : BitVec 10 := 0
  service : BitVec 10 := 0
  host : BitVec 10 := 0
  /-- Attestation reports given, newest first: 304 bytes each. -/
  reports : List (BitVec 2432) := []
  deriving DecidableEq, Repr, Inhabited

/-- Which step comes next (R369, R447): cycles that pass and the step, then a default when the list is empty. The model's
own fields: the schedule, the decoded word that waits to run, the span the default issues for, the counter of free
values, the next number to give. -/
structure Sched where
  agenda : List (Nat × Instr) := []
  staged : Option Instr := none
  focus : Nat := 0
  free : Nat := 0
  nextId : Nat := 0
  deriving DecidableEq, Repr, Inhabited

/-- The word being issued: its span, handler, index and bits; with the operand values it read, when it is a waiting word
that is tried again. -/
structure Cur where
  sp : Nat := 0
  h : Nat := 0
  pc : BitVec 24 := 0
  word : Word := 0
  latch : Option (Word × Word × Word × Nat) := none
  /-- What the word has read from memory so far. -/
  reads : List (Word × List Byte) := []
  deriving DecidableEq, Repr, Inhabited

/-- The machine: one module. -/
structure State where
  power : Bool
  cycle : BitVec 64
  cur : Cur
  sched : Sched
  /-- Every byte of HBM, memory nodes, scratchpads, base-die SRAM and peer memory, by home address; an address that is not
  listed reads as `unlisted`. -/
  mem : List Host.Cell
  /-- Poisoned lines, rising (R246). -/
  poison : List Nat
  tiles : Tab Tile
  clusters : Tab Cluster
  spans : Tab Span
  net : Net
  ctl : Control
  firm : Firm
  deriving DecidableEq, Repr

/-- What a byte of memory that nothing has written reads as (notes/assumptions/2.md, DESIGN CHOICE). -/
def unlisted : Byte := 0

/-- Reasons the machine stops. -/
inductive Fault where
  /-- Raised by every step while module power is off, but for the step POWER_ON (R436, R437). Safe: a module without power
  does nothing. -/
  | noPower
  deriving DecidableEq, Repr

/-- Reasons an instruction has no meaning. -/
inductive Refusal where
  /-- Raised by an arm of exec that has no meaning yet. Safe: it proves nothing. -/
  | notModelled (mnemonic : String)
  deriving DecidableEq, Repr

/-- The state right after module reset (R436): power on, every tile, cluster and CONTROL object zero, every cluster and
entry tenant 0's, the dispatchers seeded (R116), HEN of tenant 0 set with the host node management holds. -/
def State.reset : State where
  power := true
  cycle := 0
  cur := {}
  sched := {}
  mem := []
  poison := []
  tiles := []
  clusters := []
  spans := []
  net := {}
  ctl :=
    { tenants := [(0, (1 : Wide) <<< 319)]
      disp := [(0, { x := 0x9E3779B9 }), (1, { x := 0x9E3779B8 }), (2, { x := 0x9E3779BB }), (3, { x := 0x9E3779BA })] }
  firm := {}

end Sys2Proof.Machine
end

