-- ==== Sys2Proof/Machine/Tab.lean ====
section
/-!
DEFINITION. Machine/Tab.lean: reading and writing sparse tables and lists.
-/
namespace Sys2Proof.Machine

/-- The value at key `k`, or the default. -/
def tget {α : Type} (t : Tab α) (k : Nat) (d : α) : α :=
  match t with
  | [] => d
  | (k', v) :: t => if k' = k then v else tget t k d

/-- Remove key `k`. -/
def tdel {α : Type} (t : Tab α) (k : Nat) : Tab α := t.filter (fun p => p.1 != k)

/-- Insert before the first greater key. -/
def tins {α : Type} (t : Tab α) (k : Nat) (v : α) : Tab α :=
  match t with
  | [] => [(k, v)]
  | (k', v') :: t => if k < k' then (k, v) :: (k', v') :: t else (k', v') :: tins t k v

/-- Write key `k`, listing it whatever the value. -/
def tput {α : Type} (t : Tab α) (k : Nat) (v : α) : Tab α := tins (tdel t k) k v

/-- Write key `k`; a value equal to the default is not listed. -/
def tset {α : Type} [DecidableEq α] (t : Tab α) (k : Nat) (v d : α) : Tab α :=
  if v = d then tdel t k else tput t k v

/-- The value at key `k`, if listed. -/
def tfind {α : Type} (t : Tab α) (k : Nat) : Option α :=
  match t with
  | [] => none
  | (k', v) :: t => if k' = k then some v else tfind t k

/-- Element `i` of a list, or the default. -/
def nth {α : Type} (l : List α) (i : Nat) (d : α) : α := (l[i]?).getD d

/-- Replace element `i`. -/
def setNth {α : Type} (l : List α) (i : Nat) (v : α) : List α := l.set i v

/-- Sum of a list of numbers. -/
def sumNat (l : List Nat) : Nat := l.foldl (· + ·) 0

/-- Is every pair of the list free of repeats. -/
def noRepeats (l : List Nat) : Bool :=
  match l with
  | [] => true
  | x :: l => !(l.contains x) && noRepeats l

end Sys2Proof.Machine
end

