-- ==== Sys2Proof/Machine/Ops.lean ====
section
/-!
DEFINITION. Machine/Ops.lean: the named operations over the state: places, memory, CONTROL objects, translation,
registers, next-address forms, events, kills, traps and their delivery (R405 to R408).
-/
namespace Sys2Proof.Machine

/-! ## Parts of the state -/

def getSpan (s : State) (sp : Nat) : Span := tget s.spans sp {}
def updSpan (s : State) (sp : Nat) (f : Span → Span) : State :=
  { s with spans := tput s.spans sp (f (getSpan s sp)) }
def getH (s : State) (sp h : Nat) : Handler := tget (getSpan s sp).hs h {}
def updH (s : State) (sp h : Nat) (f : Handler → Handler) : State :=
  updSpan s sp fun p => { p with hs := tput p.hs h (f (tget p.hs h {})) }
def getTile (s : State) (t : Nat) : Tile := tget s.tiles t {}
def updTile (s : State) (t : Nat) (f : Tile → Tile) : State := { s with tiles := tput s.tiles t (f (getTile s t)) }
def getClus (s : State) (r : Nat) : Cluster := tget s.clusters r {}
def updClus (s : State) (r : Nat) (f : Cluster → Cluster) : State :=
  { s with clusters := tput s.clusters r (f (getClus s r)) }
def getElem (s : State) (t e : Nat) : Elem := tget (getTile s t).elems e {}
def updElem (s : State) (t e : Nat) (f : Elem → Elem) : State :=
  updTile s t fun x => { x with elems := tput x.elems e (f (tget x.elems e {})) }
def getStream (s : State) (sp sid : Nat) : Stream := tget (getSpan s sp).streams sid {}
def updStream (s : State) (sp sid : Nat) (f : Stream → Stream) : State :=
  updSpan s sp fun p => { p with streams := tput p.streams sid (f (tget p.streams sid {})) }
def updCtl (s : State) (f : Control → Control) : State := { s with ctl := f s.ctl }
def updNet (s : State) (f : Net → Net) : State := { s with net := f s.net }
def getL (s : State) (k : Nat) : Launch := tget s.ctl.launches k {}
def updL (s : State) (k : Nat) (f : Launch → Launch) : State :=
  updCtl s fun c => { c with launches := tput c.launches k (f (tget c.launches k {})) }
def updSys (s : State) (sp : Nat) (f : Sys → Sys) : State := updSpan s sp fun p => { p with sys := f p.sys }

/-- A fresh free value's index; the counter advances. -/
def freshFree (s : State) : Nat × State :=
  (s.sched.free, { s with sched := { s.sched with free := s.sched.free + 1 } })
/-- A fresh number for an access. -/
def freshId (s : State) : Nat × State :=
  (s.sched.nextId, { s with sched := { s.sched with nextId := s.sched.nextId + 1 } })
/-- The clock as a number. -/
def now (s : State) : Nat := s.cycle.toNat

/-! ## Bits -/

/-- Bits [hi:lo] of a word, as a number. -/
def wbits (w : Word) (hi lo : Nat) : Nat := bitsOf w.toNat hi lo
/-- Word i of a 64-byte object. -/
def wordAt (x : Wide) (i : Nat) : Word := x.extractLsb' (64 * i) 64
/-- Bits `lo .. lo+n-1` of x replaced by v. -/
def putBits {w : Nat} (x : BitVec w) (lo n : Nat) (v : Nat) : BitVec w :=
  let m : BitVec w := BitVec.ofNat w ((2 ^ n - 1) <<< lo)
  (x &&& ~~~m) ||| (BitVec.ofNat w ((v % 2 ^ n) <<< lo))
/-- Word i of a 64-byte object replaced. -/
def setWordAt (x : Wide) (i : Nat) (v : Word) : Wide := putBits x (64 * i) 64 v.toNat
def isSet (x : Nat) (i : Nat) : Bool := x / 2 ^ i % 2 == 1
/-- A word of a number. -/
def wd (n : Nat) : Word := BitVec.ofNat 64 n
/-- A trap's cause and TVAL. -/
abbrev Trp := Cause × Word

/-! ## Pointers (R46 to R48) -/

def pSpace (p : Word) : Nat := wbits p 63 60
def pRank (p : Word) : Nat := wbits p 59 50
def pOff (p : Word) : Nat := wbits p 49 0
def mkPtr (space rank off : Nat) : Word := wd (space * 2 ^ 60 + rank % 1024 * 2 ^ 50 + off % 2 ^ 50)
/-- p with its offset replaced. -/
def withOff (p : Word) (off : Nat) : Word := putBits p 0 50 off

/-- Does CONTROL offset `off` name a word of the layout (R107, R418, R421, R422)? -/
def ctlMapped (off : Nat) : Bool :=
  let die := bitsOf off 23 22
  let byte := bitsOf off 17 0
  decide (off < 2 ^ 24) &&
  (match bitsOf off 21 18 with
   | 0 => true
   | 1 => die == 0 && decide (byte < 512)
   | 2 => die == 0 && decide (byte < 1024)
   | 3 => die == 0 && decide (byte < 1024)
   | 4 => decide (byte < 256)
   | 5 => decide (byte < 512)
   | _ => false)

/-- The space, rank and range rules of R48 for n bytes at p. -/
def ptrOk (p : Word) (n : Nat) : Bool :=
  let o := pOff p
  let r := pRank p
  match pSpace p with
  | 0 => r == 0 && decide (o + n ≤ 2 ^ 50)
  | 1 => decide (r < 256) && decide (o + n ≤ 2 ^ 22)
  | 2 => decide (r < 256) && decide (o < 2 ^ 22) && decide (o % 2 ^ 18 + n ≤ 2 ^ 18)
  | 3 => r == 0 && decide (o < 12 * 2 ^ 25) && decide (o % 2 ^ 25 + n ≤ 2 ^ 25)
  | 4 => r == 0 && ctlMapped o && (n == 0 || (ctlMapped (o + n - 1) &&
      (o / 2 ^ 18 == (o + n - 1) / 2 ^ 18 || (o / 2 ^ 18 == 0 && (o + n - 1) / 2 ^ 18 == 1))))
  | 5 => decide (o + n ≤ 2 ^ 50)
  | _ => false

/-- Home addresses (R367). -/
def keyTile (g off : Nat) : Nat := 2 ^ 48 + g * 2 ^ 18 + off
def keyScratch (r off : Nat) : Nat := 2 ^ 49 + r * 2 ^ 22 + off
def keyBase (o : Nat) : Nat := 2 ^ 50 + o
def keyPod (node pa : Nat) : Nat := 2 ^ 64 + node * 2 ^ 52 + pa
def keyCtl (off : Nat) : Nat := 2 ^ 80 + off

/-- Home address of a pointer that needs no translation. -/
def keyOf (p : Word) : Option Nat :=
  match pSpace p with
  | 1 => some (keyScratch (pRank p) (pOff p))
  | 2 => some (keyTile (pRank p * 16 + pOff p / 2 ^ 18) (pOff p % 2 ^ 18))
  | 3 => some (keyBase (pOff p))
  | 4 => some (keyCtl (pOff p))
  | _ => none

/-- Does a physical HBM address exist (R249)? -/
def hbmExists (pa n : Nat) : Bool :=
  decide (pa / 2 ^ 36 < 12) && decide (pa % 2 ^ 36 + n ≤ 48 * 10 ^ 9)

/-! ## Memory (R240 to R246) -/

def read1 (m : List Host.Cell) (a : Nat) : Byte := tget m a unlisted
def write1 (m : List Host.Cell) (a : Nat) (v : Byte) : List Host.Cell := tset m a v unlisted
def readN (m : List Host.Cell) (a n : Nat) : List Byte := (List.range n).map fun i => read1 m (a + i)
def writeN (m : List Host.Cell) (a : Nat) : List Byte → List Host.Cell
  | [] => m
  | b :: l => writeN (write1 m a b) (a + 1) l
/-- The canonical form of memory: addresses rise and no listed byte is the unlisted one. -/
def Memory.wf : List Host.Cell → Bool
  | [] => true
  | [c] => c.2 != unlisted
  | c :: d :: m => c.2 != unlisted && decide (c.1 < d.1) && Memory.wf (d :: m)

/-- Lines touched by n bytes at a. -/
def linesOf (a n : Nat) : List Nat := if n = 0 then [] else (List.range ((a + n - 1) / 64 - a / 64 + 1)).map (· + a / 64)
def isPoison (s : State) (a n : Nat) : Bool := (linesOf a n).any fun l => s.poison.contains l

/-- A comparison of cwait (R386), on n bytes. -/
def cwHolds (c : CwCond) (n v cmp : Nat) : Bool :=
  match c with
  | .eq => decide (v = cmp % 2 ^ (8 * n))
  | .ne => decide (v ≠ cmp % 2 ^ (8 * n))
  | .geu => decide (cmp % 2 ^ (8 * n) ≤ v)
  | .ge => decide (sextInt (8 * n) cmp ≤ sextInt (8 * n) v)

/-- A waiting cwait at a home is evaluated again after a write to the n bytes at a (R386). -/
def wakeCwait (m : List Host.Cell) (poison : List Nat) (a n : Nat) (x : Access) : Access :=
  match x.kind, x.key, x.stat with
  | .cwait c cmp, some k, .dispatched =>
    if decide (k < 2 ^ 64) && decide (k < a + n) && decide (a < k + x.n) then
      if (linesOf k x.n).any (fun l => poison.contains l) then { x with stat := .performed, fault := some .ue }
      else
        let bs := readN m k x.n
        if cwHolds c x.n (ofBytes bs) cmp.toNat then { x with stat := .performed, data := bs, woken := true } else x
    else x
  | _, _, _ => x

/-- Write at a home, merging (R246): a line wholly covered is replaced and its poison cleared, a poisoned line partly
covered keeps its bytes. Answers whether some line was refused. -/
def homeWrite (s : State) (a : Nat) (bs : List Byte) : State × Bool :=
  let whole (l : Nat) := decide (a ≤ l * 64) && decide (l * 64 + 64 ≤ a + bs.length)
  let bad := (linesOf a bs.length).filter fun l => s.poison.contains l && !whole l
  let good := (List.range bs.length).filter fun i => !bad.contains ((a + i) / 64)
  let m := good.foldl (fun m i => write1 m (a + i) (nth bs i 0)) s.mem
  let q := s.poison.filter fun l => !((linesOf a bs.length).contains l && whole l)
  ({ s with mem := m, poison := q, net := { s.net with acc := s.net.acc.map (wakeCwait m q a bs.length) } }, !bad.isEmpty)

/-- Zero n bytes at a home, poison too. -/
def homeZero (s : State) (a n : Nat) : State :=
  { s with
    mem := s.mem.filter fun c => !(decide (a ≤ c.1) && decide (c.1 < a + n))
    poison := s.poison.filter fun l => !(decide (a ≤ l * 64) && decide (l * 64 < a + n)) }

/-! ## Causes and events (R403, R404, R423) -/

def Cause.code : Cause → Nat
  | .illegal => 1 | .configReject => 2 | .ptrSpace => 3 | .translation => 4 | .protection => 5 | .ue => 6 | .ueMerge => 7
  | .conflict => 8 | .accLive => 9 | .maskDeadline => 10 | .replayDiverge => 11 | .align => 12 | .rstack => 13
  | .podTimeout => 14 | .watchdog => 15 | .preempt => 16 | .killed => 17 | .software => 18

/-- TCAUSE of a trap (R404). -/
def Trap.tcause (t : Trap) (esc : Bool) : Word :=
  wd ((if t.agent = 0 then 0 else 2 ^ 63) + (if esc then 2 ^ 62 else 0) + t.agent.toNat * 2 ^ 44 + t.loc.toNat * 2 ^ 32
    + t.slot.toNat * 2 ^ 29 + t.sw.toNat * 2 ^ 16 + t.cause.code)

/-- Fields of a tenant block (R421). -/
def tblk (s : State) (n : Nat) : Wide := tget s.ctl.tenants n 0
def tw (s : State) (n i : Nat) : Word := wordAt (tblk s n) i
def setTw (s : State) (n i : Nat) (v : Word) : State :=
  updCtl s fun c => { c with tenants := tput c.tenants n (setWordAt (tget c.tenants n 0) i v) }
/-- PODTO in cycles of 1.1 GHz (R377, R421). -/
def podTo (s : State) (n : Nat) : Nat := (let p := wbits (tw s n 5) 55 40; if p = 0 then 100 else p) * 1100

/-- An event record (R423). -/
structure Event where
  type : Nat
  tenant : Nat
  /-- The tenant it is posted to, when that is not the one it names (R420). -/
  dest : Option Nat := none
  die : Nat := 0
  entry : Nat := 0
  sec : Nat := 0
  queue : Nat := 0
  w1 : Word := 0
  w2 : Word := 0
  w3 : Word := 0
  w4 : Word := 0
  user : Word := 0

/-- Post an event to its tenant: written and counted, or dropped and counted, then the NOTIFY message (R423). -/
def postEvent (s : State) (e : Event) : State :=
  let n := e.dest.getD e.tenant
  let w1 := tw s n 1
  let w2 := tw s n 2
  let lg := wbits w1 5 0
  let tail := wbits w2 63 32
  let head := wbits w2 31 0
  let w0 := e.type * 2 ^ 56 + e.tenant * 2 ^ 52 + e.die % 4 * 2 ^ 50 + e.entry % 4096 * 2 ^ 38 + e.sec % 4096 * 2 ^ 26 + e.queue % 64 * 2 ^ 20
  let words := [w0, e.w1.toNat, e.w2.toNat, e.w3.toNat, e.w4.toNat, e.user.toNat, tail * 2 ^ 32, now s]
  let a := wbits w1 51 12 * 4096 + 64 * (tail % 2 ^ lg)
  let ok := lg ≠ 0 ∧ (tail + 2 ^ 32 - head) % 2 ^ 32 ≠ 2 ^ lg ∧ hbmExists a 64
  let full := s.poison.contains (a / 64)
  let s1 :=
    if ok ∧ full = false then
      setTw (homeWrite s a (words.flatMap (toBytes 8))).1 n 2 (putBits w2 32 32 (tail + 1))
    else
      setTw s n 5 (putBits (tw s n 5) 0 32 (wbits (tw s n 5) 31 0 + 1))
  let notify := tw s1 n 3
  if notify = 0 then s1 else
    let (id, s2) := freshId s1
    updNet s2 fun x => { x with acc := x.acc ++ [{
      id := id, port := .device n, grp := id, kind := .write (toBytes 8 (wbits (tw s1 n 2) 63 32))
      ptr := notify, n := 8, posted := true, issued := now s }] }

/-! ## Entries, queues, ownership (R107 to R115, R421, R422) -/

def entryW (s : State) (k i : Nat) : Word := wordAt (tget s.ctl.entries k 0) i
def setEntryW (s : State) (k i : Nat) (v : Word) : State :=
  updCtl s fun c => { c with entries := tput c.entries k (setWordAt (tget c.entries k 0) i v) }
def eTenant (s : State) (k : Nat) : Nat := wbits (entryW s k 0) 63 60
def eQueue (s : State) (k : Nat) : Nat := wbits (entryW s k 0) 59 54
def ePcnt (s : State) (k : Nat) : Nat := wbits (entryW s k 0) 31 0
def eState (s : State) (k : Nat) : Nat := wbits (entryW s k 7) 63 60
/-- The resting states (R110). -/
def resting (st : Nat) : Bool := st == 0 || st == 4 || st == 5 || st == 6
def qword (s : State) (q : Nat) : Word := tget s.ctl.qctl q 0
def qOwner (s : State) (q : Nat) : Nat := wbits (qword s q) 63 60
/-- READY entries of a queue over the four dies (R113). -/
def nready (s : State) (q : Nat) : Nat := sumNat ((List.range 4).map fun d => (tget s.ctl.ready (d * 64 + q) []).length)
/-- The queue check of an arm (R115). -/
def armCheck (s : State) (k : Nat) : Bool :=
  let q := eQueue s k
  isSet (qword s q).toNat 59 && qOwner s q == eTenant s k

/-- STATE := READY and the entry joins its ready list (R114). -/
def makeReady (s : State) (k : Nat) : State :=
  let s1 := setEntryW s k 7 (putBits (entryW s k 7) 60 4 2)
  let key := k / 4096 * 64 + eQueue s k
  updCtl s1 fun c => { c with ready := tput c.ready key (tget c.ready key [] ++ [k]) }
/-- An entry leaves its ready list. -/
def unReady (s : State) (k : Nat) : State :=
  updCtl s fun c => { c with
    ready := c.ready.map fun p => (p.1, p.2.filter (· != k))
    disp := c.disp.map fun p => (p.1, { p.2 with ages := tdel p.2.ages k }) }
/-- Arm an entry with its PCNT as it stands (R110, R130). -/
def armEntry (s : State) (k : Nat) : State :=
  let s1 := setEntryW s k 7 (wd (1 * 2 ^ 60))
  if ePcnt s1 k = 0 then makeReady s1 k else s1
/-- dep.dec's effect (R128). -/
def decEntry (s : State) (k n : Nat) : State :=
  if eState s k = 1 ∧ n ≤ ePcnt s k then
    let s1 := setEntryW s k 0 (putBits (entryW s k 0) 0 32 (ePcnt s k - n))
    if ePcnt s1 k = 0 then makeReady s1 k else s1
  else s

def clusOwner (s : State) (r : Nat) : Nat := wbits (tget s.ctl.owners r 0) 3 0
def clusBusy (s : State) (r : Nat) : Bool := isSet (tget s.ctl.owners r 0).toNat 63

/-- Fields of a window entry (R421). -/
structure Window where
  owner : Nat
  v : Bool
  sram : Bool
  size : Nat
  base : Nat
def window (w : BitVec 128) : Window :=
  { owner := bitsOf w.toNat 63 60, v := isSet w.toNat 59, sram := isSet w.toNat 58
    size := bitsOf w.toNat 127 96, base := bitsOf w.toNat 95 64 }
/-- Does n bytes at a (physical address, or stack × 2^25 + offset) lie in one valid window of the kind that satisfies
`own`? -/
def inWindow (s : State) (own : Nat → Bool) (sram : Bool) (a n : Nat) : Bool :=
  s.ctl.windows.any fun p =>
    let w := window p.2
    w.v && w.sram == sram && own w.owner && decide (w.base * 65536 ≤ a) && decide (a + n ≤ (w.base + w.size) * 65536)

/-- Bits of a tenant block's word that the tenant may write. -/
def unitOf (off : Nat) : Nat := bitsOf off 21 18
/-- Entry key of a unit 0 offset. -/
def entryKey (off : Nat) : Nat := bitsOf off 23 22 * 4096 + bitsOf off 17 6

/-- May the tenant read the CONTROL word at `off` (R111, R113, R418, R421, R422)? -/
def ctlReadOk (s : State) (tn off : Nat) : Bool :=
  let byte := bitsOf off 17 0
  let die := bitsOf off 23 22
  tn == 0 ||
  (match unitOf off with
   | 0 => eTenant s (entryKey off) == tn
   | 1 => qOwner s (byte / 8) == tn
   | 2 => byte / 64 == tn
   | 3 => (window (tget s.ctl.windows (byte / 16) 0)).owner == tn
   | 4 => let l := getL s (die * 16 + byte / 16); l.v && wbits (wordAt l.img 0) 63 60 == tn
   | 5 => clusOwner s (die * 64 + byte / 8) == tn
   | _ => false)

/-- Could a write by the tenant to the CONTROL word at `off` be allowed in some state (R154)? -/
def ctlWriteOk (s : State) (tn off : Nat) : Bool :=
  let byte := bitsOf off 17 0
  tn == 0 ||
  (match unitOf off with
   | 0 => ctlReadOk s tn off
   | 1 => ctlReadOk s tn off
   | 2 => byte / 64 == tn && (byte % 64 / 8 == 2 || byte % 64 / 8 == 6)
   | 4 => ctlReadOk s tn off
   | _ => false)

/-- SST as shown (R418). -/
def Sst.code : Sst → Nat
  | .running => 0 | .frozen => 1 | .preempting => 2 | .preempted => 3 | .killing => 4

/-- The 8-byte CONTROL word at `off`. -/
def ctlWord (s : State) (off : Nat) : Word :=
  let byte := bitsOf off 17 0
  let die := bitsOf off 23 22
  match unitOf off with
  | 0 => entryW s (entryKey off) (byte % 64 / 8)
  | 1 => putBits (qword s (byte / 8)) 0 16 (nready s (byte / 8))
  | 2 => tw s (byte / 64) (byte % 64 / 8)
  | 3 => (tget s.ctl.windows (byte / 16) 0).extractLsb' (64 * (byte % 16 / 8)) 64
  | 4 =>
    let l := getL s (die * 16 + byte / 16)
    if byte % 16 / 8 = 1 then wd (l.save.toNat * 65536)
    else if l.v then
      wd (2 ^ 63 + l.sst.code * 2 ^ 60 + wbits (wordAt l.img 0) 63 60 * 2 ^ 52 + wbits (wordAt l.img 0) 59 54 * 2 ^ 46
        + l.entry % 4096 * 2 ^ 34)
    else 0
  | 5 => tget s.ctl.owners (die * 64 + byte / 8) 0
  | _ => 0

/-- The bytes of CONTROL space at `off`. -/
def ctlBytes (s : State) (off n : Nat) : List Byte :=
  (List.range n).map fun i => BitVec.ofNat 8 ((ctlWord s ((off + i) / 8 * 8)).toNat >>> (8 * ((off + i) % 8)))

/-- The parts of a range of CONTROL space, one for each word: offset and length (R446). -/
def ctlParts (o n : Nat) : List (Nat × Nat) :=
  (List.range ((o + n - 1) / 8 - o / 8 + 1)).map fun i =>
    let lo := max o ((o / 8 + i) * 8)
    (lo, min (o + n) ((o / 8 + i + 1) * 8) - lo)
/-- The pointer at which an access of n bytes breaks the ownership rule of R48, if it does: its own, or, in CONTROL space, that of
the first word's part that may not be accessed (R446). -/
def ownFault (s : State) (tn : Nat) (p : Word) (n : Nat) (write : Bool) : Option Word :=
  let own (b : Bool) : Option Word := if b then none else some p
  match pSpace p with
  | 1 => own (clusOwner s (pRank p) == tn)
  | 2 => own (clusOwner s (pRank p) == tn)
  | 3 => own (inWindow s (· == tn) true (pOff p) n)
  | 4 => ((ctlParts (pOff p) n).find? fun x => !(if write then ctlWriteOk else ctlReadOk) s tn (x.1 / 8 * 8)).map fun x => withOff p x.1
  | _ => none
/-- The ownership rule of R48 for an access of n bytes. -/
def ownsOk (s : State) (tn : Nat) (p : Word) (n : Nat) (write : Bool) : Bool := (ownFault s tn p n write).isNone

/-! ## Translation (R247 to R252) -/

/-- The end of a walk. -/
inductive WalkRes where
  | page (pa size : Nat) (wr : Bool)
  | absent
  | fail
  | poison
  deriving DecidableEq, Repr

/-- Index and size of the table at a level, and the page a leaf there maps (R247). -/
def lvlIndex (va : Nat) : Nat → Nat
  | 3 => bitsOf va 49 39 | 2 => bitsOf va 38 30 | 1 => bitsOf va 29 21 | _ => bitsOf va 20 16
def lvlPage : Nat → Nat
  | 2 => 2 ^ 30 | 1 => 2 ^ 21 | _ => 65536
def lvlTable : Nat → Nat
  | 3 => 16384 | 2 => 4096 | 1 => 4096 | _ => 256

/-- One table walk (R250): levels `level` down to 0, from table t; `inside` says whether every table read before lies in a window of
the tenant, which counts at the leaf. A table at no physical address cannot be read. -/
def walkFrom (s : State) (tn va : Nat) (write : Bool) : Bool → Nat → Nat → WalkRes
  | inside, level, t =>
    let a := t + 8 * lvlIndex va level
    if !hbmExists a 8 then .fail
    else if isPoison s a 8 then .poison
    else
      let inside := inside && inWindow s (· == tn) false t (lvlTable level)
      let pte := ofBytes (readN s.mem a 8)
      let v := isSet pte 63
      let lf := isSet pte 62
      let wr := isSet pte 61
      let addr := bitsOf pte 51 8 * 256
      if !v then .absent
      else if bitsOf pte 60 52 ≠ 0 ∨ bitsOf pte 7 0 ≠ 0 ∨ (lf = false ∧ wr = true) then .fail
      else if lf then
        if level = 3 then .fail
        else
          let size := lvlPage level
          if addr % size ≠ 0 then .fail
          else if !(inside && hbmExists addr size && inWindow s (· == tn) false addr size) then .fail
          else if write && !wr then .fail
          else .page addr size wr
      else
        match level with
        | 0 => .fail
        | l + 1 => if addr % lvlTable l ≠ 0 then .fail else walkFrom s tn va write inside l addr

/-- The walk of a virtual address of a tenant. -/
def walk (s : State) (tn va : Nat) (write : Bool) : WalkRes :=
  walkFrom s tn va write true 3 (wbits (tw s tn 0) 51 14 * 16384)

/-- A GLOBAL or POD range cut at 64 KiB: offsets and lengths. -/
def cutPages (o n : Nat) : List (Nat × Nat) :=
  (List.range ((o + n - 1) / 65536 - o / 65536 + 1)).map fun i =>
    let lo := max o ((o / 65536 + i) * 65536)
    let hi := min (o + n) ((o / 65536 + i + 1) * 65536)
    (lo, hi - lo)

/-- The rules of R48 where an access begins: of n bytes, or, in CONTROL space, where each word is judged by itself, of the first. -/
def startOk (p : Word) (n : Nat) : Bool := ptrOk p (if pSpace p = 4 then min n 1 else n)
/-- The first word of an access to CONTROL space that R48 or its unit does not let the tenant access (R446). -/
def ctlFault (s : State) (tn : Nat) (p : Word) (n : Nat) (write : Bool) : Option Trp :=
  (ctlParts (pOff p) n).findSome? fun x =>
    if !ctlMapped x.1 then some (.ptrSpace, withOff p x.1)
    else if !(if write then ctlWriteOk else ctlReadOk) s tn (x.1 / 8 * 8) then some (.protection, withOff p x.1)
    else none
/-- Checks of n bytes at p before translation, in the order of R94: PTR_SPACE, ALIGN, PROTECTION; in CONTROL space word by word
(R446). -/
def preCheck (s : State) (tn : Nat) (p : Word) (n al : Nat) (write : Bool) : Option Trp :=
  if !startOk p n then some (.ptrSpace, p)
  else if pOff p % al ≠ 0 then some (.align, p)
  else if pSpace p = 4 then ctlFault s tn p n write
  else (ownFault s tn p n write).map fun q => (.protection, q)
/-- The home that a translation entry gives l bytes at offset o of GLOBAL space, or of a peer's (R251). -/
def xlatHome (e : Xlat) (pod : Bool) (rank o l : Nat) (write : Bool) : Option Nat :=
  if e.pod == pod && (!pod || e.rank == rank) && decide (e.va ≤ o) && decide (o + l ≤ e.va + e.size) && (e.wr || !write) then
    some (if pod then keyPod rank (e.pa + (o - e.va)) else e.pa + (o - e.va))
  else none

/-- The translations a port holds. -/
def portPods (s : State) : PortId → List Xlat
  | .handler sp h => let x := getH s sp h; x.xlat.toList ++ x.pods
  | .stream sp sid => (getStream s sp sid).xlat.toList
  | .device n => tget s.ctl.pods n []
  | _ => []
/-- The walks and requests of a port's running word, or of a tenant's records, that have failed. -/
def portRefused (s : State) : PortId → List (Word × Cause)
  | .handler sp h => (getH s sp h).refused
  | .device n => tget s.ctl.refused n []
  | _ => []
/-- What a port has read from peers in the course of its work. -/
def portReads (s : State) : PortId → List (Word × List Byte)
  | .handler sp h => (getH s sp h).reads
  | .stream sp sid => (getStream s sp sid).reads
  | .device n => tget s.ctl.reads n []
  | _ => []
/-- A reading of a tenant's records is over: what it held is dropped. -/
def dropHeld (s : State) (tn : Nat) : State :=
  updCtl s fun c => { c with pods := tdel c.pods tn, refused := tdel c.refused tn, reads := tdel c.reads tn }
/-- What a handler's words hold of translations and of bytes of peers is dropped. -/
def dropReads (s : State) (sp h : Nat) : State := updH s sp h fun x => { x with pods := [], refused := [], reads := [] }
/-- A port asks for the translation of a page, by a walk or of the pod service, unless it waits for one already (R251, R252,
R431). -/
def askXlat (s : State) (port : PortId) (ptr : Word) (write : Bool) (clus : Option Nat := none) : State :=
  if s.net.acc.any fun a => a.port == port && a.tag == .probe then s
  else
    let (id, s1) := freshId s
    let pod := pSpace ptr == 5
    updNet s1 fun n => { n with
      walkQ := if pod then n.walkQ else n.walkQ ++ [id]
      acc := n.acc ++ [{
        id := id, port := port, grp := id, tag := .probe, kind := if write then .write [] else .read, ptr := ptr, n := 1
        stat := if pod then .walking else .walk, issued := now s, asked := now s, clus := clus }] }

/-- Why an access that a word makes in the course of its work does not go on: a trap, with the ordering machine as the word's reads
before it left that; a page whose translation its port does not hold; bytes of a peer, with what the word has read before them
and the ordering machine as that left it; an acquire of its port that is not complete (R370). -/
inductive Stop where
  | trap (t : Trp) (net : Net)
  | xlat (p : Word) (write : Bool)
  | peer (p : Word) (n : Nat) (got : List (Word × List Byte)) (net : Net)
  | order
  deriving DecidableEq, Repr
/-- Is an acquire of a port outstanding, for which everything later waits (R370, R372): a posted SC write? -/
def acqOut (s : State) (port : PortId) : Bool := s.net.acc.any fun a => a.port == port && a.posted && a.ord == .sc
/-- Is the fault of a posted SC write recorded on a port (R377)? -/
def acqFailed (s : State) : PortId → Bool
  | .handler sp h => match (getH s sp h).podFault with | some f => f.2.2 | none => false
  | _ => false
/-- The home of l bytes at offset o of GLOBAL space in what a port holds. -/
def heldHome (s : State) (port : PortId) (p : Word) (o l : Nat) (write : Bool) : Except Stop (Nat × Nat) :=
  let q := withOff p o
  match (portPods s port).findSome? fun e => xlatHome e false 0 o l write with
  | some k => .ok (k, l)
  | none => match (portRefused s port).find? fun x => pSpace x.1 == pSpace p && decide (pOff x.1 / 65536 = o / 65536) with
    | some x => .error (.trap (x.2, q) s.net)
    | none => .error (.xlat q write)
/-- Home ranges of n bytes at p for an access of a port, whose translation entry serves it (R251): checked in the order of R94.
Bytes of a peer are reached by accesses of their own. -/
def resolveHeld (s : State) (port : PortId) (tn : Nat) (p : Word) (n al : Nat) (write : Bool) : Except Stop (List (Nat × Nat)) :=
  match preCheck s tn p n al write with
  | some t => .error (.trap t s.net)
  | none =>
    if n = 0 then .ok []
    else match keyOf p with
      | some k => .ok [(k, n)]
      | none =>
        if pSpace p = 5 then match (portRefused s port).find? fun x => decide (p.toNat ≤ x.1.toNat) && decide (x.1.toNat < p.toNat + n) with
          | some x => .error (.trap (x.2, x.1) s.net)
          | none => .error (.peer p n s.cur.reads s.net)
        else (cutPages (pOff p) n).mapM fun x => heldHome s port p x.1 x.2 write
/-- The same of an access that the port's order holds until every earlier acquire of the port is complete (R370), or meets what became
of one (R377). -/
def resolveAt (s : State) (port : PortId) (tn : Nat) (p : Word) (n al : Nat) (write : Bool) : Except Stop (List (Nat × Nat)) :=
  if (acqOut s port || acqFailed s port) && n != 0 && (preCheck s tn p n al write).isNone then .error .order else resolveHeld s port tn p n al write

/-! ## The accumulator store (R240, R246) -/

/-- Home of byte o of the accumulator store of tile t, storage that no pointer reaches. -/
def keyAcc (t o : Nat) : Nat := 2 ^ 51 + t * 2 ^ 17 + o
/-- n bytes of the accumulator store of a tile, whole lines of which are replaced, are no longer poisoned. -/
def cleanAcc (s : State) (t o n : Nat) : State :=
  { s with poison := s.poison.filter fun l => decide (l < keyAcc t o / 64) || decide (keyAcc t (o + n) / 64 ≤ l) }
/-- The accumulator store of a tile becomes zero. -/
def zeroAcc (s : State) (t : Nat) : State := cleanAcc (updTile s t fun T => { T with acc := [] }) t 0 (2 ^ 17)

/-! ## Deterministic mode (R391, R392): who is ordered after whom -/

/-- A number for each port, and for a job, which has a clock of its own. -/
def jobNum (uid : Nat) : Nat := 8 * uid + 6
def PortId.num : PortId → Nat
  | .handler sp h => 8 * (sp * 32 + h)
  | .stream sp sid => 8 * (sp * 32 + sid) + 1
  | .slots t => 8 * t + 2
  | .slot t e => 8 * (t * 8 + e) + 3
  | .matrix t => 8 * t + 4
  | .device n => 8 * n + 5

/-- Pointwise greater of two clocks. -/
def clockJoin (a b : Tab Nat) : Tab Nat := b.foldl (fun t p => if tget t p.1 0 < p.2 then tput t p.1 p.2 else t) a
def clockOf (s : State) (p : Nat) : Tab Nat := tget s.net.clocks p []
/-- Everything ordered before port `p` now is ordered before object `o`. -/
def publish (s : State) (p o : Nat) : State :=
  updNet s fun n => { n with objs := tput n.objs o (clockJoin (tget n.objs o []) (tget n.clocks p [])) }
/-- Everything ordered before object `o` is ordered before what port `p` does next. -/
def observe (s : State) (p o : Nat) : State :=
  updNet s fun n => { n with clocks := tput n.clocks p (clockJoin (tget n.clocks p []) (tget n.objs o [])) }
/-- Port q's past is ordered before port p's future. -/
def orderPorts (s : State) (q p : Nat) : State :=
  updNet s fun n => { n with clocks := tput n.clocks p (clockJoin (tget n.clocks p []) (tget n.clocks q [])) }
/-- Objects that carry an order: a line, the word of a barrier, a phase of a span, a full/empty bit. -/
def objLine (l : Nat) : Nat := 4 * l
def objBar (k : Nat) : Nat := 4 * (k / 8) + 1
def objPhase (sp y : Nat) : Nat := 4 * (sp * 2 ^ 32 + y) + 2
def objTile (t x : Nat) : Nat := 4 * (t * 1024 + x) + 3
/-- What the arm and the decrements of an entry released, and what the retired sections of a launch did (R126, R427). -/
def objEntry (k : Nat) : Nat := 4 * (2 ^ 40 + k) + 3
def objLaunch (slot : Nat) : Nat := 4 * (2 ^ 41 + slot) + 3

/-- The number of no span: that of the device's own port, and of a tile that no span holds. -/
def noSpan : Nat := 2 ^ 32
/-- The span whose port it is. -/
def portSpan (s : State) : PortId → Nat
  | .handler sp _ => sp
  | .stream sp _ => sp
  | .slots t => ((getClus s (t / 16)).span).getD noSpan
  | .slot t _ => ((getClus s (t / 16)).span).getD noSpan
  | .matrix t => ((getClus s (t / 16)).span).getD noSpan
  | .device _ => noSpan

/-- The queues whose tokens carry an order: a link's buffer, the contributions and the results of an rnet slot, the fabric ports,
a channel, the end-of-transfer tokens of a span. -/
def qBuf (t c : Nat) : Nat := 4 * (t * 64 + c)
def qRound (t e : Nat) : Nat := qBuf t (48 + e)
def qResult (t e : Nat) : Nat := qBuf t (56 + e)
def qFi (sp n : Nat) : Nat := 4 * (sp * 64 + n) + 1
def qFo (sp n : Nat) : Nat := 4 * (sp * 64 + n) + 2
def qChan (sp ch : Nat) : Nat := 4 * (sp * 64 + ch) + 3
def qToks (sp : Nat) : Nat := 4 * (2 ^ 40 + sp) + 1
/-- A token with clock c joins queue q of `len` tokens, `behind` places before its end; a queue that was emptied starts afresh. -/
def markAdd (s : State) (sp q len behind : Nat) (c : Tab Nat) : State :=
  if (getSpan s sp).det then
    updNet s fun n =>
      let l := if len = 0 then [] else tget n.marks q []
      { n with marks := tput n.marks q (l.take (len - behind) ++ c :: l.drop (len - behind)) }
  else s
/-- What token i of a queue carries. -/
def markOf (s : State) (q i : Nat) : Tab Nat := nth (tget s.net.marks q []) i []
/-- Token i leaves a queue. -/
def markDrop (s : State) (sp q i : Nat) : State :=
  if (getSpan s sp).det then updNet s fun n => { n with marks := tput n.marks q ((tget n.marks q []).eraseIdx i) } else s
/-- What a port does next is ordered after what token i of a queue carries. -/
def markJoin (s : State) (sp : Nat) (p : PortId) (q i : Nat) : State :=
  if (getSpan s sp).det then
    updNet s fun n => { n with clocks := tput n.clocks p.num (clockJoin (tget n.clocks p.num []) (markOf s q i)) }
  else s
/-- A port takes the head of a queue. -/
def markTake (s : State) (sp : Nat) (p : PortId) (q : Nat) : State := markDrop (markJoin s sp p q 0) sp q 0

/-- Does an access of port p, counted by clock c, to the lines conflict (R391)? -/
def detConflict (s : State) (p : PortId) (c : Nat) (ls : List Nat) (write : Bool) (sc : Option Nat) : Bool :=
  let k := clockOf s c
  s.net.det.any fun r =>
    ls.contains r.line && (write || r.write) && r.port != p.num && !(sc.isSome && r.sc == sc) &&
    decide (tget k r.comp 0 < r.at_) && (let l := getL s r.slot; l.v && l.sst != .killing)

/-- Record a performed access of a span with DET = 1. -/
def detRecord (s : State) (p : PortId) (c key n : Nat) (write : Bool) (sc : Option Nat) : State :=
  let k := tget (clockOf s c) c 0 + 1
  let t := tput (clockOf s c) c k
  updNet s fun x => { x with
    clocks := tput x.clocks c t
    det := x.det ++ (linesOf key n).map fun l => { line := l, port := p.num, comp := c, at_ := k, key := key, n := n, clk := if write then t else []
                                                   write := write, sc := sc, slot := (getSpan s (portSpan s p)).slot } }

/-- Does an access take part in conflicts: of a span with DET = 1, to a line of this module other than CONTROL (R391, R393)? -/
def detOn (s : State) (p : PortId) (key : Nat) : Bool := (getSpan s (portSpan s p)).det && decide (key < 2 ^ 64)
/-- Check and record an access that clock c counts: none on a conflict. -/
def detStepAs (s : State) (p : PortId) (c key n : Nat) (write : Bool) (sc : Option Nat) : Option State :=
  if !detOn s p key then some s
  else if detConflict s p c (linesOf key n) write sc then none
  else some (detRecord s p c key n write sc)
/-- Of an access that its port's clock counts. -/
def detStep (s : State) (p : PortId) (key n : Nat) (write : Bool) (sc : Option Nat) : Option State := detStepAs s p p.num key n write sc

/-- What is ordered before a reader of byte b who observes the write that left it (R378). -/
def lastWrite (s : State) (b : Nat) : Tab Nat :=
  match s.net.det.reverse.find? fun r => r.write && r.line == b / 64 && decide (r.key ≤ b) && decide (b < r.key + r.n) with
  | some r => r.clk
  | none => []
/-- An acquire that clock c counts observes the writes that left the n bytes at `key`, and what a release of another launch has left on
their lines (R378). -/
def acquire (s : State) (c key n : Nat) : State :=
  let s1 := (linesOf key n).foldl (fun s l => observe s c (objLine l)) s
  if s1.net.det.isEmpty then s1
  else updNet s1 fun x => { x with
    clocks := tput x.clocks c ((List.range n).foldl (fun t i => clockJoin t (lastWrite s1 (key + i))) (tget x.clocks c [])) }
/-- A write of a port outside deterministic mode leaves its past on the lines; within it the record of the write keeps that. -/
def release (s : State) (p : PortId) (key n : Nat) : State :=
  if detOn s p key then s else (linesOf key n).foldl (fun s l => publish s p.num (objLine l)) s
/-- What clock c counts in phase y of a span comes after the writes of the phases that had completed before y began (R373, R378). -/
def seePhases (s : State) (sp c : Nat) (y : Option Nat) : State :=
  match y with
  | some y => if (getSpan s sp).det then
      (getSpan s sp).phaseEnd.foldl (fun s z => if z.2 ≤ y then observe s c (objPhase sp z.1) else s) s else s
  | none => s
/-- The class of barrier updates, which never conflict with one another (R393). -/
def barClass : Nat := 5

/-- The lines a span's port writes join the digest sets (R397, R398): GLOBAL and BASE lines by their pointer. A line that is still
poisoned after the write has discarded it (R246). -/
def digAdd (s : State) (sp : Nat) (ptr : Word) (key n : Nat) : State :=
  let spn := getSpan s sp
  if pSpace ptr = 0 ∨ pSpace ptr = 3 then
    let new := ((linesOf key n).filter fun l => !s.poison.contains l).map fun l => (l, withOff ptr (pOff ptr / 64 * 64 + (l - key / 64) * 64))
    let add (w : List (Nat × Word)) := new.foldl (fun w x => if w.contains x then w else w ++ [x]) w
    let s1 := if spn.digOn then updSpan s sp fun p => { p with digW := add p.digW } else s
    if spn.det then updL s1 spn.slot fun l => { l with digW := add l.digW } else s1
  else s

/-- The hash of a line under its pointer (R397). -/
def lineHash (s : State) (x : Nat × Word) : Nat × Nat :=
  let v := readN s.mem (x.1 * 64) 64
  let w (i : Nat) : W32 := w32 (ofBytes ((v.drop (4 * i)).take 4))
  let h0 : Q4 := (w32 x.2.toNat, w32 (x.2.toNat / 2 ^ 32), 4, 6)
  let h := [0, 1, 2, 3].foldl (fun h j => lh128 (0, 0, 0, 0) (q4xor h (w (4 * j), w (4 * j + 1), w (4 * j + 2), w (4 * j + 3)))) h0
  (h.2.1.toNat * 2 ^ 32 + h.1.toNat, h.2.2.2.toNat * 2 ^ 32 + h.2.2.1.toNat)

/-- DIGLO and DIGHI of a set of lines. -/
def digest (s : State) (w : List (Nat × Word)) : Word × Word :=
  w.foldl (fun a x => let h := lineHash s x; (a.1 + wd h.1, a.2 + wd h.2)) (0, 0)

/-! ## Accesses a word makes inside its one step -/

/-- The pointer of a part that begins d bytes into an access at p (R251). -/
def partPtr (p : Word) (d : Nat) : Word := if d = 0 then p else withOff p (pOff p + d)

/-- What the port's word has read from a peer at p already. -/
def readBefore (s : State) (port : PortId) (p : Word) (n : Nat) : Option (List Byte) :=
  ((portReads s port).find? fun r => r.1 == p && r.2.length == n).map (·.2)
/-- Read n bytes through a port, as one access of each page part: values, or why not (R94, R246, R391). -/
def rdMem (s : State) (port : PortId) (tn : Nat) (p : Word) (n al : Nat) : Except Stop (List Byte × State) :=
  match readBefore s port p n with
  | some bs => .ok (bs, s)
  | none => do
    let rs ← resolveAt s port tn p n al false
    rs.foldlM (fun (acc : List Byte × State) (r : Nat × Nat) =>
      if decide (2 ^ 80 ≤ r.1) then pure (acc.1 ++ ctlBytes acc.2 (r.1 - 2 ^ 80) r.2, acc.2)
      else if isPoison acc.2 r.1 r.2 then throw (.trap (.ue, partPtr p acc.1.length) acc.2.net)
      else match detStep acc.2 port r.1 r.2 false none with
        | none => throw (.trap (.conflict, partPtr p acc.1.length) acc.2.net)
        | some s' => pure (acc.1 ++ readN s'.mem r.1 r.2, s')) ([], s)

/-- Read n bytes of a record or of the program: a read that takes no part in conflicts (R393). -/
def readPlain (s : State) (port : PortId) (tn : Nat) (p : Word) (n al : Nat) : Except Stop (List Byte) :=
  match readBefore s port p n with
  | some bs => .ok bs
  | none => do
    let rs ← resolveHeld s port tn p n al false
    let parts ← rs.mapM fun r =>
      if decide (2 ^ 80 ≤ r.1) then pure (ctlBytes s (r.1 - 2 ^ 80) r.2)
      else if isPoison s r.1 r.2 then throw (.trap (.ue, p) s.net)
      else pure (readN s.mem r.1 r.2)
    pure (parts.flatMap id)

/-! ## Registers (R79, R95, R139) -/

/-- s[r] of a handler. -/
def rdReg (s : State) (sp h : Nat) (r : Reg) : Word :=
  if r = 0 then 0
  else if r.toNat < 32 then tget (getH s sp h).regs r.toNat 0
  else tget (getSpan s sp).shared r.toNat 0

/-- s[r] := v; a write to s0 is discarded. -/
def wrReg (s : State) (sp h : Nat) (r : Reg) (v : Word) : State :=
  if r = 0 then s
  else if r.toNat < 32 then updH s sp h fun x => { x with regs := tset x.regs r.toNat v 0 }
  else updSpan s sp fun p => { p with shared := tset p.shared r.toNat v 0 }

/-- f[n] of a flags byte. -/
def flagBit (f : BitVec 8) (n : BitVec 3) : Bool := f.getLsbD n.toNat
def setFlag (f : BitVec 8) (n : BitVec 3) (v : Bool) : BitVec 8 := putBits f n.toNat 1 (if v then 1 else 0)

/-- Apply a word's register and flag writes as a whole (R82). -/
def applyWrites (s : State) (sp h : Nat) (w : Writes) : State :=
  let s1 := w.regs.foldl (fun s p => wrReg s sp h p.1 p.2) s
  match w.flag with
  | none => s1
  | some (n, v) => updH s1 sp h fun x => { x with flags := setFlag x.flags n v }

/-- Loop counter k. -/
def getK (x : Handler) (k : BitVec 2) : W32 :=
  match k.toNat with
  | 0 => x.k0 | 1 => x.k1 | 2 => x.k2 | _ => x.k3
def setK (x : Handler) (k : BitVec 2) (v : W32) : Handler :=
  match k.toNat with
  | 0 => { x with k0 := v } | 1 => { x with k1 := v } | 2 => { x with k2 := v } | _ => { x with k3 := v }

/-! ## The next address (R83 to R85, R136) -/

/-- The handler stops: PC := ENTRY, and a PEND starts it again at once (R136), as does a delivered trap that waits for the stop,
without regard to PEND (R406). -/
def stopH (x : Handler) : Handler :=
  { x with pc := x.entry, rstack := [], op := none, miss := false
           st := if x.pend || x.trapWait then .runnable else .stopped, pend := x.pend && x.trapWait, trapWait := false }
/-- The handler starts at ENTRY (R136). -/
def startH (x : Handler) : Handler :=
  { x with pc := x.entry, rstack := [], op := none, miss := false, st := .runnable, fresh := true }

/-- NX evaluated for the word at `pc`, on the handler as the operation left it; `ch` says whether a channel holds an
entry, `s` reads a register (R83). -/
def nextAddr (nx : Nx) (pc : BitVec 24) (ch : BitVec 6 → Bool) (sreg : Reg → Word) (x : Handler) : Handler :=
  let x := { x with op := none, st := .runnable, fresh := true, pods := [], refused := [], reads := [] }
  match nx with
  | .next => { x with pc := pc + 1 }
  | .go d => { x with pc := pc + d.signExtend 24 }
  | .ift f d => { x with pc := if flagBit x.flags f then pc + d.signExtend 24 else pc + 1 }
  | .iff f d => { x with pc := if flagBit x.flags f then pc + 1 else pc + d.signExtend 24 }
  | .loop k d =>
    let v := getK x k - 1
    { setK x k v with pc := if v = 0 then pc + 1 else pc + d.signExtend 24 }
  | .call d => { x with pc := pc + d.signExtend 24, rstack := (pc + 1) :: x.rstack }
  | .ret => { x with pc := x.rstack.headD 0, rstack := x.rstack.tail }
  | .wait c => { x with pc := pc + 1, st := if ch c then .runnable else .waiting c }
  | .case mk r => { x with pc := pc + 1 + ((sreg r) &&& mk.zeroExtend 64).truncate 24 }
  | .stop => stopH x

/-- Stage 3 of a word (R82): NX of the word of handler h at `pc`. -/
def evalNx (s : State) (sp h : Nat) (pc : BitVec 24) (nx : Nx) : State :=
  let p := getSpan s sp
  updH s sp h (nextAddr nx pc (fun c => !(tget p.ch c.toNat []).isEmpty) (rdReg s sp h))

/-- Note that the word of handler h has written these shared registers at the end of cycle c (R139). -/
def noteWrites (s : State) (sp h c : Nat) (w : Writes) : State :=
  let rs := w.regs.filter fun x => decide (32 ≤ x.1.toNat)
  if rs.isEmpty then s
  else updSpan s sp fun p => { p with
    sharedAt := rs.foldl (fun t x => tput t x.1.toNat (c, (tget p.hs h {}).issued)) p.sharedAt }
/-- A word completes: its writes land as a whole, then NX is evaluated. -/
def finishWord (s : State) (sp h : Nat) (pc : BitVec 24) (w : Writes) (nx : Nx) : State :=
  evalNx (noteWrites (applyWrites s sp h w) sp h (now s) w) sp h pc nx
/-- Has a word that issued later written register r at the end of cycle c or later, so that its value remains (R139)? -/
def overtaken (m : Tab (Nat × Nat)) (c issued r : Nat) : Bool :=
  match tfind m r with
  | some (d, i) => decide (c ≤ d) && decide (issued < i)
  | none => false
/-- Those of a word's writes that remain when its operation stage ends with cycle c (R139). -/
def standing (s : State) (sp h c : Nat) (w : Writes) : Writes :=
  { w with regs := w.regs.filter fun x => !overtaken (getSpan s sp).sharedAt c (getH s sp h).issued x.1.toNat }
/-- A word whose operation stage has outlasted its issue cycle and ends with cycle c completes; its handler may issue in the cycle
after c (R82, R138, R139). -/
def landWord (s : State) (sp h : Nat) (pc : BitVec 24) (c : Nat) (w : Writes) (nx : Nx) : State :=
  let w := standing s sp h c w
  let s1 := evalNx (noteWrites (applyWrites s sp h w) sp h c w) sp h pc nx
  if c < now s then updH s1 sp h fun x => { x with fresh := false } else s1

/-! ## Kill (R416, R417) -/

/-- The clusters of an RH × RW region (R47, R119), in row-major order. -/
def rectRanks (a rh rw : Nat) : List Nat := (List.range rh).flatMap fun y => (List.range rw).map fun x => a + 8 * y + x
/-- Those of a span's region. -/
def regionRanks (p : Span) : List Nat := rectRanks p.anchor p.rh p.rw
/-- The residency tags of the regions that overlap some clusters are discarded, on all their clusters (R120). -/
def dropResid (s : State) (rs : List Nat) : State :=
  let one (s : State) (r : Nat) : State := match (getClus s r).resid with
    | none => s
    | some t => (r :: rectRanks t.anchor t.rh t.rw).foldl (fun s c =>
        if (getClus s c).resid = some t then updClus s c fun x => { x with resid := none } else s) s
  rs.foldl one s
/-- The spans of a Bellwether slot, placed or saved. -/
def spansOf (s : State) (slot : Nat) : List Nat := (s.spans.filter fun p => p.2.live && p.2.slot == slot).map (·.1)

/-- The span stops without completing anything; undispatched accesses are discarded (R416, steps 1 and 2). -/
def haltSpan (s : State) (sp : Nat) : State :=
  let haltH (x : Nat × Handler) : Nat × Handler :=
    (x.1, { x.2 with st := .stopped, op := none, held := none, trapWait := false, pend := false, miss := false, attTodo := [], attHeld := [], attSeq := [], attAbsent := [] })
  let haltS (x : Nat × Stream) : Nat × Stream := (x.1, { x.2 with jobs := [], pass := false, resp := [] })
  let s1 := updSpan s sp fun p => { p with
    hs := p.hs.map haltH, streams := p.streams.map haltS, tree := {}, sys := { p.sys with arr := [], epi := [] },
    ended := true, trap := none, fabric := none, faulted := none, frozen := false, toSys := false, cols := [], bind := none }
  let keep (a : Access) : Bool := match a.port with
    | .handler p _ => p != sp || a.stat == .dispatched || a.stat == .performed || a.stat == .walking
    | .stream p _ => p != sp || a.stat == .dispatched || a.stat == .performed || a.stat == .walking
    | _ => true
  updNet s1 fun n => { n with acc := n.acc.filter keep, bars := n.bars.filter fun b => b.sp != sp }

/-- KPEND of a tenant, by `d`. -/
def addKpend (s : State) (tn : Nat) (f : Nat → Nat) : State :=
  setTw s tn 7 (putBits (tw s tn 7) 0 8 (f (wbits (tw s tn 7) 7 0)))

/-- The record of a kill that delivered no trap (R444): its code, the lowest section among the launch's spans, the PC of
handler 0 of that span. -/
def killRecord (s : State) (slot : Nat) (c : Cause) : Word × Nat × Word :=
  let low := (spansOf s slot).foldl (fun (m : Option Nat) sp => match m with
    | some q => if (getSpan s sp).sec < (getSpan s q).sec then some sp else m
    | none => some sp) none
  match low with
  | some sp => (wd c.code, (getSpan s sp).sec, wd ((getH s sp 0).pc.toNat * 16))
  | none => (wd c.code, 0, 0)

/-- Kill the launch of a Bellwether slot, with a code and its event's fields (R416); its queue's progress timer returns to 0
(R419). -/
def killWith (s : State) (slot : Nat) (c : Cause) (r : Word × Nat × Word) : State :=
  let l := getL s slot
  if !l.v || l.sst == .killing then s
  else
    let s1 := setEntryW (dropHeld s (wbits (wordAt l.img 0) 63 60)) l.entry 7 (wd (6 * 2 ^ 60 + c.code * 2 ^ 52))
    let s2 := (spansOf s1 slot).foldl haltSpan s1
    let s3 := updL s2 slot fun l => { l with sst := .killing, kill := r }
    let s4 := updCtl s3 fun x => { x with place := x.place.map fun p => (p.1, p.2.filter fun q => q.1 != slot) }
    let q := wbits (wordAt l.img 0) 59 54
    let s5 := updCtl s4 fun x => { x with dogs := tput x.dogs q { tget x.dogs q {} with timer := 0 } }
    addKpend s5 (wbits (wordAt l.img 0) 63 60) (· + 1)
def killSlot (s : State) (slot : Nat) (c : Cause) : State := killWith s slot c (killRecord s slot c)

/-- The Bellwether slot that runs an entry. -/
def slotOfEntry (s : State) (k : Nat) : Option Nat :=
  (s.ctl.launches.find? fun p => p.2.v && p.2.entry == k && !(p.2.sst == .killing)).map (·.1)

/-- Kill an entry whatever its state (R416, R417). -/
def killEntry (s : State) (k : Nat) (c : Cause) : State :=
  if eState s k = 1 ∨ eState s k = 2 then setEntryW (unReady s k) k 7 (wd (6 * 2 ^ 60 + c.code * 2 ^ 52))
  else if eState s k = 3 then
    match slotOfEntry s k with
    | some slot => killSlot s slot c
    | none => s
  else s

/-! ## Traps and their delivery (R405 to R410) -/

/-- The event of a trap that no handler takes (R407). -/
def trapEvent (s : State) (sp : Nat) (t : Trap) (esc : Bool) : State :=
  let p := getSpan s sp
  let e := tget s.ctl.entries p.entry 0
  postEvent s { type := t.cause.code, tenant := p.tenant.toNat, die := p.die, entry := p.entry, sec := p.sec
                queue := wbits (wordAt e 0) 59 54, w1 := t.tcause esc, w2 := t.tval
                w3 := wd (t.pc.toNat * 16 + t.h), w4 := t.cbmp, user := wordAt (getL s p.slot).img 6 }

/-- TCAUSE, TVAL, TPC, THND and CBMP written as one step (R406). -/
def writeTrapCsrs (p : Span) (t : Trap) : Span :=
  let set (c : Tab Word) (k : Nat) (v : Word) := tset c k v 0
  { p with csr := set (set (set (set (set p.csr 0x20 (t.tcause false)) 0x21 t.tval) 0x22 (wd t.pc.toNat)) 0x23 (wd t.h)) 0x24 t.cbmp }

/-- The trap that would be delivered next: a recorded fabric fault, else that of the lowest held handler (R408). -/
def nextTrap (p : Span) : Option Trap :=
  match p.fabric with
  | some t => some t
  | none => ((List.range 16).filterMap fun h => (tget p.hs h {}).held).head?

/-- Is handler 0 BLOCKED in a step or grp.close (R406): its tree runs, or it waits to begin? -/
def inTree (p : Span) : Bool :=
  match (tget p.hs 0 {}).op with
  | some (.tree _) => true
  | some (.wait (.step ..) ..) => true
  | some (.wait (.stepKeep ..) ..) => true
  | some (.wait (.grpClose ..) ..) => true
  | _ => false
/-- A fabric fault names the word at which handler 0 stands (R404). -/
def placeTrap (p : Span) (t : Trap) : Trap := if t.agent = 0 then t else { t with pc := (tget p.hs 0 {}).pc, h := 0 }

/-- Delivery (R406, R407): nothing while a trap is delivered; to system software with TEN = 0; else the trap CSRs are written and
the trap handler's MASK is cleared, and it starts at ENTRY: at once when it is stopped or the trap is its own, else when it stops. -/
def deliver (s : State) (sp : Nat) : State :=
  let p := getSpan s sp
  if p.trap.isSome then s
  else
    match (nextTrap p).map (placeTrap p) with
    | none => s
    | some t =>
      let th := tget p.hs p.thnd {}
      if p.ten = false ∨ (t.agent ≠ 0 ∧ p.thnd = 0 ∧ inTree p = true) then
        let s1 := updSpan s sp fun p => { p with trap := some t, toSys := true, frozen := true, fabric := none }
        let s2 := updL s1 p.slot fun l => { l with sst := if l.sst = .running then .frozen else l.sst }
        trapEvent s2 sp t false
      else if t.agent = 0 ∧ t.h = p.thnd then
        updSpan s sp fun p =>
          let p := writeTrapCsrs { p with trap := some t } t
          { p with hs := tput p.hs p.thnd (startH { tget p.hs p.thnd {} with held := none, mask := false }) }
      else
        updSpan s sp fun p =>
          let p := writeTrapCsrs { p with trap := some t, fabric := if t.agent = 0 then p.fabric else none } t
          let x := { tget p.hs p.thnd {} with mask := false }
          { p with hs := tput p.hs p.thnd (if th.st = .stopped then startH x else { x with trapWait := true }) }

/-- A control word traps (R405): the handler is held at its word with its trap recorded, then delivery is tried; a trap of
the trap handler while one is delivered to it is a double trap (R408). -/
def raiseTrapFull (s : State) (t : Trap) (sp : Nat) : State :=
  let p := getSpan s sp
  let s1 := updH s sp t.h fun x => { x with
    held := some t, op := none, st := .blocked, pc := t.pc, miss := false, pods := [], refused := [], reads := [] }
  if p.ten && t.h == p.thnd && p.trap.isSome && !p.toSys then
    killWith s1 p.slot t.cause (t.tcause true, p.sec, wd (t.pc.toNat * 16 + t.h))
  else deliver s1 sp

/-- A trap of the word that is being issued. -/
def raiseTrap (s : State) (c : Cause) (tval : Word) : State :=
  raiseTrapFull s { cause := c, tval := tval, pc := s.cur.pc, h := s.cur.h } s.cur.sp

/-- Does trap t come before u among the faults of one cycle (R409)? -/
def faultBefore (t u : Trap) : Bool :=
  let key (x : Trap) : Nat := (x.agent.toNat * 4096 + x.loc.toNat) * 8 + x.slot.toNat
  decide (key t < key u)
/-- A fabric agent faults (R405, R409): the span freezes when the cycle ends, and of the faults of one cycle that of the lowest
agent, place and slot is the one recorded. -/
def fabricFault (s : State) (sp : Nat) (t : Trap) : State :=
  if (getSpan s sp).frozen then s
  else updSpan s sp fun p => { p with faulted := match p.faulted with
    | some u => if faultBefore t u then some t else some u
    | none => some t }
/-- The span freezes after a cycle in which a fabric agent has faulted: the fault is recorded, and delivery is tried (R409). -/
def freezeDue (s : State) (sp : Nat) : State :=
  match (getSpan s sp).faulted with
  | none => s
  | some t => deliver (updSpan s sp fun p => { p with frozen := true, faulted := none, fabric := some t }) sp

/-- Fields of a job descriptor (R263). -/
def jDesc (j : Job) (i : Nat) : Word := nth j.desc i 0
def jN (j : Job) : Nat := wbits (jDesc j 4) 6 0
def jRb (j : Job) : Nat := wbits (jDesc j 3) 16 0
/-- Do the destinations of elements e and f overlap. -/
def jobClash (j : Job) (e f : Nat) : Bool :=
  match tfind j.ptrs e, tfind j.ptrs f with
  | some (_, d), some (_, d') => decide (d.toNat < d'.toNat + jRb j) && decide (d'.toNat < d.toNat + jRb j)
  | _, _ => false
/-- The elements whose destination that of a higher one overlaps, ascending (R396). -/
def jobOver (j : Job) : List Nat :=
  (List.range (jN j)).filter fun e => (List.range (jN j)).any fun f => decide (e < f) && jobClash j e f
/-- A faulted job goes on with the elements whose bits are clear (R266); those begun before the fault are not new requests. -/
def jobResume (j : Job) : Job := if j.faulted then { j with faulted := false, late := true, redo := [] } else j

/-- The span resumes (R410): faulted streams reissue, jobs perform what is clear. -/
def resumeSpan (p : Span) : Span :=
  { p with frozen := false
           streams := p.streams.map fun (x : Nat × Stream) =>
             (x.1, if x.2.st = .faulted then
               { x.2 with st := .active, fault := none, jobs := x.2.jobs.map jobResume } else x.2) }

/-- The held handler of a delivered trap goes on at `pc`, or stops (R412). -/
def endHold (p : Span) (h : Nat) (m : EretMode) (pc : BitVec 24) : Span :=
  let x := { tget p.hs h {} with held := none }
  let x := match m with
    | .retry => { x with st := .runnable, pc := pc, op := none }
    | .skip => { x with st := .runnable, pc := pc + 1, op := none }
    | .stop => stopH x
  { p with hs := tput p.hs h x }
/-- Return from the delivered trap (R412): the span's part. With `frz`, TCAUSE.FRZ as it reads, the span resumes and a handler that
the trap holds goes on at its own PC; without it the held handler goes on at TPC, behind it, or stops. A fabric fault holds no
handler and no word is re-issued after it: whatever FRZ reads, the span is released. Software that has changed FRZ meets the case
it wrote (notes/assumptions/102.md). -/
def endTrap (p : Span) (t : Trap) (frz : Bool) (m : EretMode) (tpc : BitVec 24) : Span :=
  let p := { p with trap := none }
  if t.agent ≠ 0 then resumeSpan p
  else if frz then resumeSpan (endHold p t.h .retry (tget p.hs t.h {}).pc)
  else endHold p t.h m tpc

/-- Does an end-of-transfer token wait for an arrival of its transfer's stream at a barrier (R261)? -/
def tokenHeld (s : State) (sp : Nat) (w : Word) : Bool :=
  s.net.bars.any fun b => b.sp == sp && b.sid == wbits w 47 43 && b.arrive

end Sys2Proof.Machine
end

