-- ==== Sys2Proof/Machine/Flags.lean ====
section
/-!
DEFINITION. Machine/Flags.lean: results and flag results of the integer words, on words of w bits (R147 to R152).
-/
namespace Sys2Proof.Machine

/-- Does an integer lie outside the signed w-bit range? -/
def sOut (w : Nat) (i : Int) : Bool := decide (i < -(2 ^ (w - 1) : Nat)) || decide ((2 ^ (w - 1) : Nat) ≤ i)

/-- A result with the flag "res = 0". -/
def zf {w : Nat} (r : BitVec w) : BitVec w × Bool := (r, decide (r = 0))

/-- add: signed overflow (R147). -/
def aluAdd {w : Nat} (a b : BitVec w) : BitVec w × Bool := (a + b, sOut w (a.toInt + b.toInt))
/-- sub: signed overflow. -/
def aluSub {w : Nat} (a b : BitVec w) : BitVec w × Bool := (a - b, sOut w (a.toInt - b.toInt))
/-- mul: exact product outside the signed range. -/
def aluMul {w : Nat} (a b : BitVec w) : BitVec w × Bool := (BitVec.ofInt w (a.toInt * b.toInt), sOut w (a.toInt * b.toInt))
/-- mulh: bits [2w−1:w] of the signed product. -/
def aluMulh {w : Nat} (a b : BitVec w) : BitVec w × Bool :=
  (BitVec.ofInt w (a.toInt * b.toInt / (2 ^ w : Nat)), sOut w (a.toInt * b.toInt))
/-- mulhu: bits [2w−1:w] of the unsigned product; flag: product at or above 2^w. -/
def aluMulhu {w : Nat} (a b : BitVec w) : BitVec w × Bool :=
  (BitVec.ofNat w (a.toNat * b.toNat / 2 ^ w), decide (2 ^ w ≤ a.toNat * b.toNat))

/-- The signed quotient that overflows (R148). -/
def divOv {w : Nat} (a b : BitVec w) : Bool := decide (a.toInt = -(2 ^ (w - 1) : Nat)) && decide (b.toInt = -1)

/-- div (R148). -/
def aluDiv {w : Nat} (a b : BitVec w) : BitVec w × Bool :=
  if b = 0 then (BitVec.allOnes w, true) else if divOv a b then (a, true) else (BitVec.ofInt w (a.toInt.tdiv b.toInt), false)
/-- divu (R148). -/
def aluDivu {w : Nat} (a b : BitVec w) : BitVec w × Bool :=
  if b = 0 then (BitVec.allOnes w, true) else (BitVec.ofNat w (a.toNat / b.toNat), false)
/-- rem (R148). -/
def aluRem {w : Nat} (a b : BitVec w) : BitVec w × Bool :=
  if b = 0 then (BitVec.allOnes w, true) else if divOv a b then (0, true)
  else (BitVec.ofInt w (a.toInt - b.toInt * a.toInt.tdiv b.toInt), false)
/-- remu (R148). -/
def aluRemu {w : Nat} (a b : BitVec w) : BitVec w × Bool :=
  if b = 0 then (BitVec.allOnes w, true) else (BitVec.ofNat w (a.toNat % b.toNat), false)

def aluAnd {w : Nat} (a b : BitVec w) : BitVec w × Bool := zf (a &&& b)
def aluOr {w : Nat} (a b : BitVec w) : BitVec w × Bool := zf (a ||| b)
def aluXor {w : Nat} (a b : BitVec w) : BitVec w × Bool := zf (a ^^^ b)
def aluSll {w : Nat} (a b : BitVec w) : BitVec w × Bool := zf (a <<< (b.toNat % w))
def aluSrl {w : Nat} (a b : BitVec w) : BitVec w × Bool := zf (a >>> (b.toNat % w))
def aluSra {w : Nat} (a b : BitVec w) : BitVec w × Bool := zf (a.sshiftRight (b.toNat % w))
/-- min, max: a on equality; flag: the result is taken from b. -/
def aluMin {w : Nat} (a b : BitVec w) : BitVec w × Bool := if b.slt a then (b, true) else (a, false)
def aluMax {w : Nat} (a b : BitVec w) : BitVec w × Bool := if a.slt b then (b, true) else (a, false)
def aluMinu {w : Nat} (a b : BitVec w) : BitVec w × Bool := if b.ult a then (b, true) else (a, false)
def aluMaxu {w : Nat} (a b : BitVec w) : BitVec w × Bool := if a.ult b then (b, true) else (a, false)

/-- A comparison (R150). -/
def condHolds {w : Nat} (c : Cond) (a b : BitVec w) : Bool :=
  match c with
  | .eq => decide (a = b) | .ne => decide (a ≠ b) | .lt => a.slt b | .ge => !a.slt b | .ltu => a.ult b | .geu => !a.ult b

/-- cmp: 1 or 0, and the outcome as flag (R150). -/
def aluCmp {w : Nat} (c : Cond) (a b : BitVec w) : BitVec w × Bool := (BitVec.ofNat w (condHolds c a b).toNat, condHolds c a b)

/-- Leading and trailing zeros, by bit position. -/
def clzN (w v : Nat) : Nat := if v = 0 then w else w - 1 - Nat.log2 v
def ctzFrom (v : Nat) : Nat → Nat → Nat
  | 0, i => i
  | k + 1, i => if v / 2 ^ i % 2 = 1 then i else ctzFrom v k (i + 1)
def popN (v : Nat) : Nat → Nat
  | 0 => 0
  | k + 1 => v / 2 ^ k % 2 + popN v k

/-- The field of .ext: pos := b mod w, len := min(e mod 128, w) (R152). -/
def extField {w : Nat} (a b e : BitVec w) : Nat × Nat :=
  let len := min (e.toNat % 128) w
  ((a.toNat >>> (b.toNat % w)) % 2 ^ len, len)

/-- bits (R152). -/
def aluBits {w : Nat} (f : BitsFn) (a b e : BitVec w) : BitVec w × Bool :=
  zf (match f with
  | .cnt => BitVec.ofNat w (popN a.toNat w)
  | .clz => BitVec.ofNat w (clzN w a.toNat)
  | .ctz => BitVec.ofNat w (ctzFrom a.toNat w 0)
  | .ext => BitVec.ofNat w (extField a b e).1
  | .exts => let x := extField a b e
             if x.2 = 0 then 0 else BitVec.ofInt w (sextInt x.2 x.1)
  | .rev => BitVec.ofNat w (ofBytes ((toBytes (w / 8) a.toNat).reverse)))

end Sys2Proof.Machine
end

