-- ==== Sys2Proof/Machine/Operands.lean ====
section
/-!
DEFINITION. Machine/Operands.lean: how a control word reads its operands, writes its results, completes, waits or traps
(R82, R86, R138, R139, R405).
-/
namespace Sys2Proof.Machine

/-- An outcome of this machine. -/
abbrev Out := Host.Outcome State Fault Refusal

/-- s[r] of the issuing handler. -/
def reg (s : State) (r : Reg) : Word := rdReg s s.cur.sp s.cur.h r
/-- The issuing span and handler. -/
def curSpan (s : State) : Span := getSpan s s.cur.sp
def curH (s : State) : Handler := getH s s.cur.sp s.cur.h
/-- The issuing handler's port, tenant and translation entry. -/
def curPort (s : State) : PortId := .handler s.cur.sp s.cur.h
def curTenant (s : State) : Nat := (curSpan s).tenant.toNat

/-- The operand values a word read in its issue cycle: those it kept while it waited, else its registers (R139). -/
def operands (s : State) (ra rb re : Reg) : Word × Word × Word :=
  match s.cur.latch with
  | some (a, b, e, _) => (a, b, e)
  | none => (reg s ra, reg s rb, reg s re)
/-- The mark a waiting word made at its issue. -/
def latchMark (s : State) : Option Nat := s.cur.latch.map fun l => l.2.2.2

/-- Register writes with an optional flag. -/
def wr1 (sd : Reg) (v : Word) : Writes := { regs := [(sd, v)] }
def wrF (sd : Reg) (v : Word) (fd : BitVec 3) (fe fl : Bool) : Writes :=
  { regs := [(sd, v)], flag := if fe then some (fd, fl) else none }

/-- A word that completes in its issue cycle with writes alone. -/
def pureWord (nx : Nx) (w : Writes) (s : State) : Out := .next (finishWord s s.cur.sp s.cur.h s.cur.pc w nx)

/-- A word whose writes land when its operation stage of n cycles ends (R138). -/
def lateWord (n : Nat) (nx : Nx) (w : Writes) (s : State) : Out :=
  .next (updH s s.cur.sp s.cur.h fun x => { x with op := some (.late (now s + n) w nx), st := .blocked })

/-- Write-back at a width (R86, R147): the function on w bits, its result extended to 64. -/
def atWidth (wd : Wd) (f : (w : Nat) → (BitVec w → BitVec w × Bool)) (a : Word) : Word × Bool :=
  match wd with
  | .w64 => f 64 a
  | .w32s => let r := f 32 (a.truncate 32); (r.1.signExtend 64, r.2)
  | .w32z => let r := f 32 (a.truncate 32); (r.1.zeroExtend 64, r.2)

/-- A binary ALU function at a width. -/
def alu2 (wd : Wd) (f : (w : Nat) → BitVec w → BitVec w → BitVec w × Bool) (a b : Word) : Word × Bool :=
  atWidth wd (fun w x => f w x (b.truncate w)) a

/-- The writes of a register-form word (R147). -/
def aluWrites (f : (w : Nat) → BitVec w → BitVec w → BitVec w × Bool) (o : RegOp) (s : State) : Writes :=
  let r := alu2 o.wd f (reg s o.sa) (reg s o.sb)
  wrF o.sd r.1 o.fd o.fe r.2
/-- A register-form word of one cycle. -/
def aluWord (f : (w : Nat) → BitVec w → BitVec w → BitVec w × Bool) (nx : Nx) (o : RegOp) (s : State) : Out :=
  pureWord nx (aluWrites f o s) s
/-- A register-form word of n cycles. -/
def aluLate (n : Nat) (f : (w : Nat) → BitVec w → BitVec w → BitVec w × Bool) (nx : Nx) (o : RegOp) (s : State) : Out :=
  lateWord n nx (aluWrites f o s) s
/-- Cycles of a division (R138). -/
def divCycles (o : RegOp) : Nat := if o.wd = .w64 then 36 else 20
/-- The writes of an immediate-form word on 64 bits (R149). -/
def immWrites (f : Word → Word → Word × Bool) (o : ImmOp) (s : State) : Writes :=
  let r := f (reg s o.sa) (o.imm.signExtend 64)
  wrF o.sd r.1 o.fd o.fe r.2
def immWord (f : Word → Word → Word × Bool) (nx : Nx) (o : ImmOp) (s : State) : Out := pureWord nx (immWrites f o s) s
def shWrites (f : Word → Word → Word × Bool) (o : ShOp) (s : State) : Writes :=
  let r := f (reg s o.sa) (o.sh.zeroExtend 64)
  wrF o.sd r.1 o.fd o.fe r.2
def shWord (f : Word → Word → Word × Bool) (nx : Nx) (o : ShOp) (s : State) : Out := pureWord nx (shWrites f o s) s

/-- What the operation stage of a word comes to. -/
inductive WRes where
  /-- It completes with these writes on this state. -/
  | done (s : State) (w : Writes)
  /-- It traps (R405). -/
  | trap (s : State) (t : Trp)
  /-- It waits without having changed state, with a mark. -/
  | wait (s : State) (m : Nat)
  /-- It goes on in the operation stage `op`. -/
  | hold (s : State) (op : Op)
  /-- It goes on once a translation or the bytes of a peer are there. -/
  | need (s : State) (n : Stop)
  /-- Its last act is a write of these bytes to a peer; its register writes land when that is complete (R345). -/
  | put (s : State) (p : Word) (bs : List Byte) (w : Writes)
  /-- The word's own handler is gone with its launch (R426). -/
  | gone (s : State)

/-- The CSRs of R146, 0x010 to 0x01B, as a span holds them, and one of them from such a list. -/
def sampleCsrs (p : Span) : List Nat := (List.range 12).map fun i => (tget p.csr (0x10 + i) 0).toNat
def csrOf (l : List Nat) (n : Nat) : Nat := nth l (n - 0x10) 0
/-- Sampled CSRs of a word that waits, held in its mark (R146). -/
def packCsrs (l : List Nat) : Nat := l.foldr (fun v a => v % 2 ^ 64 + 2 ^ 64 * a) 0
def unpackCsrs (n : Nat) : List Nat := (List.range 12).map fun i => n / 2 ^ (64 * i) % 2 ^ 64
/-- The CSRs of R146 as the issuing word took them. -/
def wordCsrs (s : State) : List Nat :=
  match latchMark s with
  | some m => unpackCsrs m
  | none => sampleCsrs (curSpan s)

/-- The soft-token register a token word reads (R340). -/
def tkSource : Instr → Nat
  | .tkEmb _ ta .. => ta.toNat
  | .tkLog _ ta .. => ta.toNat
  | .tkLogChk _ ta .. => ta.toNat
  | .tkSt _ ta _ => ta.toNat
  | _ => 0
/-- tk[n] as the word took it in its issue cycle: what a word that waits keeps in its mark. -/
def tkIn (s : State) (n : BitVec 4) : BitVec 768 :=
  match latchMark s with
  | some m => BitVec.ofNat 768 (m / 2 ^ 768)
  | none => tget (curSpan s).tk n.toNat 0

/-- The pieces of n bytes at offset o that blocks of b bytes cut. -/
def cutAt (b o n : Nat) : List (Nat × Nat) :=
  (List.range ((o + n - 1) / b - o / b + 1)).map fun i =>
    let lo := max o ((o / b + i) * b)
    (lo, min (o + n) ((o / b + i + 1) * b) - lo)
/-- The parts of an access (R251, R430, R446): a part for each 64 KiB of GLOBAL space, for each 256 bytes of POD space, for each
word of CONTROL space. -/
def cutAccess (p : Word) (n : Nat) : List (Nat × Nat) :=
  let o := pOff p
  if pSpace p = 0 then cutPages o n
  else if pSpace p = 5 then cutAt 256 o n
  else if pSpace p = 4 then ctlParts o n
  else [(o, n)]

/-- Kind of the part at offset `lo` of an access at offset `o`. -/
def partKind (k : AKind) (o lo n : Nat) : AKind :=
  match k with
  | .write bs => .write ((bs.drop (lo - o)).take n)
  | k => k

/-- Issue the parts of an access at p, which form the group of the next number; `home` says where n bytes at a pointer have their
home, if that is known. -/
def issueParts (s : State) (proto : Access) (p : Word) (parts : List (Nat × Nat)) (home : Word → Nat → Option Nat := fun q _ => keyOf q) :
    State :=
  let g := s.sched.nextId
  parts.foldl (fun s0 part =>
    let (id, s1) := freshId s0
    updNet s1 fun x => { x with acc := x.acc ++ [{ proto with
      id := id, grp := g, ptr := withOff p part.1, n := part.2, key := home (withOff p part.1) part.2
      kind := partKind proto.kind (pOff p) part.1 part.2, issued := now s }] }) s
/-- Issue an access of n bytes at p. -/
def issueAcc (s : State) (proto : Access) (p : Word) (n : Nat) : State := issueParts s proto p (cutAccess p n)

/-- A port asks for bytes of a peer in the course of its work, unless it waits for some already (R251, R377). -/
def askPeer (s : State) (port : PortId) (p : Word) (n : Nat) : State :=
  if s.net.acc.any fun a => a.port == port && a.tag == .fetch then s
  else issueAcc s { port := port, tag := .fetch, ord := .acq, scope := .span } p n
/-- What an access that cannot go on asks for, on the ordering machine as the reads before it left it. -/
def askFor (s : State) (port : PortId) : Stop → State
  | .xlat p w => askXlat s port p w
  | .peer p n _ net => askPeer { s with net := net } port p n
  | .trap _ net => { s with net := net }
  | .order => s
/-- The reads that a word keeps while it waits. -/
def readsBefore : Stop → List (Word × List Byte)
  | .peer _ _ got _ => got
  | _ => []
/-- A word one of whose accesses cannot go on asks for what it lacks and waits (R251, R345, R431). -/
def waitNeed (i : Instr) (v : Word × Word × Word) (s0 : State) (n : Stop) : State :=
  let m := (latchMark s0).getD (packCsrs (sampleCsrs (curSpan s0)) + 2 ^ 768 * (tget (curSpan s0).tk (tkSource i) 0).toNat)
  updH (askFor s0 (curPort s0) n) s0.cur.sp s0.cur.h fun x => { x with
    op := some (.wait i v.1 v.2.1 v.2.2 m), st := .blocked, reads := x.reads ++ (readsBefore n).filter fun r => !x.reads.contains r }

def clearPod (s : State) : State := updH s s.cur.sp s.cur.h fun x => { x with podFault := none }
/-- The fault with which a handler's word traps whose access waits for an SC write that has failed (R377). -/
def failedOf (x : Handler) : Stop → Option Trp
  | .order => x.podFault.bind fun f => if f.2.2 then some (f.1, f.2.1) else none
  | _ => none
/-- The same for the current word. -/
def failedAcq (s : State) : Stop → Option Trp := failedOf (curH s)

/-- The outcome of a word `i` that read the operand values v in its issue cycle. -/
def endWord (i : Instr) (nx : Nx) (v : Word × Word × Word) (s0 : State) : WRes → Out
  | .done s w => .next (if s0.cur.latch.isSome then landWord s s0.cur.sp s0.cur.h s0.cur.pc (now s) w nx
      else finishWord s s0.cur.sp s0.cur.h s0.cur.pc w nx)
  | .trap s t => .next (raiseTrap s t.1 t.2)
  | .need s n => .next (match failedAcq s n with | some t => raiseTrap (clearPod s) t.1 t.2 | none => waitNeed i v s n)
  | .put s p bs w =>
    let s1 := issueAcc s { port := curPort s0, kind := .write bs, ord := .rel, scope := .span } p bs.length
    .next (updH s1 s0.cur.sp s0.cur.h fun x => { x with op := some (.put nx w s.sched.nextId), st := .blocked })
  | .wait s m => .next (updH s s0.cur.sp s0.cur.h fun x =>
      { x with op := some (.wait i v.1 v.2.1 v.2.2 m), st := .blocked })
  | .hold s op => .next (updH s s0.cur.sp s0.cur.h fun x => { x with op := some op, st := .blocked })
  | .gone s => .next s

/-- CONFIG_REJECT with a subcode and an index (R75). -/
def rejectT (sub idx : Nat) : Trp := (.configReject, wd (sub + idx * 256))
/-- ILLEGAL as a word's own check (R93). -/
def illegalT (s : State) : Trp := (.illegal, s.cur.word)

/-- A computation that may trap, as an operation stage; a trap leaves the state as it stood before the word. -/
def ofExcept (s : State) : Except Trp (State × Writes) → WRes
  | .ok (s', w) => .done s' w
  | .error t => .trap s t
/-- A word whose access does not go on: the state as it stood before the word, but for what its reads have left in the ordering
machine (R345, R391). -/
def ofStop (s : State) : Stop → WRes
  | .trap t net => .trap { s with net := net } t
  | n => .need s n
/-- A word traps by its own checks after its reads have performed, which left state `s1` (R345, R391). -/
def afterReads (s s1 : State) (t : Trp) : WRes := ofStop s (.trap t s1.net)
/-- The same for a computation that reads memory in its course. -/
def ofReads (s : State) : Except Stop (State × Writes) → WRes
  | .ok (s', w) => .done s' w
  | .error n => ofStop s n

/-- A read joins what the current word has read. -/
def noteRead (p : Word) (r : List Byte × State) : List Byte × State :=
  (r.1, { r.2 with cur := { r.2.cur with reads := r.2.cur.reads ++ [(p, r.1)] } })
/-- A load a word makes inside its step, through the issuing handler's port. -/
def hRead (s : State) (p : Word) (n al : Nat) : Except Stop (List Byte × State) :=
  (rdMem s (curPort s) (curTenant s) p n al).map (noteRead p)
/-- The 8-byte words of a record read. -/
def wordsOf (n : Nat) (bs : List Byte) : List Word := (List.range n).map fun i => wd (ofBytes ((bs.drop (8 * i)).take 8))

end Sys2Proof.Machine
end

