-- ==== Sys2Proof/Machine/Ports.lean ====
section
/-!
DEFINITION. Machine/Ports.lean: ports, domains and the order in which accesses may dispatch (R366 to R373), barrier words
(R267, R268), and how a control word issues its accesses.
-/
namespace Sys2Proof.Machine

/-! ## Places (R47, R368) -/

/-- Cluster of the region with row-major index i. -/
def regionClus (p : Span) (i : Nat) : Nat := p.anchor + 8 * (i / max p.rw 1) + i % max p.rw 1
/-- Tiles of a region: width and height in tiles. -/
def regW (p : Span) : Nat := p.rw * 4
def regH (p : Span) : Nat := p.rh * 4
/-- The tile of the module at tile row r and column c of the region. -/
def regTile (p : Span) (r c : Nat) : Nat := (p.anchor + 8 * (r / 4) + c / 4) * 16 + r % 4 * 4 + c % 4
/-- The tile of index i of a rectangle of the region (R64). -/
def rectTile (p : Span) (q : Rect) (i : Nat) : Nat := regTile p (q.y0 + i / max q.w 1) (q.x0 + i % max q.w 1)
def rectCount (q : Rect) : Nat := q.h * q.w
def rectTiles (p : Span) (q : Rect) : List Nat := (List.range (rectCount q)).map (rectTile p q)
def wholeRect (p : Span) : Rect := { y0 := 0, x0 := 0, h := regH p, w := regW p }
/-- A rectangle descriptor (R131); none where it is rejected with SUBRECT. -/
def rectOf (p : Span) (d : Word) : Option Rect :=
  if d = 0 then some (wholeRect p)
  else
    let q : Rect := { y0 := wbits d 31 24, x0 := wbits d 23 16, h := wbits d 15 8, w := wbits d 7 0 }
    if wbits d 63 32 = 0 ∧ q.h ≠ 0 ∧ q.w ≠ 0 ∧ q.y0 + q.h ≤ regH p ∧ q.x0 + q.w ≤ regW p then some q else none
/-- Region index of a tile of the module (R64 with the region as rectangle). -/
def regIndex (p : Span) (t : Nat) : Nat :=
  let r := t / 16 - p.anchor
  (r / 8 * 4 + t % 16 / 4) * regW p + r % 8 * 4 + t % 4
/-- Does rectangle a lie within b; are they disjoint. -/
def rectIn (a b : Rect) : Bool :=
  decide (b.y0 ≤ a.y0) && decide (b.x0 ≤ a.x0) && decide (a.y0 + a.h ≤ b.y0 + b.h) && decide (a.x0 + a.w ≤ b.x0 + b.w)
def rectDisjoint (a b : Rect) : Bool :=
  decide (a.y0 + a.h ≤ b.y0) || decide (b.y0 + b.h ≤ a.y0) || decide (a.x0 + a.w ≤ b.x0) || decide (b.x0 + b.w ≤ a.x0)

/-- Does a leaf phase run on a tile of a rectangle? -/
def rectBusy (s : State) (p : Span) (q : Rect) : Bool := (rectTiles p q).any fun t => (getTile s t).leaf.isSome

/-- The cluster in which a port is located (R368). -/
def portClus (s : State) : PortId → Nat
  | .handler sp _ => (getSpan s sp).anchor
  | .stream sp sid =>
    let p := getSpan s sp
    let x := tget p.streams sid {}
    let cl := match x.jobs with
      | j :: _ => wbits (nth j.desc 4 0) 63 58
      | [] => wbits (nth x.desc 6 0) 63 58
    regionClus p cl
  | .slots t => t / 16
  | .slot t _ => t / 16
  | .matrix t => t / 16
  | .device _ => 0
def portDie (s : State) (p : PortId) : Nat := portClus s p / 64
/-- The cluster from which an access is made: its port's, or its job's (R263, R368). -/
def accClus (s : State) (a : Access) : Nat := a.clus.getD (portClus s a.port)
def accDie (s : State) (a : Access) : Nat := accClus s a / 64
/-- The clock that counts an access (R378). -/
def accComp (a : Access) : Nat := a.comp.getD a.port.num
/-- The tenant a port acts for. -/
def portTenant (s : State) : PortId → Nat
  | .device n => n
  | p => (getSpan s (portSpan s p)).tenant.toNat

/-- Is the home of `key` in the domain of scope `sc` for a port located in cluster r (R368)? -/
def inDomainAt (s : State) (p : PortId) (r : Nat) (sc : Scope) (key : Nat) : Bool :=
  let sp := getSpan s (portSpan s p)
  let tile := decide (2 ^ 48 ≤ key) && decide (key < 2 ^ 49)
  let scr := decide (2 ^ 49 ≤ key) && decide (key < 2 ^ 50)
  let ctl := decide (2 ^ 80 ≤ key)
  let clus := if tile then (key - 2 ^ 48) / 2 ^ 22 else (key - 2 ^ 49) / 2 ^ 22
  match sc with
  | .tile => tile && (match p with
    | .slots t => (key - 2 ^ 48) / 2 ^ 18 == t
    | .slot t _ => (key - 2 ^ 48) / 2 ^ 18 == t
    | .matrix t => (key - 2 ^ 48) / 2 ^ 18 == t
    | _ => clus == r)
  | .span => (tile || scr) && (regionRanks sp).contains clus
  | .cluster => (tile || scr) && clus == r
  | .die => ((tile || scr) && clus / 64 == r / 64) || (ctl && (key - 2 ^ 80) / 2 ^ 22 == r / 64)
  | .module => !(decide (2 ^ 64 ≤ key)) || ctl
  | .pod => true
/-- The same for a port where it stands. -/
def inDomain (s : State) (p : PortId) (sc : Scope) (key : Nat) : Bool := inDomainAt s p (portClus s p) sc key

/-! ## Dispatch order (R370) -/

def isWrite : AKind → Bool
  | .write _ => true | .amo .. => true | _ => false
def isRead : AKind → Bool
  | .read => true | .amo .. => true | .cwait .. => true | _ => false
def isFence : AKind → Bool
  | .fence _ => true | _ => false
def isSc (a : Access) : Bool := a.ord == .sc || a.kind == .fence .sc
def isAcq (a : Access) : Bool :=
  (isRead a.kind && a.ord == .acq) || (a.ord == .sc && !isFence a.kind) || (match a.kind with | .cwait .. => true | _ => false)
def isRel (a : Access) : Bool := isWrite a.kind && (a.ord == .rel || a.ord == .sc)
/-- Not yet dispatched. -/
def isQueued (a : Access) : Bool := a.stat != .dispatched && a.stat != .performed
/-- Do two accesses touch a common byte (by home once both are translated, else by pointer)? -/
def overlap (a b : Access) : Bool :=
  match a.key, b.key with
  | some k, some l => decide (k < l + b.n) && decide (l < k + a.n)
  | _, _ => decide (a.ptr.toNat < b.ptr.toNat + b.n) && decide (b.ptr.toNat < a.ptr.toNat + a.n)
/-- Is an access a write whose home lies in the domain? One whose page is not translated has its home in base-die memory or at a
peer, as its space says (R47, R368). -/
def writeIn (s : State) (e : Access) (sc : Scope) : Bool :=
  isWrite e.kind && (match e.key with
    | some k => inDomainAt s e.port (accClus s e) sc k
    | none => sc == .pod || (sc == .module && pSpace e.ptr != 5))

/-- May r dispatch past the incomplete earlier entry e of its port (the rows of R370)? -/
def passes (s : State) (e r : Access) : Bool :=
  !(overlap e r && !isFence e.kind && isQueued e) &&
  !(isAcq e) &&
  !(isSc e && isSc r) &&
  !(isRel r && (isRead e.kind || writeIn s e r.scope)) &&
  (match e.kind with
   | .fence .rel => !isWrite r.kind
   | .fence _ => false
   | _ => true) &&
  (match r.kind with
   | .fence .acq => !isRead e.kind
   | .fence _ => !(isRead e.kind || writeIn s e r.scope)
   | _ => true)

/-- Entries of a port ahead of an access, all incomplete. -/
def aheadOf (s : State) (a : Access) : List Access :=
  (s.net.acc.takeWhile fun x => x.id != a.id).filter fun x => x.port == a.port

def findAcc (s : State) (id : Nat) : Option Access := s.net.acc.find? fun a => a.id == id
def updAcc (s : State) (id : Nat) (f : Access → Access) : State :=
  updNet s fun n => { n with acc := n.acc.map fun a => if a.id = id then f a else a }
def dropAcc (s : State) (id : Nat) : State := updNet s fun n => { n with acc := n.acc.filter fun a => a.id != id }

/-! ## Issuing -/

/-- The checks of R274 that come before translation. -/
def checkAccess (s : State) (p : Word) (n al : Nat) (write : Bool) : Option Trp :=
  if !startOk p n then some (.ptrSpace, p)
  else if pOff p % al ≠ 0 then some (.align, p)
  else if pSpace p ≠ 4 ∧ !ownsOk s (curTenant s) p n write then some (.protection, p)
  else none

/-- The home that a port's entry gives n bytes at p of a write, if it serves them (R251). -/
def entryHome (x : Option Xlat) (p : Word) (n : Nat) : Option Nat :=
  x.bind fun e => xlatHome e (pSpace p == 5) (pRank p) (pOff p) n true

/-- The recorded fault of a posted write traps at the first later word that must wait for it (R377): a release of POD scope, or
after an SC write, which is an acquire, any access, fence or barrier word (R370, R372). -/
def podTrap (s : State) (pod acc : Bool) : Option Trp :=
  match (curH s).podFault with
  | some f => if pod || (acc && f.2.2) then some (f.1, f.2.1) else none
  | none => none

/-- An access of the issuing handler's word `i`, whose stage ends when it is complete; that of a posted write ends when it is
translated (R274, R371): at once, where the handler's entry serves it. -/
def memWord (i : Instr) (nx : Nx) (k : AKind) (p : Word) (n al : Nat) (ord : Ord) (sc : Scope) (s : State) : Out :=
  endWord i nx (0, 0, 0) s
    (match checkAccess s p n al (isWrite k) with
     | some t => .trap s t
     | none =>
       match podTrap s (isWrite k && (ord == .rel || ord == .sc) && sc == .pod) true with
       | some t => .trap (clearPod s) t
       | none =>
         let posted := pSpace p == 5 && (match k with | .write _ => true | _ => false)
         let proto : Access := { port := curPort s, kind := k, ord := ord, scope := sc, posted := posted }
         let home := entryHome (curH s).xlat
         if posted && (cutAccess p n).all (fun c => (home (withOff p c.1) c.2).isSome) then
           .done (issueParts s { proto with stat := .translated } p (cutAccess p n) home) {}
         else .hold (issueAcc s proto p n) (.mem i s.sched.nextId))

/-- Accesses of a handler's port that are not complete. -/
def handlerAcc (s : State) (sp h : Nat) : List Access := s.net.acc.filter fun a => a.port == .handler sp h
/-- Has the handler's port an earlier read, or a write in domain(S), that is not complete (a release of S must wait)? -/
def relWaits (s : State) (sc : Scope) : Bool :=
  (handlerAcc s s.cur.sp s.cur.h).any fun a => isRead a.kind || writeIn s a sc

/-! ## Barriers (R267, R268) -/

def barPh (w : Word) : Bool := isSet w.toNat 63
def barExp (w : Word) : Nat := wbits w 61 51
def barArr (w : Word) : Nat := wbits w 50 40
def barDue (w : Word) : Nat := wbits w 39 0

/-- One update: `arr` arrivals and `d` bytes. A refused update sets LOST. Answers the word and whether the phase ended. -/
def barStep (w : Word) (arr : Nat) (d : Int) : Word × Bool :=
  let a := barArr w + arr
  let due : Int := (barDue w : Int) + d
  if decide (barExp w < a) || decide (due < 0) || decide ((2 ^ 40 : Nat) ≤ due) then (putBits w 62 1 1, false)
  else
    let w1 := putBits (putBits w 40 11 a) 0 40 due.toNat
    if a = barExp w ∧ due = 0 then (putBits (putBits w1 63 1 (if barPh w then 0 else 1)) 40 11 0, true) else (w1, false)

/-- The barrier's home key, when a pointer lies in SCRATCH or TILE space of one of the clusters. -/
def barKey (p : Word) (clusters : List Nat) : Option Nat :=
  if (pSpace p == 1 || pSpace p == 2) && ptrOk p 8 && clusters.contains (pRank p) then keyOf p else none

/-- A bar.wait on the barrier whose phase has ended takes the word it sees (R384). -/
def wakeBarWait (key : Nat) (w : Word) (x : Handler) : Handler :=
  match x.op with
  | some (.wait (.barWait nx sd sa sb sc) a b _ 0) =>
    if keyOf a = some key ∧ barPh w ≠ isSet b.toNat 63 then { x with op := some (.wait (.barWait nx sd sa sb sc) a b w 1) } else x
  | _ => x
def wakeBarWaits (s : State) (key : Nat) (w : Word) : State :=
  { s with spans := s.spans.map fun p => (p.1, { p.2 with hs := p.2.hs.map fun x => (x.1, wakeBarWait key w x.2) }) }

/-- One update of the barrier at a home (R268); none where its line is poisoned. -/
def barUpdate (s : State) (key arr : Nat) (d : Int) : Option (State × Word × Bool) :=
  if isPoison s key 8 then none
  else
    let w := wd (ofBytes (readN s.mem key 8))
    let r := barStep w arr d
    some (wakeBarWaits (homeWrite s key (toBytes 8 r.1.toNat)).1 key r.1, w, r.2)

/-- A transfer's update joins those that wait for the barrier network. -/
def queueBar (s : State) (sp sid : Nat) (ptr : Word) (d : Int) (arrive : Bool) (comp : Nat := (PortId.stream sp sid).num) : State :=
  if ptr = 0 then s
  else
    let (id, s1) := freshId s
    updNet s1 fun n => { n with bars := n.bars ++ [{ id := id, sp := sp, sid := sid, ptr := ptr, delta := d, arrive := arrive, comp := comp }] }

end Sys2Proof.Machine
end

