-- ==== Sys2Proof/Machine/Pages.lean ====
section
/-!
DEFINITION. Machine/Pages.lean: the pages of an attention run: its descriptor, their walks, and the pages that are left out (R326 to R332).
-/
namespace Sys2Proof.Machine

/-- A pointer moved by some bytes. -/
def ptrPlus (p : Word) (n : Nat) : Word := withOff p ((pOff p + n) % 2 ^ 50)

/-! ## Run descriptors (R328) -/

def aW (d : List Word) (i : Nat) : Word := nth d i 0
def aNtok (d : List Word) : Nat := wbits (aW d 1) 63 32
def aP0 (d : List Word) : Nat := wbits (aW d 1) 31 16
def aNp (d : List Word) : Nat := wbits (aW d 1) 15 8
def aLg (d : List Word) : Nat := wbits (aW d 1) 2 0
def aG (d : List Word) : Nat := 2 ^ aLg d
def aCbk (d : List Word) : Nat := wbits (aW d 2) 24 0
def aLut (d : List Word) : Nat := wbits (aW d 3) 24 0
def aStk (d : List Word) : Nat := wbits (aW d 5) 11 0
/-- Bytes of a record (R327). -/
def recBytes (d : List Word) : Nat := 64 + 32 * aG d
/-- Pointer of record i. -/
def recPtr (d : List Word) (i : Nat) : Word := ptrPlus (aW d 4) (i * recBytes d)
/-- Virtual pointer of page i of the run. -/
def pagePtr (d : List Word) (i : Nat) : Word := ptrPlus (aW d 0) (65536 * (aP0 d + i))
/-- Valid tokens of page i of the run (R324, R326). -/
def nValid (d : List Word) (i : Nat) : Nat :=
  let tp := 32768 / aG d
  min tp (aNtok d - (aP0 d + i) * tp)

/-! ## Pages (R329 to R331) -/

/-- Page i is finished: out of the lists, with its bit or its fault. -/
def attOver (s : State) (sp h i : Nat) (bit : Bool) (f : Option Trp) : State :=
  updH s sp h fun x => { x with
    attTodo := x.attTodo.filter (· != i), attHeld := tdel x.attHeld i, attSeq := tdel x.attSeq i, attAbsent := x.attAbsent.filter (· != i)
    attBmp := if bit then putBits x.attBmp i 1 1 else x.attBmp
    attFault := match f with | some t => x.attFault ++ [(i, t.1, t.2)] | none => x.attFault }

/-- Page i is left out (R330, R331): no record is written, and the bytes of its record are not defined. -/
def attLeave (s : State) (sp h i : Nat) (f : Option Trp) : State :=
  let d := (getH s sp h).attDesc
  let n := recBytes d
  let j := s.sched.free
  let s1 := match keyOf (recPtr d i) with
    | some k =>
      let m := (List.range n).foldl (fun m x => write1 m (k + x) (Config.openByte (j + x))) s.mem
      { s with
        mem := m, sched := { s.sched with free := j + n }
        net := { s.net with acc := s.net.acc.map (wakeCwait m s.poison k n) } }
    | none => s
  attOver s1 sp h i false f

/-- The walk of page i ends: the page is held, absent, or faulted (R330, R331). -/
def attWalk (s : State) (sp h i : Nat) (retry : Bool) : State :=
  let d := (getH s sp h).attDesc
  let p := pagePtr d i
  match walk s (getSpan s sp).tenant.toNat (pOff p) false with
  | .absent =>
    if retry then attLeave s sp h i none
    else updH s sp h fun x => { x with attTodo := x.attTodo.filter (· != i), attAbsent := x.attAbsent ++ [i] }
  | .poison => attLeave s sp h i (some (.ue, p))
  | .fail => attLeave s sp h i (some (.translation, p))
  | .page pa size _ =>
    let a := pa + pOff p % size
    if isSet (aStk d) (a / 2 ^ 36) then
      let (id, s1) := freshId s
      updH s1 sp h fun x => { x with
        attTodo := i :: x.attTodo.filter (· != i), attAbsent := x.attAbsent.filter (· != i), attHeld := tput x.attHeld i a
        attSeq := tput x.attSeq i id }
    else attLeave s sp h i (some (.ptrSpace, p))

/-- The run asks for the walk of page i, in the walker's queue of its tenant (R252, R329), unless that is under way. -/
def attAsk (s : State) (sp h i : Nat) : State :=
  if s.net.acc.any fun a => a.port == .handler sp h && a.tag == .att i then s
  else
    let (id, s1) := freshId s
    updNet s1 fun n => { n with
      walkQ := n.walkQ ++ [id]
      acc := n.acc ++ [{ id := id, port := .handler sp h, grp := id, tag := .att i, ptr := pagePtr (getH s sp h).attDesc i, n := 1, stat := .walk
                         issued := now s, asked := now s }] }
/-- What the end of its walk does: nothing for a page that the run no longer wants (R330). -/
def attWalked (s : State) (sp h i : Nat) : State :=
  let x := getH s sp h
  if x.attAbsent.contains i then attWalk s sp h i true
  else if x.attTodo.contains i && (tfind x.attHeld i).isNone then attWalk s sp h i false
  else s

end Sys2Proof.Machine
end

