-- ==== Sys2Proof/Machine/Issue.lean ====
section
/-!
DEFINITION. Machine/Issue.lean: the control core's own steps: picking a handler, fetching and checking its word, the
program buffer, the end of an operation stage, channel arrivals, trap delivery (R81, R82, R92 to R94, R134 to R143, R406).
-/
namespace Sys2Proof.Machine

/-- Is handler g held by the freeze of its span (R405): every handler is but the trap handler of a delivered trap. -/
def heldByFreeze (p : Span) (g : Nat) : Bool := p.frozen && !(p.trap.isSome && !p.toSys && g == p.thnd)
/-- Has the count of a matrix section expired (R312)? -/
def tcntOver (p : Span) : Bool := p.isMatrix && decide (p.tcnt ≤ p.sys.emitted)
/-- May handler h issue: RUNNABLE since an earlier cycle, unmasked, not held, the span neither frozen (but for the trap handler of a
delivered trap) nor stopped nor over its count (R134, R136, R142, R405, R409, R413). -/
def canIssue (p : Span) (h : Nat) : Bool :=
  let x := tget p.hs h {}
  decide (h ≤ p.nhnd) && x.st == .runnable && !x.fresh && !x.mask && x.held.isNone && !p.quiesced && p.live && !p.ended &&
  !p.starting && !p.saved && !tcntOver p && !heldByFreeze p h

/-- The pick of R137, one in a cycle: highest priority, then the first in rotation after the handler last picked at that priority. -/
def pickHandler (p : Span) : Option Nat :=
  let c := if p.picked then [] else (List.range 16).filter (canIssue p)
  let prio (h : Nat) := (tget p.hs h {}).prio.toNat
  let top := c.foldl (fun m h => max m (prio h)) 0
  let last := tget p.rot top 15
  let c := c.filter fun h => prio h == top
  match c.find? (fun h => last < h) with
  | some h => some h
  | none => c.head?

/-- The pointer of the word at index pc of a span's program (R81); the offset wraps modulo 2^50 (notes/assumptions/96.md, DESIGN CHOICE). -/
def fetchPtrOf (p : Span) (pc : Nat) : Word := withOff p.prog ((pOff p.prog + pc * 8) % 2 ^ 50)
/-- The control word at ptr as handler h fetches it, with the translations it holds (R81, R251). A fetch from CONTROL space traps
PTR_SPACE. -/
def fetchWord (s : State) (sp h : Nat) (ptr : Word) : Except Stop Word :=
  if pSpace ptr = 4 then .error (.trap (.ptrSpace, ptr) s.net)
  else (readPlain s (.handler sp h) (getSpan s sp).tenant.toNat ptr 8 1).map fun bs => wd (ofBytes bs)
/-- The words of a line, or why one of them is not there. -/
def fetchLine (s : State) (sp h line : Nat) : Except Stop (List Word) :=
  (List.range 8).mapM fun i => fetchWord s sp h (fetchPtrOf (getSpan s sp) (line * 8 + i))

/-- Is a channel bound to handler h of the span. -/
def boundTo (p : Span) (ch h : Nat) : Bool := tfind p.chmap ch == some h
def isBound (p : Span) (ch : Nat) : Bool := (tfind p.chmap ch).isSome

/-- Words handler 0 may issue while it declares a tree, with NX = next (R161). -/
def inDeclaration : Instr → Bool
  | .grpOpen nx .. => nx == .next
  | .step nx .. => nx == .next
  | .stepKeep nx .. => nx == .next
  | .grpClose nx => nx == .next
  | .nop nx => nx == .next
  | _ => false

/-- The checks of the decode stage that look at state (R84, R85, R161), on the word of handler h. -/
def issueCheck (s : State) (i : Instr) : Option Trp :=
  let p := curSpan s
  let x := curH s
  match i.nx? with
  | some (.wait c) => if boundTo p c.toNat s.cur.h then declCheck p i s else some (illegalT s)
  | some (.call _) => if 8 ≤ x.rstack.length then some (.rstack, 8) else declCheck p i s
  | some .ret => if x.rstack.isEmpty then some (.rstack, 0) else declCheck p i s
  | _ => declCheck p i s
where
  declCheck (p : Span) (i : Instr) (s : State) : Option Trp :=
    if s.cur.h = 0 ∧ p.tree.opened ≠ [] ∧ inDeclaration i = false then some (rejectT 0x18 0) else none

/-- The word fetched for the current handler is decoded and checked; it is staged to run, or traps. -/
def decodeStage (s : State) : State :=
  match decode s.cur.word with
  | none => raiseTrap s .illegal s.cur.word
  | some i =>
    match issueCheck s i with
    | none => { s with sched := { s.sched with staged := some i } }
    | some t =>
      let s := if t.1 = .configReject then updSpan s s.cur.sp fun p => { p with tree := {} } else s
      raiseTrap s t.1 t.2

/-- A word of the program buffer: of a line it holds, and not one that could not be read when the line was (R81, R140). -/
def bufferedWord (p : Span) (pc : Nat) : Option Word :=
  match tfind p.pbuf (pc / 8) with
  | some l => if (tget p.pbufGaps (pc / 8) []).contains (pc % 8) then none else some (nth l (pc % 8) 0)
  | none => none
/-- The word of handler h from the program buffer, or a miss (R140). -/
def issueFrom (s : State) (sp h : Nat) : State :=
  let p := getSpan s sp
  let x := tget p.hs h {}
  let s1 := updSpan s sp fun p => { p with rot := tput p.rot x.prio.toNat h, picked := true }
  match bufferedWord p x.pc.toNat with
  | none => updH s1 sp h fun x => { x with miss := true, st := .blocked }
  | some w =>
    let s2 := updH s1 sp h fun x => { x with issued := now s }
    decodeStage { s2 with cur := { sp := sp, h := h, pc := x.pc, word := w, latch := none } }

/-- HANDLER_ISSUE (R137): one word of one handler; nothing when no handler can be picked. -/
def execHandlerIssue (sp : Nat) (s : State) : Out :=
  match pickHandler (getSpan s sp) with
  | none => .next s
  | some h => .next (issueFrom s sp h)

/-- Lines a program buffer of 64 KiB holds (R140). -/
def pbufLines : Nat := 1024

/-- The words of a line as handler h can read them now, those it cannot as zero, and the places of these. -/
def partLine (s : State) (sp h line : Nat) : List Word × List Nat :=
  let word (i : Nat) : Option Word := (fetchWord s sp h (fetchPtrOf (getSpan s sp) (line * 8 + i))).toOption
  ((List.range 8).map fun i => (word i).getD 0, (List.range 8).filter fun i => (word i).isNone)
/-- A handler whose word has been fetched goes on, in the next cycle (R136); what the fetch held is dropped. -/
def fetched (x : Handler) : Handler :=
  { x with miss := false, st := .runnable, fresh := true, pods := [], refused := [], reads := [] }
/-- A line enters the program buffer, with the places of the words that could not be read; a full buffer loses one line, which
one is a free value (R140). -/
def bufferLine (s : State) (sp line : Nat) (ws : List Word) (gaps : List Nat) : State :=
  let p := getSpan s sp
  let (i, s1) := freshFree s
  let fits := decide (p.pbuf.length < pbufLines) || (tfind p.pbuf line).isSome
  let keep := if fits then p.pbuf else p.pbuf.eraseIdx (Config.bufferVictim i % pbufLines)
  updSpan (if fits then s else s1) sp fun p => { p with pbuf := tput keep line ws, pbufGaps := tset p.pbufGaps line gaps [] }

/-- PROGRAM_BUFFER_FILL (R140): the line is read and its handlers go on; of a line that cannot be read whole, each handler
fetches its own word, and traps when that cannot be read (R81). -/
def execProgramBufferFill (sp line : Nat) (s : State) : Out :=
  let p := getSpan s sp
  let wants (h : Nat) : Bool := let x := tget p.hs h {}; x.miss && x.pc.toNat / 8 == line
  let hs := (List.range 16).filter wants
  if hs.isEmpty then .next s else
  match fetchLine s sp (hs.headD 0) line with
  | .ok ws => .next (hs.foldl (fun s h => updH s sp h fetched) (bufferLine s sp line ws []))
  | .error (.trap _ _) =>
    let one (s : State) (h : Nat) : State :=
      let x := getH s sp h
      match fetchWord s sp h (fetchPtrOf p x.pc.toNat) with
      | .ok _ =>
        let l := partLine s sp h line
        updH (bufferLine s sp line l.1 l.2) sp h fetched
      | .error (.trap t _) => raiseTrapFull s { cause := t.1, tval := t.2, pc := x.pc, h := h } sp
      | .error n => askFor s (.handler sp h) n
    .next (hs.foldl one s)
  | .error n => .next (askFor s (.handler sp (hs.headD 0)) n)

/-- The word of an instruction, for a word that is tried again. -/
def wordOf (i : Instr) : Word := (encode i).getD 0

/-- Has the root of the tree completed? -/
def rootDone (t : Tree) : Bool := t.running && (match t.nodes.head? with | some r => decide (1 ≤ r.completed) | none => true)

/-- The stage of a step or grp.close ends once the root has completed and every write of the phases it ran is complete (R161,
R374). -/
def treeEnd (s : State) (sp : Nat) : State :=
  let p := getSpan s sp
  let writes := s.net.acc.any fun a => portSpan s a.port == sp && a.phase.isSome &&
    (match a.kind with | .write _ => true | .amo .. => true | _ => false)
  let passes := p.streams.any fun x => x.2.kind == 1 && x.2.pass
  match (tget p.hs 0 {}).op with
  | some (.tree nx) =>
    if rootDone p.tree && !writes && !passes && !p.quiesced then
      let s1 := updSpan (p.phaseEnd.foldl (fun s y => observe s (PortId.handler sp 0).num (objPhase sp y.1)) s) sp fun p => { p with tree := {} }
      landWord s1 sp 0 (tget p.hs 0 {}).pc (now s) {} nx
    else s
  | _ => s

/-- OPERATION_STAGE_END (R82, R138): writes that stand ready land when their cycles are over; a waiting word is tried
again with the operand values it read. -/
def execOperationStageEnd (sp h : Nat) (s : State) : Out :=
  let x := getH s sp h
  match x.op with
  | some (.late due w nx) => if now s < due then .next s else .next (landWord s sp h x.pc (now s - 1) w nx)
  | some (.wait i a b e m) =>
    .next { s with
      cur := { sp := sp, h := h, pc := x.pc, word := wordOf i, latch := some (a, b, e, m) }
      sched := { s.sched with staged := some i } }
  | some (.tree _) => .next (if h = 0 then treeEnd s sp else s)
  | _ => .next s

/-- TRAP_DELIVER (R406 to R408): the recorded trap is delivered if it can be; a fault of a posted POD write whose handler
has stopped is posted as an event (R377). -/
def execTrapDeliver (sp : Nat) (s : State) : Out :=
  let p := getSpan s sp
  let post (s : State) (h : Nat) : State :=
    match (getH s sp h).st, (getH s sp h).podFault with
    | .stopped, some f =>
      trapEvent (updH s sp h fun x => { x with podFault := none }) sp
        { cause := f.1, tval := f.2.1, pc := (getH s sp h).pc, h := h } false
    | _, _ => s
  .next (deliver ((List.range (p.nhnd + 1)).foldl post s) sp)

/-! ## Channels (R136, R143) -/

/-- The part of a channel entry recv and sresp deliver (R155). -/
def tokenPart (t : Token) (part : Nat) : Word :=
  match t with
  | .word w => w.extractLsb' (64 * part) 64
  | _ => 0
def tokenEmpty : Token → Bool
  | .word _ => false
  | _ => true
/-- The writes of a recv that takes an entry (R155). -/
def recvWrites (o : RecvOp) (t : Token) : Writes := wrF o.sd (tokenPart t o.part.toNat) o.fd o.fe (tokenEmpty t)
/-- Handler h takes the head entry of its channel, or looks at it, ordered after what the channel carries (R378). -/
def takeEntry (s : State) (sp h ch : Nat) (peek : Bool) : State :=
  let s1 := markJoin s sp (.handler sp h) (qChan sp ch) 0
  if peek then s1 else updSpan (markDrop s1 sp (qChan sp ch) 0) sp fun p => { p with ch := tput p.ch ch (tget p.ch ch []).tail }

/-- Where a word comes from that enters a channel, in the order of one cycle (R143). -/
inductive Source where
  | link | token | send
  deriving DecidableEq, Repr
/-- The entries at a channel's end that a token and a send placed in this cycle. -/
def laterEntries (p : Span) (ch : Nat) : Nat × Nat :=
  let n := (tget p.ch ch []).length
  let k := tget p.chNow ch (0, 0)
  let sends := min k.2 n
  (min k.1 (n - sends), sends)
/-- How many entries of a channel a word of this cycle stands before. -/
def entriesBehind (p : Span) (ch : Nat) (src : Source) : Nat :=
  let k := laterEntries p ch
  match src with | .link => k.1 + k.2 | .token => k.2 | .send => 0
/-- A word joins channel ch: of the words of one cycle those of a link stand before tokens, and tokens before sends. -/
def joinChannel (p : Span) (ch : Nat) (src : Source) (t : Token) : Span :=
  let l := tget p.ch ch []
  let k := laterEntries p ch
  let behind := entriesBehind p ch src
  let now_ := match src with | .link => k | .token => (k.1 + 1, k.2) | .send => (k.1, k.2 + 1)
  { p with ch := tput p.ch ch (l.take (l.length - behind) ++ t :: l.drop (l.length - behind)), chNow := tset p.chNow ch now_ (0, 0) }
/-- May a word of this cycle still come to stand before the head of a channel (R143): is the head one that a token or a send has placed
in it? -/
def headOpen (p : Span) (ch : Nat) : Bool := let k := laterEntries p ch; decide (0 < k.1 + k.2) && k.1 + k.2 == (tget p.ch ch []).length
/-- A handler that is BLOCKED in a recv of a channel takes its entry, once the words of the cycle stand in their order (R136, R143). -/
def recvDue (s : State) (sp h : Nat) : State :=
  let x := getH s sp h
  match x.op with
  | some (.wait (.recv nx o) ..) =>
    (match tget (getSpan s sp).ch o.ch.toNat [] with
     | [] => s
     | t :: _ => landWord (takeEntry s sp h o.ch.toNat o.peek) sp h x.pc (now s) (recvWrites o t) nx)
  | _ => s
/-- A word with clock m enters channel ch: it joins the queue and its handler wakes or gets PEND; a recv that waits for it completes
when the cycle ends, with the entry that then stands first (R136, R143). -/
def enterChannel (s : State) (sp ch : Nat) (src : Source) (m : Tab Nat) (t : Token) : State :=
  let p := getSpan s sp
  let s0 := markAdd s sp (qChan sp ch) (tget p.ch ch []).length (entriesBehind p ch src) m
  let s1 := updSpan s0 sp fun p => joinChannel p ch src t
  match tfind (getSpan s1 sp).chmap ch with
  | none => s1
  | some h =>
    let x := getH s1 sp h
    match x.st, x.op with
    | .stopped, _ => updH s1 sp h startH
    | .waiting c, _ => updH s1 sp h fun x => if c.toNat = ch then { x with st := .runnable, fresh := true } else { x with pend := true }
    | .blocked, some (.wait (.recv _ o) ..) =>
      if o.ch.toNat = ch ∧ tget p.ch ch [] = [] then s1 else updH s1 sp h fun x => { x with pend := true }
    | _, _ => updH s1 sp h fun x => { x with pend := true }

/-- Words of an outbound link that their producer has placed and that are on their way to channel ch: they hold entries of its queue,
which is the link's buffer (R102, R143, R448). -/
def linkWords (s : State) (sp ch : Nat) : Nat :=
  let p := getSpan s sp
  sumNat ((rectTiles p (wholeRect p)).flatMap fun t =>
    let x := getTile s t
    [25, 27].map fun c =>
      let kind := (tget x.cfg (15 * 32 + c + 1) 0).toNat
      if isSet kind 11 && isSet kind 10 && kind % 64 == ch then
        (tget x.bufs c []).length - ((tget x.waits c []).filter fun w => decide (1 < w)).length else 0)
/-- Room in a channel (R143). -/
def chanRoom (s : State) (sp ch : Nat) : Bool := decide ((tget (getSpan s sp).ch ch []).length + linkWords s sp ch < 8)

/-- CHANNEL_ARRIVAL (R143): the head of a link, or a token that waits at its unit, enters its channel when there is
room. -/
def execChannelArrival (sp ch : Nat) (src : ArrSrc) (s : State) : Out :=
  let p := getSpan s sp
  if !p.live || p.saved then .next s else
  match src with
  | .link t k =>
    let x := getTile s t
    let c := if k = 0 then 25 else 27
    let kind := (tget x.cfg (15 * 32 + c + 1) 0).toNat
    match tget x.bufs c [] with
    | tok :: rest =>
      if (getClus s (t / 16)).span = some sp ∧ isSet kind 11 = true ∧ isSet kind 10 = true ∧ kind % 64 = ch ∧
          (tget p.ch ch []).length < 8 ∧ (tget x.waits c []).length ≤ rest.length then
        let s1 := markDrop (updTile s t fun x => { x with bufs := tput x.bufs c rest }) sp (qBuf t c) 0
        match tok with
        | .drain => .next s1
        | _ => .next (enterChannel s1 sp ch .link [] tok)
      else .next s
    | [] => .next s
  | .token i =>
    match p.toks[i]? with
    | some (false, n, w) =>
      if n = ch ∧ tokenHeld s sp w = false ∧ chanRoom s sp ch = true then
        let s1 := markDrop (updSpan s sp fun p => { p with toks := p.toks.eraseIdx i }) sp (qToks sp) i
        if isBound p ch then .next (enterChannel s1 sp ch .token (markOf s (qToks sp) i) (.word (w.zeroExtend 512))) else .next s1
      else .next s
    | _ => .next s

end Sys2Proof.Machine
end

