-- ==== Sys2Proof/Machine/System.lean ====
section
/-!
DEFINITION. Machine/System.lean: CSR and system words (R144 to R146, R157 to R160, R411, R412, R426), channel words
(R155, R156).
-/
namespace Sys2Proof.Machine

/-- SPAN (R145). -/
def spanCsr (p : Span) : Word :=
  wd (p.die * 2 ^ 48 + p.entry % 4096 * 2 ^ 36 + p.sec * 2 ^ 24 + p.anchor * 2 ^ 16 + p.rh * 2 ^ 12 + p.rw * 2 ^ 8)
/-- HSTAT (R145), read by handler h. -/
def hstatCsr (p : Span) (h : Nat) : Word :=
  wd (sumNat ((List.range (p.nhnd + 1)).map fun g =>
    let x := tget p.hs g {}
    (if x.st = .stopped then 2 ^ (48 + g) else 0) + (if x.pend then 2 ^ (32 + g) else 0) + (if x.mask then 2 ^ (16 + g) else 0)
    + (if (x.st = .runnable ∧ x.held = none ∧ heldByFreeze p g = false) ∨ g = h then 2 ^ g else 0)))
/-- DEPTH (R270). -/
def depthCsr (p : Span) : Word :=
  wd (sumNat ((List.range 16).map fun i =>
    let x := tget p.streams i {}
    if x.kind = 2 ∧ x.dmax ≠ 0 then x.depth * 2 ^ (4 * i) else 0))

/-- CSR n as handler h of a span reads it (R144). -/
def readCsr (s : State) (sp h : Nat) (n : Nat) : Word :=
  let p := getSpan s sp
  let x := tget p.hs h {}
  match n with
  | 0x000 => s.cycle
  | 0x001 => spanCsr p
  | 0x002 => wd p.tenant.toNat
  | 0x003 => wd p.anchor
  | 0x004 => wd h
  | 0x005 => hstatCsr p h
  | 0x006 => p.phase
  | 0x007 => p.cfgno.zeroExtend 64
  | 0x008 => depthCsr p
  | 0x009 => p.seed.truncate 64
  | 0x00A => x.flags.zeroExtend 64
  | 0x00B => wd x.rstack.length
  | 0x00C => x.k0.zeroExtend 64
  | 0x00D => x.k1.zeroExtend 64
  | 0x00E => x.k2.zeroExtend 64
  | 0x00F => x.k3.zeroExtend 64
  | 0x028 => (digest s p.digW).1
  | 0x029 => (digest s p.digW).2
  | _ => tget p.csr n 0

/-- Width of a software CSR (R144). -/
def csrWidth (n : Nat) : Nat :=
  if n = 0x14 then 16 else if n ≤ 0x16 ∨ (0x18 ≤ n ∧ n ≤ 0x1B) then 32 else if n = 0x22 then 24 else if n = 0x23 then 4 else 64

/-- TCAUSE as a write leaves it: the reserved fields [61:48], [28] and [15:8] stay zero (R8, R404). -/
def tcauseBits (v : Word) : Word := putBits (putBits (putBits v 48 14 0) 28 1 0) 8 8 0
/-- CSR n := the low bits of v (R144). -/
def writeCsr (s : State) (sp h : Nat) (n : Nat) (v : Word) : State :=
  match n with
  | 0x00A => updH s sp h fun x => { x with flags := v.truncate 8 }
  | 0x00C => updH s sp h fun x => { x with k0 := v.truncate 32 }
  | 0x00D => updH s sp h fun x => { x with k1 := v.truncate 32 }
  | 0x00E => updH s sp h fun x => { x with k2 := v.truncate 32 }
  | 0x00F => updH s sp h fun x => { x with k3 := v.truncate 32 }
  | 0x020 => updSpan s sp fun p => { p with csr := tset p.csr 0x20 (tcauseBits v) 0 }
  | _ => updSpan s sp fun p => { p with csr := tset p.csr n (wd (v.toNat % 2 ^ csrWidth n)) 0 }

/-- A CSR word: the new value is a function of the old one and s[SA]; SD receives the old value (R157). -/
def csrWord (nx : Nx) (sd : Reg) (n : BitVec 12) (f : Word → Word) (s : State) : Out :=
  let old := readCsr s s.cur.sp s.cur.h n.toNat
  pureWord nx (wr1 sd old) (writeCsr s s.cur.sp s.cur.h n.toNat (f old))

def execNop (nx : Nx) (s : State) : Out := pureWord nx {} s
def execCsrr (nx : Nx) (sd : Reg) (csr : BitVec 12) (s : State) : Out :=
  pureWord nx (wr1 sd (readCsr s s.cur.sp s.cur.h csr.toNat)) s
def execCsrw (nx : Nx) (sd sa : Reg) (csr : BitVec 12) (s : State) : Out := csrWord nx sd csr (fun _ => reg s sa) s
def execCsrs (nx : Nx) (sd sa : Reg) (csr : BitVec 12) (s : State) : Out := csrWord nx sd csr (· ||| reg s sa) s
def execCsrc (nx : Nx) (sd sa : Reg) (csr : BitVec 12) (s : State) : Out := csrWord nx sd csr (· &&& ~~~ reg s sa) s

/-- trap (R411): SOFTWARE at the word itself; NX is not evaluated. -/
def execTrap (_ : Nx) (sa : Reg) (code : BitVec 12) (s : State) : Out :=
  .next (raiseTrapFull s { cause := .software, tval := reg s sa, sw := code, pc := s.cur.pc, h := s.cur.h } s.cur.sp)

/-- eret (R412): the delivered trap ends, the held handler goes on, the eret word's own NX applies unless the trap was the
trap handler's own, and the next recorded trap is delivered. -/
def execEret (nx : Nx) (m : EretMode) (s : State) : Out :=
  let p := curSpan s
  match p.trap with
  | none => .next (raiseTrap s .illegal s.cur.word)
  | some t =>
    let frz := isSet (tget p.csr 0x20 0).toNat 63
    if p.ten = false ∨ p.toSys = true ∨ s.cur.h ≠ p.thnd ∨ (frz = true ∧ m ≠ .retry) then
      .next (raiseTrap s .illegal s.cur.word)
    else
      let tpc : BitVec 24 := (tget p.csr 0x22 0).truncate 24
      let own := t.agent = 0 ∧ t.h = p.thnd
      let s1 := if own then s else finishWord s s.cur.sp s.cur.h s.cur.pc {} nx
      .next (deliver (updSpan s1 s.cur.sp fun p => endTrap p t frz m tpc) s.cur.sp)

/-- MASK bits of a span (R159). -/
def maskBits (p : Span) : Nat := sumNat ((List.range (p.nhnd + 1)).map fun g => if (tget p.hs g {}).mask then 2 ^ g else 0)

/-- hmask (R159). -/
def execHmask (nx : Nx) (sd sa : Reg) (m : MaskMode) (s : State) : Out :=
  let p := curSpan s
  let old := maskBits p
  let v := (reg s sa).toNat
  let bit (g : Nat) : Bool := match m with
    | .wr => isSet v g
    | .set => isSet old g || isSet v g
    | .clr => isSet old g && !isSet v g
  let put (p : Span) (g : Nat) : Span := { p with hs := tput p.hs g { tget p.hs g {} with mask := bit g } }
  pureWord nx (wr1 sd (wd old)) (updSpan s s.cur.sp fun p => (List.range (p.nhnd + 1)).foldl put p)

/-- hwake (R160). -/
def execHwake (nx : Nx) (sd sa : Reg) (s : State) : Out :=
  let p := curSpan s
  let v := (reg s sa).toNat
  let hit := (List.range (p.nhnd + 1)).filter fun g => isSet v g
  let woke := hit.filter fun g => (tget p.hs g {}).st == .stopped
  let put (p : Span) (g : Nat) : Span :=
    let x := tget p.hs g {}
    { p with hs := tput p.hs g (if x.st = .stopped then startH x else { x with pend := true }) }
  pureWord nx (wr1 sd (wd (sumNat (woke.map (2 ^ ·))))) (updSpan s s.cur.sp fun p => hit.foldl put p)

/-- The entry a pointer names, checked for a word of the executing tenant (R127): PTR_SPACE, ALIGN, PROTECTION. -/
def entryPtr (s : State) (p : Word) : Except Trp Nat :=
  if !(ptrOk p 1 && pSpace p == 4 && unitOf (pOff p) == 0) then .error (.ptrSpace, p)
  else if pOff p % 64 ≠ 0 then .error (.align, p)
  else if curTenant s ≠ 0 ∧ eTenant s (entryKey (pOff p)) ≠ curTenant s then .error (.protection, p)
  else .ok (entryKey (pOff p))

/-- The launch whose KILL_DONE a kill of entry k waits for: the running one, or one of a KILLED entry that is still being
killed. -/
def killTarget (s : State) (k : Nat) : Option Nat :=
  if eState s k = 3 then slotOfEntry s k
  else if eState s k = 6 then (s.ctl.launches.find? fun x => x.2.v && x.2.entry == k && x.2.sst == .killing).map (·.1)
  else none
/-- kill (R426): kills the entry's launch; with WAIT the word goes on until KILL_DONE. -/
def execKill (nx : Nx) (sd sa : Reg) (wait : Bool) (s : State) : Out :=
  let i := Instr.kill nx sd sa wait
  match s.cur.latch with
  | some (a, old, e, uid) =>
    let going := s.ctl.launches.any fun x => x.2.v && x.2.uid == uid && x.2.sst == .killing
    endWord i nx (a, old, e) s (if going then .wait s uid else .done s (wr1 sd old))
  | none =>
    match entryPtr s (reg s sa) with
    | .error t => endWord i nx (0, 0, 0) s (.trap s t)
    | .ok k =>
      let old := entryW s k 7
      let slot := killTarget s k
      let s1 := killEntry s k .killed
      endWord i nx (reg s sa, old, 0) s
        (if (getSpan s1 s.cur.sp).ended then .gone s1
         else match slot, wait with
           | some n, true => .wait s1 (getL s n).uid
           | _, _ => .done s1 (wr1 sd old))

/-- recv (R155): BLOCKED until the channel holds an entry before which no word of the cycle can come (R143). A channel that is not the
handler's traps ILLEGAL. -/
def execRecv (nx : Nx) (o : RecvOp) (s : State) : Out :=
  let i := Instr.recv nx o
  let ch := o.ch.toNat
  let p := curSpan s
  endWord i nx (0, 0, 0) s
    (if !boundTo p ch s.cur.h then .trap s (illegalT s)
     else match tget p.ch ch [] with
       | [] => .wait s 0
       | t :: _ => if headOpen p ch then .wait s 0 else .done (takeEntry s s.cur.sp s.cur.h ch o.peek) (recvWrites o t))

/-- send (R156): BLOCKED while the channel is full. -/
def execSend (nx : Nx) (sa : Reg) (empty : Bool) (ch : BitVec 6) (s : State) : Out :=
  let i := Instr.send nx sa empty ch
  let v := operands s sa 0 0
  let p := curSpan s
  endWord i nx v s
    (if !isBound p ch.toNat then .trap s (illegalT s)
     else if !chanRoom s s.cur.sp ch.toNat then .wait s 0
     else .done (enterChannel s s.cur.sp ch.toNat .send [] (if empty then .empty else .word (v.1.zeroExtend 512))) {})

end Sys2Proof.Machine
end

