-- ==== Sys2Proof/Machine/Memory.lean ====
section
/-!
DEFINITION. Machine/Memory.lean: loads, stores, atomics, fences, barrier words, counted waits, signal and drain (R273,
R274, R379 to R388).
-/
namespace Sys2Proof.Machine

/-- p with a displacement: the pointer, and whether the exact offset stays within 2^50 (R274). -/
def dispPtr (p : Word) (d : Int) : Word × Bool :=
  let t : Int := (pOff p : Int) + d
  (withOff p (t % (2 ^ 50 : Nat)).toNat, decide (0 ≤ t) && decide (t < (2 ^ 50 : Nat)))

/-- A load or store word at a base and displacement. -/
def dispWord (i : Instr) (nx : Nx) (k : AKind) (p : Word) (d : Int) (n al : Nat) (ord : Ord) (sc : Scope) (s : State) : Out :=
  let a := dispPtr p d
  if a.2 then memWord i nx k a.1 n al ord sc s else endWord i nx (0, 0, 0) s (.trap s (.ptrSpace, a.1))

def execLd (nx : Nx) (o : MemOp) (s : State) : Out :=
  dispWord (.ld nx o) nx .read (reg s o.sa) o.disp.toInt (2 ^ o.sz.toNat) (2 ^ o.sz.toNat) o.ord o.scope s
def execLds (nx : Nx) (o : LdsOp) (s : State) : Out :=
  dispWord (.lds nx o) nx .read (reg s o.sa) o.disp.toInt (8 * (o.n1.toNat + 1)) 8 o.ord o.scope s
def execSt (nx : Nx) (o : MemOp) (s : State) : Out :=
  dispWord (.st nx o) nx (.write (toBytes (2 ^ o.sz.toNat) (reg s o.sd).toNat)) (reg s o.sa) o.disp.toInt
    (2 ^ o.sz.toNat) (2 ^ o.sz.toNat) o.ord o.scope s

/-- The new value of an atomic on n bytes (R379): old value m, operands b and e. -/
def amoNew (fn : AmoFn) (n m b e : Nat) : Nat :=
  let w := 8 * n
  let b := b % 2 ^ w
  match fn with
  | .add => (m + b) % 2 ^ w
  | .and => m &&& b
  | .or => m ||| b
  | .xor => m ^^^ b
  | .min => if sextInt w b < sextInt w m then b else m
  | .max => if sextInt w m < sextInt w b then b else m
  | .minu => if b < m then b else m
  | .maxu => if m < b then b else m
  | .swap => b
  | .cas => if m = e % 2 ^ w then b else m
  | .fadd => rne fFp32 ((d32 m).add false (d32 b))

/-- An atomic word (R380). -/
def amoWord (i : Instr) (fn : AmoFn) (nx : Nx) (o : AmoOp) (e : Word) (s : State) : Out :=
  let n := if o.dbl then 8 else 4
  memWord i nx (.amo fn o.dbl (reg s o.sb) e) (reg s o.sa) n n o.ord o.scope s

def execAmoAdd (nx : Nx) (o : AmoOp) (s : State) : Out := amoWord (.amoAdd nx o) .add nx o 0 s
def execAmoAnd (nx : Nx) (o : AmoOp) (s : State) : Out := amoWord (.amoAnd nx o) .and nx o 0 s
def execAmoOr (nx : Nx) (o : AmoOp) (s : State) : Out := amoWord (.amoOr nx o) .or nx o 0 s
def execAmoXor (nx : Nx) (o : AmoOp) (s : State) : Out := amoWord (.amoXor nx o) .xor nx o 0 s
def execAmoMin (nx : Nx) (o : AmoOp) (s : State) : Out := amoWord (.amoMin nx o) .min nx o 0 s
def execAmoMax (nx : Nx) (o : AmoOp) (s : State) : Out := amoWord (.amoMax nx o) .max nx o 0 s
def execAmoMinu (nx : Nx) (o : AmoOp) (s : State) : Out := amoWord (.amoMinu nx o) .minu nx o 0 s
def execAmoMaxu (nx : Nx) (o : AmoOp) (s : State) : Out := amoWord (.amoMaxu nx o) .maxu nx o 0 s
def execAmoSwap (nx : Nx) (o : AmoOp) (s : State) : Out := amoWord (.amoSwap nx o) .swap nx o 0 s
def execAmoCas (nx : Nx) (o : AmoOp) (se : Reg) (fd : BitVec 3) (fe : Bool) (s : State) : Out :=
  amoWord (.amoCas nx o se fd fe) .cas nx o (reg s se) s
def execAmoFadd (nx : Nx) (o : AmoOp) (s : State) : Out := amoWord (.amoFadd nx o) .fadd nx o 0 s

/-- cwait (R385, R386). -/
def execCwait (nx : Nx) (sd sa sb : Reg) (dbl : Bool) (c : CwCond) (sc : Scope) (s : State) : Out :=
  let n := if dbl then 8 else 4
  memWord (.cwait nx sd sa sb dbl c sc) nx (.cwait c (reg s sb)) (reg s sa) n n .acq sc s

/-- What a memory word writes once its bytes v are back (R274, R380, R386), and its NX. -/
def memFinish (i : Instr) (bs : List Byte) (e : Word) : Option (Writes × Nx) :=
  let v := ofBytes bs
  let amo (nx : Nx) (o : AmoOp) : Option (Writes × Nx) := some (wr1 o.sd (wd v), nx)
  match i with
  | .ld nx o => some (wr1 o.sd (if o.sgn then Word.ofInt (sextInt (8 * 2 ^ o.sz.toNat) v) else wd v), nx)
  | .lds nx o => some ({ regs := (List.range (o.n1.toNat + 1)).map fun k =>
      (o.sd + BitVec.ofNat 6 k, wd (ofBytes ((bs.drop (8 * k)).take 8))) }, nx)
  | .st nx _ => some ({}, nx)
  | .amoAdd nx o => amo nx o | .amoAnd nx o => amo nx o | .amoOr nx o => amo nx o | .amoXor nx o => amo nx o
  | .amoMin nx o => amo nx o | .amoMax nx o => amo nx o | .amoMinu nx o => amo nx o | .amoMaxu nx o => amo nx o
  | .amoSwap nx o => amo nx o | .amoFadd nx o => amo nx o
  | .amoCas nx o _ fd fe => some (wrF o.sd (wd v) fd fe (decide (v = e.toNat % 2 ^ (if o.dbl then 64 else 32))), nx)
  | .cwait nx sd .. => some (wr1 sd (wd v), nx)
  | .fence nx .. => some ({}, nx)
  | _ => none

/-- fence (R381): a marker in the handler's port queue; the stage ends when the marker completes. -/
def execFence (nx : Nx) (k : FenceKind) (sc : Scope) (s : State) : Out :=
  let i := Instr.fence nx k sc
  endWord i nx (0, 0, 0) s
    (match podTrap s (k != .acq && sc == .pod) true with
     | some t => .trap (clearPod s) t
     | none =>
       let (id, s1) := freshId s
       .hold (updNet s1 fun n => { n with acc := n.acc ++ [{
         id := id, grp := id, port := curPort s, kind := .fence k, scope := sc, n := 0, issued := now s }] })
         (.mem i id))

/-! ## Barrier words (R383, R384) -/

/-- The checks of a barrier word: the home key. -/
def barCheck (s : State) (p : Word) : Except Trp Nat :=
  match barKey p (regionRanks (curSpan s)) with
  | none => .error (.ptrSpace, p)
  | some k => if pOff p % 8 ≠ 0 then .error (.align, p) else .ok k

/-- bar.init (R384). -/
def execBarInit (nx : Nx) (sd sa sb : Reg) (s : State) : Out :=
  let i := Instr.barInit nx sd sa sb
  let v := operands s sa sb 0
  let p := v.1
  let e := v.2.1.toNat
  endWord i nx v s
    (match barCheck s p with
     | .error t => .trap s t
     | .ok k =>
       if e = 0 ∨ 2047 < e then .trap s (rejectT 0x04 0)
       else match podTrap s false true with
       | some t => .trap (clearPod s) t
       | none =>
       if acqOut s (curPort s) then .wait s 0
       else if isPoison s k 8 then .trap s (.ue, p)
       else match detStep s (curPort s) k 8 true none with
         | none => .trap s (.conflict, p)
         | some s =>
           let s1 := homeWrite (publish s (curPort s).num (objBar k)) k (toBytes 8 (e * 2 ^ 51))
           .done (wakeBarWaits s1.1 k (wd (e * 2 ^ 51))) (wr1 sd (wd (ofBytes (readN s.mem k 8)))))

/-- bar.arrive (R384): a release of its scope, then one update. -/
def execBarArrive (nx : Nx) (sd sa sb : Reg) (sc : Scope) (fd : BitVec 3) (fe : Bool) (s : State) : Out :=
  let i := Instr.barArrive nx sd sa sb sc fd fe
  let v := operands s sa sb 0
  let b := v.2.1.toInt
  endWord i nx v s
    (match barCheck s v.1 with
     | .error t => .trap s t
     | .ok k =>
       if b < -((2 ^ 40 : Nat) - 1) ∨ ((2 ^ 40 : Nat) : Int) ≤ b then .trap s (rejectT 0x04 0)
       else match podTrap s (sc == .pod) true with
         | some t => .trap (clearPod s) t
         | none =>
           if relWaits s sc || acqOut s (curPort s) then .wait s 0
           else match (detStep s (curPort s) k 8 true (some barClass)).elim none (barUpdate · k 1 b) with
             | none => .trap s (if isPoison s k 8 then .ue else .conflict, v.1)
             | some (s1, old, ended) =>
               .done (publish s1 (curPort s).num (objBar k)) (wrF sd old fd fe ended))

/-- bar.wait (R384): an acquire, once the phase bit differs from bit 63 of s[SB]: tested when it begins, which an earlier acquire of its
port holds (mark 2, R370), and after each update (wakeBarWaits). It is judged as the read of a barrier once it has observed what came
before the phase's end (R378, R391). -/
def execBarWait (nx : Nx) (sd sa sb : Reg) (sc : Scope) (s : State) : Out :=
  let i := Instr.barWait nx sd sa sb sc
  let v := operands s sa sb 0
  endWord i nx v s
    (match barCheck s v.1 with
     | .error t => .trap s t
     | .ok k =>
       let begun := latchMark s = some 0 ∨ latchMark s = some 1
       match podTrap s false true with
       | some t => .trap (clearPod s) t
       | none =>
       if ¬ begun ∧ acqOut s (curPort s) = true then .wait s 2
       else if isPoison s k 8 then .trap s (.ue, v.1)
       else
         let w := if begun then v.2.2 else wd (ofBytes (readN s.mem k 8))
         if latchMark s = some 0 ∨ (¬ begun ∧ barPh w = isSet v.2.1.toNat 63) then .wait s 0
         else match detStep (observe s (curPort s).num (objBar k)) (curPort s) k 8 false (some barClass) with
           | none => .trap s (.conflict, v.1)
           | some s1 => .done s1 (wr1 sd w))

/-! ## signal and drain (R387, R388) -/

/-- signal (R387). -/
def execSignal (nx : Nx) (sa : Reg) (ch : BitVec 6) (sc : Scope) (s : State) : Out :=
  let i := Instr.signal nx sa ch sc
  let v := operands s sa 0 0
  endWord i nx v s
    (if !isBound (curSpan s) ch.toNat then .trap s (illegalT s)
     else match podTrap s (sc == .pod) false with
       | some t => .trap (clearPod s) t
       | none =>
         if relWaits s sc || !chanRoom s s.cur.sp ch.toNat then .wait s 0
         else .done (enterChannel s s.cur.sp ch.toNat .send (clockOf s (curPort s).num) (.word (v.1.zeroExtend 512))) {})

/-- Ports of a span. -/
def isSpanPort (s : State) (sp : Nat) (q : PortId) : Bool := portSpan s q == sp && (match q with | .device _ => false | _ => true)
/-- The number under which an access has issued; the write of a job's element has that of the element. -/
def issuedAs (a : Access) : Nat := match a.tag with | .job _ id => id | _ => a.id
/-- Does an access that the span has issued before number `m` hold drain: a read, or a write whose home lies in the domain of its own
port? The requests of a FAULTED stream hold it until the span resumes. -/
def drainHolds (s : State) (sp : Nat) (sc : Scope) (m : Nat) : Bool :=
  (s.net.acc.any fun a => isSpanPort s sp a.port && decide (issuedAs a < m) && !isFence a.kind && (isRead a.kind || writeIn s a sc)) ||
  (getSpan s sp).streams.any fun x => x.2.st == .faulted || x.2.jobs.any fun j => j.err.isSome

/-- drain (R388): waits for the accesses issued before it; what the span's streams have done is ordered before what the handler does
next (R374, R378). -/
def execDrain (nx : Nx) (sc : Scope) (s : State) : Out :=
  let i := Instr.drain nx sc
  let m := (latchMark s).getD s.sched.nextId
  endWord i nx (0, 0, 0) s
    (match podTrap s (sc == .pod) false with
     | some t => .trap (clearPod s) t
     | none => if drainHolds s s.cur.sp sc m then .wait s m
       else .done ((curSpan s).streams.foldl (fun s x => orderPorts s (PortId.stream s.cur.sp x.1).num (curPort s).num) s) {})

end Sys2Proof.Machine
end

