-- ==== Sys2Proof/Machine/Streams.lean ====
section
/-!
DEFINITION. Machine/Streams.lean: streams, jobs and the stream words (R253 to R266, R270, R275 to R282, R382).
-/
namespace Sys2Proof.Machine

/-! ## Shapes (R56, R57) -/

/-- A shape record's words as a shape; none where it breaks R56 or R57. -/
def parseShape (ws : List Word) (first : Bool) : Option Shape :=
  let w0 := nth ws 0 0
  let nd := wbits w0 63 62 + 1
  let ord := [wbits w0 61 60, wbits w0 59 58, wbits w0 57 56, wbits w0 55 54]
  let d (i : Nat) := nth ws (i + 1) 0
  let ext := (List.range nd).map fun i => wbits (d i) 63 40
  let pad := (List.range nd).map fun i => wbits (d i) 39 16
  let ok := wbits w0 47 0 == 0 && (first || wbits w0 53 48 == 0) && (!first || decide (1 ≤ wbits w0 53 48)) &&
    (ord.drop nd).all (· == 0) && noRepeats (ord.take nd) && (ord.take nd).all (fun x => decide (x < nd)) &&
    (List.range nd).all (fun i => decide (1 ≤ nth ext i 0) && decide (nth pad i 0 < nth ext i 0) && wbits (d i) 15 0 == 0) &&
    (List.range 4).all (fun i => decide (i < nd) || d i == 0) && (List.range 3).all (fun i => nth ws (5 + i) 0 == 0) &&
    decide (ext.foldl (· * ·) 1 ≤ 2 ^ 48)
  if ok then some { order := ord.take nd, ext := ext, pad := pad } else none

/-- Shape `i` of the issuing span's table, read through the handler's port (R56), and the state after the reads; CONFIG_REJECT
SHAPE. -/
def shapeOf (s : State) (i : Nat) : Except Stop (Shape × State) := do
  let p := curSpan s
  if p.shpt = 0 then throw (.trap (rejectT 0x17 0) s.net)
  let (b0, s1) ← hRead s p.shpt 64 64
  let n := wbits (nth (wordsOf 8 b0) 0 0) 53 48
  if n ≤ i then throw (.trap (rejectT 0x17 0) s1.net)
  let (b, s2) ← hRead s1 (withOff p.shpt ((pOff p.shpt + 64 * i) % 2 ^ 50)) 64 64
  match parseShape (wordsOf 8 b) (i == 0) with
  | some x => pure (x, s2)
  | none => throw (.trap (rejectT 0x17 0) s2.net)

/-- Positions of a shape. -/
def shapeCount (x : Shape) : Nat := x.ext.foldl (· * ·) 1

/-- Indices by dimension of position q: the innermost dimension of ORDER varies fastest (R57). -/
def shapeIdx (x : Shape) (q : Nat) : List Nat :=
  let step (acc : Nat × Tab Nat) (d : Nat) : Nat × Tab Nat :=
    let e := max (nth x.ext d 1) 1
    (acc.1 / e, tput acc.2 d (acc.1 % e))
  let r := x.order.reverse.foldl step (q, [])
  (List.range x.ext.length).map fun d => tget r.2 d 0
/-- Is position q masked (R57). -/
def shapeMasked (x : Shape) (q : Nat) : Bool :=
  let i := shapeIdx x q
  (List.range x.ext.length).any fun d => decide (nth x.ext d 1 - nth x.pad d 0 ≤ nth i d 0)

/-! ## What a stream is (R255, R256, R261) -/

def sDesc (x : Stream) (i : Nat) : Word := nth x.desc i 0
def sBar (x : Stream) : Word := sDesc x 7
/-- Target tile and buffer of a RING stream. -/
def ringTile (p : Span) (x : Stream) : Nat := rectTile p (wholeRect p) (wbits (sDesc x 6) 54 45)
def ringBuf (x : Stream) : Nat := wbits (sDesc x 6) 44 42
/-- Depth, entry size in bytes and base of a buffer of a tile (R103, R243). -/
def bufDepth (t : Tile) (b : Nat) : Nat := bitsOf (tget t.cfg (9 * 32 + 2 * b + 1) 0).toNat 11 8
def bufEsz (t : Tile) (b : Nat) : Nat := 64 * (bitsOf (tget t.cfg (9 * 32 + 2 * b + 1) 0).toNat 7 0 + 1)
def bufBase (t : Tile) (b : Nat) : Nat := 64 * (tget t.cfg (9 * 32 + 2 * b) 0).toNat
/-- Full bit of entry e of buffer b. -/
def isFull (t : Tile) (b e : Nat) : Bool := tget t.full (b * 16 + e) false
def setFull (t : Tile) (b e : Nat) (v : Bool) : Tile := { t with full := tset t.full (b * 16 + e) v false }
/-- Word size in bytes (R256). -/
def wordBytes (s : State) (p : Span) (x : Stream) : Nat :=
  if x.kind = 2 ∨ x.kind = 3 then bufEsz (getTile s (ringTile p x)) (ringBuf x)
  else fmtWidth x.fmt * 2 ^ wbits (sDesc x 6) 57 55 / 8
/-- Depth of a RING in-stream (R259, R270). -/
def ringDepth (s : State) (p : Span) (x : Stream) : Nat :=
  if x.dmax ≠ 0 then x.depth else bufDepth (getTile s (ringTile p x)) (ringBuf x)

/-- The pointer of position q (R256), or the fault it raises. -/
def posPtr (s : State) (p : Span) (x : Stream) (q : Nat) : Except Trp Word :=
  let idx := shapeIdx x.shape q
  let base := sDesc x 0
  let str := sumInt ((List.range idx.length).map fun d => ((nth idx d 0 : Nat) : Int) * (sDesc x (1 + d)).toInt)
  let o0 := sextInt 32 (wbits (sDesc x 5) 31 0)
  let o1 := sextInt 32 (wbits (sDesc x 5) 63 32)
  let off : Int := (pOff base : Int) + str + ((nth x.iters 0 0 : Nat) : Int) * o0 + ((nth x.iters 1 0 : Nat) : Int) * o1
  let wb := wordBytes s p x
  let ptr := withOff base (off % (2 ^ 50 : Nat)).toNat
  let al := if x.kind = 2 ∨ x.kind = 3 then 64 else min wb 64
  if off < 0 ∨ ((2 ^ 50 : Nat) : Int) < off + wb ∨ ptrOk ptr wb = false ∨ pSpace ptr = 4 then .error (.ptrSpace, ptr)
  else if al ≠ 0 ∧ off.toNat % al ≠ 0 then .error (.align, ptr)
  else if !ownsOk s p.tenant.toNat ptr wb (x.kind == 1 || x.kind == 3) then .error (.protection, ptr)
  else .ok ptr
where
  sumInt (l : List Int) : Int := l.foldl (· + ·) 0

/-- The state word (R279). -/
def stateWord (x : Stream) : Word :=
  let st := match x.st with
    | .free => 0 | .idle => 1 | .active => 2 | .done => 3 | .faulted => 4
  let fin := match x.jobs with
    | j :: _ => popN j.bmp.toNat 64
    | [] => x.doneP
  wd (st * 2 ^ 60 + (if x.st = .free then 7 else x.kind) * 2 ^ 57 + (if x.kind ≤ 1 then x.port else 0) * 2 ^ 52
    + x.jobs.length * 2 ^ 49 + fin % 2 ^ 48)

/-- The end-of-transfer token of a pass or job (R261) goes to its unit, with the clock of the stream or of its job. -/
def sendToken (s : State) (sp sid : Nat) (w : Word) (kind bytes : Nat) (comp : Nat := (PortId.stream sp sid).num) : State :=
  let tok := wd (wbits w 31 16 * 2 ^ 48 + sid * 2 ^ 43 + kind * 2 ^ 40 + bytes % 2 ^ 32)
  updSpan (markAdd s sp (qToks sp) (getSpan s sp).toks.length 0 (clockOf s comp)) sp fun p => { p with toks := p.toks ++ [(isSet w.toNat 14, wbits w 13 8, tok)] }

/-- Is an access of position q outstanding. -/
def posOut (s : State) (sp sid q : Nat) : Bool := s.net.acc.any fun a => a.port == .stream sp sid && a.tag == .pos q
def streamOut (s : State) (sp sid : Nat) : Bool := s.net.acc.any fun a => a.port == .stream sp sid && !isFence a.kind

/-- The fabric of a span moves: live, not frozen, not stopped (R409, R413). -/
def flows (p : Span) : Bool := p.live && !p.frozen && !p.quiesced && !p.ended && !p.saved
/-- What stands at hand in it moves on, also while a pre-emption or the watchdog lets its leaves run out (R413). -/
def moves (p : Span) : Bool := p.live && !p.frozen && !p.ended && !p.saved

/-- Is it a request of a job (R265): of an element, or of an element's index? -/
def isJobTag : ATag → Bool
  | .job .. => true | .fetch => true | _ => false
/-- A stream's access faults (R262, R266): FAULTED, later responses discarded, the span freezes. Of its writes those go on of which
every part is on its way; the others are made again when the span resumes. Requests of a job go on. -/
def streamFault (s : State) (sp sid : Nat) (q : Nat) (t : Trp) (bmp : Word) : State :=
  let isJob := (getStream s sp sid).kind == 5 || (getStream s sp sid).kind == 6
  let s1 := updStream s sp sid fun x =>
    let x := { x with st := .faulted, fault := some t, lastFault := t.2 }
    if x.kind = 0 ∨ x.kind = 4 then { x with next := q, redoTo := max x.redoTo x.next, resp := x.resp.filter fun r => decide (r.1 < q) }
    else if x.kind = 1 then { x with resp := x.resp.map fun r => if q ≤ r.1 ∧ r.2 ≠ none then (r.1, some .drain) else r }
    else x
  let stays (g : Nat) : Bool := (s.net.acc.filter fun b => b.port == .stream sp sid && b.grp == g).all fun b =>
    isWrite b.kind && !isQueued b && b.fault.isNone
  let keep (a : Access) : Bool := a.port != .stream sp sid || isFence a.kind || isJobTag a.tag || stays a.grp
  let s2 := updNet s1 fun n => { n with acc := n.acc.filter keep }
  fabricFault s2 sp { cause := t.1, tval := t.2, agent := if isJob then 3 else 2, loc := BitVec.ofNat 12 sid, cbmp := bmp }

/-- The pass has ended: arrival, token, next state (R253, R261, R269). What a PORT out pass has written comes before the phases that
begin after its own (R373, R374). -/
def endPass (s : State) (sp sid : Nat) : State :=
  let x := getStream s sp sid
  let s := if x.kind = 1 ∧ (getSpan s sp).det = true then publish s (PortId.stream sp sid).num (objPhase sp x.phase) else s
  let s1 := if sBar x ≠ 0 ∧ x.kind ≠ 0 ∧ x.kind ≠ 4 then queueBar s sp sid (sBar x) 0 true else s
  let s2 := updStream s1 sp sid fun x => { x with
    pass := false, st := if x.kind ≤ 1 then .idle else .done, resp := [], stage := [], regd := [], kept := [], drained := x.kind == 1 }
  if x.tok then sendToken s2 sp sid (sDesc x 6) x.kind x.bytes else s2

/-- What `shape` leaves of the pass of a FAULTED RING stream (R262, R281): writes on their way land what their stages registered when
they perform, and what the other stages registered will never land (R269). A fence token that stands in the stream's queue has no
request to come before it any more. -/
def leavePass (s : State) (sp sid : Nat) : State :=
  let x := getStream s sp sid
  let port := PortId.stream sp sid
  let way (q : Nat) : Bool := s.net.acc.any fun a => a.port == port && a.tag == .pos q
  let lost := sumNat ((x.regd.filter fun r => !way r.1).map (·.2))
  let s1 := updNet s fun n => { n with acc := n.acc.map fun a =>
    if a.port != port then a else match a.tag with
      | .pos q => { a with tag := .old (tget x.regd q 0) }
      | _ => if isFence a.kind then { a with tries := 0 } else a }
  if lost = 0 then s1 else queueBar s1 sp sid (sBar x) (-(lost : Int)) false
/-- Start a pass of a bound stream (R254, R269, R281). -/
def startPass (s : State) (sp sid leaf phase : Nat) (iters : List Nat) : State :=
  let s1 := updStream (leavePass s sp sid) sp sid fun x =>
    let x := match x.nextShp with
      | some (i, sh, b) => { x with shp := i, shape := sh, nextShp := none, desc := match b with | none => x.desc | some v => setNth x.desc 0 v }
      | none => x
    { x with pass := true, st := .active, leaf := leaf, phase := phase, iters := iters, next := 0, doneP := 0, bytes := 0, resp := []
             stage := [], regd := [], redoTo := 0, kept := [], drained := false }
  let x := getStream s1 sp sid
  if x.kind = 1 ∧ sBar x ≠ 0 then
    queueBar s1 sp sid (sBar x) ((shapeCount x.shape * wordBytes s1 (getSpan s1 sp) x : Nat) : Int) false
  else s1

/-- What a port has issued for position q of its stream, from state s to s1, joins its queue: of a position requested before a fault
ahead of the fence tokens placed after that request, which count the positions before their mark (R262, R382). -/
def placeAhead (s s1 : State) (port : PortId) (q : Nat) : State :=
  let old := s.net.acc
  let before (a : Access) : Bool := !(a.port == port && isFence a.kind && decide (q < a.tries))
  updNet s1 fun n => { n with acc := old.takeWhile before ++ n.acc.drop old.length ++ old.dropWhile before }
/-- Position q cannot be accessed: its access stands as performed with the fault, and is met in position order (R262). -/
def faultPos (s : State) (sp sid q : Nat) (t : Trp) : State :=
  let (id, s1) := freshId s
  placeAhead s (updNet s1 fun n => { n with acc := n.acc ++ [{
    id := id, grp := id, port := .stream sp sid, tag := .pos q, ptr := t.2, stat := .performed, fault := some t.1 }] }) (.stream sp sid) q

/-- Issue the access of position q; a PORT or CORE word is cut at lines (R256). -/
def issuePos (s : State) (sp sid q : Nat) (k : AKind) : State :=
  let p := getSpan s sp
  let x := getStream s sp sid
  match posPtr s p x q with
  | .error t => faultPos s sp sid q t
  | .ok ptr =>
    let ph := if x.kind ≤ 1 then some x.phase else none
    let proto : Access := { port := .stream sp sid, tag := .pos q, kind := k, phase := ph }
    placeAhead s (if x.kind = 2 ∨ x.kind = 3 then issueAcc s proto ptr (wordBytes s p x)
      else issueParts s proto ptr (cutAt 64 (pOff ptr) (wordBytes s p x))) (.stream sp sid) q

/-- Tokens of a fabric port: two at most (R102). -/
def portRoom (t : Tab (List Token)) (n : Nat) : Bool := decide ((tget t n []).length < 2)

/-- A token of WB bytes (R256). -/
def tokenOf (bs : List Byte) : Token := .word (BitVec.ofNat 512 (ofBytes bs))

/-- A pass is in progress that neither a fault nor scancel has stopped. -/
def passOn (x : Stream) (kind : Nat) : Bool := x.kind == kind && x.pass && x.st == .active && !x.cancel
/-- It goes on: the span starts positions. -/
def passMoves (p : Span) (x : Stream) (kind : Nat) : Bool := flows p && passOn x kind

/-- PORT_IN_REQUEST (R257): the next position is requested, at most 64 not yet placed; a masked one needs no request. -/
def execPortInRequest (sp sid : Nat) (s : State) : Out :=
  let p := getSpan s sp
  let x := tget p.streams sid {}
  if passMoves p x 0 && decide (x.next < shapeCount x.shape) && decide (x.next < x.doneP + 64) then
    let q := x.next
    let masked := shapeMasked x.shape q
    let s1 := updStream s sp sid fun x => { x with next := q + 1, resp := tput x.resp q (if masked then some .empty else none) }
    .next (if masked then s1 else issuePos s1 sp sid q .read)
  else .next s

/-- STREAM_DELIVER (R257, R369): the lowest undelivered response moves to its port; after the last position the drain token,
which ends the pass. -/
def execStreamDeliver (sp sid : Nat) (s : State) : Out :=
  let p := getSpan s sp
  let x := tget p.streams sid {}
  let mark (s : State) : State := markAdd s sp (qFi sp x.port) (tget p.fi x.port []).length 0 (clockOf s (PortId.stream sp sid).num)
  if !(moves p && passOn x 0 && portRoom p.fi x.port && !p.fiDrain.contains x.port) then .next s
  else if x.doneP = shapeCount x.shape then
    .next (endPass (updSpan (mark s) sp fun p => { p with fi := tput p.fi x.port (tget p.fi x.port [] ++ [.drain]) }) sp sid)
  else
    match tget x.resp x.doneP none with
    | none => .next s
    | some t =>
      let s1 := updSpan (mark s) sp fun p => { p with fi := tput p.fi x.port (tget p.fi x.port [] ++ [t]) }
      .next (updStream s1 sp sid fun x => { x with
        resp := tdel x.resp x.doneP, doneP := x.doneP + 1, bytes := x.bytes + (if t = .empty then 0 else wordBytes s p x) })

/-- A PORT out pass ends once its drain token has come and every write is complete (R258). -/
def tryEndOut (s : State) (sp sid : Nat) : State :=
  let x := getStream s sp sid
  if x.pass && !x.cancel && x.kind == 1 && x.drained && !streamOut s sp sid && x.st == .active && x.resp.all (fun r => r.2 == some .empty)
  then endPass s sp sid else s

/-- The number of bytes of WB at n positions, as a landing. -/
def landing (s : State) (sp sid n : Nat) : State :=
  let x := getStream s sp sid
  queueBar s sp sid (sBar x) (-((n * wordBytes s (getSpan s sp) x : Nat) : Int)) false

/-- PORT_OUT_WRITE (R258): one token of the port is consumed, once it stands there (R448); a word is written at its position. After a
fault the kept positions are written again first (R262). -/
def execPortOutWrite (sp sid : Nat) (s : State) : Out :=
  let p := getSpan s sp
  let x := tget p.streams sid {}
  if !(moves p && passOn x 1) then .next s else
  match x.resp.find? fun r => (r.2 == some .drain || r.2 == none) && !posOut s sp sid r.1 with
  | some (q, r) =>
    let s1 := if r = none then s else updStream s sp sid fun x => { x with resp := tput x.resp q (some .empty) }
    .next (issuePos s1 sp sid q (.write (tget x.kept q [])))
  | none =>
    match tget p.fo x.port [] with
    | [] => .next (tryEndOut s sp sid)
    | t :: rest =>
      if rest.length < (tget p.foWaits x.port []).length then .next s else
      let s1 := updSpan (markTake s sp (.stream sp sid) (qFo sp x.port)) sp fun p => { p with fo := tput p.fo x.port rest }
      let n := shapeCount x.shape
      let q := x.next
      match t with
      | .drain =>
        let s2 := updStream s1 sp sid fun x => { x with drained := true, next := n }
        .next (tryEndOut (if q < n then landing s2 sp sid (n - q) else s2) sp sid)
      | .empty =>
        if n ≤ q then .next s1
        else .next (landing (updStream s1 sp sid fun x => { x with next := q + 1, doneP := x.doneP + 1 }) sp sid 1)
      | .word w =>
        if n ≤ q then .next s1
        else if shapeMasked x.shape q then
          .next (landing (updStream s1 sp sid fun x => { x with next := q + 1, doneP := x.doneP + 1 }) sp sid 1)
        else
          let bs := toBytes (wordBytes s p x) w.toNat
          let s2 := updStream s1 sp sid fun x => { x with
            next := q + 1, kept := tput x.kept q bs, resp := tput x.resp q none }
          .next (issuePos s2 sp sid q (.write bs))

/-- A RING position is done: the pass ends after the last. -/
def ringDone (s : State) (sp sid q n : Nat) : State :=
  let s1 := updStream s sp sid fun x => { x with
    doneP := x.doneP + 1, bytes := x.bytes + n, stage := tdel x.stage q, regd := tdel x.regd q, kept := tdel x.kept q }
  let x := getStream s1 sp sid
  if x.pass && !x.cancel && x.doneP == shapeCount x.shape then endPass s1 sp sid else s1

/-- The node bytes of entry e of a RING stream's buffer: their key and their pointer. -/
def ringKey (s : State) (p : Span) (x : Stream) (e : Nat) : Nat × Word :=
  let t := ringTile p x
  let o := bufBase (getTile s t) (ringBuf x) + e * bufEsz (getTile s t) (ringBuf x)
  (keyTile t o, mkPtr 2 (t / 16) (t % 16 * 2 ^ 18 + o))
/-- A RING stream's own access to entry e of its buffer, ordered after what last changed the entry's full/empty bit (R243, R391,
R392); none on a conflict. -/
def ringAccess (s : State) (sp sid e : Nat) (write : Bool) : Option State :=
  let p := getSpan s sp
  let x := tget p.streams sid {}
  let t := ringTile p x
  let port := PortId.stream sp sid
  detStep (observe s port.num (objTile t (ringBuf x * 16 + e))) port (ringKey s p x e).1 (bufEsz (getTile s t) (ringBuf x)) write none

/-- The depth one step nearer to the target that a window gives (R188). With more than 1,024 stages consumed the time per stage is
taken as 1 cycle (notes/assumptions/99.md). -/
def windowStep (x : Stream) : Stream :=
  let x0 := { x with winStart := x.winStart + 1024, winN := 0, winLat := 0, winUsed := 0 }
  if x.dmax = 0 ∨ x.winN = 0 then x0
  else
    let lm := x.winLat / x.winN
    let tc := if x.winUsed = 0 then 1024 else 1024 / x.winUsed
    let tc := max tc 1
    let target := max x.dmin (min x.dmax ((lm + tc - 1) / tc + 1))
    { x0 with depth := if x.depth < target then x.depth + 1 else if target < x.depth then x.depth - 1 else x.depth }
/-- The state after the end of a stream's depth window, if its 1,024 cycles are over (R188). -/
def windowDue (s : State) (sp sid : Nat) : State :=
  let p := getSpan s sp
  let x := tget p.streams sid {}
  if !(flows p) || x.st == .free || x.kind ≠ 2 || now s < x.winStart + 1024 then s else updStream s sp sid windowStep
/-- An entry of buffer b of a tile is emptied: a stage of the RING in-stream that fills it is consumed, which counts for the
depth controller (R188). -/
def stageUsed (s : State) (sp t b : Nat) : State :=
  let p := getSpan s sp
  p.streams.foldl (fun s x =>
    if x.2.kind = 2 ∧ x.2.st ≠ .free ∧ ringTile p x.2 = t ∧ ringBuf x.2 = b then
      updStream (windowDue s sp x.1) sp x.1 fun y => { y with winUsed := y.winUsed + 1 }
    else s) s

/-- A RING in-stream's entry is filled and set full (R259); a conflict is met at the position (R394). A masked position, which makes
no request, counts as a response of latency 0 (notes/assumptions/98.md). -/
def ringFill (s : State) (sp sid q : Nat) (bs : List Byte) : State :=
  let s := windowDue s sp sid
  let p := getSpan s sp
  let x := tget p.streams sid {}
  let t := ringTile p x
  let b := ringBuf x
  let e := q % max (bufDepth (getTile s t) b) 1
  let k := ringKey s p x e
  match ringAccess s sp sid e true with
  | none => faultPos s sp sid q (.conflict, k.2)
  | some s0 =>
    let s1 := (homeWrite s0 k.1 bs).1
    let s2 := updTile (publish s1 (PortId.stream sp sid).num (objTile t (b * 16 + e))) t fun T => setFull T b e true
    let s3 := updStream s2 sp sid fun x => { x with winN := x.winN + 1, winLat := x.winLat + (now s - tget x.stage q (now s)) }
    ringDone (queueBar s3 sp sid (sBar x) (-((tget x.regd q bs.length : Nat) : Int)) false) sp sid q bs.length

/-- The pointer that a position reports whose target buffer is not in use: to the first byte of the tile's node (R259;
notes/assumptions/129.md, DESIGN CHOICE). -/
def nodePtr (t : Nat) : Word := mkPtr 2 (t / 16) (t % 16 * 2 ^ 18)
/-- RING_IN_POSITION (R259): the next position starts when its entry is empty and a stage is free; a masked one zeroes its
entry. A stage whose request was dropped at a fault is requested again (R262). -/
def execRingInPosition (sp sid : Nat) (s : State) : Out :=
  let p := getSpan s sp
  let x := tget p.streams sid {}
  if !passMoves p x 2 then .next s else
  match x.stage.find? fun r => !posOut s sp sid r.1 with
  | some (q, _) => .next (issuePos s sp sid q .read)
  | none =>
    let t := ringTile p x
    let b := ringBuf x
    let T := getTile s t
    let q := x.next
    let d := bufDepth T b
    if shapeCount x.shape ≤ q || posOut s sp sid q then .next s
    else if d = 0 then .next (faultPos s sp sid q (.ptrSpace, nodePtr t))
    else if isFull T b (q % d) || decide (ringDepth s p x ≤ x.stage.length) || x.stage.any (fun r => r.1 % d == q % d) then .next s
    else if shapeMasked x.shape q && (ringAccess s sp sid (q % d) true).isNone then
      .next (faultPos s sp sid q (.conflict, (ringKey s p x (q % d)).2))
    else
      let s1 := updStream s sp sid fun x => { x with
        next := q + 1, stage := tput x.stage q (now s), regd := tput x.regd q (bufEsz T b) }
      let s2 := queueBar s1 sp sid (sBar x) (bufEsz T b : Int) false
      .next (if shapeMasked x.shape q then ringFill s2 sp sid q (List.replicate (bufEsz T b) 0) else issuePos s2 sp sid q .read)

/-- RING_OUT_POSITION (R259): the next full entry is read and set empty, its bytes written to memory; a masked one is set
empty without writing. -/
def execRingOutPosition (sp sid : Nat) (s : State) : Out :=
  let p := getSpan s sp
  let x := tget p.streams sid {}
  if !passMoves p x 3 then .next s else
  match x.stage.find? fun r => !posOut s sp sid r.1 with
  | some (q, _) => .next (issuePos s sp sid q (.write (tget x.kept q [])))
  | none =>
    let t := ringTile p x
    let b := ringBuf x
    let T := getTile s t
    let q := x.next
    let d := bufDepth T b
    let e := q % max d 1
    let (key, ptr) := ringKey s p x e
    if shapeCount x.shape ≤ q || posOut s sp sid q then .next s
    else if d = 0 then .next (faultPos s sp sid q (.ptrSpace, nodePtr t))
    else if !isFull T b e then .next s
    else if !shapeMasked x.shape q && isPoison s key (bufEsz T b) then .next (faultPos s sp sid q (.ue, ptr))
    else match (if shapeMasked x.shape q then some (observe s (PortId.stream sp sid).num (objTile t (b * 16 + e))) else ringAccess s sp sid e false) with
      | none => .next (faultPos s sp sid q (.conflict, ptr))
      | some s0 =>
        let bs := readN s.mem key (bufEsz T b)
        let s0 := stageUsed s0 sp t b
        let s1 := updTile (publish s0 (PortId.stream sp sid).num (objTile t (b * 16 + e))) t fun T => setFull T b e false
        let s2 := queueBar (updStream s1 sp sid fun x => { x with next := q + 1 }) sp sid (sBar x) (bs.length : Int) false
        if shapeMasked x.shape q then
          .next (ringDone (queueBar s2 sp sid (sBar x) (-(bs.length : Int)) false) sp sid q 0)
        else
          let s3 := updStream s2 sp sid fun x => { x with
            stage := tput x.stage q (now s), regd := tput x.regd q bs.length, kept := tput x.kept q bs }
          .next (issuePos s3 sp sid q (.write bs))

/-- CORE_STREAM_PLACE (R260): the response of the next position enters the queue of 8; else the next position is
requested. -/
def execCoreStreamPlace (sp sid : Nat) (s : State) : Out :=
  let p := getSpan s sp
  let x := tget p.streams sid {}
  if !(moves p && passOn x 4) then .next s else
  match tget x.resp x.doneP none with
  | some t =>
    let s1 := updStream s sp sid fun x => { x with
      resp := tdel x.resp x.doneP, queue := x.queue ++ [t], doneP := x.doneP + 1
      bytes := x.bytes + (if t = .empty then 0 else wordBytes s p x) }
    .next (if x.doneP + 1 = shapeCount x.shape then endPass s1 sp sid else s1)
  | none =>
    if flows p = true ∧ x.next < shapeCount x.shape ∧ x.queue.length + (x.next - x.doneP) < 8 then
      let q := x.next
      let masked := shapeMasked x.shape q
      let s1 := updStream s sp sid fun x => { x with next := q + 1, resp := tput x.resp q (if masked then some .empty else none) }
      .next (if masked then s1 else issuePos s1 sp sid q .read)
    else .next s

/-- The access of a stream's position is complete with these bytes (R257 to R260). A write of a PORT stream that performs while the
stream is FAULTED is one of a later position, and is made again with the same bytes (R262). -/
def streamDone (s : State) (sp sid q : Nat) (bs : List Byte) : State :=
  let x := getStream s sp sid
  if !x.pass then s else
  match x.kind with
  | 0 => updStream s sp sid fun x => { x with resp := tput x.resp q (some (tokenOf bs)) }
  | 4 => updStream s sp sid fun x => { x with resp := tput x.resp q (some (tokenOf bs)) }
  | 1 =>
    let again := tget x.resp q none == some .empty
    let n := wordBytes s (getSpan s sp) x
    let s1 := updStream s sp sid fun x => { x with
      doneP := if again then x.doneP else x.doneP + 1, bytes := if again then x.bytes else x.bytes + n
      resp := if x.st = .faulted then tput x.resp q (some .drain)
        else if x.resp.all (fun r => decide (r.1 ≥ q)) then tdel x.resp q else tput x.resp q (some .empty)
      kept := if x.st ≠ .faulted ∧ x.resp.all (fun r => decide (r.1 ≥ q)) then tdel x.kept q else x.kept }
    tryEndOut (if again then s1 else landing s1 sp sid 1) sp sid
  | 2 => ringFill s sp sid q bs
  | 3 =>
    let n := (tget x.kept q []).length
    ringDone (queueBar s sp sid (sBar x) (-(n : Int)) false) sp sid q n
  | _ => s

/-! ## Jobs (R263 to R266) -/

/-- The largest power of two that divides n, capped at 64. -/
def jAlign (n : Nat) : Nat := 2 ^ min 6 (ctzFrom n 17 0)

def updJob (s : State) (sp sid k : Nat) (f : Job → Job) : State :=
  updStream s sp sid fun x => { x with jobs := match x.jobs[k]? with
    | some j => x.jobs.set k (f j)
    | none => x.jobs }

/-- Where a job's requests come from, and the clock that counts what they do: the job's own (R263, R368, R378). -/
def jobFrom (p : Span) (j : Job) : Nat := regionClus p (wbits (jDesc j 4) 63 58)
/-- A request of a job. -/
def jobProto (s : State) (sp sid : Nat) (j : Job) (tag : ATag) : Access :=
  { port := .stream sp sid, tag := tag, clus := some (jobFrom (getSpan s sp) j), comp := some (jobNum j.uid) }
/-- The index of element e, which the job's port has read before (R245, R264); an index that lies at no offset or in CONTROL space
faults as its pointer does (R48). -/
def jobIndex (s : State) (sp sid : Nat) (j : Job) (e : Nat) : Except Stop (Int × State) :=
  let idx := jDesc j 2
  let q := withOff idx ((pOff idx + 4 * e) % 2 ^ 50)
  if idx = 0 then .ok ((e : Int), s)
  else if 2 ^ 50 ≤ pOff idx + 4 * e ∨ pSpace idx = 4 then .error (.trap (.ptrSpace, q) s.net)
  else match readBefore s (.stream sp sid) q 4 with
    | some bs => .ok (sextInt 32 (ofBytes bs), s)
    | none => match preCheck s (getSpan s sp).tenant.toNat q 4 4 false with
      | some t => .error (.trap t s.net)
      | none => .error (.peer q 4 [] s.net)
/-- The pointers of element e, whose index is x (R264); or the fault of an offset out of range. -/
def jobPtrs (j : Job) (e : Nat) (x : Int) : Except Trp (Word × Word) := do
  let st := sextInt 32 (wbits (jDesc j 3) 63 32)
  let far (b : Word) : Int := (pOff b : Int) + x * st
  let near (b : Word) : Int := (pOff b : Int) + e * jRb j
  let so := if j.gather then far (jDesc j 0) else near (jDesc j 0)
  let d := if j.gather then near (jDesc j 1) else far (jDesc j 1)
  let chk (b : Word) (o : Int) : Except Trp Word :=
    let q := withOff b (o % (2 ^ 50 : Nat)).toNat
    if o < 0 ∨ ((2 ^ 50 : Nat) : Int) ≤ o ∨ pSpace q = 4 then .error (.ptrSpace, q) else .ok q
  let sp' ← chk (jDesc j 0) so
  let dp ← chk (jDesc j 1) d
  pure (sp', dp)

/-- A faulted job freezes the span once none of its elements is in flight: FAULTED, with the bitmap as CBMP (R266). -/
def jobFreeze (s : State) (sp sid k : Nat) : State :=
  match (getStream s sp sid).jobs[k]? with
  | none => s
  | some j => match j.err with
    | some (_, t) =>
      if j.flight = [] ∧ (getStream s sp sid).cancel = false ∧ (getSpan s sp).ended = false then streamFault (updJob s sp sid k fun j => { j with faulted := true, err := none }) sp sid 0 t j.bmp else s
    | none => s
/-- The requests of an element of a job that have not been dispatched are made no more. -/
def dropElem (s : State) (sp sid e id : Nat) : State :=
  updNet s fun n => { n with acc := n.acc.filter fun a => !(a.port == .stream sp sid && a.tag == .job e id && isQueued a) }
/-- Element e of a job faults: it stops, its bit stays clear, no further element is issued, those in flight go on (R251, R266). Which of
several faults the job reports is open: a free value says whether a later one takes the place of the one before it. -/
def jobElemFault (s : State) (sp sid k e : Nat) (t : Trp) : State :=
  let (i, s1) := freshFree s
  let s1 := match ((getStream s sp sid).jobs[k]?).bind fun j => tfind j.flight e with
    | some id => dropElem s1 sp sid e id
    | none => s1
  jobFreeze (updJob (updStream s1 sp sid fun x => { x with reads := [] }) sp sid k fun j => { j with
    flight := tdel j.flight e, again := max j.again j.issued, issued := min j.issued e
    err := match j.err with
      | some x => if Config.laterFault i then some (e, t) else some x
      | none => some (e, t) }) sp sid k

/-- A job of a span in deterministic mode that resumed after a fault has set every bit: it performs its overlapped elements again
(R396). -/
def jobAgain (s : State) (sp sid k : Nat) : State :=
  match (getStream s sp sid).jobs[k]? with
  | none => s
  | some j =>
    if (getSpan s sp).det && j.late && popN j.bmp.toNat 64 == jN j && j.flight.isEmpty then
      updJob s sp sid k fun j => { j with late := false, redo := jobOver j }
    else s
/-- A job has landed every element: arrival, token, and it leaves the queue (R264). -/
def jobComplete (s : State) (sp sid k : Nat) : State :=
  let s := jobAgain s sp sid k
  match (getStream s sp sid).jobs[k]? with
  | none => s
  | some j =>
    if popN j.bmp.toNat 64 = jN j ∧ j.flight = [] ∧ j.redo = [] ∧ (getStream s sp sid).cancel = false then
      let s1 := queueBar s sp sid (jDesc j 5) 0 (jDesc j 5 != 0) (jobNum j.uid)
      let s2 := updStream s1 sp sid fun x =>
        let js := x.jobs.eraseIdx k
        { x with jobs := js, st := if js.isEmpty then .done else x.st }
      if j.tok then sendToken s2 sp sid (jDesc j 4) (if j.gather then 5 else 6) (jN j * jRb j) (jobNum j.uid) else s2
    else s

/-- JOB_START (R265): the next queued job starts when its predecessor's last element has been issued. -/
def execJobStart (sp sid : Nat) (s : State) : Out :=
  let p := getSpan s sp
  let x := tget p.streams sid {}
  if !flows p || x.st != .active || x.cancel then .next s else
  match x.jobs.findIdx? fun j => !j.started with
  | none => .next s
  | some k =>
    let ok := k == 0 || (match x.jobs[k - 1]? with | some j => j.started && decide (jN j ≤ j.issued) | none => false)
    .next (if ok then updJob s sp sid k fun j => { j with started := true } else s)

/-- The requests of up to 64 bytes that read an element of n bytes at p (R265), one in a cycle from the present one on; those of an
element requested before a fault come before the fence tokens of the stream (R382). -/
def issueElem (s : State) (sp sid : Nat) (j : Job) (e id : Nat) (p : Word) (n : Nat) : State :=
  let parts := cutAt 64 (pOff p) n
  let s1 := (parts.zip (List.range parts.length)).foldl (fun s0 c =>
    let s1 := issueParts s0 (jobProto s sp sid j (.job e id)) p [c.1]
    updAcc s1 s0.sched.nextId fun a => { a with issued := now s + c.2 }) s
  let s2 := updStream s1 sp sid fun x => { x with reads := [], reqAt := now s + parts.length }
  placeAhead s s2 (.stream sp sid) (if e < j.again then 0 else 2 ^ 48)
/-- Does element e of a job wait to be performed again (R396)? -/
def redoNext (j : Job) (e : Nat) : Bool := j.redo.head? == some e && popN j.bmp.toNat 64 == jN j && j.flight.isEmpty
/-- Element e of job k is issued with its source and destination pointers, which are checked before (R48, R94, R250). -/
def startElem (s : State) (sp sid k e : Nat) (j : Job) (ptrs : Word × Word) : State :=
  let tn := (getSpan s sp).tenant.toNat
  match (preCheck s tn ptrs.1 (jRb j) (jAlign (jRb j)) false).or (preCheck s tn ptrs.2 (jRb j) (jAlign (jRb j)) true) with
  | some t => jobElemFault s sp sid k e t
  | none =>
    let (id, s1) := freshId s
    issueElem (updJob s1 sp sid k fun j => { j with issued := max j.issued (e + 1), flight := tput j.flight e id, ptrs := tput j.ptrs e ptrs })
      sp sid j e id ptrs.1 (jRb j)

/-- JOB_ELEMENT_ISSUE (R264, R265): the started job's next element with a clear bit reads its index and is issued, unless a fault has
stopped the job (R266): one request in a cycle. A fence token at the queue's head holds what is issued after it, but no element that is
issued again after a fault (R382). A job that performs elements again after its last issues those (R396). -/
def execJobElementIssue (sp sid : Nat) (s : State) : Out :=
  let p := getSpan s sp
  let x := tget p.streams sid {}
  let port : PortId := .stream sp sid
  let fenced := s.net.acc.any fun a => a.port == port && isFence a.kind
  if !flows p || x.st != .active || x.cancel || decide (now s < x.reqAt) then .next s else
  match x.jobs.findIdx? fun j => j.started && (decide (j.issued < jN j) || j.redo.any (redoNext j)) with
  | none => .next s
  | some k =>
    match x.jobs[k]? with
    | none => .next s
    | some j =>
      let e := j.issued
      if j.err.isSome then .next s
      else if jN j ≤ e then
        let e := j.redo.headD 0
        .next (startElem s sp sid k e j ((tfind j.ptrs e).getD (0, 0)))
      else if isSet j.bmp.toNat e then .next (jobComplete (updJob s sp sid k fun j => { j with issued := e + 1 }) sp sid k)
      else if fenced && decide (j.again ≤ e) then .next s
      else match jobIndex s sp sid j e with
      | .error (.trap t _) => .next (jobElemFault s sp sid k e t)
      | .error (.peer q n _ _) =>
        if s.net.acc.any fun a => a.port == port && a.tag == .fetch then .next s
        else
          let s1 := updStream (issueParts s (jobProto s sp sid j .fetch) q (cutAt 64 (pOff q) n)) sp sid fun x => { x with reqAt := now s + 1 }
          .next (placeAhead s s1 port (if e < j.again then 0 else 2 ^ 48))
      | .error _ => .next s
      | .ok (i, s0) =>
        match jobPtrs j e i with
        | .error t => .next (jobElemFault s0 sp sid k e t)
        | .ok ptrs => .next (startElem s0 sp sid k e j ptrs)

/-- Element e of job k has performed: its bit is set and its bytes land, unless it was performed again (R264, R396). -/
def jobLand (s : State) (sp sid k e : Nat) : State :=
  match (getStream s sp sid).jobs[k]? with
  | none => s
  | some j =>
    let s2 := updJob s sp sid k fun j => { j with bmp := j.bmp ||| (wd 1 <<< e), flight := tdel j.flight e, redo := j.redo.filter (· != e) }
    if isSet j.bmp.toNat e then jobComplete s2 sp sid k
    else jobComplete (jobFreeze (queueBar s2 sp sid (jDesc j 5) (-(jRb j : Int)) false (jobNum j.uid)) sp sid k) sp sid k

/-- Ascending numbers as runs of successive ones: first and length. -/
def runsOf (l : List Nat) : List (Nat × Nat) :=
  l.foldr (fun i acc => match acc with
    | (a, n) :: r => if a = i + 1 then (i, n + 1) :: r else (i, 1) :: (a, n) :: r
    | [] => [(i, 1)]) []
/-- Has the write of byte o of element f been issued, or performed? -/
def jobWrote (s : State) (sp sid : Nat) (j : Job) (f o : Nat) : Bool :=
  isSet j.bmp.toNat f || (match tfind j.flight f, tfind j.ptrs f with
    | some id, some (src, _) => !(s.net.acc.any fun a => a.port == .stream sp sid && a.tag == .job f id && !isWrite a.kind &&
        decide (a.ptr.toNat ≤ src.toNat + o) && decide (src.toNat + o < a.ptr.toNat + a.n))
    | _, _ => false)
/-- Of the bytes d to d + n of element e, whose destination is dst, those that its copy writes, as runs: what a higher element has
written remains (R264, R396); after a fault without deterministic mode a free value says of each byte which element's remains. -/
def jobRuns (s : State) (sp sid : Nat) (j : Job) (e : Nat) (dst : Word) (d n : Nat) : State × List (Nat × Nat) :=
  let rb := jRb j
  let open_ := j.late && !(getSpan s sp).det
  let others := j.ptrs.filter fun q => (decide (e < q.1) || (open_ && q.1 != e)) &&
    decide (q.2.2.toNat < dst.toNat + rb) && decide (dst.toNat < q.2.2.toNat + rb)
  if others.isEmpty then (s, [(d, n)])
  else
    let under (i : Nat) : Bool := (others.any fun q => decide (q.2.2.toNat ≤ dst.toNat + i) && decide (dst.toNat + i < q.2.2.toNat + rb) &&
        jobWrote s sp sid j q.1 (dst.toNat + i - q.2.2.toNat)) &&
      (!open_ || Config.appliedOrNot (s.sched.free + i))
    (if open_ then { s with sched := { s.sched with free := s.sched.free + rb } } else s,
     runsOf (((List.range n).map (· + d)).filter fun i => !under i))

/-- JOB_ELEMENT_PERFORM (R264): an element of which every request is complete has performed: its bit is set, its bytes land. -/
def execJobElementPerform (sp sid job e : Nat) (s : State) : Out :=
  match (getStream s sp sid).jobs[job]? with
  | none => .next s
  | some j => match tfind j.flight e with
    | none => .next s
    | some id =>
      if !(getSpan s sp).live || s.net.acc.any fun a => a.port == .stream sp sid && a.tag == .job e id then .next s
      else .next (jobLand s sp sid job e)

/-- The write of the bytes that a request of element e has read, offset d of it: it takes the place of its read in the port's queue
(R264, R369), cut at 64 bytes of the destination (R265). -/
def jobWrite (s : State) (sp sid : Nat) (j : Job) (e id i d : Nat) (bs : List Byte) : State :=
  let dst := ((tfind j.ptrs e).getD (0, 0)).2
  let r := jobRuns s sp sid j e dst d bs.length
  let parts := r.2.flatMap fun q => cutAt 64 (pOff dst + q.1) q.2
  let s1 := parts.foldl (fun s c => issueParts s { jobProto s sp sid j (.job e id) with kind := .write bs } (partPtr dst d) [c]) r.1
  updNet s1 fun n => { n with acc := s.net.acc.take i ++ n.acc.drop s.net.acc.length ++ s.net.acc.drop i }
/-- A request of a job is complete, with data or a fault; it stood at place i of the accesses (R264, R266, R377). -/
def jobAccess (s : State) (sp sid i : Nat) (a : Access) (bs : List Byte) (f : Option Access) : State :=
  let x := getStream s sp sid
  let s := orderPorts s (accComp a) (PortId.stream sp sid).num
  match a.tag with
  | .job e id =>
    (match x.jobs.findIdx? (fun j => tfind j.flight e == some id), f with
     | none, _ => s
     | some k, some b => jobElemFault s sp sid k e (b.fault.getD .podTimeout, b.ptr)
     | some k, none => match x.jobs[k]? with
       | some j => if isWrite a.kind then s
         else jobWrite s sp sid j e id i (a.ptr.toNat - ((tfind j.ptrs e).getD (0, 0)).1.toNat) bs
       | none => s)
  | _ =>
    (match f with
     | none => updStream s sp sid fun x => { x with reads := x.reads ++ [(a.ptr, bs)] }
     | some b => match x.jobs.findIdx? fun j => j.started && decide (j.issued < jN j) with
       | none => s
       | some k => jobElemFault s sp sid k (((x.jobs[k]?).map (·.issued)).getD 0) (b.fault.getD .podTimeout, b.ptr))

/-! ## The stream words (R275 to R282) -/

/-- The current word's operands wait with the word. -/
def sWord (i : Instr) (nx : Nx) (v : Word × Word × Word) (s : State) (r : WRes) : Out := endWord i nx v s r

/-- The first word of a stream descriptor that breaks R255 or R256. -/
def sbindBad (p : Span) (o : SbindOp) (d : List Word) : Option Nat :=
  let w6 := nth d 6 0
  let lanes := wbits w6 57 55
  let bits := fmtWidth o.fmt.toNat * 2 ^ lanes
  let ring := o.kind == .ring
  let bad6 := wbits w6 41 32 ≠ 0 || isSet w6.toNat 15 || wbits w6 7 0 ≠ 0 || decide (p.rh * p.rw ≤ wbits w6 63 58) ||
    (ring && lanes ≠ 0) || (!ring && (bits % 8 ≠ 0 || bits = 0 || decide (512 < bits))) ||
    (ring && decide (regW p * regH p ≤ wbits w6 54 45)) || (!ring && (wbits w6 54 45 ≠ 0 || wbits w6 44 42 ≠ 0)) ||
    (isSet w6.toNat 14 && decide (31 < wbits w6 13 8))
  if bad6 then some 6
  else if nth d 7 0 ≠ 0 ∧ (o.kind = .core ∨ (o.kind = .port ∧ o.out = false)) then some 7
  else none

/-- Does a BAR keep R269: SCRATCH or TILE space of the serving cluster, 8-byte aligned. -/
def barOk (p : Span) (cl : Nat) (bar : Word) : Bool :=
  bar == 0 || ((barKey bar [regionClus p cl]).isSome && pOff bar % 8 == 0)

/-- sbind (R276). -/
def execSbind (nx : Nx) (o : SbindOp) (s : State) : Out :=
  let p := curSpan s
  let sid := o.sid.toNat
  let x := tget p.streams sid {}
  let kind := match o.kind, o.out with
    | .port, false => 0 | .port, true => 1 | .ring, false => 2 | .ring, true => 3 | .core, _ => 4
  let v := operands s o.sa 0 0
  sWord (.sbind nx o) nx v s
    (if x.st ≠ .free then .done s (wr1 o.sd 1)
     else if o.kind = .port ∧ (p.streams.any fun y => y.2.st != .free && y.2.kind == kind && y.2.port == o.port.toNat) then
       .done s (wr1 o.sd 2)
     else ofReads s do
       let (bs, s0) ← hRead s v.1 64 8
       let d := wordsOf 8 bs
       match sbindBad p o d with
       | some w => throw (.trap (rejectT 0x04 w) s0.net)
       | none => pure ()
       let (sh, s1) ← shapeOf s0 o.shp.toNat
       if !barOk p (wbits (nth d 6 0) 63 58) (nth d 7 0) then throw (.trap (.ptrSpace, nth d 7 0) s1.net)
       let y : Stream := {
         st := .idle, kind := kind, tok := o.tok, port := o.port.toNat, fmt := o.fmt.toNat, shp := o.shp.toNat, shape := sh
         desc := d, winStart := now s, xlat := x.xlat }
       let s2 := updStream s1 s.cur.sp sid fun _ => y
       let s3 := orderPorts s2 (curPort s).num (PortId.stream s.cur.sp sid).num
       pure (if o.kind = .port then s3 else startPass s3 s.cur.sp sid 0 0 [], wr1 o.sd 0))

/-- The first word of a job descriptor that breaks R263. -/
def jobBad (p : Span) (d : List Word) : Option Nat :=
  let w3 := nth d 3 0
  let w4 := nth d 4 0
  if wbits w3 31 17 ≠ 0 ∨ wbits w3 16 0 = 0 ∨ 65536 < wbits w3 16 0 then some 3
  else if wbits w4 57 32 ≠ 0 ∨ isSet w4.toNat 15 ∨ isSet w4.toNat 7 ∨ p.rh * p.rw ≤ wbits w4 63 58 ∨ wbits w4 6 0 = 0 ∨
    64 < wbits w4 6 0 ∨ (isSet w4.toNat 14 ∧ 31 < wbits w4 13 8) then some 4
  else if nth d 6 0 ≠ 0 then some 6
  else if nth d 7 0 ≠ 0 then some 7
  else none

/-- A job word (R277): queues one job; BLOCKED while four are queued. -/
def jobWord (i : Instr) (gather : Bool) (nx : Nx) (sd sa : Reg) (sid5 : BitVec 5) (tok : Bool) (s : State) : Out :=
  let p := curSpan s
  let sid := sid5.toNat
  let x := tget p.streams sid {}
  let v := operands s sa 0 0
  sWord i nx v s
    (if (x.st ≠ .free ∧ x.kind ≤ 4) ∨ x.st = .faulted then .done s (wr1 sd 1)
     else if 4 ≤ x.jobs.length then .wait s 0
     else ofReads s do
       let (bs, s1) ← hRead s v.1 64 8
       let d := wordsOf 8 bs
       match jobBad p d with
       | some w => throw (.trap (rejectT 0x04 w) s1.net)
       | none => pure ()
       if !barOk p (wbits (nth d 4 0) 63 58) (nth d 5 0) then throw (.trap (.ptrSpace, nth d 5 0) s1.net)
       let (uid, s1) := freshId s1
       let j : Job := { gather := gather, tok := tok, desc := d, uid := uid }
       let s2 := updStream s1 s.cur.sp sid fun y => { y with
         kind := if gather then 5 else 6, st := .active, jobs := y.jobs ++ [j] }
       let s3 := orderPorts s2 (curPort s).num (jobNum uid)
       pure (queueBar s3 s.cur.sp sid (nth d 5 0) ((jN j * jRb j : Nat) : Int) false (jobNum uid), wr1 sd 0))

def execSgather (nx : Nx) (sd sa : Reg) (sid : BitVec 5) (tok : Bool) (s : State) : Out :=
  jobWord (.sgather nx sd sa sid tok) true nx sd sa sid tok s
def execSscatter (nx : Nx) (sd sa : Reg) (sid : BitVec 5) (tok : Bool) (s : State) : Out :=
  jobWord (.sscatter nx sd sa sid tok) false nx sd sa sid tok s

/-- sresp (R278). -/
def execSresp (nx : Nx) (sd : Reg) (sid : BitVec 5) (part : BitVec 3) (peek test : Bool) (s : State) : Out :=
  let x := getStream s s.cur.sp sid.toNat
  sWord (.sresp nx sd sid part peek test) nx (0, 0, 0) s
    (if x.st = .free ∨ x.kind ≠ 4 then .trap s (illegalT s)
     else match x.queue with
       | [] => .wait s 0
       | t :: rest =>
         if test then .done s (wr1 sd (if tokenEmpty t then 1 else 0))
         else
           let s1 := if peek then s else
             orderPorts (updStream s s.cur.sp sid.toNat fun x => { x with queue := rest })
               (PortId.stream s.cur.sp sid.toNat).num (curPort s).num
           .done s1 (wr1 sd (tokenPart t part.toNat)))

/-- Bytes registered at the barrier that will now never land (R280). -/
def cancelDue (s : State) (sp sid : Nat) : Int :=
  let p := getSpan s sp
  let x := tget p.streams sid {}
  if x.kind = 1 ∧ x.pass then
    (((if x.drained then 0 else shapeCount x.shape - x.next) + (x.resp.filter fun r => r.2 == none).length) * wordBytes s p x : Nat)
  else if x.kind = 2 ∨ x.kind = 3 then (sumNat (x.regd.map (·.2)) : Nat)
  else 0

/-- An element some of whose requests scancel has discarded performs no more. -/
def cutElems (s : State) (sp sid : Nat) (x : Stream) : Stream :=
  let cut (f : Nat × Nat) : Bool := s.net.acc.any fun a => a.port == .stream sp sid && a.tag == .job f.1 f.2 && isQueued a
  { x with jobs := x.jobs.map fun j => { j with flight := j.flight.filter fun f => !cut f } }
/-- scancel (R280): the stream stops; BLOCKED until every issued request is performed or discarded; the old state word is
kept from its issue. A read of several parts is discarded whole, and of an element the requests that have not been dispatched. -/
def execScancel (nx : Nx) (sd : Reg) (sid : BitVec 5) (s : State) : Out :=
  let i := Instr.scancel nx sd sid
  let sp := s.cur.sp
  let n := sid.toNat
  let x := getStream s sp n
  let old := match s.cur.latch with
    | some (a, _) => a
    | none => stateWord x
  let stop (s : State) : State :=
    let s1 := updStream s sp n fun x => cutElems s sp n { x with cancel := true, jobs := (x.jobs.filter fun j => j.started) }
    let later := x.jobs.filter fun j => !j.started
    let s2 := later.foldl (fun s j => queueBar s sp n (jDesc j 5) (-((jN j * jRb j : Nat) : Int)) false (jobNum j.uid)) s1
    let lost (a : Access) : Bool := isQueued a || a.fault.isSome
    let keep (a : Access) : Bool := a.port != .stream sp n || isFence a.kind || (isJobTag a.tag && !isQueued a) ||
      !(lost a || (!isWrite a.kind && s.net.acc.any fun b => b.port == a.port && b.grp == a.grp && lost b))
    updNet s2 fun y => { y with acc := y.acc.filter keep }
  let s1 := stop s
  let inFlight := streamOut s1 sp n || ((getStream s1 sp n).jobs.any fun j => !j.flight.isEmpty)
  sWord i nx (old, 0, 0) s
    (if x.st = .free then .done s (wr1 sd (if s.cur.latch.isSome then old else 0))
     else if inFlight then .wait s1 1
     else
       let y := getStream s1 sp n
       let s2 := y.jobs.foldl (fun s j => queueBar s sp n (jDesc j 5)
         (-(((jN j - popN j.bmp.toNat 64) * jRb j : Nat) : Int)) false (jobNum j.uid)) s1
       let s3 := if x.kind = 1 ∨ x.kind = 2 ∨ x.kind = 3 then queueBar s2 sp n (sBar x) (-(cancelDue s1 sp n)) false else s2
       let s4 := if x.kind = 0 ∧ x.pass then
           updSpan s3 sp fun p => { p with fiDrain := p.fiDrain ++ [x.port] }
         else if x.kind = 1 ∧ x.pass then updSpan s3 sp fun p => { p with fo := tdel p.fo x.port, foWaits := tdel p.foWaits x.port }
         else s3
       .done (updStream s4 sp n fun _ => {}) (wr1 sd old))

/-- sstat (R279). -/
def execSstat (nx : Nx) (sd : Reg) (sid : BitVec 5) (item : SItem) (s : State) : Out :=
  let x := getStream s s.cur.sp sid.toNat
  pureWord nx (wr1 sd (match item with
    | .st => stateWord x
    | .bmp => (match x.jobs.find? fun j => j.faulted with
      | some j => j.bmp
      | none => (match x.jobs with | j :: _ => j.bmp | [] => 0))
    | .dep => wd (x.dmax * 256 + x.dmin * 16 + (if x.kind = 2 ∧ x.st ≠ .free then ringDepth s (curSpan s) x else 0))
    | .flt => x.lastFault)) s

/-- shape (R281). The old index is the one that stands when the word issues. -/
def execShape (nx : Nx) (sd sa : Reg) (sid : BitVec 5) (shp : BitVec 6) (s : State) : Out :=
  let i := Instr.shape nx sd sa sid shp
  let n := sid.toNat
  let x := getStream s s.cur.sp n
  let v := operands s sa 0 0
  let old := if s.cur.latch.isSome then v.2.1 else wd x.shp
  let v := (v.1, old, (0 : Word))
  sWord i nx v s
    (if x.st = .free ∨ 5 ≤ x.kind then .trap s (illegalT s)
     else match shapeOf s shp.toNat with
       | .error n => ofStop s n
       | .ok (sh, s) =>
         let base := if sa = 0 then x.nextShp.bind (·.2.2) else some v.1
         let put (s : State) : State := updStream s s.cur.sp n fun x => { x with nextShp := some (shp.toNat, sh, base) }
         if x.kind ≤ 1 then .done (put s) (wr1 sd old)
         else if x.st = .active then .wait s 0
         else
           let s1 := orderPorts (orderPorts (put s) (PortId.stream s.cur.sp n).num (curPort s).num) (curPort s).num (PortId.stream s.cur.sp n).num
           .done (startPass s1 s.cur.sp n 0 0 []) (wr1 sd old))

/-- sdepth (R282). -/
def execSdepth (nx : Nx) (sd sa : Reg) (sid : BitVec 5) (s : State) : Out :=
  let n := sid.toNat
  let p := curSpan s
  let x := tget p.streams n {}
  let a := reg s sa
  let dmin := wbits a 3 0
  let dmax := wbits a 7 4
  let d := bufDepth (getTile s (ringTile p x)) (ringBuf x)
  sWord (.sdepth nx sd sa sid) nx (0, 0, 0) s
    (if x.st = .free ∨ x.kind ≠ 2 then .trap s (rejectT 0x04 0)
     else if a ≠ 0 ∧ ¬ (wbits a 63 8 = 0 ∧ 1 ≤ dmin ∧ dmin ≤ dmax ∧ dmax ≤ min 15 d) then .trap s (rejectT 0x04 0)
     else
       let old := wd (x.dmax * 16 + x.dmin)
       .done (updStream s s.cur.sp n fun x =>
         if a = 0 then { x with dmin := 0, dmax := 0, depth := d }
         else { x with dmin := dmin, dmax := dmax, depth := if x.dmax = 0 then dmin else max dmin (min dmax x.depth) })
         (wr1 sd old))

/-- DEPTH_WINDOW_END (R188): the depth moves one step toward its target at the end of each window of 1,024 cycles. -/
def execDepthWindowEnd (sp sid : Nat) (s : State) : Out := .next (windowDue s sp sid)

/-- How many positions of a stream have been requested, before a fault too (R262); of jobs every element. -/
def tokenMark (x : Stream) : Nat := if 5 ≤ x.kind then 2 ^ 40 else if x.kind = 0 ∨ x.kind = 4 then max x.next x.redoTo else x.next
/-- Has the stream still to make a request again, after a fault, that stood before the mark of a fence token (R262, R266, R382)? -/
def remakes (s : State) (sp sid m : Nat) : Bool :=
  let x := getStream s sp sid
  match x.kind with
  | 0 => decide (x.next < min x.redoTo m)
  | 4 => decide (x.next < min x.redoTo m)
  | 1 => x.resp.any fun r => decide (r.1 < m) && (r.2 == none || r.2 == some .drain) && !posOut s sp sid r.1
  | 2 => x.stage.any fun r => decide (r.1 < m) && !posOut s sp sid r.1
  | 3 => x.stage.any fun r => decide (r.1 < m) && !posOut s sp sid r.1
  | _ => x.jobs.any fun j => decide (j.issued < j.again)
/-- sfence (R382): first waits as fence.ar of its scope, then its token stands in the stream's queue. What the handler does after it
comes after what the token has waited for, also where the stream has nothing left to wait for (R378). -/
def execSfence (nx : Nx) (sd : Reg) (sid : BitVec 5) (sc : Scope) (s : State) : Out :=
  let i := Instr.sfence nx sd sid sc
  let n := sid.toNat
  let x := getStream s s.cur.sp n
  let port := PortId.stream s.cur.sp n
  sWord i nx (0, 0, 0) s
    (match podTrap s (sc == .pod) false with
     | some t => .trap (clearPod s) t
     | none =>
       if relWaits s sc then .wait s 0
       else if x.st = .free ∨ x.st = .done then .done (orderPorts s port.num (curPort s).num) (wr1 sd (stateWord x))
       else
         let (id, s1) := freshId s
         .hold (updNet s1 fun y => { y with acc := y.acc ++ [{
           id := id, grp := id, port := port, kind := .fence .ar, scope := sc, issued := now s, tries := tokenMark x }] })
           (.sfence nx sd n id))

/-- SFENCE_TOKEN_COMPLETE (R382): the token completes when every request ahead of it is complete, those made again after a fault too, or
the stream is free. -/
def execSfenceTokenComplete (sp h : Nat) (s : State) : Out :=
  let x := getH s sp h
  match x.op with
  | some (.sfence nx sd sid id) =>
    let y := getStream s sp sid
    let ahead := match findAcc s id with
      | some a => ((aheadOf s a).any fun e => isRead e.kind || writeIn s e a.scope) || remakes s sp sid a.tries
      | none => false
    if y.st = .faulted ∨ ahead = true then .next s
    else
      let s1 := orderPorts (dropAcc s id) (PortId.stream sp sid).num (PortId.handler sp h).num
      .next (landWord s1 sp h x.pc (now s) (wr1 sd (stateWord y)) nx)
  | _ => .next s

end Sys2Proof.Machine
end

