-- ==== Sys2Proof/Machine/Access.lean ====
section
/-!
DEFINITION. Machine/Access.lean: the ordering machine's steps (R366 to R378): dispatch, perform, complete, the SC ring, POD
accesses, page walks, invalidations, barrier updates.
-/
namespace Sys2Proof.Machine

/-! ## Dispatch (R251, R370, R373) -/

/-- The translation entry of a port (R251). -/
def portXlat (s : State) : PortId → Option Xlat
  | .handler sp h => (getH s sp h).xlat
  | .stream sp sid => (getStream s sp sid).xlat
  | _ => none
def setXlat (s : State) (p : PortId) (x : Option Xlat) : State :=
  match p with
  | .handler sp h => updH s sp h fun y => { y with xlat := x }
  | .stream sp sid => updStream s sp sid fun y => { y with xlat := x }
  | _ => s

/-- The home address an entry gives an access, if it serves it. -/
def xlatKey (x : Xlat) (a : Access) : Option Nat := xlatHome x (pSpace a.ptr == 5) (pRank a.ptr) (pOff a.ptr) a.n (isWrite a.kind)

/-- The parts of an access's word. -/
def groupOf (s : State) (a : Access) : List Access := s.net.acc.filter fun b => b.grp == a.grp && b.port == a.port

/-- Has some write of a phase that completed before the access's phase began yet to complete (R373)? A PORT out pass of
such a phase that still runs has writes to come. -/
def phaseHeld (s : State) (sp : Nat) (y : Nat) : Bool :=
  let p := getSpan s sp
  let done (z : Nat) : Bool := match tfind p.phaseEnd z with
    | some d => decide (d ≤ y)
    | none => false
  (s.net.acc.any fun e => portSpan s e.port == sp && isWrite e.kind && (match e.phase with | some z => done z | none => false)) ||
  (p.streams.any fun x => x.2.kind == 1 && x.2.pass && done x.2.phase)

/-- Does an earlier access of the port wait for its translation (R251)? -/
def portWaits (s : State) (a : Access) : Bool := (aheadOf s a).any fun e => !isFence e.kind && e.key.isNone && e.fault.isNone

/-- A peer's pool of 64 (R377): an access that has expired or met an error has given up its entry. -/
def poolFree (s : State) (rank : Nat) : Bool :=
  decide ((s.net.acc.filter fun a => pSpace a.ptr == 5 && pRank a.ptr == rank && !isFence a.kind && !isQueued a && a.fault.isNone).length < 64)

/-- The conditions of R370 and R373 on a translated access; the parts of a control word wait for one another's
translations (R251). -/
def mayDispatch (s : State) (a : Access) : Bool :=
  (aheadOf s a).all (fun e => e.grp == a.grp || passes s e a) &&
  (match a.phase with | some y => !phaseHeld s (portSpan s a.port) y | none => true) &&
  (match a.port with | .handler .. => (groupOf s a).all fun b => b.key.isSome || isFence b.kind | _ => true) &&
  (isFence a.kind || pSpace a.ptr ≠ 5 || poolFree s (pRank a.ptr))

/-- The bytes of a read that outstanding writes of its port cover, each from the youngest (R369). -/
def forwarded (s : State) (a : Access) : Option (List Byte) :=
  let ws := (aheadOf s a).filter fun e => (match e.kind with | .write _ => true | _ => false) && !isQueued e && e.fault.isNone
  let byteAt (k : Nat) : Option Byte := ws.foldl (fun acc e =>
    match e.kind, e.key with
    | .write bs, some l => if l ≤ k ∧ k < l + e.n then bs[k - l]? else acc
    | _, _ => acc) none
  match a.kind, a.key with
  | .read, some k => (List.range a.n).mapM fun i => byteAt (k + i)
  | _, _ => none

/-- The word of a posted write ends once every part of it is translated (R274, R371). -/
def postedDone (s : State) (a : Access) : State :=
  match a.posted, a.port with
  | true, .handler sp h =>
    let x := getH s sp h
    (match x.op with
     | some (.mem i g) =>
       if g = a.grp ∧ ((groupOf s a).all fun b => b.key.isSome) = true then
         match memFinish i [] 0 with
         | some (w, nx) => landWord s sp h x.pc (now s) w nx
         | none => s
       else s
     | _ => s)
  | _, _ => s
/-- An access asks for the walk or the pod's translation of its page; walk requests wait in the order in which they are made (R251,
R252). -/
def askWalk (s : State) (a : Access) : State :=
  if pSpace a.ptr = 5 then updAcc s a.id fun x => { x with stat := .walking, asked := now s }
  else updNet (updAcc s a.id fun x => { x with stat := .walk, asked := now s }) fun n => { n with walkQ := n.walkQ ++ [a.id] }

/-- ACCESS_DISPATCH (R370): an access without a home address takes it from its port's entry or asks for a walk; a translated
one moves to its home once the rules allow it. A request of a job's element waits for its cycle (R265). -/
def execAccessDispatch (id : Nat) (s : State) : Out :=
  match findAcc s id with
  | none => .next s
  | some a =>
    if (a.stat != .queued && a.stat != .translated) || (isJobTag a.tag && decide (now s < a.issued)) then .next s
    else if isFence a.kind then
      .next (match a.port with
        | .stream .. => s
        | _ => if mayDispatch s a then updAcc s id fun x => { x with stat := .dispatched } else s)
    else if portWaits s a then .next s
    else
      let key := match a.key with
        | some k => some k
        | none => (portXlat s a.port).bind fun x => xlatKey x a
      match key with
      | none => .next (askWalk s a)
      | some k =>
        let s1 := postedDone (updAcc s id fun x => { x with key := some k, stat := .translated }) a
        let a := { a with key := some k }
        if !mayDispatch s1 a then .next s1
        else
          match forwarded s1 a with
          | some bs => .next (updAcc s1 id fun x => { x with stat := .performed, data := bs, issued := now s })
          | none => .next (updAcc s1 id fun x => { x with stat := .dispatched, issued := now s })

/-! ## SC (R372) -/

/-- The SC node of a home; an access to a peer waits at its port's die. -/
def scNodeOf (s : State) (p : PortId) (key : Option Nat) : Nat :=
  let stack (k : Nat) : Nat := 4 * (k / 3) + 1 + k % 3
  match key with
  | none => 4 * portDie s p
  | some k =>
    if k < 2 ^ 48 then stack (k / 2 ^ 36)
    else if k < 2 ^ 49 then 4 * ((k - 2 ^ 48) / 2 ^ 28)
    else if k < 2 ^ 50 then 4 * ((k - 2 ^ 49) / 2 ^ 28)
    else if k < 2 ^ 64 then stack ((k - 2 ^ 50) / 2 ^ 25)
    else if k < 2 ^ 80 then 4 * portDie s p
    else 4 * ((k - 2 ^ 80) / 2 ^ 22)
/-- Is an access of MODULE scope for the ring. -/
def scModule (a : Access) : Bool := a.scope == .module || a.scope == .pod
/-- Waits an SC access at node n of the ring? -/
def scQueued (s : State) (n : Nat) : Bool :=
  s.net.acc.any fun a => isSc a && scModule a && a.stat == .dispatched && scNodeOf s a.port a.key == n
/-- A grant: the state with it counted, or none. -/
def scGrant (s : State) (a : Access) : Option State :=
  if !isSc a then some s
  else if scModule a then
    if scNodeOf s a.port a.key = s.net.scNode ∧ s.net.scGrants < 8 then
      some (updNet s fun n => { n with scGrants := n.scGrants + 1 })
    else none
  else
    let d := portDie s a.port
    match tget s.net.serial d 0 with
    | 0 => some (updNet s fun n => { n with serial := tput n.serial d (a.id + 1) })
    | k => if k = a.id + 1 then some s else none
/-- A completed access gives up the serialiser it holds. -/
def scRelease (s : State) (a : Access) : State :=
  updNet s fun n => { n with serial := n.serial.map fun p => (p.1, if p.2 = a.id + 1 then 0 else p.2) }
/-- Class of SC accesses that are totally ordered with each other (R393). -/
def scClass (s : State) (a : Access) : Option Nat :=
  if !isSc a then none else if scModule a then some 4 else some (portDie s a.port)

/-- SC_TOKEN_PASS (R369, R372). -/
def execScTokenPass (s : State) : Out :=
  if scQueued s s.net.scNode && decide (s.net.scGrants < 8) then .next s
  else .next (updNet s fun n => { n with scNode := (n.scNode + 1) % 16, scGrants := 0 })

/-! ## Perform (R246, R369) -/

/-- An access has performed: with data, or with a fault. -/
def performed (s : State) (a : Access) (bs : List Byte) (c : Option Cause) : State :=
  updAcc s a.id fun x => { x with stat := .performed, data := bs, fault := c }

/-- An acquire observes what the writes it reads leave it (R378). -/
def accObserve (s : State) (a : Access) (k : Nat) : State := if isAcq a then acquire s (accComp a) k a.n else s
/-- A release, and a handler's write, leaves its port's past to those who observe it (R378). -/
def accPublish (s : State) (a : Access) (k : Nat) : State :=
  let h := match a.port with | .handler .. => true | _ => false
  if isRel a || h then release s a.port k a.n else s
/-- An access to home k is judged and recorded (R391): it comes after the writes of the phases before its own, and is checked before it
observes what it reads, so that a pair conflicts in either order (R395); none on a conflict. -/
def accJudge (s : State) (a : Access) (k : Nat) (write : Bool) : Option State :=
  let s := seePhases s (portSpan s a.port) (accComp a) a.phase
  if detOn s a.port k && detConflict s a.port (accComp a) (linesOf k a.n) write (scClass s a) then none
  else
    let s1 := accObserve s a k
    some (if detOn s a.port k then detRecord s1 a.port (accComp a) k a.n write (scClass s a) else s1)
/-- The read of a cwait whose condition holds comes after the write that made it hold (R378), and is judged so (R391). -/
def cwJudge (s : State) (a : Access) (k : Nat) : Option State := detStepAs (accObserve s a k) a.port (accComp a) k a.n false none

/-- Old bytes, new bytes of an atomic on n bytes. -/
def amoBytes (fn : AmoFn) (n : Nat) (old : List Byte) (b e : Word) : List Byte :=
  toBytes n (amoNew fn n (ofBytes old) b.toNat e.toNat)

/-- An access performs at home address k in memory. -/
def performMem (s : State) (a : Access) (k : Nat) : State :=
  let local_ := decide (k < 2 ^ 64)
  match a.kind with
  | .fence _ => performed s a [] none
  | .cwait c cmp =>
    if local_ && isPoison s k a.n then performed s a [] (some .ue)
    else
      let bs := readN s.mem k a.n
      if cwHolds c a.n (ofBytes bs) cmp.toNat then match cwJudge s a k with
        | none => performed s a [] (some .conflict)
        | some s1 => performed s1 a bs none
      else updAcc s a.id fun x => { x with tries := x.tries + 1, issued := now s }
  | .read =>
    if local_ && isPoison s k a.n then performed s a [] (some .ue)
    else match accJudge s a k false with
      | none => performed s a [] (some .conflict)
      | some s1 => performed s1 a (readN s1.mem k a.n) none
  | .amo fn _ b e =>
    if local_ && isPoison s k a.n then performed s a [] (some .ue)
    else match accJudge s a k true with
      | none => performed s a [] (some .conflict)
      | some s1 =>
        let old := readN s1.mem k a.n
        let s2 := (homeWrite s1 k (amoBytes fn a.n old b e)).1
        performed (digAdd (accPublish s2 a k) (portSpan s a.port) a.ptr k a.n) a old none
  | .write bs =>
    match accJudge s a k true with
    | none => performed s a [] (some .conflict)
    | some s1 =>
      let (s2, bad) := homeWrite s1 k bs
      let s3 := match a.port with | .device _ => s2 | _ => digAdd s2 (portSpan s a.port) a.ptr k a.n
      if bad then performed s3 a [] (some .ueMerge)
      else performed (accPublish s3 a k) a [] none

/-- The earlier parts of a CONTROL access have performed without a fault (R446). -/
def ctlTurn (s : State) (a : Access) : Bool :=
  ((groupOf s a).filter fun b => decide (b.id < a.id)).all fun b => b.stat == .performed && b.fault.isNone

/-- A CONTROL read performs at its unit, and is checked there (R107, R111, R446). -/
def performCtlRead (s : State) (a : Access) (k : Nat) : State :=
  let off := k - 2 ^ 80
  if !ctlMapped off then performed s a [] (some .ptrSpace)
  else if ctlReadOk s (portTenant s a.port) off then
    match a.kind with
    | .cwait c cmp =>
      let bs := ctlBytes s off a.n
      if cwHolds c a.n (ofBytes bs) cmp.toNat then performed s a bs none else s
    | _ => performed s a (ctlBytes s off a.n) none
  else performed s a [] (some .protection)

/-- Waits a cwait at a CONTROL home? -/
def ctlWait (a : Access) : Bool :=
  a.stat == .dispatched && (match a.kind with | .cwait .. => true | _ => false) && decide (2 ^ 80 ≤ a.key.getD 0)
/-- The units of CONTROL space evaluate their waiting cwaits, as they do after each write (R369, R386). -/
def wakeCtl (s : State) : State :=
  if s.net.acc.any ctlWait then
    s.net.acc.foldl (fun s a => if ctlWait a then performCtlRead s a (a.key.getD 0) else s) s
  else s

/-- A cwait that a write has just completed is judged (R378, R391). -/
def judgeWoken (s : State) : State :=
  if s.net.acc.any (·.woken) then
    s.net.acc.foldl (fun s a => if !a.woken then s else match cwJudge s a (a.key.getD 0) with
      | none => updAcc s a.id fun x => { x with woken := false, data := [], fault := some .conflict }
      | some s1 => updAcc s1 a.id fun x => { x with woken := false }) s
  else s

/-- ACCESS_PERFORM (R369). A cwait at a peer is read again by POD_CWAIT_REREAD alone (R386). A write or atomic of CONTROL space performs by the step of its own row. -/
def execAccessPerform (id : Nat) (s : State) : Out :=
  match findAcc s id with
  | none => .next s
  | some a =>
    let again := a.tries != 0 && (match a.key with | some k => decide (2 ^ 64 ≤ k) && decide (k < 2 ^ 80) | none => false)
    if again || a.stat != .dispatched || ((aheadOf s a).any fun e => !isFence e.kind && e.stat == .dispatched && overlap e a) then .next s
    else match a.key with
      | none =>
        if isFence a.kind then
          match scGrant s a with
          | some s1 => .next (performed s1 a [] none)
          | none => .next s
        else .next s
      | some k =>
        if 2 ^ 80 ≤ k ∧ isWrite a.kind = true then .next s
        else if 2 ^ 80 ≤ k ∧ ctlTurn s a = false then .next s
        else
          match scGrant s a with
          | none => .next s
          | some s1 => .next (if 2 ^ 80 ≤ k then performCtlRead s1 a k else performMem s1 a k)

/-! ## Complete (R369, R371, R377) -/

/-- Has the launch of the span been killed. -/
def spanKilled (s : State) (sp : Nat) : Bool := let p := getSpan s sp; !p.live || (getL s p.slot).sst == .killing

/-- A group's parts are over: all performed, or one faulted and the rest never will. -/
def groupOver (g : List Access) : Bool :=
  let bad := g.any fun b => b.fault.isSome
  g.all fun b => b.stat == .performed || (bad && (isQueued b || decide (2 ^ 80 ≤ b.key.getD 0)))

/-- Does the handler meet the fault of what it has asked for where it reads again: its word is being fetched, or a configuration is read
for it (R81, R132, R162)? -/
def readsAgain (x : Handler) : Bool := x.miss || (match x.op with | some (.tree _) => true | some (.cfg ..) => true | _ => false)
/-- What a word lacks cannot be had: it traps, and a collapse that is its own leaves the unit. -/
def fetchFailed (s : State) (sp h : Nat) (t : Trap) : State :=
  let x := getH s sp h
  if spanKilled s sp || x.held.isSome then s
  else if readsAgain x then updH s sp h fun x => { x with refused := (t.tval, t.cause) :: x.refused }
  else if x.op.isNone then s
  else raiseTrapFull (updSpan s sp fun p => { p with cols := p.cols.filter fun c => c.h != h }) t sp
/-- The word of handler (sp, h) ends with the group's data or its fault. The fault of a posted write traps at once where the
handler's word waits for that write, and is recorded otherwise (R377). -/
def handlerDone (s : State) (sp h : Nat) (a : Access) (bs : List Byte) (f : Option Access) : State :=
  let x := getH s sp h
  if a.posted then
    match f with
    | none => s
    | some b =>
      let c := b.fault.getD .podTimeout
      let g := match x.op with | some (.mem _ g) => g | _ => s.sched.nextId
      let waits (r : Access) := r.port == .handler sp h && r.grp == g && isQueued r && !passes s b r
      if x.op.any (fun o => match o with | .mem _ g => g == a.grp | _ => false) then
        raiseTrapFull s { cause := c, tval := b.ptr, pc := x.pc, h := h } sp
      else if x.st = .stopped then trapEvent s sp { cause := c, tval := b.ptr, pc := x.pc, h := h } false
      else if s.net.acc.any waits then
        raiseTrapFull (updNet s fun n => { n with acc := n.acc.filter fun r => !(r.port == .handler sp h && r.grp == g) })
          { cause := c, tval := b.ptr, pc := x.pc, h := h } sp
      else updH s sp h fun x => { x with podFault := some (x.podFault.getD (c, b.ptr, isSc b)) }
  else if a.tag = .fetch then
    match f with
    | some b => fetchFailed s sp h { cause := b.fault.getD .podTimeout, tval := b.ptr, pc := x.pc, h := h }
    | none => updH s sp h fun x => { x with reads := x.reads ++ [(a.ptr, bs)] }
  else match x.op with
    | some (.put nx w g) =>
      if g ≠ a.grp then s
      else match f with
        | some b => raiseTrapFull s { cause := b.fault.getD .podTimeout, tval := b.ptr, pc := x.pc, h := h } sp
        | none => landWord s sp h x.pc (now s) w nx
    | some (.mem i g) =>
      if g ≠ a.grp then s
      else
        match f with
        | some b => raiseTrapFull s { cause := b.fault.getD .ue, tval := b.ptr, pc := x.pc, h := h } sp
        | none =>
          let e := match a.kind with | .amo _ _ _ e => e | _ => 0
          match memFinish i bs e with
          | some (w, nx) => landWord s sp h x.pc (now s) w nx
          | none => s
    | _ => s

/-- Is a faulted stream position the stream's turn: those before it have been delivered or written (R262). -/
def faultTurn (s : State) (sp sid q : Nat) : Bool :=
  let x := getStream s sp sid
  !(s.net.acc.any fun b => b.port == .stream sp sid && (match b.tag with | .pos r => decide (r < q) | _ => false)) &&
  ((x.kind ≠ 0 && x.kind ≠ 4) || x.doneP == q)

/-- The bytes of a record's read, or its fault, reach the reading of the tenant's records (R430). -/
def recordDone (s : State) (n : Nat) (a : Access) (bs : List Byte) (f : Option Access) : State :=
  updCtl s fun c => match f with
    | none => { c with reads := tput c.reads n (tget c.reads n [] ++ [(a.ptr, bs)]) }
    | some b => { c with refused := tput c.refused n ((b.ptr, b.fault.getD .podTimeout) :: tget c.refused n []) }
/-- A write that `shape` has left behind is complete: its bytes have landed, or never will (R269, R281). -/
def oldDone (s : State) (sp sid n : Nat) (f : Option Access) : State :=
  let s1 := queueBar s sp sid (sBar (getStream s sp sid)) (-(n : Int)) false
  match f with
  | none => s1
  | some b => fabricFault s1 sp { cause := b.fault.getD .ue, tval := b.ptr, agent := 2, loc := BitVec.ofNat 12 sid }

/-- ACCESS_COMPLETE (R369): the group of an access leaves the outstanding set and its word, position or marker goes on. While the
span is frozen the response of a RING in-stream is held (R409). -/
def accComplete (s : State) (id : Nat) : State :=
  match findAcc s id with
  | none => s
  | some a =>
    let g := groupOf s a
    let f := g.find? fun b => b.fault.isSome
    if !groupOver g then s
    else
      let place := (s.net.acc.takeWhile fun b => b.id != a.id).length
      let s0 := g.foldl (fun s b => scRelease (dropAcc s b.id) b) s
      let bs := g.flatMap (·.data)
      let a := g.headD a
      match a.port with
      | .handler sp h => if spanKilled s sp then s0 else handlerDone s0 sp h a bs f
      | .stream sp sid =>
        let x := getStream s sp sid
        if spanKilled s sp then s0
        else if isJobTag a.tag then jobAccess s0 sp sid place a bs f
        else if (getSpan s sp).ended then s0
        else match a.tag, f with
          | .pos q, none => if x.kind = 2 ∧ (getSpan s sp).frozen = true ∧ x.cancel = false then s else streamDone s0 sp sid q bs
          | .pos q, some b =>
            if x.cancel || x.st == .faulted then s0
            else if faultTurn s sp sid q && !(getSpan s sp).frozen then streamFault s0 sp sid q (b.fault.getD .ue, b.ptr) 0
            else s
          | .old n, f => oldDone s0 sp sid n f
          | _, _ => s0
      | .device n => if a.tag = .fetch then recordDone s0 n a bs f else s0
      | _ => s0

def execAccessComplete (id : Nat) (s : State) : Out := .next (accComplete s id)

/-- POD_ACCESS_EXPIRE (R377): the access completes with POD_TIMEOUT; if it had not performed, each byte it writes holds the
old or the new value, which one is a free value. -/
def execPodAccessExpire (id : Nat) (s : State) : Out :=
  match findAcc s id with
  | none => .next s
  | some a =>
    if isQueued a || isFence a.kind || a.tag == .probe || pSpace a.ptr ≠ 5 || now s < a.issued + podTo s (portTenant s a.port) then .next s
    else
      let apply (s : State) : State :=
        match a.stat, a.kind, a.key with
        | .dispatched, .write bs, some k => (List.range bs.length).foldl (fun s i =>
            let (j, s1) := freshFree s
            if Config.appliedOrNot j then (homeWrite s1 (k + i) [nth bs i 0]).1 else s1) s
        | .dispatched, .amo fn _ b e, some k =>
          let (j, s1) := freshFree s
          if Config.appliedOrNot j then (homeWrite s1 k (amoBytes fn a.n (readN s1.mem k a.n) b e)).1 else s1
        | _, _, _ => s
      .next (accComplete (performed (apply s) a [] (some .podTimeout)) id)

/-- POD_CWAIT_REREAD (R386): every 1,024 cycles the word is read again. -/
def execPodCwaitReread (id : Nat) (s : State) : Out :=
  match findAcc s id with
  | none => .next s
  | some a =>
    match a.kind, a.key with
    | .cwait .., some k =>
      if a.stat = .dispatched ∧ a.tries ≠ 0 ∧ 2 ^ 64 ≤ k ∧ k < 2 ^ 80 ∧ a.issued + 1024 ≤ now s then
        .next (performMem (updAcc s id fun x => { x with issued := now s }) { a with issued := now s } k)
      else .next s
    | _, _ => .next s

/-! ## Walks (R250 to R252, R431) -/

/-- A translation arrives: the port's entry and the access's home address. -/
def translated (s : State) (a : Access) (x : Xlat) : State :=
  let s1 := setXlat s a.port (some x)
  match xlatKey x a with
  | some k => postedDone (updAcc s1 a.id fun b => { b with key := some k, stat := .translated }) a
  | none => updAcc s1 a.id fun b => { b with stat := .performed, fault := some .translation }

/-- The walk requests of a die that wait, oldest first. -/
def walkQueue (s : State) (die : Nat) : List Access :=
  (s.net.walkQ.filterMap (findAcc s)).filter fun a => a.stat == .walk && accDie s a == die
/-- Walks that a die's walker performs now. -/
def walksOf (s : State) (die : Nat) : Nat :=
  (s.net.acc.filter fun a => a.stat == .walking && pSpace a.ptr == 0 && accDie s a == die).length
/-- PAGE_WALK_START (R252): the head of the next tenant's queue takes a walk slot. -/
def execPageWalkStart (die : Nat) (s : State) : Out :=
  if 128 ≤ walksOf s die then .next s
  else
    let last := tget s.net.walkRot die 15
    let q := walkQueue s die
    match ((List.range 16).map fun i => (last + 1 + i) % 16).findSome? fun n => q.find? fun a => portTenant s a.port == n with
    | none => .next s
    | some a => .next (updNet (updAcc s a.id fun x => { x with stat := .walking }) fun y => { y with
        walkRot := tput y.walkRot die (portTenant s a.port), walkQ := y.walkQ.filter (· != a.id) })

/-- A port takes a translation it asked for: it replaces its entry, and its word goes on (R251). -/
def xlatGranted (s : State) (a : Access) (x : Xlat) : State :=
  match a.port with
  | .handler sp h => updH s sp h fun y => { y with xlat := some x, pods := x :: y.pods }
  | .device n => updCtl s fun c => { c with pods := tput c.pods n (x :: tget c.pods n []) }
  | _ => s
/-- It fails: the handler's word, or the reading of a record, meets the fault at its access. -/
def xlatDenied (s : State) (a : Access) (c : Cause) : State :=
  match a.port with
  | .handler sp h =>
    let x := getH s sp h
    (match x.op with
     | some (.wait ..) => updH s sp h fun x => { x with refused := (a.ptr, c) :: x.refused }
     | some (.col ..) => updH s sp h fun x => { x with refused := (a.ptr, c) :: x.refused }
     | _ => fetchFailed s sp h { cause := c, tval := a.ptr, pc := x.pc, h := h })
  | .device n => updCtl s fun y => { y with refused := tput y.refused n ((a.ptr, c) :: tget y.refused n []) }
  | _ => s

/-- PAGE_WALK_COMPLETE (R250): the walk of an access, of a page that a port asks for, or of a page of an attention run (R330). -/
def execPageWalkComplete (id : Nat) (s : State) : Out :=
  match findAcc s id with
  | none => .next s
  | some a =>
    if a.stat != .walking || pSpace a.ptr ≠ 0 then .next s
    else if (match a.port with | .device _ => false | p => spanKilled s (portSpan s p)) then .next (dropAcc s id)
    else match a.tag, a.port with
    | .att i, .handler sp h => .next (attWalked (dropAcc s id) sp h i)
    | _, _ =>
      let o := pOff a.ptr
      let fail (c : Cause) : State := if a.tag = .probe then xlatDenied (dropAcc s id) a c
        else updAcc s id fun b => { b with stat := .performed, fault := some c }
      match walk s (portTenant s a.port) o (isWrite a.kind) with
      | .page pa size wr =>
        let e : Xlat := { va := o / size * size, pa := pa, size := size, wr := wr }
        .next (if a.tag = .probe then xlatGranted (dropAcc s id) a e else translated s a e)
      | .poison => .next (fail .ue)
      | _ => .next (fail .translation)

/-- POD_TRANSLATION_REPLY (R431): the answer of the pod to a request for a translation, or its refusal of an access that it has
translated: the peer's error completion, which ends the access as one that its peer does not answer, with no byte changed (R377). -/
def execPodTranslationReply (id : Nat) (r : PodReply) (s : State) : Out :=
  match findAcc s id with
  | none => .next s
  | some a =>
    if pSpace a.ptr ≠ 5 then .next s
    else if a.stat = .dispatched ∧ isFence a.kind = false ∧ r = .refused then .next (accComplete (performed s a [] (some .podTimeout)) id)
    else if a.stat != .walking then .next s
    else
      let o := pOff a.ptr
      let denied : State := if a.tag = .probe then xlatDenied (dropAcc s id) a .translation
        else updAcc s id fun b => { b with stat := .performed, fault := some .translation }
      match r with
      | .mapped pa size =>
        if size = 65536 ∨ size = 2 ^ 21 ∨ size = 2 ^ 30 then
          let e : Xlat := { pod := true, rank := pRank a.ptr, va := o / size * size, pa := pa / size * size % 2 ^ 52, size := size, wr := true }
          .next (if a.tag = .probe then xlatGranted (dropAcc s id) a e else translated s a e)
        else .next denied
      | .refused => .next denied
      | .none_ => if now s < a.asked + podTo s (portTenant s a.port) then .next s else .next denied

/-- Does a range of addresses meet another. -/
def meets (a n b m : Nat) : Bool := decide (a < b + m) && decide (b < a + n)
/-- An access of a tenant, or of any, that uses a mapping of the range and has not performed. -/
def usesRange (s : State) (tn : Option Nat) (pod : Bool) (va size : Nat) (a : Access) : Bool :=
  tn.all (portTenant s a.port == ·) && (if pod then pSpace a.ptr == 5 else pSpace a.ptr == 0) &&
  (a.stat == .translated || a.stat == .dispatched || a.stat == .walking) && meets (pOff a.ptr) a.n va size
/-- Drop every entry of a tenant, or of all, that maps the range. -/
def dropEntries (s : State) (tn : Option Nat) (pod : Bool) (va size : Nat) : State :=
  let hit (x : Option Xlat) : Option Xlat := match x with
    | some e => if e.pod == pod && meets e.va e.size va size then none else some e
    | none => none
  let keep (l : List Xlat) : List Xlat := l.filter fun e => !(e.pod == pod && meets e.va e.size va size)
  { s with
    spans := s.spans.map fun p =>
      if tn.all (p.2.tenant.toNat == ·) then
        (p.1, { p.2 with
          hs := p.2.hs.map fun (x : Nat × Handler) => (x.1, { x.2 with xlat := hit x.2.xlat, pods := keep x.2.pods })
          streams := p.2.streams.map fun (x : Nat × Stream) => (x.1, { x.2 with xlat := hit x.2.xlat }) })
      else p
    ctl := { s.ctl with pods := s.ctl.pods.map fun p => if tn.all (p.1 == ·) then (p.1, keep p.2) else p } }
/-- Does an attention run of the tenant hold a page of the range in translation (R332)? -/
def attUses (s : State) (tn va size : Nat) : Bool :=
  s.spans.any fun p => p.2.tenant.toNat == tn && p.2.hs.any fun x => x.2.attHeld.any fun y =>
    meets (pOff (nth x.2.attDesc 0 0) + 65536 * (wbits (nth x.2.attDesc 1 0) 31 16 + y.1)) 65536 va size

/-- INVALIDATION_COMPLETE (R252, R421): once no access uses the range, its entries are dropped and BUSY returns to 0. -/
def execInvalidationComplete (tenant : Nat) (s : State) : Out :=
  let w := tw s tenant 6
  if !isSet w.toNat 63 then .next s
  else
    let size := 2 ^ wbits w 5 0 * 65536
    let va := wbits w 49 16 * 65536 / size * size
    if (s.net.acc.any (usesRange s (some tenant) false va size)) || attUses s tenant va size then .next s
    else .next (setTw (dropEntries s (some tenant) false va size) tenant 6 (putBits w 63 1 0))

/-- POD_INVALIDATION (R431): an invalidation of a range of the pod's address space by the service completes likewise, for the entries
of every port, and the module answers it; the service's node alone invalidates. -/
def execPodInvalidation (node va size : Nat) (s : State) : Out :=
  if node != s.firm.service.toNat || s.net.acc.any (usesRange s none true va size) then .next s
  else .next (updNet (dropEntries s none true va size) fun n => { n with replies := (node, some []) :: n.replies })

/-! ## Barrier updates (R268) -/

/-- BARRIER_UPDATE (R268): one registration, landing or transfer arrival, in the order of its stream; on a poisoned line the
span freezes and the update waits for its resume. -/
def execBarrierUpdate (id : Nat) (s : State) : Out :=
  match s.net.bars.find? fun b => b.id == id with
  | none => .next s
  | some b =>
    if (s.net.bars.takeWhile fun c => c.id != id).any fun c => c.sp == b.sp && c.sid == b.sid then .next s
    else
      let gone (s : State) : State := updNet s fun n => { n with bars := n.bars.filter fun c => c.id != id }
      match barKey b.ptr (regionRanks (getSpan s b.sp)) with
      | none => .next (gone s)
      | some k =>
        let port := PortId.stream b.sp b.sid
        match (detStepAs s port b.comp k 8 true (some barClass)).elim none fun s0 =>
            barUpdate (publish s0 b.comp (objBar k)) k (if b.arrive then 1 else 0) b.delta with
        | some (s1, _, _) => .next (gone s1)
        | none =>
          let x := getStream s b.sp b.sid
          if (getSpan s b.sp).ended then .next (gone s) else .next (fabricFault s b.sp { cause := if isPoison s k 8 then .ue else .conflict, tval := b.ptr, agent := if 5 ≤ x.kind then 3 else 2, loc := BitVec.ofNat 12 b.sid })

end Sys2Proof.Machine
end

