-- ==== Sys2Proof/Machine/Control.lean ====
section
/-!
DEFINITION. Machine/Control.lean: writes of CONTROL space (R107 to R115, R418 to R422, R446), one row for each kind of
write, and what launch control does (R410, R413, R415, R416).
-/
namespace Sys2Proof.Machine

/-! ## Launch control (R418) -/

/-- Is the word of a waiting operation withdrawn by a pre-emption (R413 step 5): a recv, send, sresp, bar.wait or step that waits?
-/
def withdrawn : Op → Bool
  | .wait (.recv ..) .. => true
  | .wait (.send ..) .. => true
  | .wait (.sresp ..) .. => true
  | .wait (.barWait ..) .. => true
  | .wait (.step ..) .. => true
  | .wait (.stepKeep ..) .. => true
  | _ => false

/-- A collapse that waits for its mask (R413 step 5). -/
def colWaits (p : Span) (c : Collapse) : Bool :=
  c.running && c.msk && !c.opened && (match c.bind with
    | some b => decide ((tget p.ch b.1 []).length < (wbits (nth c.desc 2 0) 63 32 + 63) / 64)
    | none => false)
/-- The words of a stopping span that wait without having changed state are withdrawn, a cwait that has not performed too (R413
step 5). -/
def withdrawSpan (s : State) (sp : Nat) : State :=
  let waits (h : Nat) : Bool := s.net.acc.any fun a =>
    a.port == .handler sp h && (match a.kind with | .cwait .. => true | _ => false) && a.stat != .performed
  let back (x : Nat × Handler) : Nat × Handler := (x.1, { x.2 with op := none, st := .runnable, pods := [], refused := [], reads := [] })
  let one (p : Span) (x : Nat × Handler) : Nat × Handler :=
    match x.2.op with
    | some (.mem (.cwait ..) _) => if waits x.1 then back x else x
    | some (.cfg _ full rect ..) => if full && rectBusy s p ((rectOf p rect).getD (wholeRect p)) then back x else x
    | some (.col ..) => if p.cols.any fun c => c.h == x.1 && colWaits p c then back x else x
    | some o => if withdrawn o then back x else x
    | none => x
  let drop (a : Access) : Bool := match a.port, a.kind with
    | .handler q h, .cwait .. => q == sp && waits h
    | _, _ => false
  updNet (updSpan s sp fun p => { p with hs := p.hs.map (one p), cols := p.cols.filter fun c => !colWaits p c }) fun n =>
    { n with acc := n.acc.filter fun a => !drop a }
/-- A span stops at the next boundaries (R413 steps 2 to 5). -/
def quiesceSpan (s : State) (sp : Nat) : State := withdrawSpan (updSpan s sp fun p => { p with quiesced := true }) sp
/-- After every event: a word that has come to wait in a stopping span is withdrawn too. -/
def withdrawDue (s : State) : State :=
  s.spans.foldl (fun s x => if x.2.quiesced && !x.2.saved then withdrawSpan s x.1 else s) s

/-- Bytes of save area a span takes (R414). -/
def saveBytes (p : Span) : Nat := p.rh * p.rw * 10551296 + 16384
/-- Is the save area of a slot in a window of its tenant, large enough for its spans (R414, R418)? -/
def saveOk (s : State) (slot : Nat) : Bool :=
  let l := getL s slot
  let tn := wbits (wordAt l.img 0) 63 60
  let n := sumNat ((spansOf s slot).map fun sp => saveBytes (getSpan s sp))
  inWindow s (· == tn) false (l.save.toNat * 65536) n

/-- A frozen span's delivered trap ends with a retry of the held word and of the fabric (R410, R418). -/
def resumeFrozen (s : State) (sp : Nat) : State :=
  let p := getSpan s sp
  match p.trap with
  | some t =>
    if p.toSys then
      let go (p : Span) : Span :=
        let q := { (if t.agent = 0 then endHold p t.h .retry t.pc else p) with trap := none, toSys := false }
        if q.fabric.isSome then q else resumeSpan q
      deliver (updSpan s sp go) sp
    else s
  | none => s

/-- A pre-empted launch is PREEMPTED once every span of it is saved (R413, R414). -/
def settlePreempt (s : State) (slot : Nat) : State :=
  if (getL s slot).sst = .preempting ∧ ((spansOf s slot).all fun sp => (getSpan s sp).saved) = true then
    updL s slot fun l => { l with sst := .preempted }
  else s
/-- A resumed launch is RUNNING once every span of it is back (R415); FROZEN where system software has the trap of one (R407). -/
def settleResume (s : State) (slot : Nat) : State :=
  let l := getL s slot
  if l.sst = .preempted ∧ l.resume = true ∧ ((spansOf s slot).all fun sp => !(getSpan s sp).saved) = true then
    let held := (spansOf s slot).any fun sp => (getSpan s sp).toSys
    updL s slot fun l => { l with sst := if held then .frozen else .running, resume := false }
  else s

/-- RESUME (R418): a FROZEN launch goes on; a PREEMPTED one is placed again as its clusters come free (R415). -/
def ctlResume (s : State) (slot : Nat) : State :=
  let l := getL s slot
  if !l.v then s
  else match l.sst with
    | .frozen => (spansOf s slot).foldl resumeFrozen (updL s slot fun l => { l with sst := .running })
    | .preempted => settleResume (updL s slot fun l => { l with resume := true }) slot
    | _ => s
/-- Offset of a span's records in its launch's save area (R414). -/
def saveOffset (s : State) (slot sp : Nat) : Nat :=
  sumNat (((spansOf s slot).takeWhile (· != sp)).map fun q => saveBytes (getSpan s q))
/-- Each span of the launch takes its place in the save area. -/
def placeSaves (s : State) (slot : Nat) : State :=
  (spansOf s slot).foldl (fun u sp => updSpan u sp fun p => { p with saveAt := (getL s slot).save.toNat * 65536 + saveOffset s slot sp }) s
/-- PREEMPT (R413, R418). -/
def ctlPreempt (s : State) (slot : Nat) : State :=
  let l := getL s slot
  if !l.v || l.sst != .running || !saveOk s slot then s
  else settlePreempt ((spansOf s slot).foldl quiesceSpan (updL (placeSaves s slot) slot fun l => { l with sst := .preempting, since := now s, resume := false })) slot
/-- KILL (R416, R418). -/
def ctlKill (s : State) (slot : Nat) : State := killSlot s slot .killed

/-! ## The units -/

/-- Are bits [hi:lo] of a word zero. -/
def zeros (w : Word) (hi lo : Nat) : Bool := wbits w hi lo == 0
/-- `none` unless the condition holds: PROTECTION (R111, R446). -/
def guardW (b : Bool) (s : State) : Option State := if b then some s else none

/-- A write that leaves entry word i as `new` (R111, R112); `pcnt`: only bytes 0 to 3 are covered; `plain`: an 8-byte
store. -/
def entryStore (s : State) (tn k i : Nat) (new : Word) (pcnt plain : Bool) : Option State :=
  let st := eState s k
  let own := tn == 0 || eTenant s k == tn
  if !own then none
  else match i with
    | 7 =>
      if plain && new == wd (2 ^ 60) && resting st && armCheck s k then some (armEntry s k)
      else if plain && new == 0 && st == 1 then some (setEntryW s k 7 0)
      else none
    | 0 =>
      if pcnt then
        if resting st || st == 1 then
          let s1 := setEntryW s k 0 new
          some (if st = 1 ∧ ePcnt s1 k = 0 then makeReady s1 k else s1)
        else none
      else
        guardW (resting st && zeros new 44 32 && (tn == 0 || wbits new 63 60 == eTenant s k)) (setEntryW s k 0 new)
    | 3 => guardW (resting st && zeros new 31 0) (setEntryW s k 3 new)
    | _ => guardW (resting st) (setEntryW s k i new)

/-- A write of QCTL of queue q (R113, R419). -/
def qctlStore (s : State) (tn q : Nat) (new : Word) : Option State :=
  let old := qword s q
  let same (hi lo : Nat) : Bool := wbits new hi lo == wbits old hi lo
  let wstOk := same 43 41 || (wbits old 43 41 == 3 && wbits new 43 41 == 0)
  let range := !isSet new.toNat 55 || (decide (20 ≤ wbits new 54 49) && decide (wbits new 54 49 ≤ 44) &&
    decide (10 ≤ wbits new 48 44) && decide (wbits new 48 44 ≤ 24))
  let ok := zeros new 57 56 && zeros new 40 32 && zeros new 31 16 && wstOk && range &&
    (tn == 0 || (qOwner s q == tn && same 63 59 && same 55 44))
  if !ok then none
  else
    let s1 := updCtl s fun c => { c with qctl := tput c.qctl q (putBits new 0 16 0) }
    some (if wbits old 43 41 = 3 ∧ wbits new 43 41 = 0 then
      updCtl s1 fun c => { c with dogs := tput c.dogs q { tget c.dogs q {} with timer := 0 } } else s1)

/-- Sum of the shares of strict tenants (R425). -/
def shareSum (s : State) : Nat :=
  sumNat ((List.range 16).map fun n => if isSet (tw s n 5).toNat 63 then wbits (tw s n 5) 62 56 else 0)

/-- Does a store to w4 make two tenants name one node (R433)? -/
def hostClash (s : State) (n : Nat) (new : Word) : Bool :=
  isSet new.toNat 63 && (List.range 16).any fun m => m != n && isSet (tw s m 4).toNat 63 && wbits (tw s m 4) 9 0 == wbits new 9 0

/-- The writable bits of word i of a tenant block, as runs (lowest, highest) (R421). -/
def tenantFields : Nat → List (Nat × Nat)
  | 0 => [(14, 51)] | 1 => [(0, 5), (12, 51)] | 2 => [(0, 31)] | 3 => [(0, 63)] | 4 => [(0, 9), (63, 63)]
  | 5 => [(32, 39), (40, 55), (56, 63)] | 6 => [(0, 5), (16, 49)] | _ => []
/-- Does an access of n bytes from byte lo of a word cover part of one of the fields? An access to none of them is none that R421
or R422 allows. -/
def coversField (fs : List (Nat × Nat)) (lo n : Nat) : Bool := fs.any fun f => decide (f.1 < 8 * (lo + n)) && decide (8 * lo ≤ f.2)
/-- A write of word i of tenant n's block (R421). -/
def tenantStore (s : State) (tn n i : Nat) (new : Word) : Option State :=
  let old := tw s n i
  if !(tn == 0 || (tn == n && (i == 2 || i == 6))) then none
  else match i with
    | 0 => guardW (zeros new 63 52 && zeros new 13 0) (setTw s n 0 new)
    | 1 =>
      let lg := wbits new 5 0
      guardW (zeros new 63 52 && zeros new 11 6 && (lg == 0 || (decide (6 ≤ lg) && decide (lg ≤ 20)))) (setTw s n 1 new)
    | 2 => some (setTw s n 2 (putBits old 0 32 new.toNat))
    | 3 => some (setTw s n 3 new)
    | 4 => guardW (zeros new 62 10 && !hostClash s n new) (setTw s n 4 new)
    | 5 =>
      let g := wbits new 39 32
      let s1 := setTw s n 5 (putBits new 0 32 (wbits old 31 0))
      guardW ((g == 0 || (decide (10 ≤ g) && decide (g ≤ 30))) && decide (shareSum s1 ≤ 128)) s1
    | 6 =>
      if isSet old.toNat 63 then some s
      else guardW (zeros new 62 50 && zeros new 15 6 && decide (wbits new 5 0 ≤ 34)) (updCtl (setTw s n 6 (putBits new 63 1 1)) fun c => { c with invAt := tput c.invAt n (now s) })
    | _ => none

/-- KPEND of a tenant (R421). -/
def kpend (s : State) (n : Nat) : Nat := wbits (tw s n 7) 7 0

/-- A valid window keeps R249 and its size rule. -/
def windowFits (w : Window) : Bool :=
  decide (1 ≤ w.size) &&
  (if w.sram then decide (w.base / 512 < 12) && decide (w.base % 512 + w.size ≤ 512)
   else hbmExists (w.base * 65536) (w.size * 65536))

/-- A write of word i of window entry n (R421). -/
def windowStore (s : State) (tn n i : Nat) (new : Word) : Option State :=
  let old := tget s.ctl.windows n 0
  let nw := putBits old (64 * i) 64 new.toNat
  let w := window nw
  let o := window old
  let clash := s.ctl.windows.any fun p =>
    let v := window p.2
    p.1 != n && v.v && v.sram == w.sram && decide (w.base < v.base + v.size) && decide (v.base < w.base + w.size)
  let ok := tn == 0 && (i != 0 || zeros new 57 0) && (!w.v || (windowFits w && !clash)) &&
    ((w.owner == o.owner && w.v == o.v) || kpend s o.owner == 0)
  guardW ok (updCtl s fun c => { c with windows := tput c.windows n nw })

/-- Does a placed or saved span hold cluster r. -/
def clusHeld (s : State) (r : Nat) : Bool :=
  (getClus s r).span.isSome || s.spans.any fun p => p.2.live && (regionRanks p.2).contains r

/-- Cycles of an ownership clear (R124). -/
def ownerClear : Nat := 65536
/-- A write of a cluster owner word (R422). -/
def ownerStore (s : State) (tn r : Nat) (new : Word) : Option State :=
  let old := clusOwner s r
  let own := wbits new 3 0
  if !(tn == 0 && zeros new 62 4) then none
  else if own = old then some s
  else if clusBusy s r || clusHeld s r || kpend s old != 0 then none
  else
    let s1 := updCtl s fun c => { c with owners := tput c.owners r (wd (2 ^ 63 + own)) }
    some (updClus (dropResid s1 [r]) r fun c => { c with clearDue := now s + ownerClear })

/-- A write of word i of launch-control slot `slot` (R418). -/
def slotStore (s : State) (tn slot i : Nat) (new : Word) : Option State :=
  let l := getL s slot
  if !(tn == 0 || (l.v && wbits (wordAt l.img 0) 63 60 == tn)) then none
  else if i = 1 then
    guardW (zeros new 63 52 && zeros new 15 0)
      (if l.v ∧ l.sst ≠ .running then s else updL s slot fun l => { l with save := BitVec.ofNat 36 (wbits new 51 16) })
  else if !zeros new 33 0 then none
  else match wbits new 59 56 with
    | 1 => some (ctlResume s slot)
    | 2 => some (ctlPreempt s slot)
    | 3 => some (ctlKill s slot)
    | _ => some s

/-- A store or atomic of tenant tn on n bytes at byte `lo` of the word at `off` (R446); f gives the new part from the
old. -/
def ctlStore (s : State) (tn off lo n : Nat) (f : Nat → Nat) (plain : Bool) : Option State :=
  let old := ctlWord s off
  let new := putBits old (8 * lo) (8 * n) (f (bitsOf old.toNat (8 * (lo + n) - 1) (8 * lo)))
  let byte := bitsOf off 17 0
  let die := bitsOf off 23 22
  match unitOf off with
  | 0 => entryStore s tn (entryKey off) (byte % 64 / 8) new (lo + n ≤ 4) (plain && n == 8)
  | 1 => qctlStore s tn (byte / 8) (putBits new 0 16 0)
  | 2 => if coversField (tenantFields (byte % 64 / 8)) lo n then tenantStore s tn (byte / 64) (byte % 64 / 8) new else none
  | 3 =>
    if coversField (if byte % 16 / 8 = 0 then [(58, 63)] else [(0, 63)]) lo n then windowStore s tn (byte / 16) (byte % 16 / 8) new else none
  | 4 => slotStore s tn (die * 16 + byte / 16) (byte % 16 / 8)
      (if byte % 16 / 8 = 0 then putBits new 0 34 (if lo < 5 then (f (bitsOf old.toNat (8 * (lo + n) - 1) (8 * lo))) * 2 ^ (8 * lo) % 2 ^ 34 else 0) else new)
  | 5 => if coversField [(0, 3)] lo n then ownerStore s tn (die * 64 + byte / 8) new else none
  | _ => none

/-- Kinds of CONTROL write, in the order of their rows. -/
inductive CtlRow where
  | pcnt | arm | disarm | qctl | resume | preempt | kill | inval | window | owner | plain
  deriving DecidableEq, Repr

/-- The row of an access to CONTROL space (R111, R113, R418, R421, R422). -/
def ctlRow (s : State) (a : Access) (off : Nat) : CtlRow :=
  let byte := bitsOf off 17 0
  let w := match a.kind with | .write bs => if a.n = 8 then some (ofBytes bs) else none | _ => none
  let cmd := match a.kind with
    | .write bs => if off % 8 + a.n = 8 then ofBytes (bs.drop (a.n - 1)) % 16 else 0
    | .amo fn _ b e => if off % 8 + a.n = 8 then amoNew fn a.n (ofBytes (ctlBytes s off a.n)) b.toNat e.toNat / 2 ^ (8 * a.n - 8) % 16 else 0
    | _ => 0
  match unitOf off with
  | 0 =>
    if byte % 64 + a.n ≤ 4 then .pcnt
    else if byte % 64 = 56 ∧ w = some (2 ^ 60) then .arm
    else if byte % 64 = 56 ∧ w = some 0 then .disarm
    else .plain
  | 1 => .qctl
  | 2 => if byte % 64 / 8 = 6 then .inval else .plain
  | 3 => .window
  | 4 => if byte % 16 / 8 = 0 then (match cmd with | 1 => .resume | 2 => .preempt | 3 => .kill | _ => .plain) else .plain
  | 5 => .owner
  | _ => .plain

/-- The bits an access to CONTROL space leaves in its part. -/
def ctlNew (a : Access) (old : Nat) : Nat :=
  match a.kind with
  | .write bs => ofBytes bs
  | .amo fn _ b e => amoNew fn a.n old b.toNat e.toNat
  | _ => old

/-- A CONTROL write of a row performs at its unit: applied, or a fault of its word: PTR_SPACE where the unit has no such word, else
PROTECTION (R446). -/
def ctlPerform (row : CtlRow) (id : Nat) (s : State) : Out :=
  match findAcc s id with
  | none => .next s
  | some a =>
    let off := a.key.getD 0 - 2 ^ 80
    if a.stat != .dispatched || !isWrite a.kind || decide (a.key.getD 0 < 2 ^ 80) || !ctlTurn s a || ctlRow s a off != row then
      .next s
    else
      match scGrant s a with
      | none => .next s
      | some s1 =>
        let old := ctlBytes s1 off a.n
        let plain := match a.kind with | .write _ => true | _ => false
        if !ctlMapped off then .next (performed s1 a [] (some .ptrSpace)) else
        match ctlStore s1 (portTenant s a.port) (off / 8 * 8) (off % 8) a.n (ctlNew a) plain with
        | some s2 =>
          let s3 := if isRel a && unitOf off == 0 then publish s2 a.port.num (objEntry (entryKey off)) else s2
          .next (performed s3 a old none)
        | none => .next (performed s1 a [] (some .protection))

def execEntryPcntWrite (id : Nat) (s : State) : Out := ctlPerform .pcnt id s
def execArmStore (id : Nat) (s : State) : Out := ctlPerform .arm id s
def execDisarmStore (id : Nat) (s : State) : Out := ctlPerform .disarm id s
def execQctlWrite (id : Nat) (s : State) : Out := ctlPerform .qctl id s
def execResume (id : Nat) (s : State) : Out := ctlPerform .resume id s
def execPreempt (id : Nat) (s : State) : Out := ctlPerform .preempt id s
def execLaunchControlKill (id : Nat) (s : State) : Out := ctlPerform .kill id s
def execInval (id : Nat) (s : State) : Out := ctlPerform .inval id s
def execWindowWrite (id : Nat) (s : State) : Out := ctlPerform .window id s
def execOwnerWordStore (id : Nat) (s : State) : Out := ctlPerform .owner id s
def execControlRegisterWrite (id : Nat) (s : State) : Out := ctlPerform .plain id s

end Sys2Proof.Machine
end

