-- ==== Sys2Proof/Machine/Ends.lean ====
section
/-!
DEFINITION. Machine/Ends.lean: the end of a span (R142) and what the expiry of the count of a matrix section does (R312).
-/
namespace Sys2Proof.Machine

/-- A RING or CORE stream still ACTIVE is cancelled, without a token (R142, R280). -/
def closeStream (sp : Nat) (s : State) (sid : Nat) : State :=
  let x := getStream s sp sid
  if (x.kind = 2 ∨ x.kind = 3 ∨ x.kind = 4) ∧ x.st = .active then
    let s1 := updNet s fun y => { y with acc := y.acc.filter fun a => a.port != .stream sp sid || !isQueued a }
    if x.kind = 4 then s1 else queueBar s1 sp sid (sBar x) (-(cancelDue s1 sp sid)) false
  else s
/-- What is left of a stream number when the span ends: the elements of jobs that were issued, which complete (R427). -/
def issuedJobs (x : Nat × Stream) : Option (Nat × Stream) :=
  let js := x.2.jobs.filter fun j => !j.flight.isEmpty
  if js.isEmpty then none else some (x.1, { x.2 with jobs := js, cancel := true })
/-- A handler that stops where it stands. -/
def idleH (x : Handler) : Handler :=
  { x with st := .stopped, op := none, held := none, trapWait := false, pend := false, miss := false, attTodo := [], attHeld := [], attSeq := [], attAbsent := [] }
/-- SPAN_END (R142): the span ends and closes what remains. -/
def endSpan (s : State) (sp : Nat) : State :=
  let s1 := ((getSpan s sp).streams.map (·.1)).foldl (closeStream sp) s
  let p := getSpan s1 sp
  let s2 := if p.sys.on then (rectTiles p p.sys.rect).foldl (fun s t => updTile (zeroAcc s t) t fun T => { T with aptr := 0, bptr := 0 }) s1 else s1
  let s3 := (rectTiles p (wholeRect p)).foldl (fun s t => updTile s t fun T => { T with leaf := none }) s2
  let token (a : Access) : Bool := isFence a.kind && (match a.port with | .stream q _ => q == sp | _ => false)
  let s4 := updNet s3 fun n => { n with acc := n.acc.filter fun a => !token a }
  updSpan s4 sp fun p => { p with
    ended := true, streams := p.streams.filterMap issuedJobs, tree := {}, cols := [], bind := none, ch := [], toks := [], trap := none
    fabric := none, faulted := none, frozen := false
    sys := { emitted := p.sys.emitted }
    hs := p.hs.map fun x => (x.1, idleH x.2) }
/-- The count of a matrix section has expired (R142, R312): its handlers stop where they stand, the commands still queued are discarded, no
further leaf starts; the span ends once no leaf runs, for the drain token of one that does follows the expiry (R312;
notes/assumptions/116.md, DEDUCED). -/
def countEnd (s : State) (sp : Nat) : State :=
  let p := getSpan s sp
  if !p.live || p.ended || p.saved || !tcntOver p then s
  else if rectBusy s p (wholeRect p) then updSpan s sp fun p => { p with
    hs := p.hs.map fun x => (x.1, idleH x.2), tree := { p.tree with stopped := true, opened := [] }, cols := []
    sys := { p.sys with arr := [], epi := [], epiD := p.sys.epiQ } }
  else endSpan s sp

end Sys2Proof.Machine
end

