-- ==== Sys2Proof/Machine/Fabric.lean ====
section
/-!
DEFINITION. Machine/Fabric.lean: configured elements and links (R97 to R103), tokens on links (R168 to R171), the graph of
links and its cycles (R73, R186, R205).
Consumers of a tile are numbered: 3e + j input j of slot e, 24 the weight-preload input, 25 and 27 the outbound links,
32 + 4p + k stream k of router port p.
-/
namespace Sys2Proof.Machine

/-! ## Fields -/

/-- Field f of element e of a tile. -/
def cfgv (T : Tile) (e f : Nat) : Nat := (tget T.cfg (e * 32 + f) 0).toNat
/-- Bits of it. -/
def cfgb (T : Tile) (e f hi lo : Nat) : Nat := bitsOf (cfgv T e f) hi lo
/-- A wide field from consecutive numbers. -/
def cfgImm (T : Tile) (e : Nat) : Nat := cfgv T e 13 + cfgv T e 14 * 4096 + cfgb T e 15 7 0 * 2 ^ 24

/-- An element slot's fields (R98). -/
def sOpc (T : Tile) (e : Nat) : Nat := cfgb T e 0 7 0
def sRm (T : Tile) (e : Nat) : Nat := cfgb T e 1 11 9
def sSat (T : Tile) (e : Nat) : Bool := cfgb T e 1 8 8 == 1
def sSub (T : Tile) (e : Nat) : Nat := cfgb T e 1 7 0
def inFmt (T : Tile) (e j : Nat) : Nat := cfgb T e (2 + j) 11 6
def inLan (T : Tile) (e j : Nat) : Nat := 2 ^ cfgb T e (2 + j) 5 3
def inPol (T : Tile) (e j : Nat) : Nat := cfgb T e (2 + j) 2 1
def inSel (T : Tile) (e j : Nat) : Nat := cfgb T e 6 (11 - 2 * j) (10 - 2 * j)
def outFmt (T : Tile) (e o : Nat) : Nat := cfgb T e (10 + o) 11 6
def outLan (T : Tile) (e o : Nat) : Nat := 2 ^ cfgb T e (10 + o) 5 3

/-- Inputs an opcode names (R98 and each entry). -/
def namedIns (T : Tile) (e : Nat) : List Nat :=
  let sub := sSub T e
  let k := isSet sub 7
  let ab : List Nat := if k then [0] else [0, 1]
  match sOpc T e with
  | 0x01 => ab | 0x02 => ab | 0x03 => ab | 0x05 => ab | 0x06 => ab | 0x09 => ab
  | 0x04 => if k then [0, 2] else [0, 1, 2]
  | 0x07 => [0] | 0x08 => [0] | 0x0A => [0] | 0x0B => [0] | 0x0C => [0] | 0x0D => [0] | 0x0E => [0]
  | 0x10 => ab | 0x11 => ab | 0x12 => ab | 0x13 => ab | 0x14 => ab | 0x15 => ab | 0x16 => ab | 0x17 => ab | 0x18 => ab
  | 0x19 => ab | 0x20 => ab
  | 0x21 => [0, 1, 2]
  | 0x28 => [0]
  | 0x29 => ab
  | 0x2A => if isSet sub 3 then [0, 1] else [0]
  | 0x2B => [0, 1]
  | 0x30 => if isSet sub 3 then [0, 1, 2] else [0, 1]
  | 0x31 => [0] | 0x32 => [0] | 0x33 => [0] | 0x38 => [0] | 0x39 => [0]
  | 0x3A => if sub % 8 = 3 then [0, 1] else [0]
  | 0x40 => [0, 1] | 0x41 => [0] | 0x42 => [0, 1] | 0x43 => [0] | 0x44 => [0]
  | 0x50 => [0, 1] | 0x51 => [0, 1, 2] | 0x52 => [0, 1] | 0x53 => [0, 1] | 0x54 => [0] | 0x55 => [0]
  | 0x56 => if isSet sub 0 then [0] else [0, 1]
  | 0x57 => [0] | 0x58 => [0]
  | 0x60 => if isSet sub 2 then [] else [0]
  | 0x61 => if isSet sub 2 then [1] else [0, 1]
  | 0x62 => [0] | 0x63 => [0, 1]
  | _ => []

/-! ## Places of tiles -/

/-- Row and column of a tile in the region. -/
def regRC (p : Span) (t : Nat) : Nat × Nat :=
  let r := t / 16 - p.anchor
  (r / 8 * 4 + t % 16 / 4, r % 8 * 4 + t % 4)
/-- The neighbour of a tile in direction d (0 N, 1 E, 2 S, 3 W) within a rectangle of the region. -/
def nbrIn (p : Span) (q : Rect) (t d : Nat) : Option Nat :=
  let (r, c) := regRC p t
  match d with
  | 0 => if q.y0 < r then some (regTile p (r - 1) c) else none
  | 1 => if c + 1 < q.x0 + q.w then some (regTile p r (c + 1)) else none
  | 2 => if r + 1 < q.y0 + q.h then some (regTile p (r + 1) c) else none
  | _ => if q.x0 < c then some (regTile p r (c - 1)) else none
def nbr (p : Span) (t d : Nat) : Option Nat := nbrIn p (wholeRect p) t d
/-- Index of a tile in a rectangle (R64). -/
def rectIndex (p : Span) (q : Rect) (t : Nat) : Nat := let (r, c) := regRC p t; (r - q.y0) * q.w + (c - q.x0)

/-! ## Links -/

/-- The consumers a tile can have. -/
def consumerIds : List Nat := List.range 26 ++ [27] ++ (List.range 16).map (32 + ·)
/-- The source code of a consumer's link, 0 for none (R99, R101). -/
def srcOf (T : Tile) (c : Nat) : Nat :=
  if c < 25 then cfgv T 15 c
  else if c < 32 then (if cfgb T 15 (c + 1) 11 11 = 1 then cfgv T 15 c else 0)
  else cfgv T (11 + (c - 32) / 4) ((c - 32) % 4)
/-- SLOTS of a consumer's link (R73, R102). The preload input holds 2. -/
def slotsOf (T : Tile) (c : Nat) : Nat :=
  if c < 24 then cfgb T (c / 3) 5 (11 - 4 * (c % 3)) (8 - 4 * (c % 3))
  else if c = 24 then 2
  else if c < 32 then (if cfgb T 15 (c + 1) 10 10 = 1 then 8 else 2)
  else cfgb T (11 + (c - 32) / 4) (8 + (c - 32) % 4) 11 8
/-- Format and lane count of the consumer end; none where it takes the producer's (R102). -/
def consFmt (T : Tile) (c : Nat) : Option (Nat × Nat) :=
  if c < 24 then some (inFmt T (c / 3) (c % 3), inLan T (c / 3) (c % 3))
  else if c = 24 then some (fUint8, 64)
  else if c < 32 then none
  else some (cfgb T (11 + (c - 32) / 4) (4 + (c - 32) % 4) 11 6, 2 ^ cfgb T (11 + (c - 32) / 4) (4 + (c - 32) % 4) 5 3)
/-- RSC and LSAT of a consumer's link (R72). -/
def consConv (T : Tile) (c : Nat) : Int × Bool :=
  if c < 24 then (sextInt 8 (cfgb T (c / 3) (7 + c % 3) 7 0), cfgb T (c / 3) (7 + c % 3) 8 8 == 1)
  else if c < 32 then (0, false)
  else (sextInt 8 (cfgb T (11 + (c - 32) / 4) (8 + (c - 32) % 4) 7 0), cfgb T (11 + (c - 32) / 4) (4 + (c - 32) % 4) 2 2 == 1)

/-- Lanes of an epilogue word (R308). -/
def epiLanes (ofmt : Nat) : Nat := min 64 (512 / max 1 (fmtWidth ofmt))
/-- Format and lanes a producer puts on its links; none for a fabric input port (R102). -/
def prodFmt (s : State) (p : Span) (t code : Nat) : Option (Nat × Nat) :=
  let T := getTile s t
  if 0x10 ≤ code ∧ code < 0x20 then some (outFmt T ((code - 0x10) / 2) (code % 2), outLan T ((code - 0x10) / 2) (code % 2))
  else if 0x20 ≤ code ∧ code < 0x30 then
    let d := (code - 0x20) / 4
    (nbr p t d).bind fun u => consFmt (getTile s u) (32 + 4 * ((d + 2) % 4) + code % 4)
  else if 0x38 ≤ code ∧ code < 0x3C then some (cfgb T 10 (4 + (code - 0x38)) 5 0, 1)
  else if code = 0x40 then some (cfgb T 8 5 11 6, epiLanes (cfgb T 8 5 11 6))
  else none

/-- Consumers of a producer in its tile. -/
def consumersOf (T : Tile) (code : Nat) : List Nat := consumerIds.filter fun c => srcOf T c == code

/-- Does fo n keep what arrives from a tile: a leaf execution that uses a port which no stream serves discards it; outside
one, words wait at the port for the next (R258). -/
def foOpen (s : State) (p : Span) (t n : Nat) : Bool :=
  (getTile s t).leaf.isNone ||
  p.streams.any fun x => x.2.kind == 1 && x.2.port == n && x.2.st != .free && (x.2.pass || x.2.drained)

/-- Does a zero-slot link that starts at a producer still show the head token of the producer's buffer to a consumer that has
not fired on it (R171)? Through router streams of no slots that holds along their links, for n of them. -/
def shownBelow (s : State) (p : Span) : Nat → Nat → Nat → Bool
  | 0, _, _ => false
  | n + 1, t, code =>
    let T := getTile s t
    (consumersOf T code).any fun c => (slotsOf T c == 0) &&
      (!(tget T.bufs c []).isEmpty || (decide (32 ≤ c) && match nbr p t ((c - 32) / 4) with
        | some u => shownBelow s p n u (0x20 + 4 * (((c - 32) / 4 + 2) % 4) + c % 4)
        | none => false))
/-- The same of the links that start at the stream which a router consumer drives. -/
def routerShows (s : State) (p : Span) (t c : Nat) : Bool :=
  decide (32 ≤ c) && match nbr p t ((c - 32) / 4) with
    | some u => shownBelow s p 64 u (0x20 + 4 * (((c - 32) / 4 + 2) % 4) + c % 4)
    | none => false
/-- Tokens that use a consumer's credits: those of its buffer, and the head that its router stream still shows through a
zero-slot link. -/
def held (s : State) (p : Span) (t c : Nat) : Nat :=
  (tget (getTile s t).bufs c []).length + (if routerShows s p t c then 1 else 0)

/-- Has a consumer's link a free credit (R169)? The place of a zero-slot link shows the head of the producer's own buffer, which
keeps its credit until the consumer fires (R171). -/
def roomAt (s : State) (sp t c : Nat) : Bool :=
  let T := getTile s t
  let p := getSpan s sp
  if c = 25 ∨ c = 27 then
    let num := cfgb T 15 (c + 1) 5 0
    if cfgb T 15 (c + 1) 10 10 = 1 then chanRoom s sp num
    else !foOpen s p t num || portRoom p.fo num
  else decide (held s p t c < max 1 (slotsOf T c))

/-- A token converted for its consumer (R72); a link from a fabric input port carries its consumer's lanes (R102). -/
def convTok (pf : Option (Nat × Nat)) (cf : Option (Nat × Nat)) (rsc : Int) (lsat : Bool) (tok : Token) : Token :=
  match tok, pf, cf with
  | .word w, some (f, n), some (g, _) => if f = g then .word w else .word (convWord f g n rsc lsat w)
  | .word w, none, some (g, n) => .word (BitVec.ofNat 512 (w.toNat % 2 ^ (fmtWidth g * n)))
  | _, _, _ => tok
/-- Cycles a token on the way to a consumer takes beside the d of its producer (R448): one for a conversion. -/
def linkDelay (pf cf : Option (Nat × Nat)) (d : Nat) : Nat :=
  match pf, cf with
  | some (f, _), some (g, _) => if f = g then d else d + 1
  | _, _ => d

/-- A token with clock m joins a consumer's link, at whose head it can stand after d cycles. -/
def pushTo (s : State) (sp t c : Nat) (pf : Option (Nat × Nat)) (d : Nat) (m : Tab Nat) (tok : Token) : State :=
  let T := getTile s t
  if (c = 25 ∨ c = 27) ∧ cfgb T 15 (c + 1) 10 10 = 0 then
    let num := cfgb T 15 (c + 1) 5 0
    if foOpen s (getSpan s sp) t num then
      updSpan (markAdd s sp (qFo sp num) (tget (getSpan s sp).fo num []).length 0 m) sp fun p => { p with
        fo := tput p.fo num (tget p.fo num [] ++ [tok])
        foWaits := tput p.foWaits num (tget p.foWaits num [] ++ [linkDelay pf none d]) }
    else s
  else
    let cv := consConv T c
    updTile (markAdd s sp (qBuf t c) (tget T.bufs c []).length 0 m) t fun T => { T with
      bufs := tput T.bufs c (tget T.bufs c [] ++ [convTok pf (consFmt T c) cv.1 cv.2 tok])
      waits := tput T.waits c (tget T.waits c [] ++ [linkDelay pf (consFmt T c) d]) }

/-- Room on every link of a producer (R170, R199). -/
def canEmit (s : State) (sp t code : Nat) : Bool := (consumersOf (getTile s t) code).all (roomAt s sp t)
/-- Cycles until a token that a producer places now stands at its consumer: a firing places it at the end of its issue
interval, every other unit in this cycle (R448). -/
def placeDelay (s : State) (t code : Nat) : Nat :=
  if 0x10 ≤ code ∧ code < 0x20 then max 1 ((tget (getTile s t).elems ((code - 0x10) / 2) {}).busy - now s) else 1
/-- A token with clock m on every link of a producer. -/
def emitAt (s : State) (sp t code : Nat) (m : Tab Nat) (tok : Token) : State :=
  let pf := prodFmt s (getSpan s sp) t code
  let d := placeDelay s t code
  (consumersOf (getTile s t) code).foldl (fun s c => pushTo s sp t c pf d m tok) s
/-- The clock of a producer's own tokens: that of its slot, or of the array (R392). -/
def srcClock (s : State) (t code : Nat) : Tab Nat :=
  if 0x10 ≤ code ∧ code < 0x20 then clockOf s (PortId.slot t ((code - 0x10) / 2)).num
  else if code = 0x40 then clockOf s (PortId.matrix t).num else []
/-- A producer's own token on every link of it. -/
def emit (s : State) (sp t code : Nat) (tok : Token) : State := emitAt s sp t code (srcClock s t code) tok

/-- Head of an input: the token that stands there (R448). -/
def headOf (T : Tile) (c : Nat) : Option Token :=
  let l := tget T.bufs c []
  if (tget T.waits c []).length < l.length then l.head? else none
/-- Consume the head of an input. -/
def popHead (T : Tile) (c : Nat) : Tile :=
  let l := (tget T.bufs c []).tail
  let w := tget T.waits c []
  { T with bufs := tput T.bufs c l, waits := tput T.waits c (w.drop (w.length - l.length)) }
/-- A cycle nearer for tokens on their way. -/
def nearer (l : Tab (List Nat)) : Tab (List Nat) := l.map fun x => (x.1, (x.2.map (· - 1)).filter (0 < ·))
/-- The same for those on their way to a tile's buffers. -/
def moveOn (T : Tile) : Tile := { T with waits := nearer T.waits }
/-- Tokens of a consumer's link that their producer has placed, which use its credits (R169): a firing places at the end of its issue
interval, and a conversion adds its cycle after that (R448). `n` is 1 for those placed by the end of this cycle, 0 for those placed
before it. -/
def placedOn (s : State) (sp t c n : Nat) : Nat :=
  let T := getTile s t
  let conv := linkDelay (prodFmt s (getSpan s sp) t (srcOf T c)) (consFmt T c) 0
  (tget T.bufs c []).length - ((tget T.waits c []).filter fun w => decide (n + conv < w)).length

/-! ## The graph of links (R73, R186) -/

/-- A link: producer node, consumer node, slots. Node t × 64 + x: x a slot, 8 the array, 10 the sequencer, a router
stream's consumer number. -/
structure Edge where
  a : Nat
  b : Nat
  slots : Nat
  deriving DecidableEq, Repr

def prodNode (p : Span) (t code : Nat) : Option Nat :=
  if 0x10 ≤ code ∧ code < 0x20 then some (t * 64 + (code - 0x10) / 2)
  else if 0x20 ≤ code ∧ code < 0x30 then
    let d := (code - 0x20) / 4
    (nbr p t d).map fun u => u * 64 + 32 + 4 * ((d + 2) % 4) + code % 4
  else if 0x38 ≤ code ∧ code < 0x3C then some (t * 64 + 10)
  else if code = 0x40 then some (t * 64 + 8)
  else none
def consNode (t c : Nat) : Option Nat :=
  if c < 24 then some (t * 64 + c / 3) else if c = 24 then some (t * 64 + 8) else if c < 32 then none else some (t * 64 + c)

/-- The links of some tiles that join two nodes. -/
def edgesOf (s : State) (p : Span) (ts : List Nat) : List Edge :=
  ts.flatMap fun t =>
    let T := getTile s t
    consumerIds.filterMap fun c =>
      if srcOf T c = 0 then none
      else match prodNode p t (srcOf T c), consNode t c with
        | some a, some b => some { a := a, b := b, slots := slotsOf T c }
        | _, _ => none

/-- The nodes reached from some nodes along the links, in n rounds. -/
def reachFrom (es : List Edge) : Nat → List Nat → List Nat
  | 0, seen => seen
  | n + 1, seen =>
    let new := (es.filter fun e => seen.contains e.a && !seen.contains e.b).map (·.b)
    if new.isEmpty then seen else reachFrom es n (seen ++ new.eraseDups)

/-- Does the link from a to b lie on a directed cycle. -/
def onCycle (es : List Edge) (a b : Nat) : Bool := (reachFrom es (es.length + 1) [b]).contains a

/-- Every elementary cycle through the links, as lists of links, found by paths of at most n links from `start` through nodes
above it. -/
def cyclesFrom (es : List Edge) (start : Nat) : Nat → Nat → List Edge → List (List Edge)
  | 0, _, _ => []
  | n + 1, at_, path =>
    (es.filter fun e => e.a == at_).flatMap fun e =>
      if e.b = start then [path ++ [e]]
      else if e.b < start || path.any (fun f => f.a == e.b) then []
      else cyclesFrom es start n e.b (path ++ [e])
def allCycles (es : List Edge) : List (List Edge) :=
  let nodes := (es.map (·.a)).eraseDups
  nodes.flatMap fun v => cyclesFrom es v (nodes.length + 1) v []

end Sys2Proof.Machine
end

