-- ==== Sys2Proof/Machine/Loader.lean ====
section
/-!
DEFINITION. Machine/Loader.lean: the Zynent loader (R61 to R77, R97 to R106, R179, R182, R185 to R187, R198 to R239,
R290): a stream is built in a shadow of its rectangle, the whole result is checked, and it commits or is rejected.
-/
namespace Sys2Proof.Machine

/-! ## Reads of records -/

/-- Read n bytes of a record for a tenant through a port: the faults of R48, R250 and R246, or what the read lacks (R251, R430). -/
def readRec (s : State) (tn : Nat) (port : PortId) (p : Word) (n al : Nat) : Except Stop (List Byte) := readPlain s port tn p n al

/-- A configuration descriptor (R61): pointer and length. -/
def readDesc (s : State) (p : Span) (port : PortId) (c : Nat) : Except Stop (Word × Nat) := do
  if p.ncfg ≤ c then throw (.trap (rejectT 0x1B 0) s.net)
  let b ← readRec s p.tenant.toNat port (ptrPlus p.cfgt (16 * c)) 16 1
  let w := wordsOf 2 b
  let w1 := nth w 1 0
  let len := wbits w1 55 32
  if wbits w1 63 56 ≠ 0 ∨ wbits w1 31 0 ≠ 0 ∨ len < 2 ∨ pOff (nth w 0 0) % 4 ≠ 0 then throw (.trap (rejectT 0x1B 0) s.net)
  pure (nth w 0 0, len)

/-- The `len` command words at q, as numbers: those at a peer are read as one range (R430). -/
def readCmds (s : State) (p : Span) (port : PortId) (q : Word) (len : Nat) : Except Stop (List Nat) :=
  let tn := p.tenant.toNat
  if pSpace q = 5 ∧ pOff q + 4 * len ≤ 2 ^ 50 then
    (readRec s tn port q (4 * len) 1).map fun b => (List.range len).map fun i => ofBytes ((b.drop (4 * i)).take 4)
  else
    (List.range len).mapM fun i => (readRec s tn port (ptrPlus q (4 * i)) 4 1).map ofBytes
/-- The command words of a configuration. -/
def readStream (s : State) (p : Span) (port : PortId) (c : Nat) : Except Stop (List Nat) := do
  let (q, len) ← readDesc s p port c
  readCmds s p port q len

/-! ## Words (R62 to R68) -/

def cwTile (w : Nat) : Nat := bitsOf w 31 22
def cwElem (w : Nat) : Nat := bitsOf w 21 17
def cwField (w : Nat) : Nat := bitsOf w 16 12
def cwValue (w : Nat) : Nat := bitsOf w 11 0
/-- Fields an element has (R98 to R103). -/
def fieldCount (e : Nat) : Nat :=
  if e < 8 then 16 else match e with
  | 8 => 7 | 9 => 16 | 10 => 8 | 11 => 12 | 12 => 12 | 13 => 12 | 14 => 12 | 15 => 32 | 31 => 4 | _ => 13
/-- A route field (R66, R99, R101). -/
def isRoute (e f : Nat) : Bool := (decide (11 ≤ e) && decide (e ≤ 14) && decide (f < 4)) || (e == 15 && f != 31)
/-- The check value of the words before END (R68). -/
def checkOf (ws : List Nat) : Nat :=
  let c := ws.foldl (fun c w => (c + w) % 2 ^ 32) 0
  (c ^^^ (c / 2 ^ 12) ^^^ (c / 2 ^ 24)) % 4096
def isReset (w : Nat) : Bool := cwElem w == 31 && cwField w == 0
def isEnd (w : Nat) : Bool := cwElem w == 31 && cwField w == 1
/-- Does a stream begin with RESET (R66). -/
def isFullStream (ws : List Nat) : Bool := match ws with | w :: _ => isReset w | [] => false

/-- An error: subcode and index (R75). -/
abbrev CErr := Nat × Nat
/-- Lowest subcode, then earliest index (R75). -/
def firstErr (es : List CErr) : Option CErr :=
  es.foldl (fun m e => match m with
    | none => some e
    | some x => if e.1 < x.1 ∨ (e.1 = x.1 ∧ e.2 < x.2) then some e else some x) none

/-- Errors of one word (R63 to R67) among n words; `full`: the stream begins with RESET. -/
def wordErrs (full : Bool) (tiles n i w : Nat) : List CErr :=
  let e := cwElem w
  let f := cwField w
  (if fieldCount e ≤ f then [(0x03, i)] else []) ++
  (if e = 31 then
    (if cwTile w ≠ 0 ∨ (f = 0 ∧ cwValue w ≠ 0) then [(0x04, i)] else []) ++
    (if (f = 0 ∧ i ≠ 0) ∨ (f = 1 ∧ i + 1 ≠ n) then [(0x07, i)] else [])
   else
    (if tiles ≤ cwTile w then [(0x05, i)] else []) ++
    (if !full && isRoute e f then [(0x06, i)] else []))

/-- VALUE of the last SEQLO (2) or SEQHI (3) of a stream (R65). -/
def seqPart (ws : List Nat) (f : Nat) : Option Nat := (ws.filter fun w => cwElem w == 31 && cwField w == f).getLast?.map cwValue
/-- The sequence number a stream commits with; a part without its command is zero (R65, R70). -/
def seqNum (ws : List Nat) : Nat := (seqPart ws 3).getD 0 * 4096 + (seqPart ws 2).getD 0
/-- The number of a stream that carries both commands, as deterministic mode asks (R70). -/
def seqOf (ws : List Nat) : Option Nat := if (seqPart ws 2).isSome && (seqPart ws 3).isSome then some (seqNum ws) else none

/-- A configuration built in shadow: the state with the rectangle's tiles changed, and the index of the word that last wrote
each field of each tile (key: index in the rectangle × 1024 + element × 32 + field). -/
structure Shadow where
  s : State
  who : Tab Nat

/-- Apply the words in order (R67). A full stream first returns every element to its unconfigured state. -/
def buildShadow (s : State) (p : Span) (q : Rect) (ws : List Nat) : Shadow :=
  let full := isFullStream ws
  let s0 := if full then (rectTiles p q).foldl (fun s t => updTile s t fun T => { T with cfg := [] }) s else s
  let put (a : Shadow × Nat) (w : Nat) : Shadow × Nat :=
    let e := cwElem w
    let f := cwField w
    if e = 31 ∨ rectCount q ≤ cwTile w ∨ fieldCount e ≤ f ∨ (!full && isRoute e f) then (a.1, a.2 + 1)
    else
      ({ s := updTile a.1.s (rectTile p q (cwTile w)) fun T => { T with cfg := tset T.cfg (e * 32 + f) (BitVec.ofNat 12 (cwValue w)) 0 }
         who := tput a.1.who (cwTile w * 1024 + e * 32 + f) a.2 }, a.2 + 1)
  (ws.foldl put ({ s := s0, who := [] }, 0)).1

/-! ## Element slots (R98, R105, R198 to R239) -/

def u8 (c : Nat) : Bool := c == fUint8
def i32or64 (c : Nat) : Bool := c == fInt32 || c == fInt64
/-- Q of R215. -/
def isQ (c : Nat) : Bool := isOcp c || c == 0x1F || c == 0x20 || isP3109 c
def isScaleFmt (c : Nat) : Bool := c == 0x28 || c == 0x0E
def isTopkFmt (c : Nat) : Bool := isIeee c || c == fInt32
def wide8 (c : Nat) : Bool := fmtWidth c == 8 || fmtWidth c == 16 || fmtWidth c == 32 || fmtWidth c == 64
def bothKind (a b : Nat) : Bool := (isIeee a && isIeee b) || (isInt a && isInt b)

/-- What an opcode's entry asks of a slot: SUB and IMM, RM and SAT; and, each with the field it concerns, the lane counts and
the formats. -/
structure OpCheck where
  sub : Bool := true
  imm : Bool := true
  lanes : List (Bool × Nat) := []
  fmts : List (Bool × Nat) := []
  rm : Bool := true
  sat : Bool := true
  /-- Every POL must be FWD (R220, R228). -/
  fwd : Bool := false
  /-- The buffer of SUB must be in use. -/
  buf : Option Nat := none

/-- Outputs an opcode uses (R98 and each entry); an rnet that does not receive uses none (R223). -/
def usedOuts (T : Tile) (e : Nat) (receives : Bool) : List Nat :=
  let sub := sSub T e
  match sOpc T e with
  | 0 => []
  | 0x2A => if isSet sub 3 then [0] else [0, 1]
  | 0x33 => [0, 1]
  | 0x3A => if !receives then [] else if sub % 8 = 3 then [0, 1] else [0]
  | 0x43 => [0, 1]
  | 0x50 => [0, 1]
  | 0x55 => if cfgv T e 11 = 0 then [0] else [0, 1]
  | 0x61 => [] | 0x63 => []
  | _ => [0]

/-- The entry's conditions on slot e (R207 to R239); `receives`: an rnet that emits its results (R223), whose formats no rule lists
(notes/assumptions/123.md, DESIGN CHOICE). -/
def opCheck (T : Tile) (e : Nat) (receives : Bool) : Option OpCheck :=
  let sub := sSub T e
  let imm := cfgImm T e
  let rm0 := sRm T e == 0
  let sat0 := !sSat T e
  let k := isSet sub 7
  let fa := inFmt T e 0
  let fb := inFmt T e 1
  let fc := inFmt T e 2
  let fo := outFmt T e 0
  let fp := outFmt T e 1
  let la := inLan T e 0
  let lb := inLan T e 1
  let lc := inLan T e 2
  let lo := outLan T e 0
  let lp := outLan T e 1
  let g := 2 ^ (sub % 8)
  let immK := k || imm == 0
  let low (m : Nat) : Bool := sub % 2 ^ m == 0
  let hi (m : Nat) : Bool := sub / 2 ^ m == 0
  let A := 2
  let B := 3
  let C := 4
  let O := 10
  let P := 11
  let fl (c : Nat) : Bool := isIeee c || isP3109 c || isOcp c
  let fp2 : OpCheck :=
    { sub := low 7, imm := immK, lanes := [(k || lb == la, B), (lo == la, O)], fmts := [(isIeee fa, A), (k || isIeee fb, B), (isIeee fo, O)] }
  let fp1 : OpCheck := { sub := sub == 0, imm := imm == 0, lanes := [(lo == la, O)], fmts := [(isIeee fa, A), (isIeee fo, O)] }
  let est : OpCheck := { fp1 with fmts := [(isIeee fa, A), (fo == fFp32 || fo == fBf16, O)], rm := rm0, sat := sat0 }
  let fn : OpCheck := { fp1 with fmts := [(isIeee fa, A), (fo == fFp32, O)], rm := rm0, sat := sat0 }
  let int2 (s0 : Bool) : OpCheck :=
    { sub := s0, imm := immK, lanes := [(k || lb == la, B), (lo == la, O)], fmts := [(isInt fa, A), (k || fb == fa, B), (fo == fa, O)]
      rm := rm0, sat := sat0 }
  let ctl : OpCheck := { rm := rm0, sat := sat0, fwd := true }
  let mov : OpCheck := { sub := sub == 0, rm := rm0, sat := sat0, fmts := [(fo == fa, O)] }
  let mem : OpCheck := { rm := rm0, sat := sat0, buf := some (bitsOf sub 6 4) }
  match sOpc T e with
  | 0x01 => some fp2 | 0x02 => some fp2 | 0x03 => some fp2 | 0x05 => some fp2 | 0x06 => some fp2 | 0x09 => some fp2
  | 0x04 => some { fp2 with lanes := fp2.lanes ++ [(lc == la, C)], fmts := fp2.fmts ++ [(isIeee fc, C)] }
  | 0x07 => some fp1 | 0x08 => some fp1 | 0x0A => some fp1
  | 0x0B => some fn | 0x0C => some fn | 0x0D => some est | 0x0E => some est
  | 0x10 => some { int2 (low 7) with sat := true } | 0x11 => some { int2 (low 7) with sat := true }
  | 0x12 => some { int2 (low 7) with sat := true }
  | 0x13 => some (int2 (low 7)) | 0x14 => some (int2 (low 7)) | 0x15 => some (int2 (low 7)) | 0x16 => some (int2 (low 7))
  | 0x17 => some (int2 (bitsOf sub 6 1 == 0)) | 0x18 => some (int2 (low 7)) | 0x19 => some (int2 (low 7))
  | 0x20 => some { sub := decide (sub % 8 < 6) && bitsOf sub 6 3 == 0, imm := immK, lanes := [(k || lb == la, B), (lo == la, O)]
                   fmts := [(isPlainFmt fa, A), (k || isPlainFmt fb, B), (isInt fo, O)], rm := rm0, sat := sat0 }
  | 0x21 => some { mov with imm := imm == 0, lanes := [(la == lo, A), (lb == lo, B), (lc == lo, C)]
                            fmts := [(isInt fa, A), (fb == fo, B), (fc == fo, C)] }
  | 0x28 => some { sub := sub == 0, imm := imm == 0, lanes := [(la == lo, O)], fmts := [(isPlainFmt fa, A), (isPlainFmt fo, O)] }
  | 0x29 => some { sub := low 7, imm := immK, lanes := [(k || lb == la, B), (lo == la, O)]
                   fmts := [(fl fa, A), (k || fb == 0x20 || i32or64 fb, B), (fl fo, O)] }
  | 0x2A =>
    let given := isSet sub 3
    some { sub := hi 4, imm := imm == 0, sat := sat0
           lanes := [(decide (g ≤ la), A), (!given || lb * g == la, B), (lo == la, O), (given || lp * g == la, P)]
           fmts := [(isIeee fa, A), (!given || isScaleFmt fb, B), (isQ fo, O), (given || fp == 0x28, P)] }
  | 0x2B => some { sub := hi 3, imm := imm == 0, lanes := [(lb * g == la, B), (lo == la, O)]
                   fmts := [(isQ fa || isMatrixFmt fa, A), (isScaleFmt fb, B), (isIeee fo, O)] }
  | 0x30 =>
    let i8 (c : Nat) : Bool := c == 0x1F || c == 0x20 || c == 0x21
    let acc := isSet sub 3
    let isI := i8 fa && i8 fb
    some { sub := hi 4, imm := imm == 0, rm := !isI || rm0
           lanes := [(decide (g ≤ la), A), (lb == la, B), (!acc || lc == lo, C), (lo * g == la, O)]
           fmts := [(i8 fa || fl fa, A), (if i8 fa then i8 fb else fl fb, B), (!acc || fc == fo, C)
                   , (if i8 fa then fo == 0x20 || i32or64 fo else isIeee fo, O)] }
  | 0x31 => some { sub := hi 4, imm := imm == 0, rm := rm0, sat := sat0, lanes := [(la == lo, O)]
                   fmts := [(fa == 0x1F || fa == 0x20 || fa == 0x21 || fa == fInt32, A), (wide8 fo, O)], buf := some (sub % 8) }
  | 0x32 =>
    let raw := sub % 4 == 2
    some { sub := hi 2 && sub % 4 != 3, imm := !raw || imm == 0, rm := !raw || rm0, sat := !raw || sat0, lanes := [(la == lo, O)]
           fmts := [(raw || isIeee fa, A), (if raw then fo == fInt32 else isIeee fo, O)] }
  | 0x33 =>
    let n := 2 ^ (sub % 4)
    some { sub := hi 2, imm := decide (1 ≤ imm) && decide (imm < 2 ^ 24), rm := rm0, sat := sat0, fwd := true
           lanes := [(lo == n, O), (lp == n, P)], fmts := [(isTopkFmt fa, A), (fo == fa, O), (fp == fInt32, P)] }
  | 0x38 => some { sub := decide (bitsOf sub 5 3 ≤ 3) && hi 6, imm := decide (1 ≤ imm) && decide (imm < 2 ^ 24), rm := rm0
                   lanes := [(decide (g ≤ la), A), (lo * g == la, O)], fmts := [(isIeee fa || isInt fa, A), (bothKind fa fo, O)] }
  | 0x39 => some { sub := low 3 && !k && decide (bitsOf sub 5 3 ≤ 2), imm := decide (1 ≤ imm) && decide (imm < 2 ^ 24)
                   rm := rm0, lanes := [(la == lo, O)], fmts := [(isIeee fa || isInt fa, A), (bothKind fa fo, O)] }
  | 0x3A =>
    let topk := sub % 8 == 3
    some { sub := decide (sub % 8 ≤ 3) && bitsOf sub 6 3 == 0, imm := decide (imm < 16), rm := rm0
           lanes := [(!topk || decide (la ≤ 8), A), (!topk || lb == la, B), (!receives || lo == la, O), (!topk || !receives || lp == la, P)]
           fmts := if topk then [(isTopkFmt fa, A), (fb == fInt32, B), (!receives || fo == fa, O), (!receives || fp == fInt32, P)] else
             [(isIeee fa || isInt fa, A), (!receives || bothKind fa fo, O)] }
  | 0x40 => some { mov with imm := imm == 0, lanes := [(lb == lo, B), (la == lo, O)], fmts := [(isInt fb, B), (fo == fa, O)] }
  | 0x41 => some { mov with imm := decide (imm < la) }
  | 0x42 => some { mov with imm := imm == 0, lanes := [(lb == la, B), (lo == 2 * la, O)], fmts := [(fb == fa, B), (fo == fa, O)] }
  | 0x43 => some { mov with imm := imm == 0, lanes := [(la == 2 * lo, O), (la == 2 * lp, P)], fmts := [(fo == fa, O), (fp == fa, P)] }
  | 0x44 => some { mov with imm := decide (imm ≤ la) && decide (imm < 128), lanes := [(la == lo, O)] }
  | 0x50 => some { ctl with sub := sub == 0, imm := imm == 0, lanes := [(la == lo, O), (la == lp, P)], fmts := [(isInt fb, B), (fo == fa, O), (fp == fa, P)] }
  | 0x51 => some { ctl with sub := sub == 0, imm := imm == 0, lanes := [(la == lo, A), (lb == lo, B)], fmts := [(fa == fo, A), (fb == fo, B), (isInt fc, C)] }
  | 0x52 => some { ctl with sub := sub == 0, imm := imm == 0, lanes := [(la == lo, O)], fmts := [(isInt fb, B), (fo == fa, O)] }
  | 0x53 => some { ctl with sub := sub == 0, imm := imm != 0, lanes := [(la == lo, O)], fmts := [(fo == fa, O)] }
  | 0x54 => some { ctl with sub := sub % 16 != 0 && hi 5, lanes := [(la == lo, O)], fmts := [(fo == fa, O)] }
  | 0x55 => some { ctl with sub := sub == 0, fmts := [(i32or64 fo, O), (cfgv T e 11 == 0 || isInt fp, P)] }
  | 0x56 => some { ctl with sub := hi 1, imm := imm == 0, lanes := [(la == lo, O)], fmts := [(isSet sub 0 || isInt fb, B), (fo == fa, O)] }
  | 0x57 => some { ctl with sub := hi 1, imm := !isSet sub 0 || imm == 0, lanes := [(la == lo, O)], fmts := [(fo == fa, O)] }
  | 0x58 => some { ctl with sub := sub == 0, imm := imm != 0, lanes := [(la == lo, O)], fmts := [(fo == fa, O)] }
  | 0x60 => some { mem with sub := !k && !isSet sub 3, imm := decide (imm < 2 ^ 18), fmts := [(isSet sub 2 || isInt fa, A)] }
  | 0x61 => some { mem with sub := !k && !isSet sub 3 && !isSet sub 1, imm := decide (imm < 2 ^ 18), fmts := [(isSet sub 2 || isInt fa, A)] }
  | 0x62 => some { mem with sub := !k && sub % 16 == 0, imm := imm == 0, lanes := [(la == lo, O)], fmts := [(fa == fInt32, A), (wide8 fo, O)] }
  | 0x63 => some { mem with sub := !k && sub % 16 == 0, imm := imm == 0, lanes := [(la == lb, B)], fmts := [(fa == fInt32, A), (wide8 fb, B)] }
  | _ => none

/-- Field errors of slot e: (subcode, field). -/
def slotErrs (T : Tile) (e : Nat) (receives : Bool) : List (Nat × Nat) :=
  if sOpc T e = 0 then []
  else
    let ins := namedIns T e
    let outs := usedOuts T e receives
    let bad (b : Bool) (sub f : Nat) : List (Nat × Nat) := if b then [(sub, f)] else []
    let inp (j : Nat) : List (Nat × Nat) :=
      if ins.contains j then
        bad (fmtClass (inFmt T e j)).isNone 0x01 (2 + j) ++ bad (inPol T e j == 3 || cfgb T e (2 + j) 0 0 != 0) 0x04 (2 + j) ++
        bad (decide (512 < fmtWidth (inFmt T e j) * inLan T e j)) 0x0B (2 + j) ++ bad (cfgb T e (7 + j) 11 9 != 0) 0x04 (7 + j)
      else
        bad (cfgv T e (2 + j) != 0) 0x04 (2 + j) ++ bad (cfgb T e 5 (11 - 4 * j) (8 - 4 * j) != 0) 0x04 5 ++
        bad (inSel T e j != 0) 0x04 6 ++ bad (cfgv T e (7 + j) != 0) 0x04 (7 + j)
    let out (o : Nat) : List (Nat × Nat) :=
      if outs.contains o then
        bad (fmtClass (outFmt T e o)).isNone 0x01 (10 + o) ++ bad (cfgb T e (10 + o) 2 0 != 0) 0x04 (10 + o) ++
        bad (decide (512 < fmtWidth (outFmt T e o) * outLan T e o)) 0x0B (10 + o)
      else bad (cfgv T e (10 + o) != 0) 0x04 (10 + o)
    let common := bad (cfgb T e 0 11 8 != 0) 0x04 0 ++ bad (decide (4 < sRm T e)) 0x04 1 ++ bad (cfgb T e 6 5 0 != 0) 0x04 6 ++
      bad (cfgb T e 12 11 8 != 0) 0x04 12 ++ bad (cfgb T e 15 11 8 != 0) 0x04 15
    let entry := match opCheck T e receives with
      | none => [(0x04, 0)]
      | some c =>
        bad (!c.sub) 0x04 1 ++ bad (!c.imm) 0x04 13 ++ c.lanes.flatMap (fun x => bad (!x.1) 0x04 x.2) ++
        c.fmts.flatMap (fun x => bad (!x.1) 0x02 x.2) ++ bad (!c.rm) 0x04 1 ++ bad (!c.sat) 0x04 1 ++
        (if c.fwd then ins.flatMap fun j => bad (inPol T e j != 0) 0x04 (2 + j) else []) ++
        bad (match c.buf with | some b => bufDepth T b == 0 | none => false) 0x04 1
    common ++ [0, 1, 2].flatMap inp ++ [0, 1].flatMap out ++ entry

/-! ## The other elements (R99 to R103) -/

/-- Errors of memory node, sequencer, array, local and router fields of a tile: (subcode, element, field). R97 does not say when the array
is in use: its reserved bits and format codes are checked at every commit (notes/assumptions/120.md, DESIGN CHOICE). -/
def unitErrs (T : Tile) : List (Nat × Nat × Nat) :=
  let bad (b : Bool) (e f : Nat) : List (Nat × Nat × Nat) := if b then [(0x04, e, f)] else []
  let used := (List.range 8).filter fun b => bufDepth T b != 0
  let fin (b : Nat) : Nat := bufBase T b + bufDepth T b * bufEsz T b
  let node := used.flatMap fun b =>
    bad (decide (2 ^ 18 < fin b) || used.any (fun c => c != b && decide (bufBase T b < fin c) && decide (bufBase T c < fin b))) 9 (2 * b + 1)
  let seq := (List.range 4).flatMap fun k =>
    if cfgb T 10 k 11 11 = 1 then
      bad (decide (5 < cfgb T 10 k 10 8) || cfgb T 10 k 7 0 != 0) 10 k ++ bad (cfgb T 10 (4 + k) 11 6 != 0) 10 (4 + k) ++
      (if (fmtClass (cfgb T 10 (4 + k) 5 0)).isNone then [(0x01, 10, 4 + k)]
       else if i32or64 (cfgb T 10 (4 + k) 5 0) then [] else [(0x02, 10, 4 + k)])
    else []
  let rsvd (c f : Nat) : List (Nat × Nat × Nat) := if (fmtClass c).isNone then [(0x01, 8, f)] else []
  let arr := bad (cfgb T 8 2 3 0 != 0) 8 2 ++ bad (cfgb T 8 3 9 0 != 0) 8 3 ++ bad (cfgb T 8 6 11 3 != 0) 8 6 ++
    rsvd (cfgb T 8 0 11 6) 0 ++ rsvd (cfgb T 8 0 5 0) 0 ++ rsvd (cfgb T 8 1 11 6) 1 ++ rsvd (cfgb T 8 1 5 0) 1 ++ rsvd (cfgb T 8 5 11 6) 5
  let loc := [26, 28].flatMap (fun f => bad (cfgb T 15 f 9 6 != 0 || (cfgb T 15 f 10 10 == 0 && decide (31 < cfgb T 15 f 5 0))) 15 f) ++
    [29, 30, 31].flatMap fun f => bad (cfgv T 15 f != 0) 15 f
  let rt := (List.range 16).flatMap fun x =>
    let e := 11 + x / 4
    let k := x % 4
    let g := cfgb T e (4 + k) 11 6
    bad (cfgb T e (4 + k) 1 0 != 0) e (4 + k) ++
    (if (fmtClass g).isNone then [(0x01, e, 4 + k)]
     else if cfgv T e k ≠ 0 ∧ 512 < fmtWidth g * 2 ^ cfgb T e (4 + k) 5 3 then [(0x0B, e, 4 + k)] else [])
  node ++ seq ++ arr ++ loc ++ rt

/-! ## Links (R71 to R73, R102, R171) -/

/-- Element and field of a consumer's source. -/
def srcField (c : Nat) : Nat × Nat := if c < 32 then (15, c) else (11 + (c - 32) / 4, (c - 32) % 4)

/-- A source code that R100 assigns. -/
def srcAssigned (c : Nat) : Bool :=
  (decide (0x10 ≤ c) && decide (c < 0x30)) || (decide (0x38 ≤ c) && decide (c < 0x3C)) || c == 0x40 ||
  (decide (0x50 ≤ c) && decide (c < 0x70))

/-- Does slot e of a tile receive its rnet results: `.all`, or the lowest tile index of its group in the rectangle (R223). -/
def rnetReceives (s : State) (p : Span) (q : Rect) (i e : Nat) : Bool :=
  let T := getTile s (rectTile p q i)
  if sOpc T e ≠ 0x3A ∨ isSet (sSub T e) 7 then true
  else
    (List.range i).all fun j =>
      let U := getTile s (rectTile p q j)
      (List.range 8).all fun f => !(sOpc U f == 0x3A && cfgb U f 13 3 0 == cfgb T e 13 3 0)

/-- Does a producer exist (R71)? -/
def producerExists (s : State) (p : Span) (q : Rect) (i code : Nat) : Bool :=
  let t := rectTile p q i
  let T := getTile s t
  if 0x10 ≤ code ∧ code < 0x20 then
    let e := (code - 0x10) / 2
    (usedOuts T e (rnetReceives s p q i e)).contains (code % 2)
  else if 0x20 ≤ code ∧ code < 0x30 then
    let d := (code - 0x20) / 4
    match nbr p t d with
    | some u => srcOf (getTile s u) (32 + 4 * ((d + 2) % 4) + code % 4) != 0
    | none => false
  else if 0x38 ≤ code ∧ code < 0x3C then cfgb T 10 (code - 0x38) 11 11 == 1
  else true

/-- Errors of the link into consumer c of the tile of index i: (subcode, element, field). A route of a full stream must not
leave the target rectangle (R71); a source field is checked while it is nonzero (R97); the epilogue accepts no weight pair at
its output (R72, R289). -/
def linkErrs (s : State) (p : Span) (q : Rect) (full : Bool) (i c : Nat) : List (Nat × Nat × Nat) :=
  let t := rectTile p q i
  let T := getTile s t
  let code := srcOf T c
  let (e, f) := srcField c
  let named := decide (c < 24) && sOpc T (c / 3) != 0 && (namedIns T (c / 3)).contains (c % 3)
  let oen := decide (24 < c) && decide (c < 32) && cfgb T 15 (c + 1) 11 11 == 1
  let raw := if c = 25 ∨ c = 27 then cfgv T 15 c else code
  if raw ≠ 0 ∧ srcAssigned raw = false then [(0x04, e, f)]
  else if code = 0 then (if named then [(0x12, c / 3, 0)] else if oen then [(0x12, 15, c + 1)] else [])
  else
    let leaves := full && decide (32 ≤ c) && (nbrIn p q t ((c - 32) / 4)).isNone
    let unaccepted := code == 0x40 && isPair (cfgb T 8 5 11 6)
    let zero := slotsOf T c == 0 && decide (0x10 ≤ code) && decide (code < 0x20)
    let joins := match prodFmt s p t code, consFmt T c with
      | some (g, n), some (h, m) =>
        (if ((isPair g || isPair h) && g != h) || n != m || unaccepted then [(0x0A, e, f)] else []) ++
        (if 512 < m * max (fmtWidth g) (fmtWidth h) then [(0x0B, e, f)] else [])
      | _, _ => if unaccepted then [(0x0A, e, f)] else []
    (if c < 24 ∧ !named then [(0x12, e, f)] else []) ++ (if leaves then [(0x11, e, f)] else []) ++
    (if producerExists s p q i code then joins else [(0x12, e, f)]) ++
    (if zero then [(0x04, e, f)] else []) ++
    (if oen && cfgb T 15 (c + 1) 10 10 == 1 && (tfind p.chmap (cfgb T 15 (c + 1) 5 0)).isNone then [(0x13, 15, c + 1)] else []) ++
    (if oen && (regionTiles p).any (fun u => [25, 27].any fun d => (u != t || d != c) && srcOf (getTile s u) d != 0 &&
        cfgb (getTile s u) 15 (d + 1) 10 0 == cfgb T 15 (c + 1) 10 0 &&
        (!(rectTiles p q).contains u || decide (rectIndex p q u * 32 + d < i * 32 + c))) then [(0x11, 15, c + 1)] else [])
where
  regionTiles (p : Span) : List Nat := rectTiles p (wholeRect p)

/-! ## Couplers (R103, R179 to R187) -/

structure CplCfg where
  cslot : Nat
  cin : Nat
  ptile : Nat
  pen : Bool
  pslot : Nat
  set : Nat
  kp : Nat
  ki : Nat
  uper : Nat
  imax : Nat
  basep : Nat
  basec : Nat
  wmin : Nat
  wmax : Nat
def cplEn (T : Tile) (c : Nat) : Bool := cfgb T (16 + c) 0 11 11 == 1
def cplCfg (T : Tile) (c : Nat) : CplCfg :=
  let e := 16 + c
  { cslot := cfgb T e 0 10 8, cin := cfgb T e 0 7 6, ptile := cfgb T e 1 9 0, pen := cfgb T e 2 11 11 == 1
    pslot := cfgb T e 2 2 0, set := cfgb T e 3 3 0, kp := cfgv T e 4, ki := cfgv T e 5, uper := cfgb T e 6 3 0
    imax := cfgv T e 7 + cfgv T e 8 * 4096, basep := cfgb T e 9 7 0, basec := cfgb T e 10 7 0
    wmin := cfgb T e 11 7 0, wmax := cfgb T e 12 7 0 }
/-- The coupled link's consumer number and slots. -/
def cplLink (x : CplCfg) : Nat := 3 * x.cslot + x.cin
def cplSlots (T : Tile) (c : Nat) : Nat := slotsOf T (cplLink (cplCfg T c))

/-- The element slot that feeds a source through any router streams: (tile, slot). -/
def feederOf (s : State) (p : Span) : Nat → Nat → Nat → Option (Nat × Nat)
  | 0, _, _ => none
  | n + 1, t, code =>
    if 0x10 ≤ code ∧ code < 0x20 then some (t, (code - 0x10) / 2)
    else if 0x20 ≤ code ∧ code < 0x30 then
      let d := (code - 0x20) / 4
      match nbr p t d with
      | some u => feederOf s p n u (srcOf (getTile s u) (32 + 4 * ((d + 2) % 4) + code % 4))
      | none => none
    else none
/-- The module's tile of a coupler's producer, in a rectangle. -/
def cplProducer (s : State) (p : Span) (q : Rect) (t c : Nat) : Option (Nat × Nat) :=
  let x := cplCfg (getTile s t) c
  if x.pen && decide (x.ptile < rectCount q) then some (rectTile p q x.ptile, x.pslot) else none

/-- The fields of an enabled coupler with nonzero reserved bits (R97, R103). -/
def cplRsvd (T : Tile) (c : Nat) : List Nat :=
  let e := 16 + c
  let rsv : List (Nat × Nat) := [(0, cfgb T e 0 5 0), (1, cfgb T e 1 11 10), (2, cfgb T e 2 10 3), (3, cfgb T e 3 11 4), (6, cfgb T e 6 11 4),
    (9, cfgb T e 9 11 8), (10, cfgb T e 10 11 8), (11, cfgb T e 11 11 8), (12, cfgb T e 12 11 8)]
  if cplEn T c then (rsv.filter fun x => x.2 != 0).map (·.1) else []
/-- Does an enabled coupler break R179. -/
def cplRangeBad (s : State) (p : Span) (q : Rect) (t c : Nat) : Bool :=
  let T := getTile s t
  let x := cplCfg T c
  let fed := feederOf s p 4096 t (srcOf T (cplLink x))
  x.cin == 3 || sOpc T x.cslot == 0 || !(namedIns T x.cslot).contains x.cin || cplSlots T c == 0 ||
  decide (cplSlots T c < x.set) || (x.pen && (cplProducer s p q t c).isNone) || (x.pen && fed != cplProducer s p q t c) ||
  decide (x.uper < 4) || decide (12 < x.uper) || decide (x.wmax < x.wmin)

/-- A party an enabled coupler touches, with base and bounds. -/
structure Party where
  /-- The coupler: tile × 16 + number. -/
  by_ : Nat
  t : Nat
  e : Nat
  base : Nat
  wmin : Nat
  wmax : Nat
  kp : Nat
  deriving DecidableEq, Repr
/-- The parties of coupler c of tile t, whose PTILE counts in rectangle q. -/
def partiesOf (s : State) (p : Span) (q : Rect) (t c : Nat) : List Party :=
  let T := getTile s t
  if !cplEn T c then []
  else
    let x := cplCfg T c
    { by_ := t * 16 + c, t := t, e := x.cslot, base := x.basec, wmin := x.wmin, wmax := x.wmax, kp := x.kp } ::
    (match cplProducer s p q t c with
     | some (u, e) => [{ by_ := t * 16 + c, t := u, e := e, base := x.basep, wmin := x.wmin, wmax := x.wmax, kp := x.kp }]
     | none => [])
def samePlace (a b : Party) : Bool := a.t == b.t && a.e == b.e
/-- R182: every coupler of a slot gives it the same base and bounds. -/
def agrees (all : List Party) (a : Party) : Bool :=
  all.all fun b => !samePlace a b || (a.base == b.base && a.wmin == b.wmin && a.wmax == b.wmax)
/-- S1 (R185): a coupler that touches a slot in both roles counts once. -/
def kpOk (all : List Party) (a : Party) : Bool :=
  decide (sumNat ((((all.filter (samePlace a)).map fun x => (x.by_, x.kp)).eraseDups).map (·.2)) ≤ 256)

/-- Errors of the couplers of a rectangle: subcode with (index in the rectangle, coupler), the lowest tile then coupler of
each subcode. -/
def cplErrs (s : State) (p : Span) (q : Rect) : List (Nat × Nat × Nat) :=
  let on := (List.range (rectCount q)).flatMap fun i =>
    (List.range 15).filterMap fun c => if cplEn (getTile s (rectTile p q i)) c then some (i, c) else none
  let parties (x : Nat × Nat) := partiesOf s p q (rectTile p q x.1) x.2
  let all := on.flatMap parties
  let cfg (x : Nat × Nat) := cplCfg (getTile s (rectTile p q x.1)) x.2
  let first (sub : Nat) (bad : Nat × Nat → Bool) : List (Nat × Nat × Nat) := match on.find? bad with
    | some x => [(sub, x.1, x.2)]
    | none => []
  first 0x04 (fun x => cplRangeBad s p q (rectTile p q x.1) x.2 || (parties x).any fun a => !agrees all a) ++
  first 0x0D (fun x => (parties x).any fun a => !kpOk all a) ++
  first 0x0E (fun x => decide ((cfg x).kp < 4 * (cfg x).ki)) ++
  first 0x0F (fun x => decide (2 ^ (cfg x).uper < 4 * (cplSlots (getTile s (rectTile p q x.1)) x.2 + 2)))

/-- Is a cycle of links carried by a limit element whose limit lies below its slots (S4). -/
def cycleOk (s : State) (cy : List Edge) : Bool :=
  let n := sumNat (cy.map (·.slots))
  cy.any fun e => decide (e.a % 64 < 8) && sOpc (getTile s (e.a / 64)) (e.a % 64) == 0x53 &&
    decide (cfgImm (getTile s (e.a / 64)) (e.a % 64) < n)

/-! ## rnet groups (R223) -/

/-- Errors of the rnet slots of a rectangle: (index, slot). -/
def rnetErrs (s : State) (p : Span) (q : Rect) : List (Nat × Nat) :=
  let slots := (List.range (rectCount q)).flatMap fun i =>
    (List.range 8).filterMap fun e => if sOpc (getTile s (rectTile p q i)) e = 0x3A then some (i, e) else none
  let T (x : Nat × Nat) := getTile s (rectTile p q x.1)
  let grp (x : Nat × Nat) := cfgb (T x) x.2 13 3 0
  let same (x y : Nat × Nat) : Bool :=
    sSub (T x) x.2 == sSub (T y) y.2 && cfgv (T x) x.2 2 / 8 == cfgv (T y) y.2 2 / 8 && cfgv (T x) x.2 3 / 8 == cfgv (T y) y.2 3 / 8 &&
    (!rnetReceives s p q x.1 x.2 || !rnetReceives s p q y.1 y.2 ||
      (cfgv (T x) x.2 10 == cfgv (T y) y.2 10 && cfgv (T x) x.2 11 == cfgv (T y) y.2 11))
  slots.filter fun x => slots.any fun y => grp x == grp y && x != y && (x.1 == y.1 || !same x y)

/-! ## The array's fields (R103, R288) -/

def mAfmt (T : Tile) : Nat := cfgb T 8 0 5 0
def mBfmt (T : Tile) : Nat := cfgb T 8 0 11 6
def mMean (T : Tile) : Nat := cfgb T 8 1 11 6
def mDel (T : Tile) : Nat := cfgb T 8 1 5 0
def mAen (T : Tile) : Bool := cfgb T 8 2 11 11 == 1
def mAsf (T : Tile) : Nat := cfgb T 8 2 10 10
def mNa (T : Tile) : Nat := 16 * 2 ^ cfgb T 8 2 9 8
def mBen (T : Tile) : Bool := cfgb T 8 2 7 7 == 1
def mBsf (T : Tile) : Nat := cfgb T 8 2 6 6
def mNb (T : Tile) : Nat := 16 * 2 ^ cfgb T 8 2 5 4
def mPmode (T : Tile) : Nat := cfgb T 8 3 11 10
def mAbuf (T : Tile) : Nat := cfgb T 8 4 11 8
def mBbuf (T : Tile) : Nat := cfgb T 8 4 7 4
def mRing (T : Tile) : Nat := cfgb T 8 4 3 0
def mOfmt (T : Tile) : Nat := cfgb T 8 5 11 6
def mAct (T : Tile) : Nat := cfgb T 8 5 5 3
def mErm (T : Tile) : Nat := cfgb T 8 5 2 0
def mEsc (T : Tile) : Bool := cfgb T 8 6 2 2 == 1
def mEbias (T : Tile) : Bool := cfgb T 8 6 1 1 == 1
def mEmom (T : Tile) : Bool := cfgb T 8 6 0 0 == 1

/-- The delivered format of B (R288). -/
def delB (T : Tile) : Nat := if isPair (mBfmt T) then mDel T else mBfmt T
/-- Plane depth KB (R288). -/
def planeK (T : Tile) : Nat := if max (fmtWidth (mAfmt T)) (fmtWidth (delB T)) ≤ 6 then 128 else 64
/-- Bytes of a B scale record (R29, R291). -/
def recB (T : Tile) : Nat := if mBfmt T = 0x2A then 2 else if mBen T then 1 else 0
def blocksB (T : Tile) : Nat := max 1 (planeK T / mNb T)
def blocksA (T : Tile) : Nat := max 1 (planeK T / mNa T)
/-- Bytes of a plane of one tile, and of an A slab (R291, R292). -/
def planeBytes (T : Tile) : Nat := 8 * planeK T * fmtWidth (mBfmt T) + recB T * 64 * blocksB T
def slabBytes (T : Tile) : Nat := 2 * planeK T * fmtWidth (mAfmt T) + (if mAen T then 16 * blocksA T else 0)
/-- Entries a plane occupies (R292). -/
def planeEntries (T : Tile) : Nat := (planeBytes T + bufEsz T (mBbuf T) - 1) / bufEsz T (mBbuf T)
/-- Words of a plane on a link (R293). -/
def planeWords (T : Tile) : Nat := (planeBytes T + 63) / 64
/-- Does the tile take its planes from a link (R293)? -/
def linkFed (T : Tile) : Bool := cfgv T 15 24 != 0
/-! ## The whole check (R69, R75, R187, R290) -/

/-- The buffers of a tile that the array of the systolic rectangle uses and that are not in use, or whose entries do not hold
what it keeps there: a slab in ABUF at position 0 of a group, a plane in BBUF without a link (R289, R290, R292). -/
def arrayBufsBad (s : State) (p : Span) (t : Nat) : List Nat :=
  let T := getTile s t
  if p.sys.on && (rectTiles p p.sys.rect).contains t then
    (if (regRC p t).2 % max 1 p.sys.nt = p.sys.rect.x0 % max 1 p.sys.nt ∧
        (bufDepth T (mAbuf T) = 0 ∨ bufEsz T (mAbuf T) < slabBytes T) then [mAbuf T] else []) ++
    (if linkFed T = false ∧ (bufDepth T (mBbuf T) = 0 ∨ bufDepth T (mBbuf T) < planeEntries T) then [mBbuf T] else [])
  else []

/-- Errors of the built configuration (R69), with the index of R75: that of the word which last wrote the offending field, zero
where the stream wrote none; and of R187. -/
def configErrs (old : State) (p : Span) (q : Rect) (ws : List Nat) (sh : Shadow) : List CErr :=
  let s := sh.s
  let fin := ws.length - 1
  let at_ (i e f : Nat) : Nat := tget sh.who (i * 1024 + e * 32 + f) 0
  let tiles := List.range (rectCount q)
  let slots := tiles.flatMap fun i => (List.range 8).flatMap fun e =>
    (slotErrs (getTile s (rectTile p q i)) e (rnetReceives s p q i e)).map fun x => (x.1, at_ i e x.2)
  let units := tiles.flatMap fun i => (unitErrs (getTile s (rectTile p q i))).map fun x => (x.1, at_ i x.2.1 x.2.2)
  let links := tiles.flatMap fun i => consumerIds.flatMap fun c => (linkErrs s p q (isFullStream ws) i c).map fun x => (x.1, at_ i x.2.1 x.2.2)
  let cpls := (cplErrs s p q).map fun x =>
    let last := [0, 3, 4, 5, 6, 9, 10, 11, 12].filterMap fun f => tfind sh.who (x.2.1 * 1024 + (16 + x.2.2) * 32 + f)
    (x.1, match last with | [] => fin | l => l.foldl max 0)
  let rsvd := tiles.flatMap fun i => (List.range 15).flatMap fun c => (cplRsvd (getTile s (rectTile p q i)) c).map fun f => (0x04, at_ i (16 + c) f)
  let rn := (rnetErrs s p q).map fun x => (0x04, at_ x.1 x.2 13)
  let es := edgesOf s p (rectTiles p q)
  let zl := let z := es.filter fun e => e.slots == 0
    if z.any fun e => onCycle z e.a e.b then [(0x0C, 0)] else []
  let s4 := if (allCycles es).any (fun cy => !cycleOk s cy) then [(0x10, fin)] else []
  let mat := tiles.flatMap fun i =>
    let t := rectTile p q i
    if p.sys.on && (rectTiles p p.sys.rect).contains t then
      (((ws.zip (List.range ws.length)).filter fun x => cwElem x.1 == 8 && cwTile x.1 == i).map fun x => (0x1A, x.2)) ++
      (if isFullStream ws && (List.range 7).any (fun f => cfgv (getTile old t) 8 f != 0) then [(0x1A, 0)] else []) ++
      (arrayBufsBad s p t).map fun b => (0x1A, at_ i 9 (2 * b + 1))
    else []
  slots ++ units ++ links ++ cpls ++ rsvd ++ rn ++ zl ++ s4 ++ mat

/-- Which form of stream is accepted: full, partial or either (R66, R132, R162). -/
inductive Form where
  | full | part | any
  deriving DecidableEq, Repr

/-- Errors of the stream as words (R65 to R70). -/
def streamErrs (s : State) (p : Span) (q : Rect) (form : Form) (ws : List Nat) : List CErr :=
  let n := ws.length
  let full := isFullStream ws
  let idx := ws.zip (List.range n)
  let words := idx.flatMap fun x => wordErrs full (rectCount q) n x.2 x.1
  let ended := match ws.getLast? with | some w => isEnd w | none => false
  let form_ := (if (form = .full ∧ !full) ∨ (form = .part ∧ full) then [(0x07, 0)] else []) ++ (if ended then [] else [(0x07, n - 1)])
  let check := match ws.getLast? with
    | some w => if isEnd w && cwValue w != checkOf ws.dropLast then [(0x08, n - 1)] else []
    | none => []
  let seq := if !p.det then [] else
    match seqOf ws with
    | none => [(0x09, n - 1)]
    | some v =>
      if (rectTiles p q).any fun t => (getTile s t).seqUid == (getL s p.slot).uid && decide (v + 1 ≤ (getTile s t).seqno) then
        [(0x09, n - 1)] else []
  words ++ form_ ++ check ++ seq

/-- Build and check a stream of configuration c on a rectangle: the shadow and the words, or the trap (R69, R75); configuration 0
is a full stream (R66). -/
def loadWords (s : State) (sp : Nat) (q : Rect) (c : Nat) (form : Form) (ws : List Nat) : Except Trp (Shadow × List Nat) := do
  let p := getSpan s sp
  let sh := buildShadow s p q ws
  let zero : List CErr := if c = 0 ∧ isFullStream ws = false then [(0x07, 0)] else []
  match firstErr (zero ++ streamErrs s p q form ws ++ configErrs s p q ws sh) with
  | some e => throw (rejectT e.1 e.2)
  | none => pure (sh, ws)
/-- Load configuration c on a rectangle. -/
def loadConfig (s : State) (sp : Nat) (port : PortId) (q : Rect) (c : Nat) (form : Form) : Except Stop (Shadow × List Nat) := do
  let ws ← readStream s (getSpan s sp) port c
  (loadWords s sp q c form ws).mapError (Stop.trap · s.net)

/-- A residency tag is cleared (R120). -/
def clearResid (s : State) (p : Span) : State := (regionRanks p).foldl (fun s r => updClus s r fun c => { c with resid := none }) s

/-- Commit a built configuration (R69, R70, R106, R120, R180). -/
def commitConfig (s : State) (sp : Nat) (q : Rect) (c : Nat) (sh : Shadow) (ws : List Nat) : State :=
  let p := getSpan s sp
  let full := isFullStream ws
  let num := seqNum ws
  let l := getL s p.slot
  let wrote (i e : Nat) : Bool := full || ws.any fun w => cwElem w == e && cwTile w == i
  let one (s' : State) (i : Nat) : State :=
    updTile s' (rectTile p q i) fun T =>
      let T0 := getTile s (rectTile p q i)
      { T0 with
        cfg := T.cfg, wasCfg := T0.wasCfg.filter fun y => !(full || ws.any fun w => cwTile w == i && cwElem w * 32 + cwField w == y.1)
        last := some c, seqno := num + 1, seqUid := l.uid
        ti := (List.range 31).foldl (fun t e => if wrote i e then tput t e i else t) T0.ti
        rects := (List.range 31).foldl (fun t e => if wrote i e then tput t e q else t) T0.rects
        cpl := T0.cpl.filter fun x => !wrote i (16 + x.1) }
  let s1 := (List.range (rectCount q)).foldl one sh.s
  let s2 := updSpan s1 sp fun p => { p with cfgno := BitVec.ofNat 24 num }
  let p2 := getSpan s2 sp
  if full && decide (q = wholeRect p2) then
    let tag : Resid := { laff := BitVec.ofNat 32 (wbits (wordAt l.img 3) 63 32)
                         saff := BitVec.ofNat 32 (wbits (wordAt (nth l.secs p2.sec {}).record 3) 63 32)
                         cfgt := p2.cfgt, index := c, anchor := p2.anchor, rh := p2.rh, rw := p2.rw }
    (regionRanks p2).foldl (fun s r => updClus s r fun x => { x with resid := some tag }) s2
  else clearResid s2 p2

end Sys2Proof.Machine
end

