-- ==== Sys2Proof/Machine/Trees.lean ====
section
/-!
DEFINITION. Machine/Trees.lean: the controller tree, its words and its leaves (R58 to R60, R161 to R167, R373, R374), the
configuration words and clear (R131 to R133), the sequencer (R244).
-/
namespace Sys2Proof.Machine

/-! ## Declaration (R59, R164 to R166) -/

def nodeAt (t : Tree) (i : Nat) : Node := nth t.nodes i {}
def setNode (t : Tree) (i : Nat) (f : Node → Node) : Tree := { t with nodes := t.nodes.set i (f (nodeAt t i)) }
/-- Children of node i, in order. -/
def childrenOf (t : Tree) (i : Nat) : List Nat := (List.range t.nodes.length).filter fun j => (nodeAt t j).parent == some i
def isLeafNode (n : Node) : Bool := match n.kind with | .leaf .. => true | _ => false

/-- May a node of rectangle q join under the innermost open node (R59)? -/
def joinOk (t : Tree) (q : Rect) (inner : Bool) : Bool :=
  decide (t.nodes.length < 64) && (!inner || decide (t.opened.length < 8)) &&
  (match t.opened with
   | [] => true
   | i :: _ => rectIn q (nodeAt t i).rect && decide ((childrenOf t i).length < 16))

/-- A tree whose leaves still run after it was stopped holds the next declaration (notes/assumptions/118.md, DESIGN CHOICE). -/
def treeBusy (p : Span) : Bool := p.tree.running && p.tree.opened.isEmpty

/-- The checks of step and grp.open before TREE: handler, rectangle, shape; and the state after the shape's reads. -/
def nodeChecks (s : State) (d : Word) (shp : Nat) : Except Stop (Rect × Option Shape × State) := do
  if s.cur.h ≠ 0 then throw (.trap (illegalT s) s.net)
  match rectOf (curSpan s) d with
  | none => throw (.trap (rejectT 0x19 0) s.net)
  | some q =>
    if shp = 63 then pure (q, none, s)
    else do
      let (x, s1) ← shapeOf s shp
      pure (q, some x, s1)

/-- A leaf joins the tree, or starts its own (R161, R164). -/
def stepWord (i : Instr) (nx : Nx) (sa : Reg) (keep : Bool) (c shp : Nat) (s : State) : Out :=
  let p := curSpan s
  let v := operands s sa 0 0
  endWord i nx v s
    (if s.cur.h ≠ 0 then .trap s (illegalT s)
     else if p.ncfg ≤ c ∧ keep = false then .trap s (rejectT 0x1B 0)
     else match nodeChecks s v.1 shp with
       | .error n => ofStop s n
       | .ok (_, none, _) => .trap s (rejectT 0x17 0)
       | .ok (q, some x, s) =>
         let leaf : Node := { parent := p.tree.opened.head?, kind := .leaf keep c, rect := q, shp := shp, shape := x }
         if p.tree.opened.isEmpty then
           if treeBusy p then .wait s 0
           else .hold (updSpan s s.cur.sp fun p => { p with tree := { nodes := [leaf], running := true } }) (.tree nx)
         else if !joinOk p.tree q false then .trap s (rejectT 0x18 0)
         else .done (updSpan s s.cur.sp fun p => { p with tree := { p.tree with nodes := p.tree.nodes ++ [leaf] } }) {})

def execStep (nx : Nx) (sa : Reg) (c : BitVec 8) (shp : BitVec 6) (s : State) : Out :=
  stepWord (.step nx sa c shp) nx sa false c.toNat shp.toNat s
def execStepKeep (nx : Nx) (sa : Reg) (shp : BitVec 6) (s : State) : Out :=
  stepWord (.stepKeep nx sa shp) nx sa true 0 shp.toNat s

/-- grp.open (R165). -/
def execGrpOpen (nx : Nx) (sa : Reg) (k : GKind) (shp : BitVec 6) (s : State) : Out :=
  let p := curSpan s
  let v := operands s sa 0 0
  endWord (.grpOpen nx sa k shp) nx v s
    (match nodeChecks s v.1 shp.toNat with
     | .error n => ofStop s n
     | .ok (q, x, s) =>
       let n := match x with | some x => shapeCount x | none => 1
       let kind := match k with | .chain => NKind.chain | .overlap d => .overlap (d.toNat + 1) | .gang => .gang
       if treeBusy p then .wait s 0
       else
         let t := if p.tree.opened.isEmpty then ({} : Tree) else p.tree
         if !joinOk t q true || (k == .gang && n != 1) then .trap s (rejectT 0x18 0)
         else
           let node : Node := { parent := t.opened.head?, kind := kind, rect := q, n := n, shp := shp.toNat }
           .done (updSpan s s.cur.sp fun p => { p with
             tree := { t with nodes := t.nodes ++ [node], opened := t.nodes.length :: t.opened } }) {})

/-! ## Leaves that may run at once (R102, R166) -/

/-- Ancestors of a node, itself first. -/
def ancestors (t : Tree) : Nat → Nat → List Nat
  | 0, _ => []
  | n + 1, i => i :: (match (nodeAt t i).parent with | some j => ancestors t n j | none => [])
/-- May leaves i and j run at once: their lowest common ancestor is a GANG, or an OVERLAP with a second iteration, which the first
child may begin while the others run (R163). -/
def concurrent (t : Tree) (i j : Nat) : Bool :=
  i != j && (match (ancestors t 70 i).find? fun a => (ancestors t 70 j).contains a with
    | some a => (match (nodeAt t a).kind with | .overlap d => decide (2 ≤ (nodeAt t a).n) && decide (2 ≤ d) | .gang => true | _ => false)
    | none => false)
/-- Fabric ports that the links of some tiles use: inputs as 0 to 31, outputs as 32 to 63. -/
def portsOf (s : State) (ts : List Nat) : List Nat :=
  ts.flatMap fun t =>
    let T := getTile s t
    consumerIds.flatMap fun c =>
      let code := srcOf T c
      (if 0x50 ≤ code ∧ code < 0x70 then [code - 0x50] else []) ++
      (if (c = 25 ∨ c = 27) ∧ code ≠ 0 ∧ cfgb T 15 (c + 1) 10 10 = 0 then [32 + cfgb T 15 (c + 1) 5 0] else [])
/-- The words of the full stream that a leaf of span sp names; none where its stream is partial, with KEEP, or where it cannot be read,
which the load of the leaf meets (R166, R167). -/
def leafWords (s : State) (sp : Nat) (n : Node) : Except Stop (Option (List Nat)) :=
  match n.kind with
  | .leaf false c => match readStream s (getSpan s sp) (.handler sp 0) c with
    | .ok ws => .ok (if isFullStream ws then some ws else none)
    | .error (.trap _ _) => .ok none
    | .error e => .error e
  | _ => .ok none
/-- The same of every node of a tree. -/
def treeWords (s : State) (sp : Nat) (t : Tree) : Except Stop (List (Option (List Nat))) := t.nodes.mapM (leafWords s sp)
/-- The ports of a leaf, by the routes on which it will run: those of its full stream `ws`, else those that stand (R166). -/
def leafPorts (s : State) (p : Span) (n : Node) (ws : Option (List Nat)) : List Nat :=
  portsOf (match ws with | some ws => (buildShadow s p n.rect ws).s | none => s) (rectTiles p n.rect)
/-- Do two leaves that may run at once use one port? -/
def portClash (s : State) (p : Span) (t : Tree) (ws : List (Option (List Nat))) : Bool :=
  let leaves := (List.range t.nodes.length).filter fun i => isLeafNode (nodeAt t i)
  let ports (i : Nat) := leafPorts s p (nodeAt t i) (nth ws i none)
  leaves.any fun i => leaves.any fun j => decide (i < j) && concurrent t i j && (ports i).any (ports j).contains

/-! ## Running a tree (R163) -/

/-- May node i start its next iteration? The root runs once. -/
def canStart (t : Tree) (i : Nat) : Bool :=
  let n := nodeAt t i
  !n.running && n.started == n.completed &&
  (match n.parent with
   | none => n.started == 0
   | some pi =>
     let p := nodeAt t pi
     let cs := childrenOf t pi
     let last := nodeAt t (cs.getLastD i)
     let first := cs.head? == some i
     let prev := nodeAt t (((cs.takeWhile (· != i)).getLast?).getD i)
     let it := n.started
     p.running && decide (it < p.n) &&
     (match p.kind with
      | .chain => if first then decide (it ≤ last.completed) else decide (it < prev.completed)
      | .overlap d => (first || decide (it < prev.completed)) && decide (it < last.completed + d)
      | _ => true))

/-- The iteration vector of a node that starts, innermost first (R162). -/
def iterVec (t : Tree) : Nat → Nat → List Nat
  | 0, _ => []
  | n + 1, i =>
    match (nodeAt t i).parent with
    | none => []
    | some p => (if (nodeAt t i).running then (nodeAt t i).started - 1 else (nodeAt t i).started) :: iterVec t n p

/-- Inner nodes start as soon as they may and complete when every child has completed its last iteration. -/
def advance : Nat → Tree → Tree
  | 0, t => t
  | n + 1, t =>
    let ids := List.range t.nodes.length
    match ids.find? fun i => !isLeafNode (nodeAt t i) && canStart t i && !t.stopped with
    | some i =>
      let t1 := setNode t i fun x => { x with running := true, started := x.started + 1 }
      advance n ((childrenOf t i).foldl (fun t j => setNode t j fun x => { x with started := 0, completed := 0 }) t1)
    | none =>
      match ids.find? fun i => !isLeafNode (nodeAt t i) && (nodeAt t i).running &&
          (childrenOf t i).all fun j => (nodeAt t j).completed == (nodeAt t i).n with
      | some i => advance n (setNode t i fun x => { x with running := false, completed := x.completed + 1 })
      | none => t
/-- Rounds that let every inner node move. -/
def advanceFuel (t : Tree) : Nat := 4 * t.nodes.length + 4

/-- grp.close (R166). -/
def execGrpClose (nx : Nx) (s : State) : Out :=
  let p := curSpan s
  let t := p.tree
  endWord (.grpClose nx) nx (0, 0, 0) s
    (if s.cur.h ≠ 0 then .trap s (illegalT s)
     else match t.opened with
       | [] => .trap s (rejectT 0x18 0)
       | i :: rest =>
         let cs := childrenOf t i
         let apart := match (nodeAt t i).kind with
           | .chain => true
           | _ => cs.all fun a => cs.all fun b => a == b || rectDisjoint (nodeAt t a).rect (nodeAt t b).rect
         if cs.isEmpty || !apart then .trap s (rejectT 0x18 0)
         else if rest.isEmpty then match treeWords s s.cur.sp t with
           | .error e => .need s e
           | .ok ws =>
             if portClash s p t ws then .trap s (rejectT 0x18 0)
             else
               let t1 := { t with opened := [], running := true, nodes := t.nodes.zipWith (fun n w => { n with full := w.isSome }) ws }
               .hold (dropReads (updSpan s s.cur.sp fun p => { p with tree := advance (advanceFuel t1) t1 }) s.cur.sp 0) (.tree nx)
         else .done (updSpan s s.cur.sp fun p => { p with tree := { t with opened := rest } }) {})

/-- The tree stops with a trap at the word that started it (R167); running leaves run on. Its declaration is discarded
(notes/assumptions/117.md, DESIGN CHOICE): the spec does not say whether a word that is issued again finds it, and a grp.close that is finds
no open node and traps TREE. -/
def stopTree (s : State) (sp : Nat) (t : Trp) : State :=
  let p := getSpan s sp
  let leaves := p.tree.nodes.any fun n => isLeafNode n && n.running
  let s1 := updSpan s sp fun p => { p with tree := if leaves then { p.tree with stopped := true } else {} }
  raiseTrapFull s1 { cause := t.1, tval := t.2, pc := (getH s sp 0).pc, h := 0 } sp

/-! ## Configuration words (R131, R132) -/

/-- cfg.load and cfg.part (R132): the word reads descriptor c and goes on until CONFIG_COMMIT. -/
def cfgWord (i : Instr) (nx : Nx) (sa : Reg) (c : Nat) (full : Bool) (s : State) : Out :=
  let p := curSpan s
  let v := operands s sa 0 0
  endWord i nx v s
    (if p.ncfg ≤ c then .trap s (rejectT 0x1B 0)
     else match rectOf p v.1 with
       | none => .trap s (rejectT 0x19 0)
       | some _ => match readDesc s p (curPort s) c with
         | .error n => ofStop s n
         | .ok (q, len) => .hold s (.cfg nx full v.1 c q len))

def execCfgLoad (nx : Nx) (sa : Reg) (c : BitVec 8) (s : State) : Out := cfgWord (.cfgLoad nx sa c) nx sa c.toNat true s
def execCfgPart (nx : Nx) (sa : Reg) (c : BitVec 8) (s : State) : Out := cfgWord (.cfgPart nx sa c) nx sa c.toNat false s

/-! ## clear (R122, R133) -/

/-- Cycles that clearing the classes takes (R122): .state, .acc, .mem, .cfg. -/
def clearCost (cl : BitVec 4) : Nat :=
  (if cl.getLsbD 0 then 32 else 0) + (if cl.getLsbD 1 then 2048 else 0) + (if cl.getLsbD 2 then 4096 else 0)
    + (if cl.getLsbD 3 then 16 else 0)

/-- Clear classes of one tile (R122). -/
def clearTile (cl : BitVec 4) (s : State) (t : Nat) : State :=
  let s1 := if cl.getLsbD 0 then updTile s t fun T => { T with
      bufs := [], waits := [], full := [], aptr := 0, bptr := 0
      elems := T.elems.map fun x => (x.1, { x.2 with age := 0 })
      cfg := T.wasCfg.foldl (fun g x => tset g x.1 x.2 0) T.cfg, wasCfg := [], cpl := [] } else s
  let s2 := if cl.getLsbD 1 then zeroAcc s1 t else s1
  let s3 := if cl.getLsbD 2 then homeZero (updTile s2 t fun T => { T with full := [] }) (keyTile t 0) (2 ^ 18) else s2
  if cl.getLsbD 3 then updTile s3 t fun T => { T with cfg := [], wasCfg := [], last := none, cpl := [] } else s3

/-- Every ring slot EMPTY (R301). -/
def emptySlots (y : Sys) : Sys :=
  let n := y.slots.length
  { y with head := 0, tail := 0, momM := 0, momE := 0
           slots := (y.slots.zip (List.range n)).map fun x =>
             { x.1 with st := if x.1.st = 3 then 3 else 0, int := false } }

/-- Clear classes of a rectangle of a span. -/
def clearRect (s : State) (sp : Nat) (q : Rect) (cl : BitVec 4) : State :=
  let p := getSpan s sp
  let s1 := (rectTiles p q).foldl (clearTile cl) s
  let hits := (rectTiles p q).any fun t => p.sys.on && (rectTiles p p.sys.rect).contains t
  let s2 := if cl.getLsbD 1 && hits then updSys ((rectTiles p p.sys.rect).foldl zeroAcc s1) sp emptySlots else s1
  if cl.getLsbD 3 then clearResid s2 p else s2

/-- clear (R133). -/
def execClear (nx : Nx) (sa : Reg) (classes : BitVec 4) (s : State) : Out :=
  let p := curSpan s
  let d := reg s sa
  endWord (.clear nx sa classes) nx (0, 0, 0) s
    (match rectOf p d with
     | none => .trap s (rejectT 0x19 0)
     | some q =>
       if classes.getLsbD 3 ∧ d ≠ 0 then .trap s (rejectT 0x19 0)
       else .hold s (.clear nx d classes (if rectBusy s p q then 0 else now s + clearCost classes)))

/-- Does the range of n bytes at pointer q touch one of the tiles? -/
def touchesTiles (ts : List Nat) (q : Word) (n : Nat) : Bool :=
  match keyOf q with
  | some k => decide (2 ^ 48 ≤ k) && decide (k < 2 ^ 49) && ts.any fun t => decide (keyTile t 0 < k + n) && decide (k < keyTile t 0 + 2 ^ 18)
  | none => false
/-- Has the span an earlier access of the cleared state of the rectangle still to perform (R133): an access of a port, an element
of a job, a command of the array or the epilogue? -/
def rectAccess (s : State) (sp : Nat) (q : Rect) : Bool :=
  let p := getSpan s sp
  let ts := rectTiles p q
  (s.net.acc.any fun a => portSpan s a.port == sp && (match a.key with
    | some k => decide (2 ^ 48 ≤ k) && decide (k < 2 ^ 49) && ts.contains ((k - 2 ^ 48) / 2 ^ 18)
    | none => false)) ||
  (p.streams.any fun x => x.2.jobs.any fun j => j.flight.any fun f =>
    match tfind j.ptrs f.1 with
    | some (a, b) => touchesTiles ts a (wbits (nth j.desc 3 0) 16 0) || touchesTiles ts b (wbits (nth j.desc 3 0) 16 0)
    | none => false) ||
  (p.sys.on && (rectTiles p p.sys.rect).any ts.contains && !(p.sys.arr.isEmpty && p.sys.epi.isEmpty))

/-- CLEAR_COMPLETE (R133): the clear begins once no phase runs on the rectangle and ends after its cycles, when every earlier
access of the span to it has performed. -/
def execClearComplete (sp h : Nat) (s : State) : Out :=
  let p := getSpan s sp
  let x := getH s sp h
  match x.op with
  | some (.clear nx d cl due) =>
    let q := (rectOf p d).getD (wholeRect p)
    if due = 0 then
      .next (if rectBusy s p q then s else updH s sp h fun x => { x with op := some (.clear nx d cl (now s + clearCost cl)) })
    else if now s < due ∨ rectAccess s sp q = true then .next s
    else .next (landWord (clearRect s sp q cl) sp h x.pc (now s) {} nx)
  | _ => .next s

/-! ## Leaves (R146, R162, R203, R257, R374) -/

/-- Does every tile of a leaf's rectangle hold its configuration as the last committed (R162)? -/
def holdsConfig (s : State) (p : Span) (n : Node) : Bool :=
  match n.kind with
  | .leaf true _ => true
  | .leaf false c => (rectTiles p n.rect).all fun t => (getTile s t).last == some c
  | _ => true

/-- Does some sequencer of the rectangle select a dimension the shape lacks (R244)? -/
def selBad (s : State) (p : Span) (n : Node) : Bool :=
  (rectTiles p n.rect).any fun t =>
    let T := getTile s t
    (List.range 4).any fun k => cfgb T 10 k 11 11 == 1 && decide (1 ≤ cfgb T 10 k 10 8) && decide (cfgb T 10 k 10 8 ≤ 4) &&
      decide (n.shape.ext.length < cfgb T 10 k 10 8)

/-- Ports of a tile that carry an order in deterministic mode. -/
def tilePorts (t : Nat) : List PortId := .matrix t :: (List.range 8).map (.slot t)

/-- The tiles of a leaf begin the phase: sequencers, slots, selectors and couplers (R162, R174, R181, R203); no slot contends
before the next cycle. -/
def startTile (sp n : Nat) (T : Tile) : Tile :=
  { T with leaf := some (sp, n), rot := 7, elems := [], seen := some []
           cpl := T.cpl.map fun x => (x.1, { x.2 with nupd := 0, timer := 0, uper := none, upd := false, occ := none }) }
/-- Is fabric input port n the target of the end-of-transfer tokens of a stream or job of the span, so that a leaf that uses it
receives no stream words there (R261)? -/
def tokenPort (p : Span) (n : Nat) : Bool :=
  let aims (w : Word) : Bool := isSet w.toNat 14 && wbits w 13 8 == n
  p.streams.any fun x => (x.2.st != .free && x.2.kind ≤ 4 && x.2.tok && aims (sDesc x.2 6)) || x.2.jobs.any fun j => j.tok && aims (nth j.desc 4 0)

/-- LEAF_START (R162): a leaf whose turn has come, whose configuration stands and whose tiles are idle starts its phase. -/
def execLeafStart (sp n : Nat) (s : State) : Out :=
  let p := getSpan s sp
  let t := p.tree
  let x := nodeAt t n
  let ports := portsOf s (rectTiles p x.rect)
  let mine (y : Nat × Stream) : Bool := decide (y.2.kind ≤ 1) && y.2.st != .free && ports.contains (32 * y.2.kind + y.2.port) &&
    !(y.2.kind == 0 && tokenPort p y.2.port)
  let h0 := s.net.acc.any fun a => a.port == .handler sp 0 && isWrite a.kind
  if !(flows p && t.running && t.opened.isEmpty && !t.stopped && decide (n < t.nodes.length) && isLeafNode x && canStart t n && holdsConfig s p x &&
      !rectBusy s p x.rect && !h0 && p.streams.all (fun y => !mine y || !y.2.pass)) then .next s
  else if selBad s p x then .next (stopTree s sp (rejectT 0x04 0))
  else match (if x.full then .ok [] else treeWords s sp t) with
  | .error e => .next (askFor s (.handler sp 0) e)
  | .ok ws =>
    if !x.full && (List.range t.nodes.length).any (fun j => isLeafNode (nodeAt t j) && concurrent t n j &&
        (leafPorts s p (nodeAt t j) (nth ws j none)).any ports.contains) then .next (stopTree s sp (rejectT 0x18 0)) else
    let s := if x.full then s else dropReads s sp 0
    let it := iterVec t 70 n
    let ph := p.phases
    let s1 := updSpan s sp fun p => { p with
      phases := ph + 1
      tree := setNode t n fun x => { x with
        running := true, started := x.started + 1, iters := it, seq := [], epiMark := [], csrs := sampleCsrs p, phase := ph } }
    let s2 := (rectTiles p x.rect).foldl (fun s u => updTile s u (startTile sp n)) s1
    let s3 := (p.streams.filter mine).foldl (fun s y => startPass s sp y.1 n ph it) s2
    let unbound := (ports.filter fun y => decide (y < 32) && !(p.streams.any fun z => mine z && z.2.kind == 0 && z.2.port == y)).eraseDups
    let dry := ports.filter fun y => decide (32 ≤ y) && !(p.streams.any fun z => mine z && z.2.kind == 1 && 32 + z.2.port == y)
    let s4 := updSpan s3 sp fun p => { p with
      fiDrain := p.fiDrain ++ unbound
      fo := dry.foldl (fun f y => tdel f (y - 32)) p.fo
      foWaits := dry.foldl (fun f y => tdel f (y - 32)) p.foWaits }
    .next (if p.det then
      ((rectTiles p x.rect).flatMap tilePorts ++ (p.streams.filter mine).map (fun y => PortId.stream sp y.1)).foldl (fun (s : State) (q : PortId) =>
        seePhases (orderPorts s (PortId.handler sp 0).num q.num) sp q.num (some ph)) s4 else s4)

/-- The number of positions of a leaf's shape. -/
def leafCount (n : Node) : Nat := shapeCount n.shape

/-- The word output k of the sequencer emits at position q (R244). -/
def seqToken (T : Tile) (x : Node) (q k : Nat) : Token :=
  if shapeMasked x.shape q then .empty
  else
    let sel := cfgb T 10 k 10 8
    let w := fmtWidth (cfgb T 10 (4 + k) 5 0)
    let v := if sel = 0 then x.runs * leafCount x + q else if sel ≤ 4 then nth (shapeIdx x.shape q) (sel - 1) 0 else 0
    .word (BitVec.ofNat 512 (v % 2 ^ w))

/-- SEQUENCER_EMIT (R162, R244, R312): the tile's sequencer emits one position on its outputs; after the last, the drain
token; then the epilogue output's drain token, once no epilogue command is left. -/
def execSequencerEmit (t : Nat) (s : State) : Out :=
  let T := getTile s t
  match T.leaf with
  | none => .next s
  | some (sp, n) =>
    let p := getSpan s sp
    let x := nodeAt p.tree n
    let q := tget x.seq t 0
    let total := leafCount x
    let outs := (List.range 4).filter fun k => cfgb T 10 k 11 11 == 1
    let step (s : State) : State := updSpan s sp fun p => { p with tree := setNode p.tree n fun x => { x with
      seq := tput x.seq t (q + 1), epiMark := if q + 1 = total then tput x.epiMark t p.sys.epiQ else x.epiMark } }
    if !(p.live && !p.frozen && !p.ended && !p.saved) then .next s
    else if q ≤ total then
      if outs.all fun k => canEmit s sp t (0x38 + k) then
        .next (step (outs.foldl (fun s k => emit s sp t (0x38 + k) (if q = total then .drain else seqToken T x q k)) s))
      else .next s
    else if q = total + 1 then
      let epi := p.sys.on && (rectTiles p p.sys.rect).contains t &&
        (decide (p.sys.epiD < tget x.epiMark t 0) || (p.sys.auto && p.isMatrix && decide (p.sys.emitted < p.tcnt)))
      if epi || !canEmit s sp t 0x40 then .next s else .next (step (emit s sp t 0x40 .drain))
    else .next s

/-- Has the drain token passed every element in use on a tile (R162)? -/
def tileDrained (s : State) (x : Node) (t : Nat) : Bool :=
  let T := getTile s t
  decide (leafCount x + 2 ≤ tget x.seq t 0) &&
  ((List.range 8).all fun e => sOpc T e == 0 || ((tget T.elems e {}).drained && (tget T.elems e {}).discard.isEmpty)) &&
  ((List.range 16).all fun k => (tget T.bufs (32 + k) []).isEmpty) &&
  (tget T.bufs 25 []).isEmpty && (tget T.bufs 27 []).isEmpty && !(tget T.bufs 24 []).contains .drain

/-- LEAF_DRAIN_COMPLETE (R162, R163): the phase completes and PHASE rises; the tree moves on, or, after the count of a matrix section has
expired, the span ends (R312). -/
def execLeafDrainComplete (sp n : Nat) (s : State) : Out :=
  let p := getSpan s sp
  let x := nodeAt p.tree n
  if !(p.live && !p.frozen && !p.ended && !p.saved && x.running && isLeafNode x && (rectTiles p x.rect).all (tileDrained s x)) then
    .next s
  else
    let s1 := (rectTiles p x.rect).foldl (fun s t => updTile s t fun T => { T with leaf := none }) s
    let s2 := if p.det then
      ((rectTiles p x.rect).flatMap tilePorts).foldl (fun s q => publish s q.num (objPhase sp x.phase)) s1 else s1
    let t1 := setNode p.tree n fun x => { x with running := false, completed := x.completed + 1, runs := x.runs + 1 }
    let ended := p.tree.stopped && !(t1.nodes.any fun y => isLeafNode y && y.running)
    let s3 := updSpan s2 sp fun p => { p with
      phase := p.phase + 1, phaseEnd := tput p.phaseEnd x.phase p.phases
      tree := if ended then {} else advance (advanceFuel t1) t1 }
    .next (countEnd (treeEnd s3 sp) sp)

end Sys2Proof.Machine
end

