-- ==== Sys2Proof/Machine/Attention.lean ====
section
/-!
DEFINITION. Machine/Attention.lean: the attention words and the steps of the attention units (R322 to R337). The reads and
writes of these words, and of the token words, are acquires and releases (R333, R345).
-/
namespace Sys2Proof.Machine

/-! ## Reads and writes that carry an order (R333, R345) -/

/-- The pieces of a resolved range: home address, distance from the start, bytes; one for each line. -/
def linePieces (rs : List (Nat × Nat)) : List (Nat × Nat × Nat) :=
  (rs.foldl (fun (a : List (Nat × Nat × Nat) × Nat) r =>
    (a.1 ++ (cutAt 64 r.1 r.2).map (fun x => (x.1, a.2 + (x.1 - r.1), x.2)), a.2 + r.2)) ([], 0)).1

/-- One acquire read of n bytes at home k, of pointer p. -/
def acqLine (s : State) (port : PortId) (p : Word) (k n : Nat) : Except Stop (List Byte × State) :=
  if 2 ^ 80 ≤ k then .ok (ctlBytes s (k - 2 ^ 80) n, s)
  else if isPoison s k n then .error (.trap (.ue, p) s.net)
  else
    match detStep s port k n false none with
    | none => .error (.trap (.conflict, p) s.net)
    | some s1 => .ok (readN s1.mem k n, acquire s1 port.num k n)
/-- One release write; that of a part of a CONTROL word is made at its unit (R446). -/
def relLine (s : State) (port : PortId) (p : Word) (k : Nat) (bs : List Byte) : Except (Stop × State) State :=
  if 2 ^ 80 ≤ k then
    let off := k - 2 ^ 80
    match ctlStore s (portTenant s port) (off / 8 * 8) (off % 8) bs.length (fun _ => ofBytes bs) true with
    | some s1 => .ok (if unitOf off = 0 then publish s1 port.num (objEntry (entryKey off)) else s1)
    | none => .error (.trap (.protection, p) s.net, s)
  else match detStep s port k bs.length true none with
    | none => .error (.trap (.conflict, p) s.net, s)
    | some s1 =>
      let (s2, bad) := homeWrite s1 k bs
      if bad then .error (.trap (.ueMerge, p) s2.net, s2)
      else .ok (digAdd (release s2 port k bs.length) (portSpan s port) p k bs.length)
def acqPieces (port : PortId) (p : Word) : List (Nat × Nat × Nat) → State → Except Stop (List Byte × State)
  | [], s => .ok ([], s)
  | x :: l, s =>
    match acqLine s port (ptrPlus p x.2.1) x.1 x.2.2 with
    | .error t => .error t
    | .ok (b, s1) =>
      match acqPieces port p l s1 with
      | .error t => .error t
      | .ok (c, s2) => .ok (b ++ c, s2)
def relPieces (port : PortId) (p : Word) (bs : List Byte) : List (Nat × Nat × Nat) → State → Except (Stop × State) State
  | [], s => .ok s
  | x :: l, s =>
    match relLine s port (ptrPlus p x.2.1) x.1 ((bs.drop x.2.1).take x.2.2) with
    | .error t => .error t
    | .ok s1 => relPieces port p bs l s1

/-- Read n bytes at p through a port, line by line; what it has read from a peer already is there. -/
def acqReadAt (s : State) (port : PortId) (p : Word) (n al : Nat) : Except Stop (List Byte × State) :=
  match readBefore s port p n with
  | some bs => .ok (bs, s)
  | none =>
    match resolveAt s port (portTenant s port) p n al false with
    | .error t => .error t
    | .ok rs => acqPieces port p (linePieces rs) s
/-- Through the issuing handler's port. -/
def acqRead (s : State) (p : Word) (n al : Nat) : Except Stop (List Byte × State) := (acqReadAt s (curPort s) p n al).map (noteRead p)

/-- The accesses of a write of n bytes at p: one for each line, or for each word of CONTROL space (R345, R446). -/
def relCut (p : Word) (n : Nat) : List (Nat × Nat) := if pSpace p = 4 then ctlParts (pOff p) n else cutAt 64 (pOff p) n
/-- The homes of one of them; the first is aligned as the word asks. -/
def relHomes (s : State) (p : Word) (al : Nat) (x : Nat × Nat) : Except Stop (List (Nat × Nat)) :=
  resolveAt s (curPort s) (curTenant s) (withOff p x.1) x.2 (if x.1 = pOff p then al else 1) true
/-- They perform in ascending order, each once its checks are passed. -/
def relLines (p : Word) (al : Nat) : List (Nat × Nat) → List Byte → State → Except (Stop × State) State
  | [], _, s => .ok s
  | x :: l, bs, s =>
    match relHomes s p al x with
    | .error t => .error (t, s)
    | .ok rs =>
      match relPieces (curPort s) (withOff p x.1) (bs.take x.2) (linePieces rs) s with
      | .error t => .error t
      | .ok s1 => relLines p al l (bs.drop x.2) s1
/-- What a write must have before its first access performs: the translations of its pages, up to one that faults; or it goes to a
peer. -/
def relNeeds (s : State) (p : Word) (n al : Nat) : Option Stop :=
  match (relCut p n).findSome? (fun x => match relHomes s p al x with | .error e => some e | .ok _ => none) with
  | some (.trap _ _) => none
  | e => e
/-- Write bytes at p through the issuing handler's port; a trap leaves the lines already written (R345). -/
def relWrite (s : State) (p : Word) (bs : List Byte) (al : Nat) : Except (Stop × State) State :=
  match relNeeds s p bs.length al with
  | some e => .error (e, s)
  | none => relLines p al (relCut p bs.length) bs s
/-- The end of a word that writes all or, where it traps, nothing (R334, R335); s is the state after its reads. -/
def allOrNone (s : State) (w : Writes) : Except (Stop × State) State → WRes
  | .ok s => .done s w
  | .error (.trap t _, _) => .trap s t
  | .error (n, _) => .need s n
/-- The end of a word whose last act, on state s, is to write bytes at p; `s0` is the state before the word. -/
def storeWord (s0 s : State) (p : Word) (bs : List Byte) (al : Nat) (w : Writes) : WRes :=
  match relWrite s p bs al with
  | .ok s1 => .done s1 w
  | .error (.trap t _, s1) => .trap s1 t
  | .error (.peer .., s1) => .put s1 p bs w
  | .error (n, _) => .need s0 n

/-! ## Codebooks and query tables (R322 to R325) -/

/-- A BASE pointer into a stack. -/
def basePtr (stack off : Nat) : Word := mkPtr 3 0 (stack * 2 ^ 25 + off)
/-- The stacks of a mask. -/
def stacksOf (mask : Nat) : List Nat := (List.range 12).filter fun k => isSet mask k
def setBytes (G : Nat) : Nat := 8192 * G
def lutBytes (G : Nat) : Nat := 1024 * G
/-- The first named stack on which the tenant has no window on some range. -/
def windowBad (s : State) (tn mask : Nat) (ranges : List (Nat × Nat)) : Option Trp :=
  ((stacksOf mask).flatMap fun k => ranges.map fun r => (k, r)).findSome? fun x =>
    if inWindow s (· == tn) true (x.1 * 2 ^ 25 + x.2.1) x.2.2 then none else some (.protection, basePtr x.1 x.2.1)
/-- A little-endian number of n bytes of a home. -/
def leAt (s : State) (k n : Nat) : Nat := ofBytes (readN s.mem k n)
/-- Element k of entry c of the codebook of group g on a side, of a set at home address `set` (R323). -/
def cbAt (s : State) (set G side g c k : Nat) : XV := dec fBf16 (leAt s (set + 4096 * (side * G + g) + 16 * c + 2 * k) 2)
/-- vexp2 (R208), rounded to fp32. -/
def exp2r (x : XV) : XV := r32 x.exp2
/-- An fp32 pattern. -/
def p32 (x : XV) : Nat := rne fFp32 x

/-- A LUT entry (R325). -/
def lutEntry (s : State) (set G : Nat) (q : Nat → XV) (g c : Nat) : Nat :=
  p32 (exactSum ((List.range 8).map fun k => (q (8 * g + k)).mul (cbAt s set G 0 g c k)))
/-- The bytes of a LUT. -/
def lutOf (s : State) (set G : Nat) (q : Nat → XV) : List Byte :=
  (List.range G).flatMap fun g => (List.range 256).flatMap fun c => toBytes 4 (lutEntry s set G q g c)

/-- Pieces of a BASE range of a stack, and reading or writing it through the issuing handler's port. -/
def baseRead (s : State) (port : PortId) (stack off n : Nat) : Except Stop (List Byte × State) :=
  acqPieces port (basePtr stack off) (linePieces [(keyBase (stack * 2 ^ 25 + off), n)]) s
def baseWrite (s : State) (port : PortId) (stack off : Nat) (bs : List Byte) : Except (Stop × State) State :=
  relPieces port (basePtr stack off) bs (linePieces [(keyBase (stack * 2 ^ 25 + off), bs.length)]) s
/-- A copy for each stack. -/
def baseWrites (port : PortId) (off : Nat) (f : Nat → List Byte) : List Nat → State → Except (Stop × State) State
  | [], s => .ok s
  | k :: l, s =>
    match baseWrite s port k off (f k) with
    | .error t => .error t
    | .ok s1 => baseWrites port off f l s1

/-- cbk (R334). -/
def execCbk (nx : Nx) (sd sa sb : Reg) (lg : BitVec 3) (mask : BitVec 12) (s : State) : Out :=
  let v := operands s sa sb 0
  let n := setBytes (2 ^ lg.toNat)
  let src := v.1
  let dst := v.2.1
  let off := pOff dst
  endWord (.cbk nx sd sa sb lg mask) nx v s
    (if pSpace dst ≠ 3 ∨ pRank dst ≠ 0 ∨ 2 ^ 25 ≤ off ∨ 2 ^ 25 < off + n then .trap s (.ptrSpace, dst)
     else if pOff src % 64 ≠ 0 then .trap s (.align, src)
     else if off % 4096 ≠ 0 then .trap s (.align, dst)
     else match windowBad s (curTenant s) mask.toNat [(off, n)] with
       | some t => .trap s t
       | none =>
         match acqRead s src n 64 with
         | .error t => ofStop s t
         | .ok (bs, s1) => allOrNone s1 (wr1 sd (wd n)) (baseWrites (curPort s) off (fun _ => bs) (stacksOf mask.toNat) s1))

/-- Read the key codebooks of each stack, for their faults and their order. -/
def readSets (port : PortId) (off n : Nat) : List Nat → State → Except Stop State
  | [], s => .ok s
  | k :: l, s =>
    match baseRead s port k off n with
    | .error t => .error t
    | .ok (_, s1) => readSets port off n l s1

/-- att.q (R335). -/
def execAttQ (nx : Nx) (sd sa sb : Reg) (lg : BitVec 3) (mask : BitVec 12) (s : State) : Out :=
  let v := operands s sa sb 0
  let G := 2 ^ lg.toNat
  let q := v.1
  let lut := wbits v.2.1 56 32
  let set := wbits v.2.1 24 0
  let ks := stacksOf mask.toNat
  endWord (.attQ nx sd sa sb lg mask) nx v s
    (if wbits v.2.1 63 57 ≠ 0 ∨ wbits v.2.1 31 25 ≠ 0 then .trap s (rejectT 0x04 0)
     else if lut % 4096 ≠ 0 ∨ 2 ^ 25 < lut + lutBytes G then .trap s (.ptrSpace, basePtr 0 lut)
     else if set % 4096 ≠ 0 ∨ 2 ^ 25 < set + setBytes G then .trap s (.ptrSpace, basePtr 0 set)
     else if pOff q % 64 ≠ 0 then .trap s (.align, q)
     else match windowBad s (curTenant s) mask.toNat [(lut, lutBytes G), (set, setBytes G)] with
       | some t => .trap s t
       | none =>
         match acqRead s q (32 * G) 64 with
         | .error t => ofStop s t
         | .ok (bs, s1) =>
           match readSets (curPort s) set (4096 * G) ks s1 with
           | .error t => ofStop s t
           | .ok s2 =>
             let qv (ch : Nat) : XV := d32 (ofBytes ((bs.drop (4 * ch)).take 4))
             let table (k : Nat) : List Byte := lutOf s2 (keyBase (k * 2 ^ 25 + set)) G qv
             allOrNone s2 (wr1 sd 0) (baseWrites (curPort s) lut table ks s2))

/-! ## Run descriptors (R328) -/

/-- The lowest word of a descriptor or mask that breaks R328. -/
def runBad (d : List Word) (mask : Word) : Option Nat :=
  if aNp d = 0 ∨ 64 < aNp d ∨ wbits (aW d 1) 7 3 ≠ 0 ∨ aLg d = 0 ∨ aLg d = 7 ∨ (aNp d < 64 ∧ mask.toNat / 2 ^ aNp d ≠ 0) then some 1
  else if wbits (aW d 2) 63 25 ≠ 0 then some 2
  else if wbits (aW d 3) 63 25 ≠ 0 then some 3
  else if wbits (aW d 5) 63 12 ≠ 0 then some 5
  else if aW d 7 ≠ 0 then some 7
  else none

/-- The checks of att.run on the descriptor's pointers (R336). The windows of the LUT and the codebooks are checked as every access is
(R48), when a page of their stack is read. -/
def runPtrs (s : State) (d : List Word) : Option Trp :=
  let G := aG d
  let tri := aW d 4
  if !(pSpace (aW d 0) == 0 && ptrOk (aW d 0) (65536 * (aP0 d + aNp d))) then some (.ptrSpace, aW d 0)
  else if !((pSpace tri == 1 || pSpace tri == 2) && ptrOk tri (aNp d * recBytes d)) then some (.ptrSpace, tri)
  else if 2 ^ 25 < aCbk d + setBytes G then some (.ptrSpace, basePtr 0 (aCbk d))
  else if 2 ^ 25 < aLut d + lutBytes G then some (.ptrSpace, basePtr 0 (aLut d))
  else if pOff (aW d 0) % 65536 ≠ 0 then some (.align, aW d 0)
  else if pOff tri % 64 ≠ 0 then some (.align, tri)
  else if aCbk d % 4096 ≠ 0 then some (.align, basePtr 0 (aCbk d))
  else if aLut d % 4096 ≠ 0 then some (.align, basePtr 0 (aLut d))
  else if !ownsOk s (curTenant s) tri (aNp d * recBytes d) true then some (.protection, tri)
  else none

/-- att.run (R336): the checks; the units then run its pages. Its descriptor is read with acquire, as R333 lists it. -/
def execAttRun (nx : Nx) (sd sa sb : Reg) (s : State) : Out :=
  let v := operands s sa sb 0
  let mask := v.2.1
  endWord (.attRun nx sd sa sb) nx v s
    (match acqRead s v.1 64 8 with
     | .error t => ofStop s t
     | .ok (bs, s1) =>
       let d := wordsOf 8 bs
       match runBad d mask with
       | some i => .trap s1 (rejectT 0x04 i)
       | none =>
         match runPtrs s d with
         | some t => .trap s1 t
         | none =>
           .hold (updH s1 s.cur.sp s.cur.h fun x => { x with
             attDesc := d, attTodo := (List.range (aNp d)).filter (isSet mask.toNat ·), attHeld := [], attSeq := [], attAbsent := []
             attRetry := false, attBmp := 0, attFault := [] }) (.att nx sd))

/-! ## One page (R326, R327) -/

/-- The triple of a page from its index bytes, a LUT, a value codebook: m, l, and a by channel. -/
def pageTriple (G n : Nat) (idx : Nat → Nat) (lut : Nat → Nat → XV) (cb : Nat → Nat → Nat → XV) : XV × XV × List XV :=
  if n = 0 then (.inf true, .zero, (List.range (8 * G)).map fun _ => .zero)
  else
    let V := List.range n
    let sc := V.map fun t => treeSum fFp32 ((List.range G).map fun g => lut g (idx (t * G + g)))
    let m := sc.foldl XV.vmax (.inf true)
    let es := sc.map fun x => exp2r (r32 (x.add false m.neg))
    let l := treeSum fFp32 es
    let h (g c : Nat) : XV := (V.zip es).foldl (fun a x => if idx (32768 + x.1 * G + g) = c then r32 (a.add false x.2) else a) .zero
    (m, l, (List.range G).flatMap fun g =>
      let hs := (List.range 256).map (h g)
      (List.range 8).map fun k => r32 (exactSum ((List.range 256).map fun c => (nth hs c .zero).mul (cb g c k))))

/-- The bytes of a record. -/
def recordOf (d : List Word) (i : Nat) (x : XV × XV × List XV) : List Byte :=
  toBytes 4 (p32 x.1) ++ toBytes 4 (p32 x.2.1) ++ toBytes 4 (nValid d i) ++ toBytes 4 (aP0 d + i) ++
  List.replicate 48 0 ++ x.2.2.flatMap fun a => toBytes 4 (p32 a)

/-! ## The units (R329 to R333) -/

/-- May an attention page of the handler start? -/
def attRuns (s : State) (sp h : Nat) : Bool :=
  let p := getSpan s sp
  p.live && !p.frozen && !p.ended && !p.saved &&
  (match (getH s sp h).op with | some (.att ..) => true | _ => false)

/-- The record of page i is written through the handler's port. A line that conflicts is not written and the word traps; what it has
written stays (R394). -/
def attRecord (s : State) (sp h i : Nat) (x : XV × XV × List XV) : State :=
  let d := (getH s sp h).attDesc
  let p := recPtr d i
  let bs := recordOf d i x
  match relPieces (.handler sp h) p bs (linePieces [((keyOf p).getD 0, bs.length)]) s with
  | .ok s1 => attOver s1 sp h i true none
  | .error (.trap t _, s1) => if t.1 = .conflict then attOver s1 sp h i false (some t) else attLeave s1 sp h i (some t)
  | .error (_, s1) => s1

/-- The page at home address `a` is read, with the LUT and the codebooks of its stack, and its record is written; a conflict
freezes the span (R394). -/
def attBody (s : State) (sp h i a : Nat) : State :=
  let d := (getH s sp h).attDesc
  let port := PortId.handler sp h
  let G := aG d
  let k := a / 2 ^ 36
  let reads : Except Stop State := do
    match windowBad s (getSpan s sp).tenant.toNat (2 ^ k) [(aLut d, lutBytes G), (aCbk d, setBytes G)] with
    | some t => throw (.trap t s.net)
    | none => pure ()
    let (_, s1) ← acqPieces port (pagePtr d i) (linePieces [(a, 65536)]) s
    let (_, s2) ← baseRead s1 port k (aLut d) (lutBytes G)
    let (_, s3) ← baseRead s2 port k (aCbk d) (setBytes G)
    pure s3
  match reads with
  | .ok s1 =>
    let idx (o : Nat) : Nat := (read1 s1.mem (a + o)).toNat
    let lut (g c : Nat) : XV := d32 (leAt s1 (keyBase (k * 2 ^ 25 + aLut d) + 1024 * g + 4 * c) 4)
    attRecord s1 sp h i (pageTriple G (nValid d i) idx lut (cbAt s1 (keyBase (k * 2 ^ 25 + aCbk d)) G 1))
  | .error (.trap t net) =>
    let s := { s with net := net }
    if t.1 = .conflict then
      fabricFault s sp { cause := .conflict, tval := t.2, agent := 6, cbmp := (getH s sp h).attBmp }
    else attLeave s sp h i (some t)
  | .error _ => s

/-- Is a page held at home `a` the next of its stack: of the pages of all runs that may start, its translation completed first
(R333)? -/
def attNext (s : State) (sp h i a : Nat) : Bool :=
  let mine := tget (getH s sp h).attSeq i 0
  s.spans.all fun p => p.2.hs.all fun x => !attRuns s p.1 x.1 ||
    x.2.attHeld.all fun y => y.2 / 2 ^ 36 != a / 2 ^ 36 || decide (mine ≤ tget x.2.attSeq y.1 0)

/-- ATT_PAGE_ATTEND (R329, R333): the run asks for the walk of page i, or, once the page is held and the next of its stack, attends it; a
page with no valid token is neither translated nor read. -/
def execAttPageAttend (sp h i : Nat) (s : State) : Out :=
  let x := getH s sp h
  if !attRuns s sp h || !x.attTodo.contains i then .next s
  else if nValid x.attDesc i = 0 then
    .next (attRecord s sp h i (pageTriple (aG x.attDesc) 0 (fun _ => 0) (fun _ _ => .zero) (fun _ _ _ => .zero)))
  else match tfind x.attHeld i with
    | none => .next (attAsk s sp h i)
    | some a => .next (if attNext s sp h i a then attBody s sp h i a else s)

/-- ATT_PAGE_RETRY (R330): when every other page is over, the walk of the lowest absent page is asked for once more. -/
def execAttPageRetry (sp h i : Nat) (s : State) : Out :=
  let x := getH s sp h
  if !attRuns s sp h || !x.attTodo.isEmpty || !x.attAbsent.contains i || x.attAbsent.any (decide <| · < i) then .next s
  else .next (attAsk (updH s sp h fun x => { x with attRetry := true }) sp h i)

/-- The range a pending invalidation of a tenant covers (R252, R421). -/
def invRange (s : State) (tn : Nat) : Option (Nat × Nat) :=
  let w := tw s tn 6
  if isSet w.toNat 63 then
    let size := 2 ^ wbits w 5 0 * 65536
    some (wbits w 49 16 * 65536 / size * size, size)
  else none

/-- The 10 µs within which a unit finishes a page that an invalidation covers (R332), in cycles of 1.1 GHz (R6). -/
def attGrace : Nat := 11000
/-- Must page i be abandoned: it is held, and a pending invalidation that covers it arrived 10 µs ago (R332)? -/
def attDue (s : State) (sp h i : Nat) : Bool :=
  let x := getH s sp h
  let tn := (getSpan s sp).tenant.toNat
  (tfind x.attHeld i).isSome && decide (tget s.ctl.invAt tn 0 + attGrace ≤ now s) &&
  (match invRange s tn with
   | some r => meets (pOff (pagePtr x.attDesc i)) 65536 r.1 r.2
   | none => false)
/-- Page i is abandoned if it must be. -/
def attAbandon (s : State) (sp h i : Nat) : State := if attDue s sp h i then attOver s sp h i false none else s
/-- ATT_PAGE_ABANDON (R332): a page that its unit has not finished 10 µs after an invalidation that covers it is dropped, without
record, bit or retry. -/
def execAttPageAbandon (sp h i : Nat) (s : State) : Out := .next (attAbandon s sp h i)

/-- ATT_RUN_END (R336): CBMP takes the bitmap; the fault of the lowest faulted page traps, else the word completes. -/
def execAttRunEnd (sp h : Nat) (s : State) : Out :=
  let x := getH s sp h
  if !attRuns s sp h || !x.attTodo.isEmpty || !x.attAbsent.isEmpty then .next s
  else
    let s1 := writeCsr s sp h 0x24 x.attBmp
    let low := x.attFault.foldl (fun (m : Option (Nat × Trp)) y => match m with
      | none => some (y.1, y.2.1, y.2.2)
      | some z => if y.1 < z.1 then some (y.1, y.2.1, y.2.2) else some z) none
    match low, x.op with
    | some f, _ => .next (raiseTrapFull s1 { cause := f.2.1, tval := f.2.2, pc := x.pc, h := h, cbmp := x.attBmp } sp)
    | none, some (.att nx sd) => .next (landWord s1 sp h x.pc (now s) (wr1 sd x.attBmp) nx)
    | none, _ => .next s

/-! ## att.merge (R337) -/

/-- A record as att.merge reads it: m, l, a. -/
structure MRec where
  m : XV
  l : XV
  a : List XV

/-- One step of the merge. -/
def mergeStep (x r : MRec) : MRec :=
  let mx := x.m.vmax r.m
  let al := exp2r (r32 (x.m.add false mx.neg))
  let be := exp2r (r32 (r.m.add false mx.neg))
  let mix (u v : XV) : XV := r32 ((r32 (u.mul al)).add false (r32 (v.mul be)))
  { m := mx, l := mix x.l r.l, a := (x.a.zip r.a).map fun y => mix y.1 y.2 }

/-- Read the selected records that hold valid tokens. -/
def readRecs (d : List Word) : List Nat → State → Except Stop (List MRec × State)
  | [], s => .ok ([], s)
  | i :: l, s => do
    let (hd, s1) ← hRead s (recPtr d i) 64 64
    let f (bs : List Byte) (j : Nat) : Nat := ofBytes ((bs.drop (4 * j)).take 4)
    if f hd 2 = 0 then readRecs d l s1
    else
      let (bs, s2) ← hRead s1 (ptrPlus (recPtr d i) 64) (32 * aG d) 1
      let (rs, s3) ← readRecs d l s2
      pure ({ m := d32 (f hd 0), l := d32 (f hd 1), a := (List.range (8 * aG d)).map fun ch => d32 (f bs ch) } :: rs, s3)

/-- The output elements of the merged records. -/
def mergeOut (fmt n : Nat) : List MRec → List Nat
  | [] => List.replicate n 0
  | r :: rs =>
    let x := rs.foldl mergeStep r
    x.a.map fun y => rne fmt (y.div x.l)

/-- The checks on TRI and OUT. -/
def mergePtrs (s : State) (d : List Word) (n : Nat) : Option Trp :=
  let tri := aW d 4
  let out := aW d 6
  if !((pSpace tri == 1 || pSpace tri == 2) && ptrOk tri (aNp d * recBytes d)) then some (.ptrSpace, tri)
  else if !ptrOk out n then some (.ptrSpace, out)
  else if pOff tri % 64 ≠ 0 then some (.align, tri)
  else if pOff out % 64 ≠ 0 then some (.align, out)
  else if !ownsOk s (curTenant s) tri (aNp d * recBytes d) false then some (.protection, tri)
  else if !ownsOk s (curTenant s) out n true then some (.protection, out)
  else none

/-- att.merge (R337). -/
def execAttMerge (nx : Nx) (sd sa sb : Reg) (bf16 : Bool) (s : State) : Out :=
  let v := operands s sa sb 0
  let fmt := if bf16 then fBf16 else fFp32
  let w := if bf16 then 2 else 4
  endWord (.attMerge nx sd sa sb bf16) nx v s
    (match hRead s v.1 64 8 with
     | .error t => ofStop s t
     | .ok (bs, s1) =>
       let d := wordsOf 8 bs
       let n := 8 * aG d
       match runBad d v.2.1 with
       | some i => .trap s1 (rejectT 0x04 i)
       | none =>
         match mergePtrs s d (n * w) with
         | some t => .trap s1 t
         | none =>
           match readRecs d ((List.range (aNp d)).filter (isSet v.2.1.toNat ·)) s1 with
           | .error t => ofStop s t
           | .ok (rs, s2) => storeWord s s2 (aW d 6) ((mergeOut fmt n rs).flatMap (toBytes w)) 64 (wr1 sd (wd rs.length)))

end Sys2Proof.Machine
end

