-- ==== Sys2Proof/Machine/Elements.lean ====
section
/-!
DEFINITION. Machine/Elements.lean: readiness, tickets and the issue selector of a tile (R170 to R177, R182), the firing of
an element slot (R74, R198 to R206), drain tokens (R205).
-/
namespace Sys2Proof.Machine

/-! ## A slot and its operands -/

/-- A slot of a tile on which a leaf phase runs. -/
structure Ctx where
  s : State
  sp : Nat
  p : Span
  x : Node
  t : Nat
  T : Tile
  e : Nat
  el : Elem

/-- The context of slot e of tile t, if a phase runs there and its span moves (R170, R409). -/
def ctxOf (s : State) (t e : Nat) : Option Ctx :=
  let T := getTile s t
  match T.leaf with
  | none => none
  | some (sp, n) =>
    let p := getSpan s sp
    if p.live && !p.frozen && !p.ended && !p.saved && decide (e < 8) && sOpc T e != 0 then
      some { s := s, sp := sp, p := p, x := nodeAt p.tree n, t := t, T := T, e := e, el := tget T.elems e {} }
    else none

def Ctx.sub (c : Ctx) : Nat := sSub c.T c.e
def Ctx.imm (c : Ctx) : Nat := cfgImm c.T c.e
def Ctx.opc (c : Ctx) : Nat := sOpc c.T c.e
/-- The constant option (R201). -/
def Ctx.k (c : Ctx) : Bool := isSet c.sub 7
def Ctx.fmt (c : Ctx) (j : Nat) : Nat := inFmt c.T c.e j
def Ctx.lan (c : Ctx) (j : Nat) : Nat := inLan c.T c.e j
def Ctx.ofmt (c : Ctx) (o : Nat) : Nat := outFmt c.T c.e o
def Ctx.olan (c : Ctx) (o : Nat) : Nat := outLan c.T c.e o
def Ctx.rm (c : Ctx) : Rm := (Rm.of (sRm c.T c.e)).getD .rne
def Ctx.sat (c : Ctx) : Bool := sSat c.T c.e
/-- Head of input j. -/
def Ctx.head (c : Ctx) (j : Nat) : Option Token := headOf c.T (3 * c.e + j)
/-- Does a word or an empty token stand at the head of input j. -/
def Ctx.stands (c : Ctx) (j : Nat) : Bool :=
  match c.head j with
  | some .drain => false
  | some _ => true
  | none => false
/-- The rectangle of the configuration that configured the slot, and the tile's index in it. -/
def Ctx.rect (c : Ctx) : Rect := tget c.T.rects c.e {}
def Ctx.ti (c : Ctx) : Nat := tget c.T.ti c.e 0

/-- Participants of the slot's rnet group: (tile, slot), in ascending tile index (R223, R44). -/
def Ctx.group (c : Ctx) : List (Nat × Nat) :=
  let g := c.imm % 16
  (rectTiles c.p c.rect).filterMap fun t =>
    let T := getTile c.s t
    ((List.range 8).find? fun e => sOpc T e == 0x3A && cfgImm T e % 16 == g).map fun e => (t, e)
/-- Does the slot emit the group's results (R223)? -/
def Ctx.receives (c : Ctx) : Bool := c.opc != 0x3A || isSet c.sub 7 || (c.group.head?.map (·.1) == some c.t)

/-- The constant that replaces an empty token under CONST (R74), as a code; of a weight pair, for whose 1.0 R74 names no code, code 0
(notes/assumptions/119.md, DESIGN CHOICE). -/
def cselCode (fmt sel : Nat) : Nat :=
  match sel with
  | 0 => enc fmt .rne true 0 .zero
  | 1 => enc fmt .rne true 0 .one
  | 2 => if fmt = 0x28 then 0 else enc fmt .rne true 0 (.fin true 1 4000)
  | _ => enc fmt .rne true 0 (.fin false 1 4000)

/-- The token of input j as its policy gives it (R74). -/
def Ctx.tok (c : Ctx) (j : Nat) : Token :=
  match c.head j with
  | some .empty =>
    if inPol c.T c.e j = 2 then .word (pack (fmtWidth (c.fmt j)) (List.replicate (c.lan j) (cselCode (c.fmt j) (inSel c.T c.e j))))
    else .empty
  | some t => t
  | none => .empty
/-- Its bits and lanes. -/
def Ctx.word (c : Ctx) (j : Nat) : Wide := match c.tok j with | .word w => w | _ => 0
def Ctx.codes (c : Ctx) (j : Nat) : List Nat := lanes (c.word j) (fmtWidth (c.fmt j)) (c.lan j)
def Ctx.vals (c : Ctx) (j : Nat) : List XV := (c.codes j).map (dec (c.fmt j))
/-- Lane 0 as an integer. -/
def Ctx.int0 (c : Ctx) (j : Nat) : Int := intOf (c.fmt j) (nth (c.codes j) 0 0)
/-- A control input: an empty token reads as false (R228). -/
def Ctx.isTrue (c : Ctx) (j : Nat) : Bool := match c.tok j with | .word _ => c.int0 j != 0 | _ => false

/-- The constant of R201 as an exact value, as an integer, and as a code of a format. -/
def constVal (fmt imm : Nat) : XV :=
  if isInt fmt then .ofInt (if fmt = fInt64 then sextInt 32 imm else intOf fmt imm) else d32 imm
def constInt (fmt imm : Nat) : Int := if fmt = fInt64 then sextInt 32 imm else intOf fmt imm
def constCode (fmt imm : Nat) : Nat :=
  if isInt fmt then wrapInt (fmtWidth fmt) (constInt fmt imm) else enc fmt .rne false 0 (d32 imm)
/-- Lanes of input B, or its constant (R201). -/
def Ctx.bVals (c : Ctx) : List XV := if c.k then List.replicate (c.lan 0) (constVal (c.fmt 0) c.imm) else c.vals 1
def Ctx.bInts (c : Ctx) : List Int :=
  if c.k then List.replicate (c.lan 0) (constInt (c.fmt 0) c.imm) else (c.codes 1).map (intOf (c.fmt 1))

/-! ## Rounding and draws (R33, R200) -/

/-- A sampled CSR of the phase (R146). -/
def Ctx.csr (c : Ctx) (n : Nat) : Nat := csrOf c.x.csrs n
/-- Destination index of lane i of an output of l lanes. -/
def Ctx.dest (c : Ctx) (l i : Nat) : Nat := ((c.ti * 8 + c.e) % 2 ^ 16) * 2 ^ 32 + (c.el.f * l + i) % 2 ^ 32
/-- One LH128 evaluation for a destination index, with counter word c3. -/
def Ctx.draw (c : Ctx) (n c3 : Nat) : Q4 :=
  lh128 (q4 (c.csr 0x10) (c.csr 0x11) (c.csr 0x12) (c.csr 0x13))
    (q4 (n % 2 ^ 32) (n / 2 ^ 32 % 2 ^ 16 + c.csr 0x14 % 2 ^ 16 * 2 ^ 16) (c.csr 0x16) c3)
/-- A value rounded into lane i of output o. -/
def Ctx.round (c : Ctx) (o i : Nat) (sat : Bool) (v : XV) : Nat :=
  let d := if c.rm = .sr then (c.draw (c.dest (c.olan o) i) 1).1.toNat else 0
  enc (c.ofmt o) c.rm sat d v
def Ctx.rounds (c : Ctx) (o : Nat) (sat : Bool) (l : List XV) : Wide :=
  pack (fmtWidth (c.ofmt o)) ((l.zip (List.range l.length)).map fun x => c.round o x.2 sat x.1)
/-- A word of codes on output o. -/
def Ctx.out (c : Ctx) (o : Nat) (l : List Nat) : Nat × Token := (o, .word (pack (fmtWidth (c.ofmt o)) l))

/-! ## What a firing takes and gives -/

/-- The opcodes that collect a group across firings, and whether one is open (R205, R220 to R222). -/
def isGroupOp (o : Nat) : Bool := o == 0x33 || o == 0x38 || o == 0x39
/-- The inputs of a firing and the outputs it places tokens on, from the tokens at the heads; none when its inputs do not
allow it (R170, R228 to R236). -/
def Ctx.plan (c : Ctx) : Option (List Nat × List Nat) :=
  let on (l : List Nat) (o : List Nat) : Option (List Nat × List Nat) := if l.all c.stands then some (l, o) else none
  match c.opc with
  | 0x50 => on [0, 1] [if c.isTrue 1 then 1 else 0]
  | 0x51 => if c.stands 2 then on [2, if c.isTrue 2 then 1 else 0] [0] else none
  | 0x52 => on [0, 1] [0]
  | 0x53 =>
    if c.stands 1 ∧ 0 < c.el.cnt then some ([1], [])
    else if c.stands 0 ∧ c.el.cnt < c.imm then some ([0], [0]) else none
  | 0x54 => if c.el.cnt < c.sub % 16 then some ([], [0]) else on [0] [0]
  | 0x56 =>
    if isSet c.sub 0 then on [0] (if c.tok 0 = .empty then [] else [0])
    else on [0, 1] (if c.isTrue 1 then [] else [0])
  | 0x58 => if c.stands 0 then some (if c.el.cnt + 1 < c.imm then ([], [0]) else ([0], [0])) else none
  | 0x3A => on (namedIns c.T c.e) []
  | _ => on (namedIns c.T c.e) (usedOuts c.T c.e true)

/-- Room on the links of some outputs. -/
def Ctx.room (c : Ctx) (outs : List Nat) : Bool := outs.all fun o => canEmit c.s c.sp c.t (0x10 + 2 * c.e + o)

/-! ## The memory node as element slots use it (R237 to R239) -/

/-- The buffer of SUB[6:4]: number, base, entry size, depth. -/
def Ctx.buf (c : Ctx) : Nat := bitsOf c.sub 6 4
/-- The entry of mrd and mwr, as an integer. -/
def Ctx.entry (c : Ctx) : Int := if isSet c.sub 2 then ((c.el.f % max 1 (bufDepth c.T c.buf) : Nat) : Int) else c.int0 0
def Ctx.inDepth (c : Ctx) : Bool := decide (0 ≤ c.entry) && decide (c.entry < (bufDepth c.T c.buf : Nat))
/-- Does an empty token make the firing do nothing. -/
def Ctx.idle (c : Ctx) : Bool := (namedIns c.T c.e).any fun j => c.tok j == .empty
/-- `.fe`: the entry's bit allows the firing; an entry out of range is ready to fault, and a firing that an empty token makes do nothing
is ready whatever the bit (notes/assumptions/128.md, DESIGN CHOICE). -/
def Ctx.feReady (c : Ctx) : Bool :=
  if (c.opc ≠ 0x60 ∧ c.opc ≠ 0x61) ∨ isSet c.sub 0 = false ∨ c.idle = true ∨ c.inDepth = false then true
  else isFull c.T c.buf c.entry.toNat == (c.opc == 0x60)
def isMemOp (o : Nat) : Bool := o == 0x31 || decide (0x60 ≤ o ∧ o ≤ 0x63)

/-! ## Drain tokens (R205) -/

/-- The named inputs whose link lies on a cycle of the rectangle's links. -/
def Ctx.cycleIns (c : Ctx) : List Nat :=
  let es := edgesOf c.s c.p (rectTiles c.p c.x.rect)
  (namedIns c.T c.e).filter fun j =>
    match prodNode c.p c.t (srcOf c.T (3 * c.e + j)) with
    | some a => onCycle es a (c.t * 64 + c.e)
    | none => false
def Ctx.atDrain (c : Ctx) (j : Nat) : Bool := c.head j == some .drain
/-- Does a result of the network still have its place ahead of the slot's drain token (R178, R224): one that waits for credit, or
that of a round the slot has contributed to and that every participant has contributed to or can still contribute to. -/
def Ctx.owesResult (c : Ctx) : Bool :=
  c.opc == 0x3A && (!c.el.res.isEmpty || (!c.el.contrib.isEmpty && c.group.all fun x =>
    let d := getElem c.s x.1 x.2
    !d.contrib.isEmpty || !d.drained))
/-- Do the conditions hold under which the slot passes the drain token? -/
def Ctx.drainHolds (c : Ctx) : Bool :=
  let ins := namedIns c.T c.e
  if ins.isEmpty then decide (leafCount c.x ≤ tget c.x.seq c.t 0) && decide (c.el.busy ≤ now c.s)
  else if !ins.any c.atDrain then false
  else
    let cy := c.cycleIns
    let off := ins.filter fun j => !cy.contains j
    (if off.isEmpty then true else off.all c.atDrain) && (c.opc != 0x53 || c.el.cnt == 0) && !c.owesResult
/-- An open group is completed first, by a firing. -/
def Ctx.mustFinish (c : Ctx) : Bool := isGroupOp c.opc && decide (0 < c.el.grp) && c.drainHolds

/-! ## The selector (R173 to R177, R182) -/

/-- A leaf phase runs on the tile, the slot is in use, neither has passed the drain nor must pass it now (R205), its issue interval is
over and its inputs and outputs allow a firing (R170); `bit` says whether the full/empty bit of its entry is asked for. -/
def Ctx.readyBy (c : Ctx) (bit : Bool) : Bool :=
  !c.el.drained && decide (c.el.busy ≤ now c.s) && (c.mustFinish || !c.drainHolds) &&
  !((namedIns c.T c.e).isEmpty && decide (leafCount c.x ≤ tget c.x.seq c.t 0)) &&
  (if c.mustFinish then c.room (usedOuts c.T c.e true)
   else match c.plan with
    | none => false
    | some (_, outs) => c.room (if c.opc = 0x3A then usedOuts c.T c.e c.receives else outs) && (!bit || c.feReady) &&
        (c.opc != 0x3A || decide (c.el.contrib.length < 4)) && (!isMemOp c.opc || !phaseHeld c.s c.sp c.x.phase))

/-- The slot is ready (R170). -/
def Ctx.ready (c : Ctx) : Bool := c.readyBy true

/-- Enabled couplers that touch slot (t, e) of a span: as consumer (true) or producer, with their tile and number. -/
def touching (s : State) (p : Span) (t e : Nat) : List (Bool × Nat × Nat) :=
  (rectTiles p (wholeRect p)).flatMap fun u =>
    let U := getTile s u
    (List.range 15).flatMap fun c =>
      if !cplEn U c then []
      else
        let x := cplCfg U c
        (if u = t ∧ x.cslot = e then [(true, u, c)] else []) ++
        (if cplProducer s p (tget U.rects (16 + c) {}) u c = some (t, e) then [(false, u, c)] else [])

/-- Ticket count of a slot (R173, R182). -/
def tickets (s : State) (p : Span) (t e : Nat) : Nat :=
  match touching s p t e with
  | [] => cfgb (getTile s t) e 12 7 0
  | l@((role, u, c) :: _) =>
    let x := cplCfg (getTile s u) c
    let sum : Int := l.foldl (fun a y =>
      let k := tget (getTile s y.2.1).cpl y.2.2 {}
      a + if y.1 then k.cons else k.prod) 0
    let v : Int := ((if role then x.basec else x.basep : Nat) : Int) + sum
    (max (x.wmin : Int) (min (x.wmax : Int) v)).toNat

/-- The tickets with which slot e of a tile contends in this cycle: it is ready, was so at the start of the cycle, when the full/empty
bit of its entry counts, and has the tickets it had then (R170, R174, R237). -/
def contends (s : State) (t e : Nat) : Option Nat :=
  match ctxOf s t e with
  | none => none
  | some c => match c.T.seen with
    | some l => if c.readyBy false then tfind l e else none
    | none => if c.ready then some (tickets s c.p t e) else none
/-- What the next cycle of a tile finds at its start: the slots that are ready, with their tickets. -/
def readySlots (s : State) (t : Nat) : Tab Nat :=
  (List.range 8).filterMap fun e => match ctxOf s t e with
    | some c => if c.ready then some (e, tickets s c.p t e) else none
    | none => none

/-- What the selector of a tile takes next: the slot, its state and its pointer after; none with the unit occupied or no
contender (R172, R174). -/
def selectorPick (s : State) (t : Nat) : Option (Nat × BitVec 32 × Nat) :=
  let T := getTile s t
  if now s < T.unitFree then none
  else
    let ready := (List.range 8).filter fun e => (contends s t e).isSome
    match ready with
    | [] => none
    | _ =>
      let tk (e : Nat) : Nat := (contends s t e).getD 0
      let age (e : Nat) : Nat := (tget T.elems e {}).age
      let old := ready.filter fun e => decide (0 < tk e) && decide (4032 ≤ age e)
      let top := old.foldl (fun m e => max m (age e)) 0
      match old.find? fun e => age e == top with
      | some e => some (e, T.x, T.rot)
      | none =>
        let sum := sumNat (ready.map tk)
        if 0 < sum then
          let x := T.x ^^^ (T.x <<< 13)
          let x := x ^^^ (x >>> 17)
          let x := x ^^^ (x <<< 5)
          let r := x.toNat % sum
          let e := ready.foldl (fun (a : Option Nat × Nat) e =>
            match a.1 with
            | some _ => a
            | none => if r < a.2 + tk e then (some e, a.2) else (none, a.2 + tk e)) (none, 0)
          e.1.map fun e => (e, x, T.rot)
        else
          let e := (ready.find? fun e => decide (T.rot < e)).getD (ready.headD 0)
          some (e, T.x, e)

/-- Issue interval of a firing (R204). -/
def interval (c : Ctx) : Nat :=
  let ls := (namedIns c.T c.e).map c.lan ++ (usedOuts c.T c.e true).map c.olan
  let L := ls.foldl max 1
  match c.opc with
  | 0x0B => 2 | 0x0C => 2 | 0x09 => 4 | 0x0A => 4
  | 0x12 => if c.fmt 0 = fInt64 then 2 else 1
  | 0x2A => 2 | 0x30 => 2 | 0x33 => 2 | 0x38 => 2 | 0x39 => 4
  | 0x31 => (L + 15) / 16 | 0x62 => (L + 15) / 16 | 0x63 => (L + 15) / 16
  | 0x32 => (L + 3) / 4
  | _ => 1

/-! ## A firing -/

/-- What a firing does beside consuming its inputs: the tokens it places, what its slot keeps, and the state it leaves; or a
fault. -/
structure Fired where
  outs : List (Nat × Token) := []
  el : Elem
  s : State

/-- The firing of slot e of tile t with opcode `opc` (R170, R174, R206): it happens when the selector takes that slot.
`k` gets the context, on the state before the firing. -/
def fireSlot (opc : Nat) (k : Ctx → Except Trp Fired) (t e : Nat) (s : State) : Out :=
  match ctxOf s t e, selectorPick s t with
  | some c, some (e', x, rot) =>
    let ins := if c.mustFinish then [] else match c.plan with | some (i, _) => i | none => []
    let q (j : Nat) : Nat := qBuf t (3 * e + j)
    if e' ≠ e ∨ c.opc ≠ opc then .next s
    else match k { c with s := ins.foldl (fun s j => markJoin s c.sp (.slot t e) (q j) 0) s } with
      | .error tr => .next (fabricFault s c.sp { cause := tr.1, tval := tr.2, agent := 1
                                                 loc := BitVec.ofNat 12 (rectIndex c.p (wholeRect c.p) t), slot := BitVec.ofNat 3 e })
      | .ok r =>
        let d := now s + interval c
        let s1 := updTile (ins.foldl (fun s j => markDrop s c.sp (q j) 0) r.s) t fun T =>
          let T := ins.foldl (fun T j => popHead T (3 * e + j)) T
          { T with x := x, rot := rot, unitFree := d, seen := T.seen.map fun l => tdel l e, elems := tput T.elems e { r.el with f := c.el.f + 1, age := 0, busy := d } }
        .next (r.outs.foldl (fun s o => emit s c.sp t (0x10 + 2 * e + o.1) o.2) s1)
  | _, _ => .next s

/-- Output tokens, all else as it was. -/
def Ctx.give (c : Ctx) (outs : List (Nat × Token)) : Except Trp Fired := .ok { outs := outs, el := c.el, s := c.s }
/-- The empty rule of R74 for inputs of an ordinary opcode; `k` computes from words. -/
def Ctx.byPolicy (c : Ctx) (k : Ctx → Except Trp Fired) : Except Trp Fired :=
  let ins := namedIns c.T c.e
  let empties := ins.filter fun j => c.tok j == .empty
  if empties.any fun j => inPol c.T c.e j == 1 then c.give []
  else if empties.isEmpty then k c
  else c.give ((usedOuts c.T c.e true).map fun o => (o, .empty))

/-- A firing that computes the words of its outputs from the words of its inputs. -/
def fireWords (opc : Nat) (k : Ctx → List (Nat × Token)) (t e : Nat) (s : State) : Out :=
  fireSlot opc (fun c => c.byPolicy fun c => c.give (k c)) t e s
/-- A lane-wise function on exact values, rounded once (R200, R207). -/
def fireFloat1 (opc : Nat) (f : Ctx → XV → XV) (t e : Nat) (s : State) : Out :=
  fireWords opc (fun c => [(0, .word (c.rounds 0 c.sat ((c.vals 0).map (f c))))]) t e s
def fireFloat2 (opc : Nat) (f : Ctx → XV → XV → XV) (t e : Nat) (s : State) : Out :=
  fireWords opc (fun c => [(0, .word (c.rounds 0 c.sat ((c.vals 0).zipWith (f c) c.bVals)))]) t e s
/-- A lane-wise function on integers; SAT clamps, else it wraps (R210). -/
def fireInt2 (opc : Nat) (f : Ctx → Int → Int → Int) (t e : Nat) (s : State) : Out :=
  fireWords opc (fun c =>
    let w := fmtWidth (c.ofmt 0)
    [c.out 0 ((((c.codes 0).map (intOf (c.fmt 0))).zipWith (f c) c.bInts).map fun i =>
      if c.sat then clampInt w (c.ofmt 0 != fUint8) i else wrapInt w i)]) t e s
/-- A lane-wise function on codes. -/
def fireBits2 (opc : Nat) (f : Ctx → Nat → Nat → Nat) (t e : Nat) (s : State) : Out :=
  fireWords opc (fun c =>
    let w := fmtWidth (c.ofmt 0)
    [c.out 0 ((c.codes 0).zipWith (f c) (c.bInts.map (wrapInt w)))]) t e s

/-! ## Floating-point arithmetic and functions (R207 to R209) -/

def execVadd (t e : Nat) (s : State) : Out := fireFloat2 0x01 (fun c a b => a.add (c.rm == .rdn) b) t e s
def execVsub (t e : Nat) (s : State) : Out := fireFloat2 0x02 (fun c a b => a.add (c.rm == .rdn) b.neg) t e s
def execVmul (t e : Nat) (s : State) : Out := fireFloat2 0x03 (fun _ a b => a.mul b) t e s
def execVfma (t e : Nat) (s : State) : Out :=
  fireWords 0x04 (fun c => [(0, .word (c.rounds 0 c.sat
    (((c.vals 0).zipWith XV.mul c.bVals).zipWith (fun p z => p.add (c.rm == .rdn) z) (c.vals 2))))]) t e s
def execVmin (t e : Nat) (s : State) : Out := fireFloat2 0x05 (fun _ a b => a.vmin b) t e s
def execVmax (t e : Nat) (s : State) : Out := fireFloat2 0x06 (fun _ a b => a.vmax b) t e s
def execVabs (t e : Nat) (s : State) : Out := fireFloat1 0x07 (fun _ a => a.abs) t e s
def execVneg (t e : Nat) (s : State) : Out := fireFloat1 0x08 (fun _ a => a.neg) t e s
def execVdiv (t e : Nat) (s : State) : Out := fireFloat2 0x09 (fun _ a b => a.div b) t e s
def execVsqrt (t e : Nat) (s : State) : Out := fireFloat1 0x0A (fun _ a => a.sqrt) t e s
def execVexp2 (t e : Nat) (s : State) : Out := fireFloat1 0x0B (fun _ a => a.exp2) t e s
def execVlog2 (t e : Nat) (s : State) : Out := fireFloat1 0x0C (fun _ a => a.log2) t e s
/-- An estimate to 8 significant bits, as fp32 or bf16 (R209). -/
def estWord (opc : Nat) (f : XV → XV) (t e : Nat) (s : State) : Out :=
  fireWords opc (fun c => [c.out 0 ((c.vals 0).map fun a =>
    let r := est8 (f a)
    if c.ofmt 0 = fBf16 then r / 65536 else r)]) t e s
def execVrcpe (t e : Nat) (s : State) : Out := estWord 0x0D (fun a => XV.one.div a) t e s
def execVrsqe (t e : Nat) (s : State) : Out := estWord 0x0E (fun a => XV.one.div a.sqrt) t e s

/-! ## Integer and logic (R210) -/

def execViadd (t e : Nat) (s : State) : Out := fireInt2 0x10 (fun _ a b => a + b) t e s
def execVisub (t e : Nat) (s : State) : Out := fireInt2 0x11 (fun _ a b => a - b) t e s
def execVimul (t e : Nat) (s : State) : Out := fireInt2 0x12 (fun _ a b => a * b) t e s
def execVand (t e : Nat) (s : State) : Out := fireBits2 0x13 (fun _ a b => a &&& b) t e s
def execVor (t e : Nat) (s : State) : Out := fireBits2 0x14 (fun _ a b => a ||| b) t e s
def execVxor (t e : Nat) (s : State) : Out := fireBits2 0x15 (fun _ a b => a ^^^ b) t e s
def execVshl (t e : Nat) (s : State) : Out :=
  fireBits2 0x16 (fun c a b => a <<< (b % fmtWidth (c.ofmt 0)) % 2 ^ fmtWidth (c.ofmt 0)) t e s
def execVshr (t e : Nat) (s : State) : Out :=
  fireBits2 0x17 (fun c a b =>
    let w := fmtWidth (c.ofmt 0)
    if isSet c.sub 0 then wrapInt w (intOf (c.ofmt 0) a / ((2 ^ (b % w) : Nat) : Int)) else a >>> (b % w)) t e s
def execVimin (t e : Nat) (s : State) : Out := fireInt2 0x18 (fun _ a b => min a b) t e s
def execVimax (t e : Nat) (s : State) : Out := fireInt2 0x19 (fun _ a b => max a b) t e s

/-! ## Compare, select, convert, scale (R211 to R214) -/

/-- The condition of vcmp; a comparison with a NaN is unordered (R211). -/
def vcmpHolds (cond : Nat) (a b : XV) : Bool :=
  match cond with
  | 0 => a.eq b
  | 1 => !a.eq b
  | 2 => a.lt b
  | 3 => a.lt b || a.eq b
  | 4 => b.lt a
  | _ => b.lt a || a.eq b
def execVcmp (t e : Nat) (s : State) : Out :=
  fireWords 0x20 (fun c => [c.out 0 ((c.vals 0).zipWith (fun a b => (vcmpHolds (c.sub % 8) a b).toNat) c.bVals)]) t e s
def execVsel (t e : Nat) (s : State) : Out :=
  fireWords 0x21 (fun c => [c.out 0 ((c.codes 0).zipWith (fun (m : Nat) (x : Nat × Nat) => if m ≠ 0 then x.1 else x.2)
    ((c.codes 1).zip (c.codes 2)))]) t e s
def execVcvt (t e : Nat) (s : State) : Out := fireFloat1 0x28 (fun _ a => a) t e s
/-- A power of two beyond every format's range scales as one at ±5,000. -/
def clampExp (k : Int) : Int := max (-5000) (min 5000 k)
def execVscale (t e : Nat) (s : State) : Out :=
  fireWords 0x29 (fun c =>
    let ks : List Int := if c.k then List.replicate (c.lan 0) (sextInt 32 c.imm) else (c.codes 1).map (intOf (c.fmt 1))
    [(0, .word (c.rounds 0 c.sat ((c.vals 0).zipWith (fun a k => a.scale (clampExp k)) ks)))]) t e s

/-- FLOOR(LOG2) of a format's largest finite value (R215). -/
def emaxOf (fmt : Nat) : Int :=
  match fmtClass fmt with
  | some f => (decodeF f f.maxCode).log2f
  | none => 0
/-- Block b of g lanes. -/
def blockOf {α : Type} (l : List α) (g b : Nat) : List α := (l.drop (b * g)).take g
/-- The computed scale of a block, as a ue8m0 code (R215). -/
def blockScale (q : Nat) (l : List XV) : Nat :=
  if l.any (fun a => !a.isFin) then 0xFF
  else
    let m := l.foldl (fun m a => if m.lt a.abs then a.abs else m) XV.zero
    if m.isZero then 0x7F else (max 0 (min 254 (m.log2f - emaxOf q + 127))).toNat
def execVquant (t e : Nat) (s : State) : Out :=
  fireWords 0x2A (fun c =>
    let g := 2 ^ (c.sub % 8)
    let q := c.ofmt 0
    let n := c.lan 0 / g
    let given := isSet c.sub 3
    let block (b : Nat) : List Nat × Nat :=
      let l := blockOf (c.vals 0) g b
      if given then
        let sc := dec (c.fmt 1) (nth (c.codes 1) b 0)
        if sc.isNan || sc.isZero then (List.replicate g 0, 0)
        else ((l.zip (List.range g)).map fun x => c.round 0 (b * g + x.2) true (x.1.div sc), 0)
      else
        let sc := blockScale q l
        if sc = 0xFF then (List.replicate g 0, sc)
        else ((l.zip (List.range g)).map fun x => c.round 0 (b * g + x.2) true (x.1.scale (127 - (sc : Int))), sc)
    let bs := (List.range n).map block
    c.out 0 (bs.flatMap (·.1)) :: (if given then [] else [c.out 1 (bs.map (·.2))])) t e s
def execVdeq (t e : Nat) (s : State) : Out :=
  fireWords 0x2B (fun c =>
    let g := 2 ^ (c.sub % 8)
    let sc := c.vals 1
    [(0, .word (c.rounds 0 c.sat (((c.vals 0).zip (List.range (c.lan 0))).map fun x =>
      let y := nth sc (x.2 / g) .nan
      if y.isZero then (if x.1.isFin then .zero else .nan) else x.1.mul y)))]) t e s

/-! ## Dot product, table lookup, noise (R217 to R219) -/

def execVdot (t e : Nat) (s : State) : Out :=
  fireWords 0x30 (fun c =>
    let g := 2 ^ (c.sub % 8)
    let n := c.lan 0 / g
    let acc := isSet c.sub 3
    if isInt (c.ofmt 0) then
      let ps := ((c.codes 0).map (intOf (c.fmt 0))).zipWith (· * ·) ((c.codes 1).map (intOf (c.fmt 1)))
      let cs := (c.codes 2).map (intOf (c.fmt 2))
      let w := fmtWidth (c.ofmt 0)
      [c.out 0 ((List.range n).map fun b =>
        let sum := (blockOf ps g b).foldl (· + ·) 0 + (if acc then nth cs b 0 else 0)
        if c.sat then clampInt w true sum else wrapInt w sum)]
    else
      let ps := (c.vals 0).zipWith XV.mul (c.vals 1)
      let cs := c.vals 2
      [(0, .word (c.rounds 0 c.sat ((List.range n).map fun b =>
        exactSum (blockOf ps g b ++ (if acc then [nth cs b .zero] else [])))))]) t e s

/-- A TILE pointer to a byte of the context's memory node. -/
def Ctx.ptr (c : Ctx) (a : Nat) : Word := mkPtr 2 (c.t / 16) (c.t % 16 * 2 ^ 18 + a)
/-- What the slot does comes after the writes of the phases before its own (R373). -/
def Ctx.sees (c : Ctx) (s : State) : State := seePhases s c.sp (PortId.slot c.t c.e).num (some c.x.phase)
/-- Read or write bytes of the memory node in a firing (R237, R246, R391). -/
def Ctx.rd (c : Ctx) (s : State) (a n : Nat) : Except Trp (List Byte × State) :=
  let k := keyTile c.t a
  if isPoison s k n then .error (.ue, c.ptr a)
  else match detStep (c.sees s) (.slot c.t c.e) k n false none with
    | none => .error (.conflict, c.ptr a)
    | some s1 => .ok (readN s1.mem k n, s1)
def Ctx.wr (c : Ctx) (s : State) (a : Nat) (bs : List Byte) : Except Trp State :=
  let k := keyTile c.t a
  match detStep (c.sees s) (.slot c.t c.e) k bs.length true none with
  | none => .error (.conflict, c.ptr a)
  | some s1 =>
    let (s2, bad) := homeWrite s1 k bs
    if bad then .error (.ueMerge, c.ptr a) else .ok s2

/-- Reads of several lanes in lane order. -/
def Ctx.rdLanes (c : Ctx) (w : Nat) (l : List (Option Nat)) : Except Trp (List Nat × State) :=
  l.foldlM (fun (a : List Nat × State) (x : Option Nat) =>
    match x with
    | none => pure (a.1 ++ [0], a.2)
    | some b => do
      let (bs, s1) ← c.rd a.2 b (w / 8)
      pure (a.1 ++ [ofBytes bs], s1)) ([], c.s)

def execVlut (t e : Nat) (s : State) : Out :=
  fireSlot 0x31 (fun c => c.byPolicy fun c => do
    let b := c.sub % 8
    let w := fmtWidth (c.ofmt 0)
    let n := bufDepth c.T b * bufEsz c.T b * 8 / w
    let place (code : Nat) : Option Nat :=
      let i := intOf (c.fmt 0) code
      if 0 ≤ i ∧ i < (n : Int) then some (bufBase c.T b + i.toNat * w / 8)
      else if isSet c.sub 3 then some (bufBase c.T b + (if i < 0 then 0 else n - 1) * w / 8)
      else none
    let (l, s1) ← c.rdLanes w ((c.codes 0).map place)
    pure { outs := [c.out 0 l], el := c.el, s := s1 }) t e s

def execVnoise (t e : Nat) (s : State) : Out :=
  fireWords 0x32 (fun c =>
    let draw (i : Nat) : Q4 := c.draw (c.dest (c.olan 0) i) 3
    if c.sub % 4 = 2 then [c.out 0 ((List.range (c.olan 0)).map fun i => (draw i).1.toNat)]
    else
      let sc := d32 c.imm
      [(0, .word (c.rounds 0 c.sat (((c.vals 0).zip (List.range (c.lan 0))).map fun x =>
        let q := draw x.2
        let g := if c.sub % 4 = 0 then (XV.ofInt (q.1.toNat / 256 : Nat)).scale (-24) else gauss q
        x.1.add (c.rm == .rdn) (sc.mul g))))]) t e s

/-! ## Groups across firings (R220 to R222) -/

/-- A code as a result shows it: a NaN of an IEEE format is the canonical one (R23). -/
def canonCode (fmt a : Nat) : Nat := if (dec fmt a).isNan then enc fmt .rne false 0 .nan else a
/-- Ranks a before b (R220): larger first, NaN last; equal values keep their order. -/
def ranksBefore (fmt a b : Nat) : Bool :=
  let x := dec fmt a
  let y := dec fmt b
  if x.isNan then false else if y.isNan then true else y.lt x
/-- A pair joins a list in rank order, after those it does not rank before. -/
def rankIn (fmt : Nat) (x : BitVec 64 × BitVec 32) : List (BitVec 64 × BitVec 32) → List (BitVec 64 × BitVec 32)
  | [] => [x]
  | y :: l => if ranksBefore fmt x.1.toNat y.1.toNat then x :: y :: l else y :: rankIn fmt x l
/-- The k best of two ranked lists. -/
def rankMerge (fmt k : Nat) (a b : List (BitVec 64 × BitVec 32)) : List (BitVec 64 × BitVec 32) :=
  (b.foldl (fun l x => rankIn fmt x l) a).take k
/-- What an unfilled position of vtopk shows. -/
def unfilled (fmt : Nat) : Nat := if fmt = fInt32 then 2 ^ 31 else enc fmt .rne false 0 (.inf true)

def execVtopk (t e : Nat) (s : State) : Out :=
  fireSlot 0x33 (fun c =>
    let k := 2 ^ (c.sub % 4)
    let j := c.el.grp
    let new := match c.tok 0, c.mustFinish with
      | .word _, false => ((c.codes 0).zip (List.range (c.lan 0))).map fun x =>
          (BitVec.ofNat 64 (canonCode (c.fmt 0) x.1), BitVec.ofNat 32 (j * c.lan 0 + x.2))
      | _, _ => []
    let best := rankMerge (c.fmt 0) k c.el.cand new
    if c.mustFinish || decide (c.imm % 2 ^ 24 ≤ j + 1) then
      let all := best ++ List.replicate (k - best.length) (BitVec.ofNat 64 (unfilled (c.fmt 0)), (0xFFFFFFFF : BitVec 32))
      .ok { outs := [c.out 0 (all.map fun x => x.1.toNat), c.out 1 (all.map fun x => x.2.toNat)]
            el := { c.el with cand := [], grp := 0 }, s := c.s }
    else .ok { outs := [], el := { c.el with cand := best, grp := j + 1 }, s := c.s }) t e s

/-- The folding operation of vred and vscan on exact values: sum rounded to the output format, or max, min, for which vscan follows R207
with a NaN and with zeros of both signs (notes/assumptions/127.md, DESIGN CHOICE). -/
def Ctx.foldF (c : Ctx) (op : Nat) (a b : XV) : XV :=
  match op with
  | 0 => dec (c.ofmt 0) (enc (c.ofmt 0) .rne c.sat 0 (a.add false b))
  | 2 => a.vmin b
  | _ => a.vmax b
def foldI (op : Nat) (a b : Int) : Int := match op with | 0 => a + b | 2 => min a b | _ => max a b

/-- vred keeps a float partial result as its fp32 code, which holds every value of the accepted formats, and an integer as
itself. -/
def execVred (t e : Nat) (s : State) : Out :=
  fireSlot 0x38 (fun c =>
    let g := 2 ^ (c.sub % 8)
    let op := bitsOf c.sub 5 3
    let n := c.lan 0 / g
    let flt := isIeee (c.fmt 0)
    let w := fmtWidth (c.ofmt 0)
    let word : List Int := match c.tok 0, c.mustFinish with
      | .word _, false =>
        if flt then
          let v := (c.vals 0).map fun a => if op = 3 then a.abs else a
          (List.range n).map fun b => ((rne fFp32 ((treeFold (c.foldF op) 64 (blockOf v g b)).getD .zero) : Nat) : Int)
        else
          let v := (c.codes 0).map fun a => let i := intOf (c.fmt 0) a; if op = 3 then (i.natAbs : Int) else i
          (List.range n).map fun b => match blockOf v g b with | a :: l => l.foldl (foldI op) a | [] => 0
      | _, _ => []
    let acc : List Int :=
      if word.isEmpty then c.el.carry
      else if c.el.carry.isEmpty then word
      else if flt then c.el.carry.zipWith (fun a b => ((rne fFp32 (c.foldF op (d32 a.toNat) (d32 b.toNat)) : Nat) : Int)) word
      else c.el.carry.zipWith (foldI op) word
    if c.mustFinish || decide (c.imm % 2 ^ 24 ≤ c.el.grp + 1) then
      let tok : Nat × Token :=
        if acc.isEmpty then (0, .empty)
        else c.out 0 (acc.map fun a =>
          if flt then enc (c.ofmt 0) .rne c.sat 0 (d32 a.toNat)
          else if c.sat then clampInt w (c.ofmt 0 != fUint8) a else wrapInt w a)
      .ok { outs := [tok], el := { c.el with carry := [], grp := 0 }, s := c.s }
    else .ok { outs := [], el := { c.el with carry := acc, grp := c.el.grp + 1 }, s := c.s }) t e s

/-- The identity of a scan, as a code of the output format (R222). -/
def scanIdentity (fmt op : Nat) : Nat :=
  if isIeee fmt then enc fmt .rne false 0 (match op with | 0 => .zero | 1 => .inf true | _ => .inf false)
  else match op with
    | 0 => 0
    | 1 => enc fmt .rne true 0 (.inf true)
    | _ => enc fmt .rne true 0 (.inf false)

def execVscan (t e : Nat) (s : State) : Out :=
  fireSlot 0x39 (fun c =>
    let op := bitsOf c.sub 5 3
    let fo := c.ofmt 0
    let w := fmtWidth fo
    let excl := isSet c.sub 6
    let y0 : Nat := match c.el.carry with | a :: _ => a.toNat | [] => scanIdentity fo op
    let step (y a : Nat) : Nat :=
      if isIeee fo then enc fo .rne c.sat 0 (c.foldF op (dec fo y) (dec (c.fmt 0) a))
      else
        let i := foldI op (intOf fo y) (intOf (c.fmt 0) a)
        if c.sat then clampInt w (fo != fUint8) i else wrapInt w i
    let last := decide (c.imm % 2 ^ 24 ≤ c.el.grp + 1)
    match c.tok 0, c.mustFinish with
    | .word _, false =>
      let r := (c.codes 0).foldl (fun (x : Nat × List Nat) a =>
        let y := step x.1 a
        (y, x.2 ++ [if excl then x.1 else y])) (y0, [])
      .ok { outs := [c.out 0 r.2], s := c.s
            el := { c.el with carry := if last then [] else [(r.1 : Int)], grp := if last then 0 else c.el.grp + 1 } }
    | _, fin =>
      .ok { outs := [(0, .empty)], s := c.s
            el := { c.el with carry := if last || fin then [] else c.el.carry, grp := if last || fin then 0 else c.el.grp + 1 } })
    t e s

/-! ## The reduction network (R223, R224, R44) -/

/-- rnet: the firing contributes its tokens to the slot's next round; a .topk contribution with an empty token on one of its inputs counts
as empty (notes/assumptions/124.md, DESIGN CHOICE). -/
def execRnet (t e : Nat) (s : State) : Out :=
  fireSlot 0x3A (fun c =>
    let a := c.tok 0
    let b := if c.sub % 8 = 3 then c.tok 1 else .empty
    let x : Token × Token := if a = .empty ∨ (c.sub % 8 = 3 ∧ b = .empty) then (.empty, .empty) else (a, b)
    .ok { outs := [], el := { c.el with contrib := c.el.contrib ++ [x] }
          s := markAdd c.s c.sp (qRound t e) c.el.contrib.length 0 (clockOf c.s (PortId.slot t e).num) }) t e s

/-- The folding operation of the network on exact values: of equal values, as of the two zeros, max and min keep that of the
lower tile, which stands first (R44), and a NaN stays (notes/assumptions/125.md, DESIGN CHOICE). -/
def Ctx.netF (c : Ctx) (op : Nat) (a b : XV) : XV :=
  if op = 0 then c.foldF 0 a b
  else if a.isNan || b.isNan then .nan
  else if op = 2 then (if b.lt a then b else a) else (if a.lt b then b else a)
/-- The result of a round from its contributions in ascending tile index; `r` is a receiving participant. -/
def roundResult (r : Ctx) (cs : List (Token × Token)) : Token × Token :=
  let fa := r.fmt 0
  let fo := r.ofmt 0
  let w := fmtWidth fo
  let ws := cs.filterMap fun c => match c.1 with | .word a => some (a, match c.2 with | .word b => b | _ => 0) | _ => none
  let la := r.lan 0
  let op := r.sub % 8
  if ws.isEmpty then (.empty, .empty)
  else if op = 3 then
    let pairs := ws.map fun x => ((lanes x.1 (fmtWidth fa) la).zip (lanes x.2 32 la)).foldl
      (fun l y => rankIn fa (BitVec.ofNat 64 (canonCode fa y.1), BitVec.ofNat 32 y.2) l) []
    let best := (treeFold (rankMerge fa la) 70 pairs).getD []
    (.word (pack w (best.map fun x => x.1.toNat)), .word (pack 32 (best.map fun x => x.2.toNat)))
  else
    let vs := ws.map fun x => lanes x.1 (fmtWidth fa) la
    let lane_ (i : Nat) : Nat :=
      let l := vs.map fun v => nth v i 0
      if isIeee fa then enc fo .rne r.sat 0 ((treeFold (r.netF op) 70 (l.map (dec fa))).getD .zero)
      else
        let v := (treeFold (foldI op) 70 (l.map (intOf fa))).getD 0
        if r.sat then clampInt w (fo != fUint8) v else wrapInt w v
    (.word (pack w ((List.range la).map lane_)), .empty)

/-- A complete round of the slot's group is combined, with the SAT of its lowest receiver (notes/assumptions/126.md, DESIGN CHOICE), and
joins the results of each receiver (R224). -/
def closeRound (s : State) (c : Ctx) : State :=
  let g := c.group
  let cs := g.filterMap fun x => ctxOf s x.1 x.2
  if cs.length ≠ g.length ∨ cs.any (fun d => d.el.contrib.isEmpty) then s
  else
    match cs.find? fun d => d.receives with
    | none => s
    | some r =>
      let res := roundResult r (cs.map fun d => d.el.contrib.headD (.empty, .empty))
      let m := cs.foldl (fun m d => clockJoin m (markOf s (qRound d.t d.e) 0)) []
      let s := cs.foldl (fun s d =>
        let s := markDrop s d.sp (qRound d.t d.e) 0
        if d.receives then markAdd s d.sp (qResult d.t d.e) d.el.res.length 0 m else s) s
      cs.foldl (fun s d => updElem s d.t d.e fun x => { x with
        contrib := x.contrib.tail, res := if d.receives then x.res ++ [res] else x.res }) s

/-- RNET_ROUND_RESULT (R224): a complete round of the slot's group is combined; the slot's oldest result is placed on its
outputs once there is room. -/
def execRnetRoundResult (t e : Nat) (s : State) : Out :=
  match ctxOf s t e with
  | none => .next s
  | some c0 =>
    if c0.opc ≠ 0x3A then .next s
    else
      let s1 := closeRound s c0
      match ctxOf s1 t e with
      | none => .next s1
      | some c =>
        match c.el.res with
        | [] => .next s1
        | r :: rest =>
          let outs := usedOuts c.T e c.receives
          if c.room outs then
            let s2 := updElem (markDrop s1 c.sp (qResult t e) 0) t e fun x => { x with res := rest }
            let m := markOf s1 (qResult t e) 0
            .next (outs.foldl (fun s o => emitAt s c.sp t (0x10 + 2 * e + o) m (if o = 0 then r.1 else if r.1 = .empty then .empty else r.2)) s2)
          else .next s1

/-! ## Permutation and data movement (R225 to R227) -/

def execVperm (t e : Nat) (s : State) : Out :=
  fireWords 0x40 (fun c =>
    let a := c.codes 0
    [c.out 0 ((c.codes 1).map fun b =>
      let i := intOf (c.fmt 1) b
      if 0 ≤ i ∧ i < (c.lan 0 : Int) then nth a i.toNat 0 else 0)]) t e s
def execVbcast (t e : Nat) (s : State) : Out :=
  fireWords 0x41 (fun c => [c.out 0 (List.replicate (c.olan 0) (nth (c.codes 0) (c.imm % 128) 0))]) t e s
def execVpack (t e : Nat) (s : State) : Out := fireWords 0x42 (fun c => [c.out 0 (c.codes 0 ++ c.codes 1)]) t e s
/-- The entry's own empty rule of vunpack and vslide, which goes before the policy of R74: an empty token on A gives an empty
token on each output. -/
def Ctx.orEmpty (c : Ctx) (k : Ctx → Except Trp Fired) : Except Trp Fired :=
  if c.tok 0 = .empty then c.give ((usedOuts c.T c.e true).map fun o => (o, .empty)) else k c
def execVunpack (t e : Nat) (s : State) : Out :=
  fireSlot 0x43 (fun c => c.orEmpty fun c =>
    let l := c.codes 0
    c.give [c.out 0 (l.take (c.olan 0)), c.out 1 (l.drop (c.olan 0))]) t e s
def execVslide (t e : Nat) (s : State) : Out :=
  fireSlot 0x44 (fun c => c.orEmpty fun c =>
    let L := c.lan 0
    let n := c.imm % 128
    let prev := match c.el.held with | some (.word w) => lanes w (fmtWidth (c.fmt 0)) L | _ => List.replicate L 0
    let cur := c.codes 0
    .ok { outs := [c.out 0 ((List.range L).map fun i => if n ≤ i then nth cur (i - n) 0 else nth prev (L - n + i) 0)]
          el := { c.el with held := some (.word (c.word 0)) }, s := c.s }) t e s

/-! ## Dataflow controls (R228 to R236) -/

def execSteer (t e : Nat) (s : State) : Out := fireSlot 0x50 (fun c => c.give [(if c.isTrue 1 then 1 else 0, c.tok 0)]) t e s
def execMerge (t e : Nat) (s : State) : Out := fireSlot 0x51 (fun c => c.give [(0, c.tok (if c.isTrue 2 then 1 else 0))]) t e s
def execGate (t e : Nat) (s : State) : Out := fireSlot 0x52 (fun c => c.give [(0, if c.isTrue 1 then c.tok 0 else .empty)]) t e s
def execLimit (t e : Nat) (s : State) : Out :=
  fireSlot 0x53 (fun c =>
    if c.stands 1 && decide (0 < c.el.cnt) then .ok { outs := [], el := { c.el with cnt := c.el.cnt - 1 }, s := c.s }
    else .ok { outs := [(0, c.tok 0)], el := { c.el with cnt := c.el.cnt + 1 }, s := c.s }) t e s
/-- A word whose every lane holds the constant (R233, R235). -/
def Ctx.constWord (c : Ctx) : Token :=
  .word (pack (fmtWidth (c.ofmt 0)) (List.replicate (c.olan 0) (constCode (c.ofmt 0) c.imm)))
def execInit (t e : Nat) (s : State) : Out :=
  fireSlot 0x54 (fun c =>
    if c.el.cnt < c.sub % 16 then
      .ok { outs := [(0, if isSet c.sub 4 then .empty else c.constWord)], el := { c.el with cnt := c.el.cnt + 1 }, s := c.s }
    else c.give [(0, c.tok 0)]) t e s
def execCount (t e : Nat) (s : State) : Out :=
  fireSlot 0x55 (fun c =>
    let m := c.el.cnt
    let period := if c.imm = 0 then 2 ^ 32 else c.imm
    let o0 := c.out 0 (List.replicate (c.olan 0) m)
    let o1 := c.out 1 (List.replicate (c.olan 1) (if (m + 1) % period = 0 then 1 else 0))
    .ok { outs := if (usedOuts c.T e true).contains 1 then [o0, o1] else [o0], el := { c.el with cnt := m + 1 }, s := c.s }) t e s
def execDrop (t e : Nat) (s : State) : Out :=
  fireSlot 0x56 (fun c =>
    let gone := if isSet c.sub 0 then c.tok 0 == .empty else c.isTrue 1
    c.give (if gone then [] else [(0, c.tok 0)])) t e s
def execFill (t e : Nat) (s : State) : Out :=
  fireSlot 0x57 (fun c =>
    let w : Token := match c.tok 0 with
      | .word x => .word x
      | _ => if isSet c.sub 0 then c.el.held.getD (.word 0) else c.constWord
    .ok { outs := [(0, w)], el := { c.el with held := some w }, s := c.s }) t e s
def execCopy (t e : Nat) (s : State) : Out :=
  fireSlot 0x58 (fun c =>
    .ok { outs := [(0, c.tok 0)], el := { c.el with cnt := if c.el.cnt + 1 < c.imm then c.el.cnt + 1 else 0 }, s := c.s }) t e s

/-! ## Memory-node read and write (R237 to R239) -/

/-- Node address of the word of mrd and mwr. -/
def Ctx.addr (c : Ctx) : Int :=
  (bufBase c.T c.buf : Int) + c.entry * (bufEsz c.T c.buf : Int) + ((c.imm % 2 ^ 18 : Nat) : Int)
/-- The fault of an entry or a byte out of range. -/
def Ctx.entryFault (c : Ctx) (n : Nat) : Bool := !c.inDepth || decide (bufEsz c.T c.buf < c.imm % 2 ^ 18 + n)
/-- The entry's full/empty bit changes hands, after the access to the entry. -/
def Ctx.feTouch (c : Ctx) (s : State) (v : Option Bool) : State :=
  let o := objTile c.t (c.buf * 16 + c.entry.toNat)
  let q := (PortId.slot c.t c.e).num
  let s1 := publish (observe s q o) q o
  match v with
  | some b => updTile s1 c.t fun T => setFull T c.buf c.entry.toNat b
  | none => s1

/-- The bytes of a word of so many bits: the unused bits of the last are ignored and written as zero (R20, R238). -/
def wholeBytes (bits : Nat) : Nat := (bits + 7) / 8
def execMrd (t e : Nat) (s : State) : Out :=
  fireSlot 0x60 (fun c =>
    if c.idle then c.give [(0, .empty)]
    else
      let n := wholeBytes (fmtWidth (c.ofmt 0) * c.olan 0)
      if c.entryFault n then .error (.ptrSpace, BitVec.ofInt 64 c.addr)
      else do
        let fe := isSet c.sub 0
        let s0 := if fe then observe c.s (PortId.slot t e).num (objTile t (c.buf * 16 + c.entry.toNat)) else c.s
        let (bs, s1) ← c.rd s0 c.addr.toNat n
        let s1 := if fe then c.feTouch s1 (if isSet c.sub 1 then none else some false) else s1
        pure { outs := [(0, .word (BitVec.ofNat 512 (ofBytes bs % 2 ^ (fmtWidth (c.ofmt 0) * c.olan 0))))], el := c.el
               s := if fe && !isSet c.sub 1 then stageUsed s1 c.sp c.t c.buf else s1 }) t e s
def execMwr (t e : Nat) (s : State) : Out :=
  fireSlot 0x61 (fun c =>
    if c.idle then c.give []
    else
      let n := wholeBytes (fmtWidth (c.fmt 1) * c.lan 1)
      if c.entryFault n then .error (.ptrSpace, BitVec.ofInt 64 c.addr)
      else do
        let fe := isSet c.sub 0
        let s0 := if fe then observe c.s (PortId.slot t e).num (objTile t (c.buf * 16 + c.entry.toNat)) else c.s
        let s1 ← c.wr s0 c.addr.toNat (toBytes n ((c.word 1).toNat % 2 ^ (fmtWidth (c.fmt 1) * c.lan 1)))
        pure { outs := [], el := c.el, s := if fe then c.feTouch s1 (some true) else s1 }) t e s

/-- The offsets of mrdx and mwrx, or the fault of the first that offends: PTR_SPACE before ALIGN (R239). -/
def Ctx.offsets (c : Ctx) (w : Nat) : Except Trp (List Nat) :=
  let offs := (c.codes 0).map (intOf (c.fmt 0))
  let size : Int := ((bufDepth c.T c.buf * bufEsz c.T c.buf : Nat) : Int)
  let n : Int := ((w / 8 : Nat) : Int)
  match offs.find? fun o => decide (o < 0) || decide (size < o + n) with
  | some o => .error (.ptrSpace, BitVec.ofInt 64 o)
  | none => match offs.find? fun o => o % n != 0 with
    | some o => .error (.align, BitVec.ofInt 64 o)
    | none => .ok (offs.map fun o => bufBase c.T c.buf + o.toNat)
def execMrdx (t e : Nat) (s : State) : Out :=
  fireSlot 0x62 (fun c => c.byPolicy fun c => do
    let w := fmtWidth (c.ofmt 0)
    let offs ← c.offsets w
    let (l, s1) ← c.rdLanes w (offs.map some)
    pure { outs := [c.out 0 l], el := c.el, s := s1 }) t e s
def execMwrx (t e : Nat) (s : State) : Out :=
  fireSlot 0x63 (fun c => c.byPolicy fun c => do
    let w := fmtWidth (c.fmt 1)
    let offs ← c.offsets w
    let s1 ← (offs.zip (c.codes 1)).foldlM (fun s x => c.wr s x.1 (toBytes (w / 8) x.2)) c.s
    pure { outs := [], el := c.el, s := s1 }) t e s

/-! ## DRAIN_PASS (R205) -/

/-- Discard what stands or arrives on one cycle input of a slot that has passed the drain. -/
def discardHead (s : State) (sp t e j : Nat) : State :=
  match (tget (getTile s t).bufs (3 * e + j) []).head? with
  | none => s
  | some tok =>
    let s1 := markDrop (updTile s t fun T => popHead T (3 * e + j)) sp (qBuf t (3 * e + j)) 0
    if tok = .drain then updElem s1 t e fun x => { x with discard := x.discard.filter (· != j) } else s1

/-- DRAIN_PASS: slot e places a drain token on every output link, or discards what stands on a cycle input after that;
e = 8 is the weight-preload input of the matrix array, which takes its drain token. -/
def execDrainPass (t e : Nat) (s : State) : Out :=
  if e = 8 then
    .next (if headOf (getTile s t) 24 = some .drain then
      markDrop (updTile s t fun T => popHead T 24) (((getClus s (t / 16)).span).getD noSpan) (qBuf t 24) 0 else s)
  else
    match ctxOf s t e with
    | none => .next s
    | some c =>
      if c.el.drained then
        .next (c.el.discard.foldl (fun s j => discardHead s c.sp t e j) s)
      else if !c.drainHolds || c.mustFinish || !c.room (usedOuts c.T e c.receives) || decide (now s < c.el.busy) then .next s
      else
        let cy := c.cycleIns
        let s1 := updElem s t e fun x => { x with drained := true, discard := cy }
        let s2 := (usedOuts c.T e c.receives).foldl (fun s o => emit s c.sp t (0x10 + 2 * e + o) .drain) s1
        .next ((namedIns c.T e).foldl (fun s j => if cy.contains j then discardHead s c.sp t e j
          else markDrop (updTile s t fun T => popHead T (3 * e + j)) c.sp (qBuf t (3 * e + j)) 0) s2)

/-! ## The firing of a slot by its opcode -/

/-- The firing of slot e of tile t by the opcode the slot is configured with. -/
def firingOf (opc t e : Nat) : Option (State → Out) :=
  match opc with
  | 0x01 => some (execVadd t e)
  | 0x02 => some (execVsub t e)
  | 0x03 => some (execVmul t e)
  | 0x04 => some (execVfma t e)
  | 0x05 => some (execVmin t e)
  | 0x06 => some (execVmax t e)
  | 0x07 => some (execVabs t e)
  | 0x08 => some (execVneg t e)
  | 0x09 => some (execVdiv t e)
  | 0x0A => some (execVsqrt t e)
  | 0x0B => some (execVexp2 t e)
  | 0x0C => some (execVlog2 t e)
  | 0x0D => some (execVrcpe t e)
  | 0x0E => some (execVrsqe t e)
  | 0x10 => some (execViadd t e)
  | 0x11 => some (execVisub t e)
  | 0x12 => some (execVimul t e)
  | 0x13 => some (execVand t e)
  | 0x14 => some (execVor t e)
  | 0x15 => some (execVxor t e)
  | 0x16 => some (execVshl t e)
  | 0x17 => some (execVshr t e)
  | 0x18 => some (execVimin t e)
  | 0x19 => some (execVimax t e)
  | 0x20 => some (execVcmp t e)
  | 0x21 => some (execVsel t e)
  | 0x28 => some (execVcvt t e)
  | 0x29 => some (execVscale t e)
  | 0x2A => some (execVquant t e)
  | 0x2B => some (execVdeq t e)
  | 0x30 => some (execVdot t e)
  | 0x31 => some (execVlut t e)
  | 0x32 => some (execVnoise t e)
  | 0x33 => some (execVtopk t e)
  | 0x38 => some (execVred t e)
  | 0x39 => some (execVscan t e)
  | 0x3A => some (execRnet t e)
  | 0x40 => some (execVperm t e)
  | 0x41 => some (execVbcast t e)
  | 0x42 => some (execVpack t e)
  | 0x43 => some (execVunpack t e)
  | 0x44 => some (execVslide t e)
  | 0x50 => some (execSteer t e)
  | 0x51 => some (execMerge t e)
  | 0x52 => some (execGate t e)
  | 0x53 => some (execLimit t e)
  | 0x54 => some (execInit t e)
  | 0x55 => some (execCount t e)
  | 0x56 => some (execDrop t e)
  | 0x57 => some (execFill t e)
  | 0x58 => some (execCopy t e)
  | 0x60 => some (execMrd t e)
  | 0x61 => some (execMwr t e)
  | 0x62 => some (execMrdx t e)
  | 0x63 => some (execMwrx t e)
  | _ => none

/-- The state after a step, where it is a next state. -/
def after (f : State → Out) (s : State) : State :=
  match f s with
  | .next t => t
  | _ => s
end Sys2Proof.Machine
end

