-- ==== Sys2Proof/Machine/Couplers.lean ====
section
/-!
DEFINITION. Machine/Couplers.lean: router streams and fabric ports (R101, R102), couplers and their words (R179 to R195), the
digest words (R397 to R400).
-/
namespace Sys2Proof.Machine

/-! ## Router streams and fabric ports -/

/-- The fabric of a span moves tokens: placed, not frozen, not ended, not saved (R409). -/
def tokensMove (p : Span) : Bool := p.live && !p.frozen && !p.ended && !p.saved

/-- ROUTER_FORWARD (R101): the head of stream k of port d of a tile moves on to every link that starts at it. -/
def execRouterForward (t p k : Nat) (s : State) : Out :=
  match (getClus s (t / 16)).span with
  | none => .next s
  | some sp =>
    let q := getSpan s sp
    let c := 32 + 4 * p + k
    match headOf (getTile s t) c, nbr q t p with
    | some tok, some u =>
      let code := 0x20 + 4 * ((p + 2) % 4) + k
      if tokensMove q && decide (p < 4) && decide (k < 4) && canEmit s sp u code then
        .next (emitAt (markDrop (updTile s t fun T => popHead T c) sp (qBuf t c) 0) sp u code (markOf s (qBuf t c) 0) tok)
      else .next s
    | _, _ => .next s

/-- The links of a span that start at port fi n, as tile × 64 + consumer (R102). -/
def portLinks (s : State) (p : Span) (n : Nat) : List Nat :=
  (rectTiles p (wholeRect p)).flatMap fun t => (consumersOf (getTile s t) (0x50 + n)).map (t * 64 + ·)

/-- Has a link, as tile × 64 + consumer, done with the token of its port: a zero-slot link only shows it, and takes it when its
consumer fires (R171). -/
def linkDone (s : State) (p : Span) (l : Nat) : Bool :=
  slotsOf (getTile s (l / 64)) (l % 64) != 0 || held s p (l / 64) (l % 64) == 0
/-- FABRIC_PORT_OFFER (R102, R261): a waiting end-of-transfer token or drain token enters port fi n when there is room; the head
of the port is taken by each link that has a free credit, and leaves once every link has taken it. -/
def execFabricPortOffer (sp n : Nat) (s : State) : Out :=
  let p := getSpan s sp
  if !tokensMove p || decide (32 ≤ n) then .next s
  else
    let waits (x : Bool × Nat × Word) : Bool := x.1 && x.2.1 == n && !tokenHeld s sp x.2.2
    let s1 := match p.toks.find? waits with
      | some x =>
        if portRoom p.fi n then
          let i := p.toks.findIdx waits
          let s := markAdd (markDrop s sp (qToks sp) i) sp (qFi sp n) (tget p.fi n []).length 0 (markOf s (qToks sp) i)
          updSpan s sp fun p => { p with
            toks := p.toks.eraseP waits, fi := tput p.fi n (tget p.fi n [] ++ [.word (x.2.2.zeroExtend 512)]) }
        else s
      | none =>
        if p.fiDrain.contains n && portRoom p.fi n then
          updSpan (markAdd s sp (qFi sp n) (tget p.fi n []).length 0 []) sp fun p => { p with fiDrain := p.fiDrain.erase n, fi := tput p.fi n (tget p.fi n [] ++ [.drain]) }
        else s
    match tget (getSpan s1 sp).fi n [] with
    | [] => .next s1
    | tok :: rest =>
      let links := portLinks s1 p n
      let taken := tget p.fiTaken n []
      let m := markOf s1 (qFi sp n) 0
      let go (a : State × List Nat) (l : Nat) : State × List Nat :=
        if a.2.contains l || !roomAt a.1 sp (l / 64) (l % 64) then a else (pushTo a.1 sp (l / 64) (l % 64) none 1 m tok, l :: a.2)
      let (s2, taken2) := links.foldl go (s1, taken)
      let all := links.all fun l => taken2.contains l && linkDone s2 (getSpan s2 sp) l
      .next (updSpan (if all then markDrop s2 sp (qFi sp n) 0 else s2) sp fun p => { p with
        fi := if all then tput p.fi n rest else p.fi
        fiTaken := tput p.fiTaken n (if all then [] else taken2) })

/-! ## Couplers (R179 to R184) -/

/-- The rectangle of the configuration that configured coupler c. -/
def cplRect (T : Tile) (c : Nat) : Rect := tget T.rects (16 + c) {}
/-- The producer party of coupler c of tile t. -/
def producerOf (s : State) (p : Span) (t c : Nat) : Option (Nat × Nat) := cplProducer s p (cplRect (getTile s t) c) t c
/-- UPER in force. -/
def uperOf (T : Tile) (c : Nat) : Nat := ((tget T.cpl c {}).uper).getD (cplCfg T c).uper
/-- Occupancy of the coupled link of coupler c (R169): now, or with `n` = 0 as the cycle began. -/
def cplOcc (s : State) (t c n : Nat) : Nat := placedOn s (portSpan s (.slots t)) t (cplLink (cplCfg (getTile s t) c)) n
/-- The same at the start of the cycle (R181). -/
def startOcc (s : State) (t c : Nat) : Nat := ((tget (getTile s t).cpl c {}).occ).getD (cplOcc s t c 0)
/-- Has the phase's drain token entered the coupled input (R181)? -/
def cplDrained (T : Tile) (c : Nat) : Bool :=
  (tget T.bufs (cplLink (cplCfg T c)) []).contains .drain || (tget T.elems (cplCfg T c).cslot {}).drained
/-- Does TIMER of coupler c advance (R181)? It stands still from the command of a pre-emption on, and under the watchdog's QUIESCE, which
stops a span as that does (notes/assumptions/122.md, DESIGN CHOICE). -/
def cplRuns (s : State) (t c : Nat) : Bool :=
  let T := getTile s t
  cplEn T c && !cplDrained T c &&
  (match T.leaf with
   | some (sp, _) => let p := getSpan s sp; p.live && !p.frozen && !p.quiesced && !p.ended && !p.saved
   | none => false)

/-- The arithmetic of an update (R181): the integrator and u. -/
def cplStep (x : CplCfg) (slots occ : Nat) (integ : Int) : Int × Int :=
  let e : Int := (occ : Int) - (x.set : Int)
  let held := (occ == slots && decide (0 < e)) || (occ == 0 && decide (e < 0))
  let lim : Int := (x.imax : Int)
  let i := if held then integ else max (-lim) (min lim (integ + (x.ki : Int) * e))
  (i, ((x.kp : Int) * e + i) / 256)

/-- A contribution leaves for the producer: at once in the same tile, else by the control network (R183). -/
def toProducer (s : State) (p : Span) (t c : Nat) (v : Int) (k : Cpl) : Cpl :=
  match producerOf s p t c with
  | none => k
  | some (u, _) => if u = t then { k with prod := v } else { k with flight := k.flight ++ [(now s, v)] }

/-- The state after the update that coupler c owes in this cycle, if it owes one (R181). -/
def cplUpdate (s : State) (t c : Nat) : State :=
  let T := getTile s t
  let k := tget T.cpl c {}
  if !cplRuns s t c || k.upd || decide (k.timer + 1 < 2 ^ uperOf T c) then s
  else
    let p := match T.leaf with | some (sp, _) => getSpan s sp | none => {}
    let r := cplStep (cplCfg T c) (cplSlots T c) (startOcc s t c) k.integ
    updTile s t fun T => { T with
      cpl := tput T.cpl c (toProducer s p t c (-r.2) { k with
        integ := r.1, u := r.2, nupd := k.nupd + 1, timer := 0, uper := none, cons := r.2, upd := true }) }
/-- COUPLER_UPDATE (R181). -/
def execCouplerUpdate (t c : Nat) (s : State) : Out := .next (cplUpdate s t c)

/-- CONTRIBUTION_ARRIVAL (R183): the oldest contribution on its way takes part in the producer's draws. -/
def execContributionArrival (t c : Nat) (s : State) : Out :=
  let T := getTile s t
  match (tget T.cpl c {}).flight with
  | [] => .next s
  | x :: rest => .next (updTile s t fun T => { T with cpl := tput T.cpl c { tget T.cpl c {} with prod := x.2, flight := rest } })

/-! ## cpl.set and cpl.get (R190 to R195) -/

/-- The coupler a selector names, or the trap (R192). -/
def cplSel (s : State) (v : Word) : Except Trp (Nat × Nat) :=
  let p := curSpan s
  if v.toNat / 2 ^ 14 ≠ 0 ∨ v.toNat % 16 = 15 then .error (rejectT 0x04 0)
  else if rectCount (wholeRect p) ≤ wbits v 13 4 then .error (rejectT 0x05 0)
  else .ok (rectTile p (wholeRect p) (wbits v 13 4), v.toNat % 16)

/-- The fields a parameter writes: (field, low bit of the value, width). -/
def cplFields : CplParam → List (Nat × Nat × Nat)
  | .sp => [(3, 0, 4)] | .kp => [(4, 0, 12)] | .ki => [(5, 0, 12)] | .uper => [(6, 0, 4)]
  | .imax => [(7, 0, 12), (8, 12, 12)] | .basep => [(9, 0, 8)] | .basec => [(10, 0, 8)]
  | .wmin => [(11, 0, 8)] | .wmax => [(12, 0, 8)] | .irst => []
/-- The field's value before. -/
def cplOld (x : CplCfg) : CplParam → Nat
  | .sp => x.set | .kp => x.kp | .ki => x.ki | .uper => x.uper | .imax => x.imax | .basep => x.basep | .basec => x.basec
  | .wmin => x.wmin | .wmax => x.wmax | .irst => 0
/-- Is a new value in its parameter's range (R191)? -/
def cplInRange (x : CplCfg) (slots v : Nat) : CplParam → Bool
  | .sp => decide (v ≤ slots) | .kp => decide (v ≤ 4095) | .ki => decide (v ≤ 4095)
  | .uper => decide (4 ≤ v) && decide (v ≤ 12) | .imax => decide (v < 2 ^ 24) | .basep => decide (v ≤ 255)
  | .basec => decide (v ≤ 255) | .wmin => decide (v ≤ x.wmax) | .wmax => decide (x.wmin ≤ v) && decide (v ≤ 255) | .irst => true
/-- A tile with a parameter of coupler c written, until a commit writes it or STATE or CFG is cleared (R193). -/
def cplPut (T : Tile) (c v : Nat) (r : CplParam) : Tile :=
  let key (x : Nat × Nat × Nat) : Nat := (16 + c) * 32 + x.1
  { T with
    wasCfg := (cplFields r).foldl (fun g x => if (tfind g (key x)).isSome then g else tput g (key x) (tget T.cfg (key x) 0)) T.wasCfg
    cfg := (cplFields r).foldl (fun g x => tset g (key x) (BitVec.ofNat 12 (v / 2 ^ x.2.1 % 2 ^ x.2.2)) 0) T.cfg }
/-- The parties of every coupler of the region. -/
def allParties (s : State) (p : Span) : List Party :=
  (rectTiles p (wholeRect p)).flatMap fun t =>
    (List.range 15).flatMap fun c => partiesOf s p (cplRect (getTile s t) c) t c

/-- The checks that the new value of a coupler's parameter passes (R192), on the state with it written. -/
def cplChecks (s1 : State) (p : Span) (t c : Nat) : Except Trp Unit := do
  let T1 := getTile s1 t
  let y := cplCfg T1 c
  let all := allParties s1 p
  let mine := partiesOf s1 p (cplRect T1 c) t c
  if mine.any fun a => !agrees all a then throw (rejectT 0x04 0)
  if mine.any fun a => !kpOk all a then throw (rejectT 0x0D 0)
  if y.kp < 4 * y.ki then throw (rejectT 0x0E 0)
  if 2 ^ y.uper < 4 * (cplSlots T1 c + 2) then throw (rejectT 0x0F 0)
/-- cpl.set's checks, effect and old value (R192, R193). An update of this cycle comes first, with the old values; `.irst` has no
new value to check. -/
def cplSetEff (s : State) (sa sb : Word) (r : CplParam) : Except Trp (State × Nat) := do
  let (t, c) ← cplSel s sa
  let p := curSpan s
  let s0 := cplUpdate s t c
  let T := getTile s0 t
  let x := cplCfg T c
  let v := sb.toNat
  if !cplEn T c || !cplInRange x (cplSlots T c) v r then throw (rejectT 0x04 0)
  let s1 := if r = .irst then s0 else updTile s0 t fun T => cplPut T c v r
  if r ≠ .irst then cplChecks s1 p t c
  let k := tget T.cpl c {}
  let k1 : Cpl := match r with
    | .irst => toProducer s p t c 0 { k with integ := 0, u := 0, cons := 0 }
    | .uper => { k with uper := some (uperOf T c) }
    | _ => k
  let s2 := updTile s1 t fun T => { T with last := none, cpl := tput T.cpl c k1 }
  pure (clearResid s2 p, cplOld x r)

def execCplSet (nx : Nx) (sd sa sb : Reg) (p : CplParam) (s : State) : Out :=
  endWord (.cplSet nx sd sa sb p) nx (0, 0, 0) s
    (match cplSetEff s (reg s sa) (reg s sb) p with
     | .ok (s1, old) => .done s1 (wr1 sd (wd old))
     | .error t => .trap s t)

/-- The state on which an item of coupler c is read: after the updates that this cycle owes, of the coupler and, for a ticket count, of
every coupler that touches its slot (R195). -/
def itemState (s : State) (p : Span) (t c : Nat) (i : CplItem) : State :=
  let slot : Option (Nat × Nat) := match i with
    | .ptick => producerOf s p t c
    | .ctick => some (t, (cplCfg (getTile s t) c).cslot)
    | _ => none
  let others := match slot with | some u => touching s p u.1 u.2 | none => []
  others.foldl (fun s y => cplUpdate s y.2.1 y.2.2) (cplUpdate s t c)
/-- The value of an item (R194, R195), on that state. -/
def cplItem (s : State) (p : Span) (t c : Nat) (i : CplItem) : Word :=
  let T := getTile s t
  let x := cplCfg T c
  let k := tget T.cpl c {}
  if !cplEn T c then 0
  else match i with
    | .occ => wd (cplOcc s t c 1)
    | .integ => Word.ofInt k.integ
    | .u => Word.ofInt k.u
    | .ptick => (match producerOf s p t c with | some (u, e) => wd (tickets s p u e) | none => 0)
    | .ctick => wd (tickets s p t x.cslot)
    | .nupd => k.nupd.zeroExtend 64

def execCplGet (nx : Nx) (sd sa : Reg) (i : CplItem) (s : State) : Out :=
  endWord (.cplGet nx sd sa i) nx (0, 0, 0) s
    (match cplSel s (reg s sa) with
     | .ok (t, c) => .done s (wr1 sd (cplItem (itemState s (curSpan s) t c i) (curSpan s) t c i))
     | .error t => .trap s t)

/-! ## dig.on and dig.read (R399, R400) -/

/-- Is a write of the span to GLOBAL or BASE, issued before the mark, yet to complete: an access of a port, or an element of a job? -/
def digWaits (s : State) (m : Nat) : Bool :=
  let here (p : Word) : Bool := pSpace p == 0 || pSpace p == 3
  (s.net.acc.any fun a => decide (issuedAs a < m) && isWrite a.kind && here a.ptr &&
    portSpan s a.port == s.cur.sp && (match a.port with | .device _ => false | _ => true)) ||
  (curSpan s).streams.any fun x => x.2.jobs.any fun j => j.flight.any fun f =>
    decide (f.2 < m) && (match tfind j.ptrs f.1 with | some y => here y.2 | none => false)
/-- A word that waits for those writes; a recorded POD fault of its handler traps it (R377). -/
def digWord (i : Instr) (nx : Nx) (k : State → State × Word) (sd : Reg) (s : State) : Out :=
  let m := (latchMark s).getD s.sched.nextId
  endWord i nx (0, 0, 0) s
    (match (curH s).podFault with
     | some f => .trap (clearPod s) (f.1, f.2.1)
     | none => if digWaits s m then .wait s m else let r := k s; .done r.1 (wr1 sd r.2))

def execDigOn (nx : Nx) (sd : Reg) (rst : Bool) (s : State) : Out :=
  digWord (.digOn nx sd rst) nx (fun s =>
    (updSpan s s.cur.sp fun p => { p with digOn := true, digW := if rst then [] else p.digW }, (digest s (curSpan s).digW).1)) sd s
def execDigRead (nx : Nx) (sd : Reg) (hi : Bool) (s : State) : Out :=
  digWord (.digRead nx sd hi) nx (fun s =>
    let d := digest s (curSpan s).digW
    (s, if hi then d.2 else d.1)) sd s

end Sys2Proof.Machine
end

