-- ==== Sys2Proof/Machine/Integer.lean ====
section
/-!
DEFINITION. Machine/Integer.lean: the integer words (R147 to R153).
-/
namespace Sys2Proof.Machine

def execAdd (nx : Nx) (o : RegOp) (s : State) : Out := aluWord (fun _ => aluAdd) nx o s
def execSub (nx : Nx) (o : RegOp) (s : State) : Out := aluWord (fun _ => aluSub) nx o s
def execMul (nx : Nx) (o : RegOp) (s : State) : Out := aluLate 4 (fun _ => aluMul) nx o s
def execMulh (nx : Nx) (o : RegOp) (s : State) : Out := aluLate 4 (fun _ => aluMulh) nx o s
def execMulhu (nx : Nx) (o : RegOp) (s : State) : Out := aluLate 4 (fun _ => aluMulhu) nx o s
def execDiv (nx : Nx) (o : RegOp) (s : State) : Out := aluLate (divCycles o) (fun _ => aluDiv) nx o s
def execDivu (nx : Nx) (o : RegOp) (s : State) : Out := aluLate (divCycles o) (fun _ => aluDivu) nx o s
def execRem (nx : Nx) (o : RegOp) (s : State) : Out := aluLate (divCycles o) (fun _ => aluRem) nx o s
def execRemu (nx : Nx) (o : RegOp) (s : State) : Out := aluLate (divCycles o) (fun _ => aluRemu) nx o s
def execAnd (nx : Nx) (o : RegOp) (s : State) : Out := aluWord (fun _ => aluAnd) nx o s
def execOr (nx : Nx) (o : RegOp) (s : State) : Out := aluWord (fun _ => aluOr) nx o s
def execXor (nx : Nx) (o : RegOp) (s : State) : Out := aluWord (fun _ => aluXor) nx o s
def execSll (nx : Nx) (o : RegOp) (s : State) : Out := aluWord (fun _ => aluSll) nx o s
def execSrl (nx : Nx) (o : RegOp) (s : State) : Out := aluWord (fun _ => aluSrl) nx o s
def execSra (nx : Nx) (o : RegOp) (s : State) : Out := aluWord (fun _ => aluSra) nx o s
def execMin (nx : Nx) (o : RegOp) (s : State) : Out := aluWord (fun _ => aluMin) nx o s
def execMax (nx : Nx) (o : RegOp) (s : State) : Out := aluWord (fun _ => aluMax) nx o s
def execMinu (nx : Nx) (o : RegOp) (s : State) : Out := aluWord (fun _ => aluMinu) nx o s
def execMaxu (nx : Nx) (o : RegOp) (s : State) : Out := aluWord (fun _ => aluMaxu) nx o s

def execAddi (nx : Nx) (o : ImmOp) (s : State) : Out := immWord aluAdd nx o s
def execAndi (nx : Nx) (o : ImmOp) (s : State) : Out := immWord aluAnd nx o s
def execOri (nx : Nx) (o : ImmOp) (s : State) : Out := immWord aluOr nx o s
def execXori (nx : Nx) (o : ImmOp) (s : State) : Out := immWord aluXor nx o s
def execSlli (nx : Nx) (o : ShOp) (s : State) : Out := shWord aluSll nx o s
def execSrli (nx : Nx) (o : ShOp) (s : State) : Out := shWord aluSrl nx o s
def execSrai (nx : Nx) (o : ShOp) (s : State) : Out := shWord aluSra nx o s

/-- li (R153). -/
def execLi (nx : Nx) (sd : Reg) (imm : BitVec 32) (s : State) : Out := pureWord nx (wr1 sd (imm.signExtend 64)) s
/-- li.hi (R153): bits [31:0] stay. -/
def execLiHi (nx : Nx) (sd : Reg) (imm : BitVec 32) (s : State) : Out :=
  pureWord nx (wr1 sd (imm ++ (reg s sd).truncate 32)) s

/-- cmp (R150). -/
def execCmp (nx : Nx) (o : RegOp) (c : Cond) (s : State) : Out := aluWord (fun _ => aluCmp c) nx o s
/-- cmpi (R150): b := SEXT(IMM[20:0], 21). -/
def execCmpi (nx : Nx) (sd sa : Reg) (fd : BitVec 3) (fe : Bool) (c : Cond) (imm : BitVec 21) (s : State) : Out :=
  let r := aluCmp c (reg s sa) (imm.signExtend 64)
  pureWord nx (wrF sd r.1 fd fe r.2) s

/-- sel (R151). -/
def execSel (nx : Nx) (sd sa sb : Reg) (f : BitVec 3) (s : State) : Out :=
  pureWord nx (wr1 sd (if flagBit (curH s).flags f then reg s sa else reg s sb)) s

/-- bits (R152). -/
def execBits (nx : Nx) (o : RegOp) (se : Reg) (fn : BitsFn) (s : State) : Out :=
  let r := atWidth o.wd (fun w a => aluBits fn a ((reg s o.sb).truncate w) ((reg s se).truncate w)) (reg s o.sa)
  pureWord nx (wrF o.sd r.1 o.fd o.fe r.2) s

end Sys2Proof.Machine
end

