-- ==== Sys2Proof/Machine/Launch.lean ====
section
/-!
DEFINITION. Machine/Launch.lean: dispatch, the Bellwether's walk of a graph, placement, start, configuration commits, the end
of spans, retirement (R49 to R55, R61, R69, R76, R116 to R125, R135, R142, R427 to R429).
-/
namespace Sys2Proof.Machine

/-! ## Dispatch (R116, R117) -/

/-- A free Bellwether slot of a die. -/
def freeSlot (s : State) (die : Nat) : Option Nat := ((List.range 16).map (die * 16 + ·)).find? fun k => !(getL s k).v
/-- WST of a queue (R419). -/
def qWst (s : State) (q : Nat) : Nat := wbits (qword s q) 43 41
/-- The head of a queue's list on a die. -/
def queueHead (s : State) (die q : Nat) : Option Nat := (tget s.ctl.ready (die * 64 + q) []).head?
/-- The contenders of a die: (queue, head entry), in ascending number. -/
def contenders (s : State) (die : Nat) : List (Nat × Nat) :=
  (List.range 64).filterMap fun q =>
    match queueHead s die q with
    | some k => if isSet (qword s q).toNat 59 && !isSet (qword s q).toNat 58 && qWst s q == 0 then some (q, k) else none
    | none => none
/-- TICK of an entry. -/
def eTick (s : State) (k : Nat) : Nat := wbits (entryW s k 0) 53 46
/-- One step of the dispatcher's generator (R116). -/
def xorshift (x : BitVec 32) : BitVec 32 :=
  let x := x ^^^ (x <<< 13)
  let x := x ^^^ (x >>> 17)
  x ^^^ (x <<< 5)
/-- The first contender whose running sum of tickets exceeds r. -/
def lottery (s : State) (r : Nat) : Nat → List (Nat × Nat) → Option (Nat × Nat)
  | _, [] => none
  | sum, c :: l => if r < sum + eTick s c.2 then some c else lottery s r (sum + eTick s c.2) l
/-- Age of an entry that heads its list. -/
def headAge (s : State) (die k : Nat) : Nat := tget (tget s.ctl.disp die {}).ages k 0
/-- The pick of R116: the contender and the dispatcher after it. -/
def dispatchPick (s : State) (die : Nat) : Option ((Nat × Nat) × Disp) :=
  let d := tget s.ctl.disp die {}
  let cs := contenders s die
  let old := cs.filter fun c => decide (0 < eTick s c.2) && decide (2 ^ 19 ≤ headAge s die c.2)
  let t := sumNat (cs.map fun c => eTick s c.2)
  let oldest := old.foldl (fun (m : Option (Nat × Nat)) c => match m with
    | none => some c
    | some x => if headAge s die x.2 < headAge s die c.2 then some c else some x) none
  match oldest with
  | some c => some (c, d)
  | none =>
    if 0 < t then
      let x := xorshift d.x
      (lottery s (x.toNat % t) 0 cs).map fun c => (c, { d with x := x })
    else
      let c := match cs.find? fun c => decide (d.rot < c.1) with
        | some c => some c
        | none => cs.head?
      c.map fun c => (c, { d with rot := c.1 })

/-- LAUNCH_DISPATCH (R116): at most one every 64 cycles, while a slot is free. -/
def execLaunchDispatch (die : Nat) (s : State) : Out :=
  if 4 ≤ die ∨ now s < (tget s.ctl.disp die {}).nextAt then .next s
  else match freeSlot s die, dispatchPick s die with
    | some slot, some (c, d) =>
      let k := c.2
      let s1 := setEntryW s k 7 (wd (3 * 2 ^ 60))
      let s2 := updCtl s1 fun x => { x with disp := tput x.disp die { d with nextAt := now s + 64 } }
      let s3 := unReady s2 k
      let (id, s4) := freshId s3
      let img := tget s.ctl.entries k 0
      .next (updL s4 slot fun l => { v := true, uid := id, entry := k, img := img, save := l.save, checked := wordAt img 1 == 0 })
    | _, _ => .next s

/-! ## Launch records -/

def lTenant (l : Launch) : Nat := wbits (wordAt l.img 0) 63 60
def lQueue (l : Launch) : Nat := wbits (wordAt l.img 0) 59 54
def lDet (l : Launch) : Bool := isSet (wordAt l.img 0).toNat 45
def lSeed (l : Launch) : BitVec 128 := wordAt l.img 5 ++ wordAt l.img 4

/-- Fields of a section record (R50). -/
def rW (r : Wide) (i : Nat) : Word := wordAt r i
def secKind (r : Wide) : Nat := wbits (rW r 0) 63 60
def secRh (r : Wide) : Nat := wbits (rW r 0) 55 52
def secRw (r : Wide) : Nat := wbits (rW r 0) 51 48
def secNpred (r : Wide) : Nat := wbits (rW r 0) 47 36
def secNsucc (r : Wide) : Nat := wbits (rW r 0) 35 24
def secSuccix (r : Wide) : Nat := wbits (rW r 0) 23 12
def secNcfg (r : Wide) : Nat := wbits (rW r 3) 31 16
def secNhnd (r : Wide) : Nat := wbits (rW r 3) 15 12
def secAff (r : Wide) : Nat := wbits (rW r 3) 63 32
/-- Does section record n break R50 or R52? -/
def secBad (r : Wide) (n : Nat) : Bool :=
  let tcnt := wbits (rW r 4) 31 0
  decide (1 < secKind r) || wbits (rW r 0) 59 56 != 0 || !(decide (1 ≤ secRh r) && decide (secRh r ≤ 8)) ||
  !(decide (1 ≤ secRw r) && decide (secRw r ≤ 8)) || decide (2047 < secNpred r) || decide (2047 < secNsucc r) ||
  wbits (rW r 0) 11 0 != n || pOff (rW r 1) % 8 != 0 || pOff (rW r 2) % 16 != 0 ||
  !(decide (1 ≤ secNcfg r) && decide (secNcfg r ≤ 256)) || (isSet (rW r 3).toNat 7 && decide (secNhnd r < wbits (rW r 3) 11 8)) ||
  wbits (rW r 3) 6 0 != 0 || wbits (rW r 4) 63 32 != 0 || (secKind r == 0 && tcnt != 0) || (secKind r == 1 && tcnt == 0) ||
  pOff (rW r 5) % 64 != 0 || pOff (rW r 6) % 64 != 0 || pOff (rW r 7) % 8 != 0

/-! ## Failure (R76) -/

/-- A check or read that fails: its trap, its section, and whether it is a rejection. -/
def failCode (t : Trp) : Nat := if t.1 = .configReject then wbits t.2 7 0 else 0x80 + t.1.code
/-- The launch is marked failed and the event is posted; no further section is armed, and what was armed and not placed is
dropped. -/
def failLaunch (s : State) (slot sec : Nat) (t : Trp) : State :=
  let l := getL s slot
  let drop (x : Sec) : Sec := match x.st with | .armed _ => { x with st := .ended } | _ => x
  let s1 := updL s slot fun l => { l with
    failed := some (l.failed.getD (BitVec.ofNat 8 (failCode t), BitVec.ofNat 12 sec, t.1, t.2)), checked := true, secs := l.secs.map drop }
  let s2 := updCtl s1 fun c => { c with place := c.place.map fun p => (p.1, p.2.filter fun q => q.1 != slot) }
  postEvent s2 { type := t.1.code, tenant := lTenant l, die := l.entry / 4096, entry := l.entry, sec := sec, queue := lQueue l
                 w1 := wd t.1.code, w2 := t.2, w3 := 0, w4 := 0, user := wordAt l.img 6 }

/-- A reading of a tenant's records on a die asks for what it lacks: the walk of a page by the die's walker, or bytes of a peer (R252,
R377, R430). -/
def askRecord (s : State) (tn die : Nat) : Stop → State
  | .xlat p w => askXlat s (.device tn) p w (some (64 * die))
  | .peer p n _ _ =>
    if s.net.acc.any fun a => a.port == .device tn && a.tag == .fetch then s
    else issueAcc s { port := .device tn, tag := .fetch, clus := some (64 * die) } p n
  | _ => s
/-- The launch fails, or the read waits. -/
def failOrAsk (s : State) (slot sec : Nat) (e : Stop) (k : State → State) : State :=
  let tn := lTenant (getL s slot)
  match e with
  | .trap t _ => k (dropHeld (failLaunch s slot sec t) tn)
  | e => askRecord s tn (slot / 16) e

/-! ## The graph (R49 to R51, R118) -/

/-- Read the successor indices of a section. -/
def readSucc (s : State) (tn : Nat) (x : PortId) (succ : Word) (r : Wide) : Except Stop (List Nat) :=
  (List.range (secNsucc r)).mapM fun i => do
    let b ← readRec s tn x (ptrPlus succ (2 * (secSuccix r + i))) 2 1
    pure (ofBytes b)
/-- Rounds of removing sections whose predecessors are all gone; what is left lies on or behind a cycle. -/
def peel (succ : List (List Nat)) : Nat → List Nat → List Nat
  | 0, left => left
  | n + 1, left => peel succ n (left.filter fun v => left.any fun u => (nth succ u []).contains v)
/-- The first section at which the successor lists break R51. -/
def succBad (nroot : Nat) (secs : List Wide) (succ : List (List Nat)) : Option Nat :=
  let n := secs.length
  let ids := List.range n
  let all := succ.flatMap id
  match ids.find? fun i => (nth succ i []).any (fun v => decide (n ≤ v)) || !noRepeats (nth succ i []) ||
      decide ((all.filter (· == i)).length ≠ secNpred (nth secs i 0)) with
  | some i => some i
  | none =>
    if (secs.filter fun r => secNpred r == 0).length ≠ nroot then some 0
    else (peel succ n ids).head?
/-- The graph of a launch: its sections and successor lists, or the section and why it cannot be read or is rejected. -/
def readGraph (s : State) (l : Launch) : Except (Nat × Stop) (List Wide × List (List Nat) × Word) := do
  let tn := lTenant l
  let x := PortId.device tn
  let g := wordAt l.img 1
  let at_ {α : Type} (n : Nat) (r : Except Stop α) : Except (Nat × Stop) α := match r with | .ok a => .ok a | .error t => .error (n, t)
  let graphBad (n : Nat) : Nat × Stop := (n, .trap (rejectT 0x14 n) s.net)
  if pOff g % 64 ≠ 0 then throw (graphBad 0)
  let h := wordsOf 8 (← at_ 0 (readRec s tn x g 64 1))
  let w (i : Nat) := nth h i 0
  let nsec := wbits (w 0) 55 44
  let nroot := wbits (w 0) 43 32
  if wbits (w 0) 63 56 ≠ 1 ∨ nsec = 0 ∨ 2048 < nsec ∨ nroot = 0 ∨ wbits (w 0) 31 0 ≠ 0 ∨ pOff (w 1) % 64 ≠ 0 ∨ pOff (w 2) % 2 ≠ 0 ∨
      ((h.drop 3).any fun v => v != 0) = true then throw (graphBad 0)
  let secs ← (List.range nsec).mapM fun n => do
    let b ← at_ n (readRec s tn x (ptrPlus (w 1) (64 * n)) 64 1)
    pure (BitVec.ofNat 512 (ofBytes b))
  let succ ← (List.range nsec).mapM fun n => at_ n (readSucc s tn x (w 2) (nth secs n 0))
  match succBad nroot secs succ with
  | some n => throw (graphBad n)
  | none =>
    match (List.range nsec).find? fun n => secBad (nth secs n 0) n with
    | some n => throw (n, .trap (rejectT 0x15 n) s.net)
    | none => pure (secs, succ, w 2)

/-- Section n is armed: it joins the placement list of its die (R118). -/
def armSection (s : State) (slot n : Nat) : State :=
  let s1 := updL s slot fun l => { l with secs := l.secs.set n { nth l.secs n {} with st := .armed (now s) } }
  updCtl s1 fun c => { c with place := tput c.place (slot / 16) (tget c.place (slot / 16) [] ++ [(slot, n)]) }

/-- GRAPH_CHECK (R118). -/
def execGraphCheck (slot : Nat) (s : State) : Out :=
  let l := getL s slot
  if !l.v || l.checked || l.sst == .killing then .next s
  else match readGraph s l with
    | .error (n, t) => .next (failOrAsk s slot n t id)
    | .ok (secs, succ, _) =>
      let s1 := updL (dropHeld s (lTenant l)) slot fun l => { l with
        checked := true, succ := succ, secs := secs.map fun r => { record := r, preds := secNpred r, st := .waiting } }
      .next (((List.range secs.length).filter fun n => secNpred (nth secs n 0) == 0).foldl (fun s n => armSection s slot n) s1)

/-! ## Placement (R53, R54, R56, R61, R119 to R121) -/

/-- A section's span before it is placed. -/
def sectionSpan (s : State) (slot n : Nat) : Span :=
  let l := getL s slot
  let r := (nth l.secs n {}).record
  { slot := slot, sec := n, die := l.entry / 4096, entry := l.entry, tenant := BitVec.ofNat 4 (lTenant l), det := lDet l
    rh := secRh r, rw := secRw r, prog := rW r 1, cfgt := rW r 2, shpt := rW r 5, args := rW r 7, ncfg := secNcfg r, nhnd := secNhnd r
    ten := isSet (rW r 3).toNat 7, thnd := wbits (rW r 3) 11 8, isMatrix := secKind r == 1, tcnt := wbits (rW r 4) 31 0, seed := lSeed l
    digOn := lDet l }

/-- Handler entry i and channel map byte c of a table. -/
def hEntry (b : List Byte) (i : Nat) : Word := wd (ofBytes ((b.drop (8 * i)).take 8))
def chByte (b : List Byte) (c : Nat) : Nat := (nth b (128 + c) 0).toNat
/-- Does a handler table break R53 or R54? -/
def htabBad (b : List Byte) (nhnd : Nat) : Bool :=
  (List.range 16).any (fun i => let e := hEntry b i
    if i ≤ nhnd then wbits e 63 36 != 0 || wbits e 30 24 != 0 else e != 0) ||
  !isSet (hEntry b 0).toNat 31 ||
  (List.range 64).any fun c => bitsOf (chByte b c) 6 4 != 0 || (decide (nhnd < chByte b c % 16))
/-- The channel map: bound channels and their handlers. -/
def chanMap (b : List Byte) : Tab Nat :=
  (List.range 64).filterMap fun c => if isSet (chByte b c) 7 then some (c, chByte b c % 16) else none
/-- A handler as the table gives it (R135). -/
def startHandler (e : Word) : Handler :=
  let entry : BitVec 24 := BitVec.ofNat 24 (wbits e 23 0)
  { pc := entry, entry := entry, mask := isSet e.toNat 35, prio := BitVec.ofNat 3 (wbits e 34 32)
    st := if isSet e.toNat 31 then .runnable else .stopped }

/-- The records of a section, in the order of their subcodes: the handler table's bytes. -/
def checkRecords (s : State) (p : Span) (htab : Word) : Except Stop (List Byte) := do
  let tn := p.tenant.toNat
  let x := PortId.device tn
  let reject (sub : Nat) : Stop := .trap (rejectT sub p.sec) s.net
  let b ← readRec s tn x htab 192 1
  if htabBad b p.nhnd then throw (reject 0x16)
  if p.shpt ≠ 0 then
    let r0 ← readRec s tn x p.shpt 64 1
    let n := wbits (nth (wordsOf 8 r0) 0 0) 53 48
    if (parseShape (wordsOf 8 r0) true).isNone then throw (reject 0x17)
    for i in List.range (n - 1) do
      let r ← readRec s tn x (ptrPlus p.shpt (64 * (i + 1))) 64 1
      if (parseShape (wordsOf 8 r) false).isNone then throw (reject 0x17)
  for c in List.range p.ncfg do
    match readDesc s p x c with
    | .ok _ => pure ()
    | .error (.trap t n) => throw (if t.1 = .configReject then reject 0x1B else .trap t n)
    | .error e => throw e
  pure b

/-- Anchors of a die at which an RH × RW rectangle lies within it, in ascending rank. -/
def anchors (die rh rw : Nat) : List Nat :=
  (List.range (9 - rh)).flatMap fun y => (List.range (9 - rw)).map fun x => 64 * die + 8 * y + x
/-- May a tenant's section be placed on a cluster (R119, R422, R445)? -/
def clusFree (s : State) (tn r : Nat) : Bool :=
  clusOwner s r == tn && !clusBusy s r && (getClus s r).span.isNone && !(s.ctl.dogs.any fun d => d.2.clusters.contains r)
/-- The tag of an idle resident region that matches a section (R120). -/
def residMatch (s : State) (p : Span) (laff saff a : Nat) : Bool :=
  laff != 0 && saff != 0 && (rectRanks a p.rh p.rw).all fun r =>
    (getClus s r).resid == some { laff := BitVec.ofNat 32 laff, saff := BitVec.ofNat 32 saff, cfgt := p.cfgt, index := 0, anchor := a, rh := p.rh, rw := p.rw }
/-- The region of R119: its anchor, and whether it is resident. -/
def chooseRegion (s : State) (p : Span) (laff saff : Nat) : Option (Nat × Bool) :=
  let free := (anchors p.die p.rh p.rw).filter fun a => (rectRanks a p.rh p.rw).all (clusFree s p.tenant.toNat)
  match free.find? (residMatch s p laff saff) with
  | some a => some (a, true)
  | none =>
    match free.find? fun a => (rectRanks a p.rh p.rw).all fun r => (getClus s r).resid.isNone with
    | some a => some (a, false)
    | none => free.head?.map (·, false)
/-- Does the rectangle fit within the clusters the tenant owns on the die at all (R121)? -/
def everFits (s : State) (p : Span) : Bool :=
  (anchors p.die p.rh p.rw).any fun a => (rectRanks a p.rh p.rw).all fun r => clusOwner s r == p.tenant.toNat
/-- The region a section of a launch would take now. -/
def regionOf (s : State) (slot n : Nat) : Option (Nat × Bool) :=
  let l := getL s slot
  chooseRegion s (sectionSpan s slot n) (wbits (wordAt l.img 3) 63 32) (secAff (nth l.secs n {}).record)

/-- May sections of a launch be placed (R413, R420)? -/
def mayPlace (s : State) (slot : Nat) : Bool :=
  let l := getL s slot
  l.v && l.failed.isNone && (l.sst == .running || l.sst == .frozen) && !(s.ctl.dogs.any fun d => d.2.slots.contains slot)
/-- Is a resumed span of the die waiting for clusters that are free (R415)? -/
def restoreFirst (s : State) (die : Nat) : Bool :=
  s.spans.any fun p => p.2.live && p.2.saved && p.2.die == die && (getL s p.2.slot).resume && (regionRanks p.2).all (clusFree s p.2.tenant.toNat)
/-- Since when a section waits. -/
def armedAt (s : State) (q : Nat × Nat) : Nat := match (nth (getL s q.1).secs q.2 {}).st with | .armed c => c | _ => now s
/-- Is it the turn of a section in its placement list (R121): no older one can be placed now, and none of its tenant has waited
2^20 cycles? -/
def placeTurn (s : State) (slot n : Nat) : Bool :=
  let older := (tget s.ctl.place (slot / 16) []).takeWhile (· != (slot, n))
  older.all fun q => !(mayPlace s q.1 && (regionOf s q.1 q.2).isSome) &&
    !(decide (armedAt s q + 2 ^ 20 ≤ now s) && lTenant (getL s q.1) == lTenant (getL s slot))

/-- The span is placed: its clusters are reserved, STATE and ACC are cleared, and it waits to start (R123). -/
def placeSpan (s : State) (slot n : Nat) (p : Span) (b : List Byte) (a : Nat) (res : Bool) : State :=
  let (sp, s1) := freshId s
  let ranks := rectRanks a p.rh p.rw
  let p1 := { p with
    live := true, starting := true, anchor := a, loadPending := !res, clearDue := now s + max (8 * (p.nhnd + 1)) 2080
    hs := (List.range (p.nhnd + 1)).map fun i => (i, { startHandler (hEntry b i) with st := .stopped, pend := isSet (hEntry b i).toNat 31 })
    chmap := chanMap b }
  let s2 := if res then s1 else dropResid s1 ranks
  let s3 := ranks.foldl (fun s r => updClus s r fun c => { c with span := some sp }) s2
  let s4 := { s3 with spans := tput s3.spans sp p1 }
  let s5 := (rectTiles p1 (wholeRect p1)).foldl (clearTile 3) s4
  let s6 := updL s5 slot fun l => { l with secs := l.secs.set n { nth l.secs n {} with st := .placed } }
  updCtl s6 fun c => { c with place := c.place.map fun x => (x.1, x.2.filter (· != (slot, n))) }

/-- SECTION_PLACE (R119 to R123): the section's records are checked, then it takes the region the rules choose, when there is
one and it is its turn. -/
def execSectionPlace (slot sec : Nat) (s : State) : Out :=
  let l := getL s slot
  let armed := match (nth l.secs sec {}).st with | .armed _ => true | _ => false
  if !armed || !mayPlace s slot || !(tget s.ctl.place (slot / 16) []).contains (slot, sec) then .next s
  else
    let p := sectionSpan s slot sec
    if !everFits s p then .next (failLaunch s slot sec (rejectT 0x15 sec))
    else match checkRecords s p (rW (nth l.secs sec {}).record 6) with
      | .error t => .next (failOrAsk s slot sec t id)
      | .ok b =>
        if !placeTurn s slot sec || restoreFirst s p.die then .next s
        else match regionOf s slot sec with
          | none => .next s
          | some (a, res) => .next (placeSpan (dropHeld s p.tenant.toNat) slot sec p b a res)

/-! ## Start (R55, R76, R123, R125, R135) -/

/-- A placement that fails: CFG is cleared, the clusters are freed, the section has ended (R76). -/
def stopPlacement (s : State) (sp : Nat) : State :=
  let p := getSpan s sp
  let s1 := clearResid ((rectTiles p (wholeRect p)).foldl (clearTile 8) s) p
  let s2 := (regionRanks p).foldl (fun s r => updClus s r fun c => { c with span := none }) s1
  let s3 := updL s2 p.slot fun l => { l with secs := l.secs.set p.sec { nth l.secs p.sec {} with st := .ended } }
  { s3 with spans := tdel s3.spans sp }

/-- The start state of the selector of a tile (R125). -/
def selectorStart (s : State) (p : Span) (t : Nat) : BitVec 32 × State :=
  if p.det then
    let x := (lh128 (q4 (p.seed.toNat) (p.seed.toNat / 2 ^ 32) (p.seed.toNat / 2 ^ 64) (p.seed.toNat / 2 ^ 96)) (q4 (regIndex p t) p.sec 0 2)).1
    (if x = 0 then 1 else x, s)
  else
    let (i, s1) := freshFree s
    let x := Config.selectorSeed i
    (if x = 0 then 1 else x, s1)
def seedTile (p : Span) (s : State) (t : Nat) : State :=
  let (x, s1) := selectorStart s p t
  updTile s1 t fun T => { T with x := x }

/-- Handlers with RUN start at ENTRY (R135); until then RUN stands in PEND. -/
def runHandlers (hs : Tab Handler) : Tab Handler :=
  hs.map fun x => (x.1, { x.2 with st := if x.2.pend then .runnable else .stopped, pend := false })

/-- HANDLERS_START (R123): the clear and configuration 0 are done; the selectors are seeded, the argument block is loaded, the
handlers start. -/
def execHandlersStart (sp : Nat) (s : State) : Out :=
  let p := getSpan s sp
  let tn := p.tenant.toNat
  if !p.live || !p.starting || p.loadPending || p.ended || decide (now s < p.clearDue + 16) then .next s
  else
    match (if p.args = 0 then .ok [] else readRec s tn (.device tn) p.args 128 1) with
    | .error t => .next (failOrAsk s p.slot p.sec t (stopPlacement · sp))
    | .ok b =>
      let s1 := (rectTiles p (wholeRect p)).foldl (seedTile p) (dropHeld s tn)
      let regs := (wordsOf 16 b).zip (List.range 16)
      let s2 := updSpan s1 sp fun p => { p with
        starting := false, hs := runHandlers p.hs
        shared := if p.args = 0 then [] else regs.foldl (fun t x => tset t (32 + x.2) x.1 0) [] }
      .next (if p.det then
        (List.range (p.nhnd + 1)).foldl (fun s h => observe (observe s (PortId.handler sp h).num (objEntry p.entry)) (PortId.handler sp h).num
          (objLaunch p.slot)) s2 else s2)

/-! ## Configuration commits (R69, R123, R132, R162, R167) -/

/-- Configuration 0 of a placed span (R123): 2 words a cycle from placement. -/
def commitStart (s : State) (sp : Nat) : State :=
  let p := getSpan s sp
  let q := wholeRect p
  match loadConfig s sp (.device p.tenant.toNat) q 0 .full with
  | .error t => failOrAsk s p.slot p.sec t (stopPlacement · sp)
  | .ok (sh, ws) =>
    if now s + max (8 * (p.nhnd + 1)) 2080 < p.clearDue + (ws.length + 1) / 2 then s
    else updSpan (commitConfig (dropHeld s p.tenant.toNat) sp q 0 sh ws) sp fun p => { p with loadPending := false, clearDue := max p.clearDue (now s) }

/-- A cfg.load or cfg.part of handler h (R132). -/
def commitWord (s : State) (sp h : Nat) (nx : Nx) (full : Bool) (rect : Word) (c : Nat) (ptr : Word) (len : Nat) : State :=
  let p := getSpan s sp
  let x := getH s sp h
  let q := (rectOf p rect).getD (wholeRect p)
  if rectBusy s p q then s
  else match (do let ws ← readCmds s p (.handler sp h) ptr len
                 (loadWords s sp q c (if full then .full else .part) ws).mapError (Stop.trap · s.net)) with
    | .error (.trap t _) => raiseTrapFull s { cause := t.1, tval := t.2, pc := x.pc, h := h } sp
    | .error e => askFor s (.handler sp h) e
    | .ok (sh, ws) => landWord (commitConfig s sp q c sh ws) sp h x.pc (now s) {} nx

/-- The configuration of the first leaf of handler 0's tree whose turn has come (R162, R167). -/
def commitLeaf (s : State) (sp : Nat) : State :=
  let p := getSpan s sp
  let t := p.tree
  let due (i : Nat) : Bool :=
    let n := nodeAt t i
    isLeafNode n && canStart t i && !holdsConfig s p n && !rectBusy s p n.rect
  if !(flows p && t.running && t.opened.isEmpty && !t.stopped) then s
  else match (List.range t.nodes.length).find? due with
    | none => s
    | some i =>
      let n := nodeAt t i
      match n.kind with
      | .leaf false c =>
        (match loadConfig s sp (.handler sp 0) n.rect c .any with
         | .error (.trap t _) => stopTree s sp t
         | .error e => askFor s (.handler sp 0) e
         | .ok (sh, ws) => commitConfig (dropReads s sp 0) sp n.rect c sh ws)
      | _ => s

/-- CONFIG_COMMIT (R69): for handler h of a span, configuration 0 of a span that starts, the stream of its cfg word, or, for
handler 0 in a tree, that of the next leaf. -/
def execConfigCommit (sp h : Nat) (s : State) : Out :=
  let p := getSpan s sp
  if !p.live || p.ended || p.saved then .next s
  else if p.starting then .next (if h = 0 ∧ p.loadPending = true then commitStart s sp else s)
  else match (getH s sp h).op with
    | some (.cfg nx full rect c ptr len) => .next (commitWord s sp h nx full rect c ptr len)
    | some (.tree _) => .next (if h = 0 then commitLeaf s sp else s)
    | _ => .next s

/-! ## The end of a span (R142, R312) -/

/-- The end conditions of R142. A handler that a trap holds counts as BLOCKED (R405), and so does every handler while system
software has the trap (R407). A transfer has completed once its token has entered its channel, unless the channel is full
(R143, R261). -/
def spanOver (s : State) (sp : Nat) : Bool :=
  let p := getSpan s sp
  let h (i : Nat) : Handler := tget p.hs i {}
  let idle (i : Nat) : Bool := (h i).held.isNone && (match (h i).st with | .stopped => true | .waiting _ => true | _ => false)
  (h 0).st == .stopped && (List.range (p.nhnd + 1)).all idle && !p.tree.running && !p.toSys &&
  p.sys.arr.isEmpty && p.sys.epi.isEmpty && (p.toks.all fun x => x.1 || !chanRoom s sp x.2.1) &&
  p.streams.all fun x => x.2.jobs.isEmpty && !(decide (x.2.kind ≤ 1) && x.2.pass)

/-- SPAN_END (R142): the span ends and closes what remains, when nothing of it runs or the count of a matrix section has expired. -/
def execSpanEnd (sp : Nat) (s : State) : Out :=
  let p := getSpan s sp
  if p.live && !p.starting && !p.ended && !p.saved && (getL s p.slot).sst != .killing && (spanOver s sp || tcntOver p) then .next (endSpan s sp)
  else .next s

/-! ## Retirement (R427 to R429) -/

/-- An access, an issued element of a job or a barrier update of the span is not complete. -/
def spanBusy (s : State) (sp : Nat) : Bool :=
  (s.net.acc.any fun a => portSpan s a.port == sp && (match a.port with | .device _ => false | _ => true)) || s.net.bars.any (·.sp == sp) ||
  (getSpan s sp).streams.any fun x => x.2.jobs.any fun j => !j.flight.isEmpty
/-- A queue's progress timer returns to 0 (R419). -/
def dogReset (s : State) (q : Nat) : State :=
  updCtl s fun c => { c with dogs := tput c.dogs q { tget c.dogs q {} with timer := 0 } }
/-- POD faults still recorded on handlers' ports are posted (R377). -/
def postPodFaults (s : State) (sp : Nat) : State :=
  (List.range ((getSpan s sp).nhnd + 1)).foldl (fun s h => match (getH s sp h).podFault with
    | some f => trapEvent (updH s sp h fun x => { x with podFault := none }) sp { cause := f.1, tval := f.2.1, pc := (getH s sp h).pc, h := h } false
    | none => s) s
/-- The ports of a span. -/
def spanPorts (p : Span) (sp : Nat) : List PortId :=
  (List.range 16).map (PortId.handler sp) ++ (List.range 32).map (PortId.stream sp) ++ (rectTiles p (wholeRect p)).flatMap tilePorts

/-- The predecessor count of a section falls by one; at zero it is armed, unless the launch has failed (R76, R118). -/
def countDown (slot : Nat) (s : State) (n : Nat) : State :=
  let x := nth (getL s slot).secs n {}
  let s1 := updL s slot fun l => { l with secs := l.secs.set n { x with preds := x.preds - 1 } }
  if x.preds = 1 ∧ (getL s slot).failed = none then armSection s1 slot n else s1

/-- SECTION_RETIRE (R427): clusters are freed and keep configuration and tag, successors count down, the queue's timer returns
to 0. -/
def execSectionRetire (sp : Nat) (s : State) : Out :=
  let p := getSpan s sp
  let l := getL s p.slot
  if !p.live || !p.ended || l.sst == .killing || spanBusy s sp then .next s
  else
    let s0 := postPodFaults s sp
    let s1 := if p.det then (spanPorts p sp).foldl (fun s q => publish s q.num (objLaunch p.slot)) s0 else s0
    let s2 := (regionRanks p).foldl (fun s r => updClus s r fun c => { c with span := none }) s1
    let s3 := { s2 with spans := tdel s2.spans sp }
    let s4 := updL s3 p.slot fun l => { l with
      retired := l.retired + 1, secs := l.secs.set p.sec { nth l.secs p.sec {} with st := .retired } }
    let s5 := (nth l.succ p.sec []).foldl (countDown p.slot) s4
    .next (settleResume (settlePreempt (dogReset s5 (lQueue l)) p.slot) p.slot)

/-- Successor slot k of an entry image (R109): the entry's key. -/
def succSlot (img : Wide) (k : Nat) : Option Nat :=
  let v := wbits (wordAt img 2) (16 * k + 15) (16 * k)
  if isSet v 15 then some (bitsOf v 13 12 * 4096 + bitsOf v 11 0) else none
/-- May the launch decrement an entry (R428)? -/
def succOk (s : State) (l : Launch) (k : Nat) : Bool := lTenant l == 0 || eTenant s k == lTenant l
/-- What an object carries joins another (R126). -/
def objJoin (s : State) (a b : Nat) : State :=
  updNet s fun n => { n with objs := tput n.objs b (clockJoin (tget n.objs b []) (tget n.objs a [])) }

/-- Can nothing more of the launch run: no section placed or saved, none that can still be armed? -/
def launchOver (s : State) (slot : Nat) : Bool :=
  let l := getL s slot
  l.v && l.checked && l.sst != .killing && (spansOf s slot).isEmpty &&
  l.secs.all fun x => match x.st with | .retired => true | .ended => true | .waiting => l.failed.isSome | _ => false

/-- The retirement event (R429), for a launch that is not null. -/
def retireEvent (s : State) (l : Launch) (refused : Nat) : State :=
  let d := if lDet l then digest s l.digW else (0, 0)
  let e : Event := { type := 0x40, tenant := lTenant l, die := l.entry / 4096, entry := l.entry, queue := lQueue l
                     w1 := d.1, w2 := d.2, w3 := wd refused, w4 := wd l.retired, user := wordAt l.img 6 }
  postEvent s (match l.failed with
    | none => e
    | some f => { e with type := 0x41, sec := f.2.1.toNat, w1 := wd f.2.2.1.code, w2 := f.2.2.2, w3 := 0 })

/-- LAUNCH_RETIRE (R428). -/
def execLaunchRetire (slot : Nat) (s : State) : Out :=
  let l := getL s slot
  if !launchOver s slot then .next s
  else
    let w7 := match l.failed with
      | none => wd (4 * 2 ^ 60)
      | some f => wd (5 * 2 ^ 60 + f.1.toNat * 2 ^ 52 + f.2.1.toNat * 2 ^ 40)
    let s1 := setEntryW s l.entry 7 w7
    let slots := (List.range 4).filterMap fun k => (succSlot l.img k).map fun e => (k, e)
    let refused := sumNat ((slots.filter fun x => !succOk s1 l x.2).map fun x => 2 ^ x.1)
    let s2 := if wordAt l.img 1 = 0 then s1 else retireEvent s1 l refused
    let dec (s : State) (x : Nat × Nat) : State := decEntry (if lDet l then objJoin s (objLaunch slot) (objEntry x.2) else s) x.2 1
    let s3 := if l.failed.isSome then s2 else (slots.filter fun x => succOk s1 l x.2).foldl dec s2
    let s4 := updCtl s3 fun c => { c with launches := tdel c.launches slot }
    .next (dogReset (updNet s4 fun n => { n with det := n.det.filter fun r => r.slot != slot, objs := tdel n.objs (objLaunch slot) }) (lQueue l))

end Sys2Proof.Machine
end

