-- ==== Sys2Proof/Machine/Matrix.lean ====
section
/-!
DEFINITION. Machine/Matrix.lean: systolic mode, planes and slabs, the accumulator ring, the array and epilogue commands and
their words (R287 to R321).
-/
namespace Sys2Proof.Machine

/-! ## The rectangle and its groups (R40, R287, R301) -/

/-- int32 accumulation (R40). -/
def accInt (T : Tile) : Bool := isInt (mAfmt T) && isInt (delB T) && !mAen T && !mBen T

/-- Columns of groups in the rectangle, the group and position of tile index i, the number of groups (R287). -/
def groupOfIx (y : Sys) (i : Nat) : Nat := i / y.rect.w * (y.rect.w / max 1 y.nt) + i % y.rect.w / max 1 y.nt
def posOfIx (y : Sys) (i : Nat) : Nat := i % y.rect.w % max 1 y.nt
def groupCount (y : Sys) : Nat := rectCount y.rect / max 1 y.nt
/-- Index of the tile at position 0 of the group of tile index i. -/
def headIx (y : Sys) (i : Nat) : Nat := i - posOfIx y i
/-- Tiles of the systolic rectangle with their index. -/
def sysTiles (p : Span) : List (Nat × Nat) := (List.range (rectCount p.sys.rect)).map fun i => (i, rectTile p p.sys.rect i)
/-- A tile of the rectangle, whose array fields are those of all (R289). -/
def sysTile (s : State) (p : Span) : Tile := getTile s (rectTile p p.sys.rect 0)
/-- The ring proper (R301). -/
def ringProper (T : Tile) : Nat := if mEmom T then mRing T - 2 else mRing T
/-- MMAX (R302). -/
def mmaxOf (ring : Nat) : Nat := min 256 (512 / max 1 ring)

/-! ## sysmode (R289, R311, R312, R314) -/

/-- MEANF of a weight pair (R25, R27). -/
def meanOk (b m : Nat) : Bool := if b = 0x29 then isP3109 m || m == 0x20 else m == 0x1C || m == 0x1F
/-- The conditions of R289 on the rectangle. -/
def sysBad (s : State) (p : Span) (q : Rect) (nt : Nat) : Bool :=
  let ts := rectTiles p q
  let T0 := getTile s (rectTile p q 0)
  let fields (T : Tile) : List Nat := [cfgv T 8 0, cfgv T 8 1, cfgv T 8 2, cfgv T 8 3, cfgb T 8 4 3 0, cfgv T 8 5, cfgv T 8 6]
  let b := mBfmt T0
  let formats :=
    !isMatrixFmt (mAfmt T0) ||
    (if isPair b then !meanOk b (mMean T0) || !isMatrixFmt (mDel T0)
     else !isMatrixFmt b || mMean T0 != 0 || mDel T0 != 0 || mPmode T0 != 0)
  let ring := mRing T0 == 0 || decide (8 < mRing T0) || (mEmom T0 && decide (mRing T0 < 3))
  let epi := decide (1 < mAct T0) || (Rm.of (mErm T0)).isNone || !isPlainFmt (mOfmt T0)
  let tile (i t : Nat) : Bool :=
    let T := getTile s t
    let pos0 := i % q.w % max 1 nt == 0
    let a := mAbuf T
    let bb := mBbuf T
    (pos0 && (decide (7 < a) || bufDepth T a == 0 || decide (bufEsz T a < slabBytes T))) ||
    (!linkFed T && (decide (7 < bb) || bufDepth T bb == 0 || decide (bufDepth T bb < planeEntries T))) ||
    (pos0 && !linkFed T && a == bb) ||
    (linkFed T && (match prodFmt s p t (srcOf T 24) with | some f => f != (fUint8, 64) | none => false)) ||
    ((consumersOf T 0x40).any fun c => match consFmt T c with | some f => f != (mOfmt T, epiLanes (mOfmt T)) | none => false)
  p.sys.on || decide (q.w % max 1 nt ≠ 0) || formats || ring || epi || ts.any (fun t => fields (getTile s t) != fields T0) ||
  ((List.range ts.length).zip ts).any fun x => tile x.1 x.2

/-- The mode word (R314). -/
def modeWord (y : Sys) : Word := if y.on then wd (2 ^ 8 + (if y.auto then 2 ^ 9 else 0) + (y.nt - 1)) else 0

/-- The vector record's offset: read only with ESC or EBIAS, and only then checked (R317). -/
def voffTrap (T : Tile) (v : Word) : Option Trp :=
  if !(mEsc T || mEbias T) then none
  else if 2 ^ 18 < v.toNat + 512 then some (.ptrSpace, v)
  else if v.toNat % 64 ≠ 0 then some (.align, v)
  else none

/-- CONFIG_REJECT MATRIX. -/
def matrixT : Trp := rejectT 0x1A 0

/-- Every slot EMPTY with zero contents, head, tail and the moment sequence at the start (R301). -/
def freshRing (T : Tile) (nt : Nat) : List ASlot :=
  (List.range (mRing T)).map fun i =>
    { st := if mEmom T && decide (mRing T - 2 ≤ i) then 3 else 0, m := mmaxOf (mRing T), n := 64 * nt }

def execSysmodeOn (nx : Nx) (sd sa sb : Reg) (auto : Bool) (nt1 : BitVec 3) (kpl : BitVec 12) (s : State) : Out :=
  let o := operands s sa sb 0
  let p := curSpan s
  let nt := nt1.toNat + 1
  let cs := wordCsrs s
  endWord (.sysmodeOn nx sd sa sb auto nt1 kpl) nx o s
    (if p.sys.on then .trap s matrixT
     else match rectOf p o.1 with
       | none => .trap s (rejectT 0x19 0)
       | some q =>
         if rectBusy s p q then .wait s (packCsrs cs)
         else
           let T0 := getTile s (rectTile p q 0)
           let autoBad := auto && (mPmode T0 != 0 || mEmom T0 || (rectTiles p q).any fun t => linkFed (getTile s t))
           let g := rectCount q / nt
           if sysBad s p q nt || autoBad || (p.isMatrix && p.tcnt % max 1 g != 0) then .trap s matrixT
           else match (if auto then voffTrap T0 o.2.1 else none) with
             | some t => .trap s t
             | none =>
               let y : Sys := { on := true, auto := auto, nt := nt, kpl := kpl.toNat, voff := o.2.1.toNat, rect := q, slots := freshRing T0 nt
                                emitted := p.sys.emitted, epiQ := p.sys.epiQ, epiD := p.sys.epiD, autoN := p.sys.emitted, csrs := cs }
               let s1 := updSys s s.cur.sp fun _ => y
               .done ((rectTiles p q).foldl (fun s t => updTile (zeroAcc s t) t fun T => { T with aptr := 0, bptr := 0 }) s1) (wr1 sd 0))

/-- The first slot that is LIVE or FULL, with its state, as TVAL of ACC_LIVE (R304). -/
def liveSlot (y : Sys) : Option Word :=
  ((y.slots.zip (List.range y.slots.length)).find? fun x => x.1.st == 1 || x.1.st == 2).map fun x => wd (x.2 + x.1.st.toNat * 256)

def isWpre : ACmd → Bool | .wpre .. => true | _ => false
/-- In automatic mode a result tile begins when its first plane is loaded: where only that load waits, it and its product are
withdrawn when the mode stops (R314). -/
def autoWithdraw (y : Sys) : Sys :=
  if (y.autoP == 1 || (y.autoP == 0 && y.kpl == 1)) && y.arr.any isWpre then
    { y with stopping := true, arr := y.arr.takeWhile fun c => !isWpre c
             wpres := y.wpres - 1, autoP := 0, autoN := y.autoN - groupCount y }
  else { y with stopping := true }

def execSysmodeOff (nx : Nx) (sd : Reg) (s : State) : Out :=
  let p := curSpan s
  let y := p.sys
  endWord (.sysmodeOff nx sd) nx (0, 0, 0) s
    (if !y.on then .done s (wr1 sd 0)
     else
       let s1 := if y.auto && !y.stopping then updSys s s.cur.sp autoWithdraw else s
       let y := (getSpan s1 s.cur.sp).sys
       if !y.arr.isEmpty || !y.epi.isEmpty || (y.auto && (y.autoP != 0 || (liveSlot y).isSome)) then .wait s1 0
       else match liveSlot y with
         | some v => .trap s1 (.accLive, v)
         | none => .done (updSys s1 s.cur.sp fun y => { emitted := y.emitted, epiQ := y.epiQ, epiD := y.epiD }) (wr1 sd (modeWord y)))

/-! ## The ring as queued commands will leave it (R304, R318) -/

/-- The ring under the queued commands: slots, head, tail, and the slots they use. -/
structure RingSim where
  slots : List ASlot
  head : Nat
  tail : Nat
  used : List Nat := []
  epis : List ECmd
  epiRuns : Bool

def slotAt (l : List ASlot) (i : Nat) : ASlot := nth l i {}
/-- The next queued epilogue command takes the tail slot. -/
def simEpi (rp : Nat) (r : RingSim) : RingSim :=
  match r.epis with
  | [] => r
  | _ :: rest => { r with
      slots := r.slots.set r.tail { slotAt r.slots r.tail with st := 0, int := false }
      used := r.tail :: r.used, tail := (r.tail + 1) % max 1 rp, epis := rest }
/-- A queued product: it takes the head slot, emptied first by an epilogue where it is FULL. -/
def simMma (rp : Nat) (int : Bool) (r : RingSim) (c : ACmd) : RingSim :=
  match c with
  | .wpre .. => r
  | .mma _ last _ _ slot run _ =>
    if run = 2 then
      if last then { r with slots := r.slots.set slot { slotAt r.slots slot with st := 2 }, used := slot :: r.used } else { r with used := slot :: r.used }
    else
      let r := if (slotAt r.slots r.head).st = 2 then simEpi rp r else r
      let x := slotAt r.slots r.head
      let x : ASlot := if x.st = 1 then x else { x with st := 1, int := int }
      { r with slots := r.slots.set r.head { x with st := if last then 2 else 1 }, used := r.head :: r.used
               head := if last then (r.head + 1) % max 1 rp else r.head }
/-- The ring after every queued command. -/
def ringAfter (T : Tile) (y : Sys) : RingSim :=
  let rp := ringProper T
  let r0 : RingSim := { slots := y.slots, head := y.head, tail := y.tail, epis := y.epi, epiRuns := false }
  let r := y.arr.foldl (simMma rp (accInt T)) r0
  y.epi.foldl (fun r _ =>
    if r.epis.isEmpty then r
    else if (slotAt r.slots r.tail).st = 2 then simEpi rp r
    else { r with used := r.tail :: r.used, tail := (r.tail + 1) % max 1 rp, epis := r.epis.tail }) r

/-! ## wpre, mma, epi (R315 to R317) -/

def WpreMode.num (pmode : Nat) : WpreMode → Nat
  | .cfg => pmode | .off => 0 | .pert => 1 | .delta => 2 | .zonly => 3

def execWpre (nx : Nx) (sa sb : Reg) (keep : Bool) (mode : WpreMode) (s : State) : Out :=
  let o := operands s sa sb 0
  let p := curSpan s
  let y := p.sys
  let T := sysTile s p
  let cs := wordCsrs s
  let m := WpreMode.num (mPmode T) mode
  let link := keep && (sysTiles p).any fun x => linkFed (getTile s x.2)
  endWord (.wpre nx sa sb keep mode) nx o s
    (if !y.on || y.auto || (m != 0 && !isPair (mBfmt T)) || link then .trap s matrixT
     else if 8 ≤ y.arr.length then .wait s (packCsrs cs)
     else
       let c : ACmd := .wpre (y.wpres % 2) m keep (wbits o.1 47 0) (wbits o.2.1 63 32) (wbits o.2.1 31 0) cs 0 0 []
       .done (updSys s s.cur.sp fun y => { y with wpres := y.wpres + 1, arr := y.arr ++ [c] }) {})

def execMma (nx : Nx) (last keepa : Bool) (klen1 : BitVec 7) (s : State) : Out :=
  let p := curSpan s
  let y := p.sys
  let T := sysTile s p
  let k := klen1.toNat + 1
  let r := ringAfter T y
  let x := slotAt r.slots r.head
  endWord (.mma nx last keepa klen1) nx (0, 0, 0) s
    (if !y.on || y.auto || y.wpres == 0 || decide (planeK T < k) then .trap s matrixT
     else if x.st = 1 ∧ x.int ≠ accInt T then .trap s (.accLive, wd (r.head + x.st.toNat * 256))
     else if 8 ≤ y.arr.length then .wait s 0
     else .done (updSys s s.cur.sp fun y => { y with arr := y.arr ++ [.mma ((y.wpres - 1) % 2) last keepa k 0 0 0] }) {})

def execEpi (nx : Nx) (sa : Reg) (e1 m : BitVec 6) (s : State) : Out :=
  let o := operands s sa 0 0
  let p := curSpan s
  let y := p.sys
  let T := sysTile s p
  let waited := s.cur.latch.isSome
  let cs := wordCsrs s
  let seqBad := if mEmom T then (m.toNat != y.momM || (y.momM != 0 && e1.toNat != y.momE)) else (m != 0 || e1 != 0)
  endWord (.epi nx sa e1 m) nx o s
    (if !y.on || y.auto || (!waited && seqBad) then .trap s matrixT
     else match voffTrap T o.1 with
       | some t => .trap s t
       | none =>
         let s1 := if waited then s else updSys s s.cur.sp fun y => { y with
           momM := if mEmom T then (if m = e1 then 0 else m.toNat + 1) else 0, momE := e1.toNat }
         if 4 ≤ y.epi.length then .wait s1 (packCsrs cs)
         else .done (updSys s1 s.cur.sp fun y => { y with
           epiQ := y.epiQ + 1, epi := y.epi ++ [{ voff := o.1.toNat, m := m.toNat, e1 := e1.toNat, csrs := cs }] }) {})

/-! ## acc.shape and acc.drop (R318) -/

/-- Rows of the accumulator store that each slot has, and the place of row i of a slot in it (R302). -/
def slotRows (ring : Nat) : Nat := 512 / max 1 ring
def accRow (ring slot i : Nat) : Nat := (slot * slotRows ring + i) * 256
/-- Contents of a slot become zero in every tile of the rectangle. -/
def zeroSlot (s : State) (p : Span) (n : Nat) : State :=
  let ring := mRing (sysTile s p)
  (sysTiles p).foldl (fun s x => cleanAcc (updTile s x.2 fun T => { T with acc := T.acc.filter fun c => c.1 / 64 / 256 != n })
    x.2 (accRow ring n 0) (slotRows ring * 256)) s
def shapeWord (x : ASlot) : Word := wd ((x.m - 1) % 256 + (x.n - 1) % 512 * 256)

def execAccShape (nx : Nx) (sd sa : Reg) (slot : BitVec 3) (s : State) : Out :=
  let o := operands s sa 0 0
  let p := curSpan s
  let y := p.sys
  let T := sysTile s p
  let n := slot.toNat
  let x := slotAt y.slots n
  let m := wbits o.1 7 0 + 1
  let c := wbits o.1 16 8 + 1
  endWord (.accShape nx sd sa slot) nx o s
    (if !y.on || decide (mRing T ≤ n) || x.st == 3 then .trap s matrixT
     else if o.1.toNat / 2 ^ 17 ≠ 0 ∨ mmaxOf (mRing T) < m ∨ 64 * y.nt < c then .trap s matrixT
     else if (ringAfter T y).used.contains n then .wait s 0
     else if x.st ≠ 0 then .trap s (.accLive, wd (n + x.st.toNat * 256))
     else .done (updSys s s.cur.sp fun y => { y with slots := y.slots.set n { x with m := m, n := c } }) (wr1 sd (shapeWord x)))

def execAccDrop (nx : Nx) (sd : Reg) (all : Bool) (slot : BitVec 3) (s : State) : Out :=
  let p := curSpan s
  let y := p.sys
  let T := sysTile s p
  let n := slot.toNat
  let x := slotAt y.slots n
  let used := (ringAfter T y).used
  endWord (.accDrop nx sd all slot) nx (0, 0, 0) s
    (if !y.on then .trap s matrixT
     else if all then
       if !used.isEmpty then .wait s 0
       else
         let live := (y.slots.filter fun x => x.st == 1 || x.st == 2).length
         let s1 := (List.range (mRing T)).foldl (fun s i => zeroSlot s p i) s
         .done (updSys s1 s.cur.sp fun y => { emptySlots y with momM := 0, momE := 0 }) (wr1 sd (wd live))
     else if used.contains n then .wait s 0
     else if mRing T ≤ n ∨ x.st = 3 ∨ (x.st = 2 ∧ n ≠ y.tail) then .trap s matrixT
     else
       let s1 := zeroSlot s p n
       .done (updSys s1 s.cur.sp fun y => { y with
         slots := y.slots.set n { x with st := 0, int := false }
         tail := if x.st = 2 then (y.tail + 1) % max 1 (ringProper T) else y.tail }) (wr1 sd (x.st.zeroExtend 64)))

/-! ## pseed, pmemb, ptau, rnd (R319 to R321) -/

def setCsr (s : State) (n : Nat) (v : Nat) : State := writeCsr s s.cur.sp s.cur.h n (wd v)
def getCsr (s : State) (n : Nat) : Word := readCsr s s.cur.sp s.cur.h n

def execPseed (nx : Nx) (sd sa sb : Reg) (s : State) : Out :=
  let a := reg s sa
  let b := reg s sb
  let old := wd ((getCsr s 0x11).toNat * 2 ^ 32 + (getCsr s 0x10).toNat)
  pureWord nx (wr1 sd old)
    (setCsr (setCsr (setCsr (setCsr s 0x10 (wbits a 31 0)) 0x11 (wbits a 63 32)) 0x12 (wbits b 31 0)) 0x13 (wbits b 63 32))
def execPmemb (nx : Nx) (sd sa : Reg) (s : State) : Out :=
  let a := reg s sa
  endWord (.pmemb nx sd sa) nx (0, 0, 0) s
    (if 2 ^ 16 ≤ a.toNat then .trap s (rejectT 0x04 0) else .done (setCsr s 0x14 a.toNat) (wr1 sd (getCsr s 0x14)))
def execPmembInc (nx : Nx) (sd : Reg) (s : State) : Out :=
  pureWord nx (wr1 sd (getCsr s 0x14)) (setCsr s 0x14 (((getCsr s 0x14).toNat + 1) % 2 ^ 16))
def execPtau (nx : Nx) (sd sa : Reg) (s : State) : Out :=
  pureWord nx (wr1 sd (getCsr s 0x15)) (setCsr s 0x15 (wbits (reg s sa) 31 0))

/-- LH128 under a list of sampled CSRs for the index n and counter word c3 (R33, R297, R321). -/
def csrDraw (cs : List Nat) (n c3 : Nat) : Q4 :=
  lh128 (q4 (csrOf cs 0x10) (csrOf cs 0x11) (csrOf cs 0x12) (csrOf cs 0x13))
    (q4 (n % 2 ^ 32) (n / 2 ^ 32 % 2 ^ 16 + csrOf cs 0x14 % 2 ^ 16 * 2 ^ 16) (csrOf cs 0x16) c3)

def execRnd (nx : Nx) (sd sa : Reg) (k : RndKind) (s : State) : Out :=
  let q := csrDraw (sampleCsrs (curSpan s)) (wbits (reg s sa) 47 0) 4
  pureWord nx (wr1 sd (match k with
    | .w0 => q.1.zeroExtend 64
    | .lo => wd (q.2.1.toNat * 2 ^ 32 + q.1.toNat)
    | .hi => wd (q.2.2.2.toNat * 2 ^ 32 + q.2.2.1.toNat)
    | .gauss => wd (rne fFp32 (gauss q)))) s

/-! ## Planes (R291 to R299) -/

/-- Element i of width w bits packed in bytes from offset 0. -/
def elemAt (bs : List Byte) (w i : Nat) : Nat :=
  let lo := w * i / 8
  let n := (w * i + w - 1) / 8 - lo + 1
  ofBytes ((bs.drop lo).take n) / 2 ^ (w * i % 8) % 2 ^ w

/-- The mean of a weight-pair element, as a code, and its Q5.2 value L (R25 to R27). -/
def pairParts (T : Tile) (code base : Nat) : Nat × Int :=
  if mBfmt T = 0x29 then (code % 256, sextInt 8 (code / 256))
  else (code % 16, max (-128) (min 127 (sextInt 8 base + 4 * sextInt 4 (code / 16))))

/-- The delivered code of a weight-pair element (R294, R297). -/
def resolveWeight (T : Tile) (mode : Nat) (cs : List Nat) (n code base : Nat) : Nat :=
  let (mc, L) := pairParts T code base
  let mu := dec (mMean T) mc
  let z := gauss (csrDraw cs n 0)
  let i := L / 4
  let f := (L % 4).toNat
  let p := (r32 (z.mul (d32 (cf f)))).scale i
  let delta := r32 (p.mul (d32 (csrOf cs 0x15)))
  rne (mDel T) (match mode with
    | 0 => mu
    | 1 => r32 (mu.add false delta)
    | 2 => delta
    | _ => z)

/-- Keys of the delivered planes. -/
def planeKey (plane t k j : Nat) : Nat := (plane * 2 ^ 12 + t) * 2 ^ 16 + k * 64 + j
/-- A tile's plane from its bytes: delivered codes and scale bytes (R291, R299). -/
def loadPlane (y : Sys) (T : Tile) (plane mode : Nat) (cs : List Nat) (ix0 gst ld i t : Nat) (bs : List Byte) : Sys :=
  let kb := planeK T
  let w := fmtWidth (mBfmt T)
  let recs := bs.drop (8 * kb * w)
  let block (k : Nat) : Nat := if mNb T ≤ kb then k / mNb T else 0
  let rc (b j n : Nat) : Nat := (nth recs ((64 * b + j) * recB T + n) 0).toNat
  let g := groupOfIx y i
  let pos := posOfIx y i
  let code (k j : Nat) : Nat :=
    let c := elemAt bs w (64 * k + j)
    if isPair (mBfmt T) then
      resolveWeight T mode cs ((ix0 + g * gst + k * ld + 64 * pos + j) % 2 ^ 48) c (if recB T = 2 then rc (block k) j 1 else 0)
    else c
  let keep (x : Nat × W32) : Bool := x.1 / 2 ^ 16 != plane * 2 ^ 12 + t
  let cells := (List.range kb).flatMap fun k => (List.range 64).map fun j => (planeKey plane t k j, BitVec.ofNat 32 (code k j))
  let scs := if mBen T then (List.range (blocksB T)).flatMap fun b => (List.range 64).map fun j =>
      (planeKey plane t b j, BitVec.ofNat 8 (rc b j 0)) else []
  { y with planes := cells.foldl (fun m c => tset m c.1 c.2 0) (y.planes.filter keep)
           scales := scs.foldl (fun m c => tset m c.1 c.2 0) (y.scales.filter fun x => x.1 / 2 ^ 16 != plane * 2 ^ 12 + t) }

/-! ## The array's accesses (R306, R313, R373) -/

/-- May the array of a span move: placed, not frozen, not ended, not saved, not stopped by a kill. -/
def arrayMoves (p : Span) : Bool := tokensMove p && p.sys.on
/-- The phase an access of the array of a tile belongs to has no older write outstanding (R373). -/
def matrixHeld (s : State) (t : Nat) : Bool :=
  match (getTile s t).leaf with
  | some (sp, n) => phaseHeld s sp (nodeAt (getSpan s sp).tree n).phase
  | none => false
/-- Freeze at an entry of a tile's node (R313): agent 4 the array, 5 the epilogue. -/
def matrixFault (s : State) (sp t a agent : Nat) (c : Cause) : State :=
  fabricFault s sp { cause := c, tval := mkPtr 2 (t / 16) (t % 16 * 2 ^ 18 + a), agent := BitVec.ofNat 4 agent
                     loc := BitVec.ofNat 12 (rectIndex (getSpan s sp) (wholeRect (getSpan s sp)) t) }
/-- What the array of a tile does in a leaf's phase comes after the writes of the phases that had completed before (R373, R378). -/
def arraySees (s : State) (t : Nat) : State :=
  match (getTile s t).leaf with
  | some (sp, n) => seePhases s sp (PortId.matrix t).num (some (nodeAt (getSpan s sp).tree n).phase)
  | none => s
/-- Read n bytes at node address a of a tile as its array. -/
def arrayRead (s : State) (t a n : Nat) : Except Cause (List Byte × State) :=
  let k := keyTile t a
  let s := arraySees s t
  if isPoison s k n then .error .ue
  else match detStep s (.matrix t) k n false none with
    | none => .error .conflict
    | some s1 => .ok (readN s1.mem k n, s1)

/-- An entry of buffer b, by its index. -/
def entryAddr (T : Tile) (b e : Nat) : Nat := bufBase T b + e * bufEsz T b
/-- Entry e of buffer b is set empty by the array. -/
def emptyEntry (s : State) (sp t b e : Nat) : State :=
  let o := objTile t (b * 16 + e)
  let q := (PortId.matrix t).num
  stageUsed (updTile (publish (observe s q o) q o) t fun T => setFull T b e false) sp t b
/-- The entries of a plane in ring order from the pointer. -/
def planeRing (T : Tile) : List Nat := (List.range (planeEntries T)).map fun i => (T.bptr + i) % max 1 (bufDepth T (mBbuf T))

/-! ## WPRE_START, WPRE_COMPLETE (R293, R305) -/

def cmdPlane : ACmd → Nat | .wpre p .. => p | .mma p .. => p
/-- Index of the first array command that satisfies a test, with those before it. -/
def findCmd (l : List ACmd) (f : ACmd → Bool) : Option (Nat × ACmd × List ACmd) :=
  match l.findIdx? f with
  | some i => (l[i]?).map fun c => (i, c, l.take i)
  | none => none
def setCmd (s : State) (sp i : Nat) (c : ACmd) : State := updSys s sp fun y => { y with arr := y.arr.set i c }

/-- In automatic mode the next plane and its product are queued when no preload waits (R311): a result tile begins only while
the mode is not stopping and, in a matrix section, the count leaves one. -/
def autoQueue (s : State) (sp : Nat) : State :=
  let p := getSpan s sp
  let y := p.sys
  let T := sysTile s p
  let more := y.autoP != 0 || (!y.stopping && (!p.isMatrix || decide (y.autoN < p.tcnt)))
  if y.auto && more && !y.arr.any isWpre && decide (y.arr.length ≤ 6) then
    let plane := y.wpres % 2
    let last := y.autoP + 1 == y.kpl
    updSys s sp fun y => { y with
      wpres := y.wpres + 1, autoP := if last then 0 else y.autoP + 1, autoN := if y.autoP = 0 then y.autoN + groupCount y else y.autoN
      arr := y.arr ++ [.wpre plane 0 false 0 0 0 [] 0 0 [], .mma plane last false (planeK T) 0 0 0] }
  else s

/-- Link words of a running preload: each link-fed tile takes one that stands at its preload input. -/
def takeLinkWords (s : State) (sp : Nat) (bytes : Tab (List Byte)) : State × Tab (List Byte) :=
  (sysTiles (getSpan s sp)).foldl (fun (a : State × Tab (List Byte)) x =>
    let T := getTile a.1 x.2
    let got := tget a.2 x.2 []
    if linkFed T && decide (got.length < 64 * planeWords T) then
      match headOf T 24 with
      | some (.word w) => (updTile (markTake a.1 sp (.matrix x.2) (qBuf x.2 24)) x.2 fun T => popHead T 24, tput a.2 x.2 (got ++ toBytes 64 w.toNat))
      | some .empty => (updTile (markTake a.1 sp (.matrix x.2) (qBuf x.2 24)) x.2 fun T => popHead T 24, a.2)
      | _ => a
    else a) (s, bytes)

/-- WPRE_START (R305): the oldest preload starts once no earlier one and no earlier product of its plane is left; a started
one takes link words (R293). -/
def execWpreStart (sp : Nat) (s : State) : Out :=
  if !arrayMoves (getSpan s sp) then .next s
  else
    let s := autoQueue s sp
    match findCmd (getSpan s sp).sys.arr isWpre with
    | some (i, .wpre pl m k ix g l cs run got bytes, before) =>
      if run = 0 then
        if before.any fun c => cmdPlane c == pl then .next s else .next (setCmd s sp i (.wpre pl m k ix g l cs 1 got bytes))
      else
        let (s1, b1) := takeLinkWords s sp bytes
        .next (setCmd s1 sp i (.wpre pl m k ix g l cs run (got + 1) b1))
    | _ => .next s

/-- Is a tile's plane at hand: its entries full, or its link words taken. -/
def planeReady (s : State) (bytes : Tab (List Byte)) (t : Nat) : Bool :=
  let T := getTile s t
  if linkFed T then decide (planeBytes T ≤ (tget bytes t []).length)
  else (planeRing T).all fun e => isFull T (mBbuf T) e

/-- The bytes of a buffer plane, or the entry that faults. -/
def readPlane (s : State) (t : Nat) : Except (Nat × Cause) (List Byte × State) :=
  let T := getTile s t
  let b := mBbuf T
  (planeRing T).foldlM (fun (a : List Byte × State) e =>
    let n := min (bufEsz T b) (planeBytes T - a.1.length)
    match arrayRead (observe a.2 (PortId.matrix t).num (objTile t (b * 16 + e))) t (entryAddr T b e) n with
    | .ok (bs, s1) => .ok (a.1 ++ bs, s1)
    | .error c => .error (entryAddr T b e, c)) ([], s)

/-- WPRE_COMPLETE (R293): when every tile's plane is at hand the planes are delivered, and the entries of a buffer plane
are set empty unless the word keeps them. -/
def execWpreComplete (sp : Nat) (s : State) : Out :=
  let p := getSpan s sp
  match findCmd p.sys.arr isWpre with
  | some (i, .wpre pl m keep ix g l cs 1 _ bytes, _) =>
    if !arrayMoves p || !((sysTiles p).all fun x => planeReady s bytes x.2) || (sysTiles p).any (fun x => matrixHeld s x.2) then .next s
    else
      let load (a : Except State State) (x : Nat × Nat) : Except State State := do
        let s0 ← a
        let T := getTile s0 x.2
        let (bs, s1) ← if linkFed T then pure ((tget bytes x.2 []).take (planeBytes T), s0)
          else match readPlane s0 x.2 with
            | .ok r => pure r
            | .error (a, c) => throw (matrixFault s sp x.2 a 4 c)
        let s2 := updSys s1 sp fun y => loadPlane y T pl m cs ix g l x.1 x.2 bs
        if linkFed T || keep then pure s2
        else
          let s3 := (planeRing T).foldl (fun s e => emptyEntry s sp x.2 (mBbuf T) e) s2
          pure (updTile s3 x.2 fun T => { T with bptr := (T.bptr + planeEntries T) % max 1 (bufDepth T (mBbuf T)) })
      match (sysTiles p).foldl load (.ok s) with
      | .ok s1 => .next (updSys s1 sp fun y => { y with arr := y.arr.eraseIdx i })
      | .error s1 => .next s1
  | _ => .next s

/-! ## MMA_START, MMA_LAST_ROW, MMA_COMPLETE (R41, R42, R305, R316) -/

/-- Key of element (i, j) of a slot in a tile's accumulator store. -/
def accKey (slot i j : Nat) : Nat := (slot * 256 + i) * 64 + j
/-- The scale of a record byte (R29). -/
def scaleVal (en : Bool) (sf c : Nat) : XV := if en then dec (if sf = 0 then 0x28 else 0x0E) c else .one

/-- One group of 16 of R41: v, from its products and scales. -/
def groupSum (ps : List XV) (sa sb : XV) : XV :=
  let x := exactSum ps
  if x.isNan || sa.isNan || sb.isNan then .nan
  else if sb.isZero || sa.isZero then (if x.isFin then .zero else .nan)
  else
    let v := r32 ((x.mul sa).mul sb)
    if x.isZero then .zero else v

/-- A scale of zero: a block's NaN and infinities contribute NaN, its finite elements zero (R29). -/
def scaledZero (sc : XV) (e : XV) : Bool := sc.isZero && !e.isFin

/-- The new contents of one slot element after a product over `klen` columns of a slab row (R41, R42). -/
def mmaElem (T : Tile) (klen : Nat) (acc : W32) (a : Nat → Nat) (b : Nat → Nat) (sa sb : Nat → XV) : W32 :=
  if accInt T then
    let t := (List.range klen).foldl (fun (t : Int) k => t + intOf (mAfmt T) (a k) * intOf (delB T) (b k)) (sextInt 32 acc.toNat)
    BitVec.ofNat 32 (clampInt 32 true t)
  else
    let step (acc : XV) (g : Nat) : XV :=
      let ks := (List.range 16).map (16 * g + ·) |>.filter fun k => decide (k < klen)
      let ea := ks.map fun k => dec (mAfmt T) (a k)
      let eb := ks.map fun k => dec (delB T) (b k)
      let za := sa (if mNa T ≤ planeK T then 16 * g / mNa T else 0)
      let zb := sb (if mNb T ≤ planeK T then 16 * g / mNb T else 0)
      let v := if ea.any (scaledZero za) || eb.any (scaledZero zb) then .nan else groupSum (ea.zipWith XV.mul eb) za zb
      r32 (acc.add false v)
    BitVec.ofNat 32 (rne fFp32 ((List.range ((klen + 15) / 16)).foldl step (d32 acc.toNat)))

/-- The rows of slab n of a product are accumulated in one tile (R303, R316). -/
def slabTile (y : Sys) (T0 : Tile) (pl klen slot n pos t : Nat) (bs : List Byte) (T : Tile) : Tile :=
  let x := slotAt y.slots slot
  let w := fmtWidth (mAfmt T0)
  let kb := planeK T0
  let recs := bs.drop (2 * kb * w)
  let row (acc : Tab W32) (r : Nat) : Tab W32 :=
    let i := 16 * n + r
    if x.m ≤ i then acc
    else (List.range 64).foldl (fun acc j =>
      if x.n ≤ 64 * pos + j then acc
      else
        let v := mmaElem T0 klen (tget acc (accKey slot i j) 0) (fun k => elemAt bs w (kb * r + k))
          (fun k => (tget y.planes (planeKey pl t k j) 0).toNat)
          (fun b => scaleVal (mAen T0) (mAsf T0) (nth recs (blocksA T0 * r + b) 0).toNat)
          (fun b => scaleVal (mBen T0) (mBsf T0) (tget y.scales (planeKey pl t b j) 0).toNat)
        tset acc (accKey slot i j) v 0) acc
  { T with acc := (List.range 16).foldl row T.acc }

/-- Columns of a slot of n columns that a tile position holds (R308). -/
def epiCols (n pos : Nat) : Nat := if n ≤ 64 * pos then 0 else min 64 (n - 64 * pos)
/-- Is a line of columns c to c + n of some rows of a slot poisoned in a tile's accumulator store (R246)? -/
def accPoisoned (s : State) (ring t slot : Nat) (rows : List Nat) (c n : Nat) : Bool :=
  n != 0 && rows.any fun i => isPoison s (keyAcc t (accRow ring slot i + 4 * c)) (4 * n)
/-- Slabs of a product into a slot of m rows. -/
def slabCount (m : Nat) : Nat := (m + 15) / 16
/-- Entry of slab n of a running product in a group's head tile: the pointer has moved past those read, unless kept. -/
def slabEntry (T : Tile) (keepa : Bool) (n : Nat) : Nat := (T.aptr + if keepa then n else 0) % max 1 (bufDepth T (mAbuf T))

/-- Does the product behind some commands start (R305)? An earlier `.last` that still leaves the head slot, in a ring proper of
one slot, holds it. -/
def mmaMayStart (y : Sys) (before : List ACmd) : Bool :=
  before.all (fun c => match c with | .mma _ last _ _ slot run _ => run == 2 && !(last && slot == y.head) | _ => false) &&
  (slotAt y.slots y.head).st != 2

/-- A product that has been started or waits to. -/
def mmaPending : ACmd → Bool
  | .mma _ _ _ _ _ run _ => decide (run < 2)
  | _ => false

/-- MMA_START (R305, R316): the oldest product that may starts on the head slot; a started one reads its next slab in every group
and accumulates the slab's rows. -/
def execMmaStart (sp : Nat) (s : State) : Out :=
  let p := getSpan s sp
  let y := p.sys
  match findCmd y.arr mmaPending with
  | some (i, .mma pl last keepa klen slot run got, before) =>
    let T0 := sysTile s p
    if !arrayMoves p then .next s
    else if run = 0 then
      if !mmaMayStart y before then .next s
      else
        let x := slotAt y.slots y.head
        let s1 := updSys s sp fun y => { y with slots := y.slots.set y.head (if x.st = 1 then x else { x with st := 1, int := accInt T0 }) }
        .next (setCmd s1 sp i (.mma pl last keepa klen y.head 1 0))
    else if slabCount (slotAt y.slots slot).m ≤ got then .next s
    else
      let heads := (sysTiles p).filter fun x => posOfIx y x.1 == 0
      let entry (T : Tile) : Nat := slabEntry T keepa got
      if !(heads.all fun x => let T := getTile s x.2; isFull T (mAbuf T) (entry T)) || (sysTiles p).any (fun x => matrixHeld s x.2) then .next s
      else
        let read (a : Except State (Tab (List Byte) × State)) (x : Nat × Nat) : Except State (Tab (List Byte) × State) := do
          let (m, s0) ← a
          let T := getTile s x.2
          let b := mAbuf T
          match arrayRead (observe s0 (PortId.matrix x.2).num (objTile x.2 (b * 16 + entry T))) x.2 (entryAddr T b (entry T)) (slabBytes T) with
          | .ok (bs, s1) => pure (tput m x.1 bs, s1)
          | .error c => throw (matrixFault s sp x.2 (entryAddr T b (entry T)) 4 c)
        let rows := (List.range 16).map (16 * got + ·) |>.filter fun i => decide (i < (slotAt y.slots slot).m)
        let bad := (sysTiles p).find? fun x => accPoisoned s (mRing T0) x.2 slot rows 0 (epiCols (slotAt y.slots slot).n (posOfIx y x.1))
        match heads.foldl read (.ok ([], s)), bad with
        | .error s1, _ => .next s1
        | .ok _, some x =>
          let h := rectTile p y.rect (headIx y x.1)
          .next (matrixFault s sp h (entryAddr (getTile s h) (mAbuf (getTile s h)) (entry (getTile s h))) 4 .ue)
        | .ok (m, s1), none =>
          let s2 := (sysTiles p).foldl (fun s x =>
            updTile s x.2 (slabTile y T0 pl klen slot got (posOfIx y x.1) x.2 (tget m (headIx y x.1) []))) s1
          let s3 := if keepa then s2 else heads.foldl (fun s x =>
            let T := getTile s x.2
            updTile (emptyEntry s sp x.2 (mAbuf T) (entry T)) x.2 fun T => { T with aptr := (T.aptr + 1) % max 1 (bufDepth T (mAbuf T)) }) s2
          .next (setCmd s3 sp i (.mma pl last keepa klen slot 1 (got + 1)))
  | _ => .next s

/-- MMA_LAST_ROW (R305): the started product has entered its last row; with `.last` the head advances. -/
def execMmaLastRow (sp : Nat) (s : State) : Out :=
  let p := getSpan s sp
  match findCmd p.sys.arr mmaPending with
  | some (i, .mma pl last keepa klen slot 1 got, _) =>
    if !arrayMoves p || decide (got < slabCount (slotAt p.sys.slots slot).m) then .next s
    else
      let s1 := setCmd s sp i (.mma pl last keepa klen slot 2 got)
      .next (if last then updSys s1 sp fun y => { y with head := (y.head + 1) % max 1 (ringProper (sysTile s p)) } else s1)
  | _ => .next s

/-- MMA_COMPLETE (R305): the last row has left every group; with `.last` the slot is FULL. -/
def execMmaComplete (sp : Nat) (s : State) : Out :=
  let p := getSpan s sp
  match findCmd p.sys.arr fun c => !isWpre c with
  | some (i, .mma _ last _ _ slot 2 _, _) =>
    if !arrayMoves p then .next s
    else .next (updSys s sp fun y => { y with
      arr := y.arr.eraseIdx i, slots := if last then y.slots.set slot { slotAt y.slots slot with st := 2 } else y.slots })
  | _ => .next s

/-! ## The epilogue (R307 to R312) -/

/-- Scale and bias of column j of a tile from its vector record (R307). -/
def vecEntry (s : State) (t voff i : Nat) : XV := d32 (ofBytes (readN s.mem (keyTile t (voff + 4 * i)) 4))
/-- x of R307. -/
def epiValue (s : State) (T0 : Tile) (t voff : Nat) (int : Bool) (c : W32) (j : Nat) : XV :=
  let x : XV := if int then .ofInt (sextInt 32 c.toNat) else d32 c.toNat
  let x := if mEsc T0 then r32 (x.mul (vecEntry s t voff j)) else x
  let x := if mEbias T0 then r32 (x.add false (vecEntry s t voff (64 + j))) else x
  let x := if mAct T0 = 1 ∧ x.isNan = false ∧ (x.lt .zero ∨ (x.isZero ∧ x.sign)) then .zero else x
  if mEmom T0 then r32 x else x

/-- Words a tile emits for an epilogue command. -/
def epiWords (T0 : Tile) (x : ASlot) (pos : Nat) (c : ECmd) : Nat :=
  let per := (epiCols x.n pos + epiLanes (mOfmt T0) - 1) / epiLanes (mOfmt T0)
  if mEmom T0 then (if c.m = c.e1 then 2 * per * x.m else 0) else per * x.m

/-- The vector record read by the epilogue of a tile, where the command reads one. -/
def epiRead (s : State) (t : Nat) (T0 : Tile) (c : ECmd) : Except Cause State :=
  if mEsc T0 || mEbias T0 then (arrayRead s t c.voff 512).map (·.2) else .ok s

/-- One member joins the moments of a tile (R310). -/
def foldMoments (s : State) (T0 : Tile) (pos t : Nat) (x : ASlot) (c : ECmd) (T : Tile) : Tile :=
  let mu := mRing T0 - 2
  let q := mRing T0 - 1
  let put (acc : Tab W32) (k : Nat) (v : XV) : Tab W32 := tset acc k (BitVec.ofNat 32 (rne fFp32 v)) 0
  let cell (acc : Tab W32) (i j : Nat) : Tab W32 :=
    let v := epiValue s T0 t c.voff x.int (tget T.acc (accKey c.slot i j) 0) j
    let m0 := d32 (tget acc (accKey mu i j) 0).toNat
    let q0 := d32 (tget acc (accKey q i j) 0).toNat
    if c.m = 0 then put (put acc (accKey mu i j) v) (accKey q i j) .zero
    else
      let d := r32 (v.add false m0.neg)
      let m1 := r32 (m0.add false (r32 (d.div (.ofInt ((c.m + 1 : Nat) : Int)))))
      let q1 := r32 (q0.add false (r32 (d.mul (r32 (v.add false m1.neg)))))
      put (put acc (accKey mu i j) m1) (accKey q i j) q1
  { T with acc := (List.range x.m).foldl (fun acc i => (List.range (epiCols x.n pos)).foldl (fun acc j => cell acc i j) acc) T.acc }

/-- EPI_START (R305): the oldest epilogue command starts on the FULL tail slot; with EMOM its member joins the moments. In
automatic mode a FULL tail slot starts one of its own (R311). -/
def execEpiStart (sp : Nat) (s : State) : Out :=
  let p := getSpan s sp
  let y := p.sys
  let T0 := sysTile s p
  let x := slotAt y.slots y.tail
  let q := if y.auto && y.epi.isEmpty then [({ voff := y.voff, csrs := y.csrs } : ECmd)] else y.epi
  match q with
  | [] => .next s
  | c :: rest =>
    if !arrayMoves p || tcntOver p || c.run || x.st != 2 || (sysTiles p).any (fun u => matrixHeld s u.2) then .next s
    else
      let c1 := { c with run := true, slot := y.tail }
      let s1 := updSys s sp fun y => { y with epi := c1 :: rest }
      if !mEmom T0 then .next s1
      else
        let one (a : Except State State) (u : Nat × Nat) : Except State State := do
          let s0 ← a
          let bad := [c1.slot, mRing T0 - 2, mRing T0 - 1].any fun n =>
            accPoisoned s (mRing T0) u.2 n (List.range x.m) 0 (epiCols x.n (posOfIx y u.1))
          if bad then throw (matrixFault s sp u.2 c1.voff 5 .ue)
          match epiRead s0 u.2 T0 c1 with
          | .error e => throw (matrixFault s sp u.2 c1.voff 5 e)
          | .ok s0 => pure (updTile s0 u.2 (foldMoments s0 T0 (posOfIx y u.1) u.2 x c1))
        match (sysTiles p).foldl one (.ok s1) with
        | .ok s2 => .next s2
        | .error s2 => .next s2

/-- EPILOGUE_EMIT (R307, R308): a tile emits its next word of the running epilogue command. -/
def execEpilogueEmit (sp t : Nat) (s : State) : Out :=
  let p := getSpan s sp
  let y := p.sys
  let T0 := sysTile s p
  match y.epi, (sysTiles p).find? fun u => u.2 == t with
  | c :: rest, some (ix, _) =>
    let x := slotAt y.slots c.slot
    let pos := posOfIx y ix
    let n := tget c.pos t 0
    if !arrayMoves p || tcntOver p || !c.run || decide (epiWords T0 x pos c ≤ n) || !canEmit s sp t 0x40 || matrixHeld s t then .next s
    else match (if mEmom T0 then .ok s else epiRead s t T0 c) with
      | .error e => .next (matrixFault s sp t c.voff 5 e)
      | .ok s1 =>
        let L := epiLanes (mOfmt T0)
        let nc := epiCols x.n pos
        let per := (nc + L - 1) / L
        let perRow := if mEmom T0 then 2 * per else per
        let i := n / perRow
        let part := n % perRow / per
        let q := n % per
        let from_ := if !mEmom T0 then c.slot else if part = 0 then mRing T0 - 2 else mRing T0 - 1
        if accPoisoned s (mRing T0) t from_ [i] (q * L) (min L (nc - q * L)) then .next (matrixFault s sp t c.voff 5 .ue) else
        let T := getTile s1 t
        let rm := (Rm.of (mErm T0)).getD .rne
        let g := groupOfIx y ix
        let code (l : Nat) : Nat :=
          let j := q * L + l
          if nc ≤ j then 0
          else
            let v : XV :=
              if !mEmom T0 then epiValue s1 T0 t c.voff x.int (tget T.acc (accKey c.slot i j) 0) j
              else if part = 0 then d32 (tget T.acc (accKey (mRing T0 - 2) i j) 0).toNat
              else r32 ((d32 (tget T.acc (accKey (mRing T0 - 1) i j) 0).toNat).div (.ofInt ((c.e1 + 1 : Nat) : Int)))
            let d := if rm = .sr then (csrDraw c.csrs ((g * 256 + i) * 512 + (64 * pos + j)) 1).1.toNat else 0
            enc (mOfmt T0) rm false d v
        let s2 := updSys s1 sp fun y => { y with epi := { c with pos := tput c.pos t (n + 1) } :: rest }
        .next (emit s2 sp t 0x40 (.word (pack (fmtWidth (mOfmt T0)) ((List.range L).map code))))
  | _, _ => .next s

/-- EPI_END (R305, R309, R312): every tile has emitted its words; the slot is EMPTY with zeros, the tail advances, and a result
tile that was emitted counts; where that is the last of a matrix section, its count has expired (R142). -/
def execEpiEnd (sp : Nat) (s : State) : Out :=
  let p := getSpan s sp
  let y := p.sys
  let T0 := sysTile s p
  match y.epi with
  | c :: rest =>
    let x := slotAt y.slots c.slot
    if !arrayMoves p || !c.run || !((sysTiles p).all fun u => decide (epiWords T0 x (posOfIx y u.1) c ≤ tget c.pos u.2 0)) then .next s
    else .next (countEnd (updSys (zeroSlot s p c.slot) sp fun y => { y with
      epi := rest, slots := y.slots.set c.slot { x with st := 0, int := false }
      tail := (y.tail + 1) % max 1 (ringProper T0)
      epiD := if y.auto then y.epiD else y.epiD + 1
      emitted := if mEmom T0 && c.m != c.e1 then y.emitted else y.emitted + groupCount y }) sp)
  | [] => .next s

end Sys2Proof.Machine
end

