-- ==== Sys2Proof/Machine/Preempt.lean ====
section
/-!
DEFINITION. Machine/Preempt.lean: the save and the restore of a pre-empted launch (R413 to R415), the end of a kill (R416), the
watchdog (R419, R420), the clears of an ownership change (R124, R422).
-/
namespace Sys2Proof.Machine

/-! ## Save and restore (R413 to R415) -/

/-- Has a span drained (R413): no leaf runs, no word is in an operation stage but handler 0's in a tree, every access is
complete. -/
def drained (s : State) (sp : Nat) : Bool :=
  let p := getSpan s sp
  let still (h : Nat) : Bool := match (tget p.hs h {}).op with
    | none => true
    | some (.tree _) => h == 0
    | _ => false
  p.quiesced && !(p.tree.nodes.any fun n => isLeafNode n && n.running) && (List.range 16).all still && !spanBusy s sp &&
  p.cols.isEmpty && p.streams.all fun x => x.2.jobs.all fun j => j.flight.isEmpty

/-- The home ranges of a cluster: its memory nodes and its scratchpad. -/
def clusRanges (r : Nat) : List (Nat × Nat) := [(keyTile (16 * r) 0, 2 ^ 22), (keyScratch r 0, 2 ^ 22)]
def inRanges (rs : List Nat) (a : Nat) : Bool := (rs.flatMap clusRanges).any fun x => decide (x.1 ≤ a) && decide (a < x.1 + x.2)
/-- Memory nodes, scratchpad and their poison zeroed. -/
def zeroCluster (s : State) (r : Nat) : State := (clusRanges r).foldl (fun s x => homeZero s x.1 x.2) s
/-- The 16 tiles of a cluster. -/
def clusTiles (r : Nat) : List Nat := (List.range 16).map (16 * r + ·)

/-- What a span is once saved: no translation, no program line, no fetch under way, its clusters' contents beside it. -/
def savedSpan (s : State) (p : Span) : Span :=
  let rs := regionRanks p
  { p with
    saved := true, pbuf := [], pbufGaps := []
    hs := p.hs.map fun (x : Nat × Handler) => (x.1, { x.2 with
      xlat := none, pods := [], refused := [], reads := [], miss := false, st := if x.2.miss then .runnable else x.2.st })
    streams := p.streams.map fun (x : Nat × Stream) => (x.1, { x.2 with xlat := none, reads := [] })
    savedTiles := (s.tiles.filter fun x => rs.contains (x.1 / 16)).reverse
    savedBad := s.poison.filter fun l => (rs.flatMap clusTiles).any fun t => decide (keyAcc t 0 ≤ l * 64) && decide (l * 64 < keyAcc (t + 1) 0) }

/-- n bytes at a home take values that the spec does not give. -/
def openWrite (s : State) (a n : Nat) : State :=
  let i := s.sched.free
  (homeWrite { s with sched := { s.sched with free := i + n } } a ((List.range n).map fun k => Config.openByte (i + k))).1

/-- A line number put into a rising list. -/
def insertLine (l : Nat) : List Nat → List Nat
  | [] => [l]
  | x :: xs => if l < x then l :: x :: xs else if l = x then x :: xs else x :: insertLine l xs
/-- Cells of memory put back, in rising order. -/
def putCells (m cells : List Host.Cell) : List Host.Cell := cells.foldl (fun m c => write1 m c.1 c.2) m
/-- Bytes of a tile's record and of a cluster's records in a save area (R414). -/
def tileRecord : Nat := 395264
def clusRecord : Nat := 16 * tileRecord + 2 ^ 22 + 2 ^ 15
/-- The place that byte `k` of the memory nodes or the scratchpad of cluster r has in its records at `a` (R414). -/
def savePlace (r a k : Nat) : Option Nat :=
  let node := keyTile (16 * r) 0
  let pad := keyScratch r 0
  if node ≤ k ∧ k < node + 2 ^ 22 then some (a + (k - node) / 2 ^ 18 * tileRecord + (k - node) % 2 ^ 18)
  else if pad ≤ k ∧ k < pad + 2 ^ 22 then some (a + 16 * tileRecord + (k - pad))
  else none
/-- The byte of cluster r that stands at place `k` of its records at `a`. -/
def savedByte (r a k : Nat) : Option Nat :=
  let d := k - a
  if k < a then none
  else if d < 16 * tileRecord then
    (if d % tileRecord < 2 ^ 18 then some (keyTile (16 * r + d / tileRecord) (d % tileRecord)) else none)
  else if d < 16 * tileRecord + 2 ^ 22 then some (keyScratch r (d - 16 * tileRecord))
  else none
/-- The records of cluster r, at `a` of a save area: its memory nodes, its scratchpad and its tag table (R414). -/
def recordCells (s : State) (r a : Nat) : List Host.Cell :=
  (s.mem.filterMap fun c => (savePlace r a c.1).map fun k => (k, c.2)) ++
  ((getClus s r).tags.filter fun x => decide (x.1 < 4096)).reverse.flatMap fun x => (toBytes 8 x.2.toNat).zipIdx.map fun b => (a + 16 * tileRecord + 2 ^ 22 + 8 * x.1 + b.2, b.1)
/-- The save area of a span is written at `a` (R414): accumulator store, element fields and control record in a layout that the
spec does not give. -/
def writeRecords (s : State) (p : Span) (a : Nat) : State :=
  let rs := (regionRanks p).zipIdx.map fun x => (x.1, a + x.2 * clusRecord)
  let n := saveBytes p
  let s1 := homeZero s a n
  let lines (x : Nat × Nat) : List Nat := s.poison.filterMap fun l => (savePlace x.1 x.2 (l * 64)).map (· / 64)
  let s2 := { s1 with
    mem := rs.foldl (fun m x => putCells m (recordCells s x.1 x.2)) s1.mem
    poison := rs.foldl (fun q x => (lines x).foldl (fun q l => insertLine l q) q) s1.poison }
  let s3 := rs.foldl (fun u x => (List.range 16).foldl (fun u i => openWrite u (x.2 + i * tileRecord + 2 ^ 18) (tileRecord - 2 ^ 18)) u) s2
  let s4 := openWrite s3 (a + rs.length * clusRecord) 16384
  { s4 with net := { s4.net with acc := s4.net.acc.map (wakeCwait s4.mem s4.poison a n) } }

/-- A span leaves its clusters: every class of R122, the scratchpads and the tags of residency are cleared, the clusters are
freed (R414). -/
def vacate (s : State) (p : Span) : State :=
  let rs := regionRanks p
  let s1 := (rs.flatMap clusTiles).foldl (clearTile 15) s
  let s2 := clearResid (rs.foldl zeroCluster s1) p
  rs.foldl (fun s r => updClus s r fun c => { c with span := none }) s2

/-- PREEMPT_SAVE (R414). -/
def execPreemptSave (sp : Nat) (s : State) : Out :=
  let p := getSpan s sp
  let l := getL s p.slot
  if !p.live || p.saved || p.ended || p.starting || l.sst != .preempting || !drained s sp then .next s
  else
    let q := savedSpan s p
    let s1 := writeRecords s p p.saveAt
    let s2 := updSpan (vacate s1 p) sp fun _ => q
    .next (settlePreempt s2 p.slot)

/-- PGRACE in cycles (R421). -/
def pgrace (s : State) (tn : Nat) : Nat := let g := wbits (tw s tn 5) 39 32; 2 ^ (if g = 0 then 20 else g)
/-- The record of a pre-emption that fails to drain (R403): TVAL is the grace period; the rest is what the record of its kill
carries (R444; notes/assumptions/103.md). -/
def graceEvent (s : State) (slot : Nat) : State :=
  let l := getL s slot
  let r := killRecord s slot .preempt
  postEvent s { type := 0x10, tenant := lTenant l, die := l.entry / 4096, entry := l.entry, sec := r.2.1, queue := lQueue l
                w1 := r.1, w2 := wd (pgrace s (lTenant l)), w3 := r.2.2, user := wordAt l.img 6 }
/-- PREEMPT_GRACE_EXPIRE (R413): a span that has not drained in time ends its launch. -/
def execPreemptGraceExpire (slot : Nat) (s : State) : Out :=
  let l := getL s slot
  if l.v && l.sst == .preempting && decide (l.since + pgrace s (lTenant l) ≤ now s) &&
      (spansOf s slot).any fun sp => !(getSpan s sp).saved && !drained s sp then
    .next (killSlot (graceEvent s slot) slot .preempt)
  else .next s

/-- The depth window of a stream begins afresh (R415). -/
def freshWindow (n : Nat) (x : Stream) : Stream := { x with winStart := n, winN := 0, winLat := 0, winUsed := 0 }
/-- The tag table that the records of a cluster at `a` hold. -/
def recordTags (s : State) (a : Nat) : Tab Word :=
  let b := a + 16 * tileRecord + 2 ^ 22
  (s.mem.filter fun c => decide (b ≤ c.1) && decide (c.1 < b + 2 ^ 15)).foldl (fun t c =>
    let d := c.1 - b
    tset t (d / 8) (putBits (tget t (d / 8) 0) (d % 8 * 8) 8 c.2.toNat) 0) []
/-- The records of a saved span go back to its clusters, as they stand in its save area; the parts of its tiles whose place in them
the spec does not give come from the span (R415). -/
def restoreSpan (s : State) (sp : Nat) : State :=
  let p := getSpan s sp
  let rs := regionRanks p
  let at_ := (rs.zipIdx).map fun x => (x.1, p.saveAt + x.2 * clusRecord)
  let s1 := (rs.flatMap clusTiles).foldl zeroAcc (rs.foldl zeroCluster (dropResid s rs))
  let cells (x : Nat × Nat) : List Host.Cell := s.mem.filterMap fun c => (savedByte x.1 x.2 c.1).map fun k => (k, c.2)
  let lines (x : Nat × Nat) : List Nat := s.poison.filterMap fun l => (savedByte x.1 x.2 (l * 64)).map (· / 64)
  let s2 := { s1 with
    mem := at_.foldl (fun m x => putCells m (cells x)) s1.mem
    poison := p.savedBad.foldl (fun q l => insertLine l q) (at_.foldl (fun q x => (lines x).foldl (fun q l => insertLine l q) q) s1.poison)
    tiles := p.savedTiles.foldl (fun t x => tput t x.1 x.2) (s1.tiles.filter fun x => !rs.contains (x.1 / 16)) }
  let s3 := at_.foldl (fun u x => updClus u x.1 fun c => { c with span := some sp, tags := recordTags s x.2 }) s2
  updSpan s3 sp fun p => { p with
    saved := false, quiesced := false, savedTiles := [], savedBad := []
    streams := p.streams.map fun (x : Nat × Stream) => (x.1, freshWindow (now s) x.2) }

/-- PREEMPT_RESTORE (R415): on the same clusters, as soon as they are free. -/
def execPreemptRestore (sp : Nat) (s : State) : Out :=
  let p := getSpan s sp
  let l := getL s p.slot
  if p.live && p.saved && l.resume && l.sst == .preempted && (regionRanks p).all (clusFree s p.tenant.toNat) then
    .next (settleResume (restoreSpan s sp) p.slot)
  else .next s

/-! ## The end of a kill (R416) -/

/-- Accesses of a launch's ports. -/
def killAccs (s : State) (slot : Nat) : List Access :=
  s.net.acc.filter fun a => (match a.port with | .device _ => false | p => (spansOf s slot).contains (portSpan s p))
/-- Does a request of the launch at a peer still run? -/
def killPods (s : State) (slot : Nat) : Bool :=
  (killAccs s slot).any fun a => pSpace a.ptr == 5 && (a.stat == .dispatched || a.stat == .performed) && a.tag != .probe

/-- A dispatched access is discarded; each byte that it would have written holds the old or the new value. -/
def discardAccess (s : State) (a : Access) : State :=
  let s1 := match a.stat, a.kind, a.key with
    | .dispatched, .write bs, some k =>
      if k < 2 ^ 80 then
        (List.range bs.length).foldl (fun s i =>
          let (j, s1) := freshFree s
          if Config.appliedOrNot j then (homeWrite s1 (k + i) [nth bs i 0]).1 else s1) s
      else s
    | .dispatched, .amo fn _ b e, some k =>
      if k < 2 ^ 80 ∧ isPoison s k a.n = false then
        (List.range a.n).foldl (fun s i =>
          let (j, s1) := freshFree s
          if Config.appliedOrNot j then (homeWrite s1 (k + i) [nth (amoBytes fn a.n (readN s.mem k a.n) b e) i 0]).1 else s1) s
      else s
    | _, _, _ => s
  dropAcc (scRelease s1 a) a.id

/-- The clusters of a killed span are cleared and freed, and the span is gone. -/
def removeSpan (s : State) (sp : Nat) : State :=
  let p := getSpan s sp
  let rs := (regionRanks p).filter fun r => (getClus s r).span == some sp
  let s1 := (rs.flatMap clusTiles).foldl (clearTile 11) s
  let s2 := rs.foldl (fun s r => updClus s r fun c => { c with span := none, resid := none }) s1
  { s2 with spans := tdel s2.spans sp }

/-- A watchdog that waits for the launch waits no more; after the last one its clears begin. -/
def dogKilled (s : State) (slot : Nat) : State :=
  let one (x : Nat × Dog) : Nat × Dog :=
    if x.2.slots.contains slot then
      let l := x.2.slots.filter (· != slot)
      (x.1, { x.2 with slots := l, since := if l.isEmpty then now s else x.2.since })
    else x
  updCtl s fun c => { c with dogs := c.dogs.map one }

/-- KILL_DONE (R416): nothing of the launch is outstanding at a peer; what else is dispatched is discarded, the clusters are
cleared and freed, the event is posted, KPEND falls. -/
def execKillDone (slot : Nat) (s : State) : Out :=
  let l := getL s slot
  if !l.v || l.sst != .killing || killPods s slot then .next s
  else
    let s1 := (killAccs s slot).foldl discardAccess s
    let s2 := (spansOf s1 slot).foldl removeSpan s1
    let s3 := dogKilled (updCtl s2 fun c => { c with launches := tdel c.launches slot }) slot
    let s4 := updNet s3 fun n => { n with det := n.det.filter fun r => r.slot != slot, objs := tdel n.objs (objLaunch slot) }
    let user := wordAt l.img 6
    let s5 := addKpend s4 (lTenant l) (· - 1)
    .next (postEvent s5 {
      type := 0x11, tenant := lTenant l, die := l.entry / 4096, entry := l.entry, sec := l.kill.2.1, queue := lQueue l
      w1 := l.kill.1, w2 := user, w3 := l.kill.2.2, user := user })

/-! ## The watchdog (R419, R420) -/

/-- RUNNING launches of a queue, on every die. -/
def queueSlots (s : State) (q : Nat) : List Nat :=
  (s.ctl.launches.filter fun x => x.2.v && x.2.sst != .killing && lQueue x.2 == q).map (·.1)
def getDog (s : State) (q : Nat) : Dog := tget s.ctl.dogs q {}
def updDog (s : State) (q : Nat) (f : Dog → Dog) : State :=
  updCtl s fun c => { c with dogs := tput c.dogs q (f (tget c.dogs q {})) }
/-- WST := v. -/
def setWst (s : State) (q v : Nat) : State :=
  updCtl s fun c => { c with qctl := tput c.qctl q (putBits (tget c.qctl q 0) 41 3 v) }
/-- The conditions under which a queue's progress timer counts (R419). -/
def dogCounts (s : State) (q : Nat) : Bool :=
  isSet (qword s q).toNat 55 && qWst s q == 0 && (queueSlots s q).any fun k => (getL s k).sst != .preempted

/-- WATCHDOG_EXPIRE (R420 step 1). -/
def execWatchdogExpire (q : Nat) (s : State) : Out :=
  if !isSet (qword s q).toNat 55 || qWst s q != 0 || decide ((getDog s q).timer < 2 ^ wbits (qword s q) 54 49) then .next s
  else
    let ks := queueSlots s q
    let s1 := updDog (setWst s q 1) q fun d => { d with since := now s, slots := ks, clusters := [] }
    .next ((ks.flatMap (spansOf s1)).foldl (fun s sp => if (getSpan s sp).saved then s else quiesceSpan s sp) s1)

/-- The clusters of a span that the watchdog resets (R416, R420, R445): those it holds; of a saved span those of its partition that no
span holds and its tenant still owns. -/
def dogClusters (s : State) (sp : Nat) : List Nat :=
  let p := getSpan s sp
  (regionRanks p).filter fun r => (getClus s r).span == some sp ||
    (p.saved && (getClus s r).span.isNone && clusOwner s r == p.tenant.toNat)
/-- WATCHDOG_GRACE_EXPIRE (R420 step 2). -/
def execWatchdogGraceExpire (q : Nat) (s : State) : Out :=
  if qWst s q != 1 || decide (now s < (getDog s q).since + 2 ^ wbits (qword s q) 48 44) then .next s
  else
    let ks := queueSlots s q
    let rs := (ks.flatMap (spansOf s)).flatMap (dogClusters s)
    let s1 := updDog (setWst s q 2) q fun d => { d with since := now s, slots := ks, clusters := rs }
    .next (ks.foldl (fun s k => killSlot s k .watchdog) s1)

/-- The record of a watchdog that has tripped, for one tenant. -/
def dogEvent (s : State) (q n : Nat) : State :=
  postEvent s { type := 0x0F, tenant := qOwner s q, dest := some n, queue := q, w1 := wd 0x0F, w2 := wd q, user := 0 }
/-- MEM, scratchpad and tag table of a cluster cleared (R420 step 3). -/
def resetCluster (s : State) (r : Nat) : State :=
  updClus ((clusTiles r).foldl (clearTile 4) (zeroCluster s r)) r fun c => { c with tags := [] }

/-- WATCHDOG_RESET_DONE (R420 steps 3 and 4). -/
def execWatchdogResetDone (q : Nat) (s : State) : Out :=
  let d := getDog s q
  if qWst s q != 2 || !d.slots.isEmpty || (!d.clusters.isEmpty && decide (now s < d.since + 65536)) then .next s
  else
    let s1 := d.clusters.foldl resetCluster s
    let s2 := updDog (setWst s1 q 3) q fun d => { d with clusters := [] }
    let s3 := dogEvent s2 q (qOwner s2 q)
    .next (if qOwner s q = 0 then s3 else dogEvent s3 q 0)

/-- OWNER_CLEAR_DONE (R124, R422): every class, the scratchpad and the tags are cleared, and BUSY returns to 0. -/
def execOwnerClearDone (rank : Nat) (s : State) : Out :=
  if !clusBusy s rank || decide (now s < (getClus s rank).clearDue) then .next s
  else
    let s1 := resetCluster ((clusTiles rank).foldl (clearTile 15) s) rank
    .next (updCtl s1 fun c => { c with owners := tput c.owners rank (putBits (tget c.owners rank 0) 63 1 0) })

end Sys2Proof.Machine
end

