-- ==== Sys2Proof/Machine/Tokens.lean ====
section
/-!
DEFINITION. Machine/Tokens.lean: positions and their digests (R338 to R344), the token words (R345 to R350, R358 to R365),
the collapse unit and the mask binding (R351 to R360).
-/
namespace Sys2Proof.Machine

/-! ## Positions (R338, R339) -/

/-- Word i of a soft-token register. -/
def pW (x : BitVec 768) (i : Nat) : Word := x.extractLsb' (64 * i) 64
/-- A register from its words. -/
def ofWords (ws : List Word) : BitVec 768 :=
  BitVec.ofNat 768 (ws.foldr (fun w a => w.toNat + 2 ^ 64 * a) 0)
def kEmpty : Nat := 0
def kText : Nat := 1
def kMix : Nat := 2
def kHid : Nat := 3
def pKind (x : BitVec 768) : Nat := wbits (pW x 0) 63 62
def pNmix (x : BitVec 768) : Nat := wbits (pW x 0) 57 54
def pPos (x : BitVec 768) : Nat := wbits (pW x 0) 47 0
def pId (x : BitVec 768) : Nat := wbits (pW x 1) 31 0
def pHfmt (x : BitVec 768) : Nat := wbits (pW x 2) 17 17
def pHlen (x : BitVec 768) : Nat := wbits (pW x 2) 16 0
/-- Pair k: id and weight pattern. -/
def pPair (x : BitVec 768) (k : Nat) : Nat × Nat := (wbits (pW x (4 + k)) 31 0, wbits (pW x (4 + k)) 63 32)
def pPairs (x : BitVec 768) : List (Nat × Nat) := (List.range (pNmix x)).map (pPair x)

/-- A position: kind, flags CON, OPEN, GAT, pairs of a MIX, position index, words 1 to 3. -/
def mkTok (kind : Nat) (con open_ gat : Bool) (pairs : List (Nat × Nat)) (pos w1 w2 w3 : Nat) : BitVec 768 :=
  let b (x : Bool) (i : Nat) : Nat := if x then 2 ^ i else 0
  ofWords ([wd (kind * 2 ^ 62 + b con 61 + b open_ 60 + b gat 59 + pairs.length * 2 ^ 54 + pos % 2 ^ 48), wd w1, wd w2, wd w3] ++
    pairs.map fun p => wd (p.2 * 2 ^ 32 + p.1))

/-- Insertion under an order. -/
def insBy {α : Type} (lt : α → α → Bool) (x : α) : List α → List α
  | [] => [x]
  | y :: l => if lt x y then x :: y :: l else y :: insBy lt x l
def sortBy {α : Type} (lt : α → α → Bool) (l : List α) : List α := l.foldr (insBy lt) []
/-- The order of a MIX's pairs (R338): weight descending, id ascending; weights are not negative, so patterns compare. -/
def pairLt (a b : Nat × Nat) : Bool := decide (b.2 < a.2) || (a.2 == b.2 && decide (a.1 < b.1))

/-! ## Digests (R341 to R344) -/

/-- A chained hash (R341). -/
def chainHash (key : Q4) (dom : Nat) (bs : List Q4) : Q4 :=
  bs.foldl (fun h b => lh128 key (q4xor h b)) (q4 bs.length 0 0 dom)
/-- The digest key of a word (R146). -/
def ckey (cs : List Nat) : Q4 := q4 (csrOf cs 0x18) (csrOf cs 0x19) (csrOf cs 0x1A) (csrOf cs 0x1B)
/-- Blocks of 16 bytes, the last padded with zeros. -/
def blocksOf (bs : List Byte) : List Q4 :=
  (List.range ((bs.length + 15) / 16)).map fun j =>
    let f (i : Nat) : Nat := ofBytes ((bs.drop (16 * j + 4 * i)).take 4)
    q4 (f 0) (f 1) (f 2) (f 3)
/-- HDIG of a vector's bytes (R342). -/
def vecDigest (key : Q4) (bs : List Byte) : Nat :=
  let h := chainHash key 2 (blocksOf bs)
  h.2.1.toNat * 2 ^ 32 + h.1.toNat
/-- The position digest (R343). -/
def posDigest (key : Q4) (x : BitVec 768) : Q4 :=
  let blocks : List Q4 := match pKind x with
    | 0 => [q4 0 0 0 0]
    | 1 => [q4 1 (pId x) 0 0]
    | 2 => q4 2 (pNmix x) 0 0 :: ((pPairs x).zip (List.range 8)).map fun y => q4 y.1.1 y.1.2 y.2 0
    | _ => [q4 3 (pHlen x) (pHfmt x) 0, q4 (wbits (pW x 3) 31 0) (wbits (pW x 3) 63 32) 0 0]
  chainHash key 1 blocks
/-- The chain digest after a position (R344). -/
def chainNext (key c p : Q4) : Q4 := lh128 key (c.1 ^^^ p.1, c.2.1 ^^^ p.2.1, c.2.2.1 ^^^ p.2.2.1, c.2.2.2 ^^^ p.2.2.2 ^^^ 3)
/-- A digest in two scalar words, and back. -/
def digLo (d : Q4) : Word := d.2.1 ++ d.1
def digHi (d : Q4) : Word := d.2.2.2 ++ d.2.2.1
def digOf (lo hi : Word) : Q4 := (lo.truncate 32, (lo >>> 32).truncate 32, hi.truncate 32, (hi >>> 32).truncate 32)
/-- The writes of a digest pair. -/
def wrPair (r : Reg) (d : Q4) : Writes := { regs := [(r, digLo d), (r + 1, digHi d)] }

/-! ## Common forms -/

def vrange (i : Nat) : Trp := rejectT 0x04 i
/-- tk[n] := x by handler h, noted as shared registers are (R139, R340). -/
def putTk (sp h n : Nat) (x : BitVec 768) (s : State) : State :=
  updSpan s sp fun p => { p with tk := tset p.tk n x 0, tkAt := tput p.tkAt n (now s, (tget p.hs h {}).issued) }
/-- The same at the end of a stage that has outlasted its issue cycle: the value of a word that issued later remains. -/
def landTk (sp h n : Nat) (x : BitVec 768) (s : State) : State :=
  if overtaken (getSpan s sp).tkAt (now s) (getH s sp h).issued n then s else putTk sp h n x s
/-- tk[n] := x by the current word. -/
def setTk (s : State) (n : BitVec 4) (x : BitVec 768) : State :=
  if s.cur.latch.isSome then landTk s.cur.sp s.cur.h n.toNat x s else putTk s.cur.sp s.cur.h n.toNat x s
/-- A pointer moved forward; beyond the offsets of R46 it is PTR_SPACE. -/
def ptrFwd (s : State) (p : Word) (n : Nat) : Except Stop Word :=
  if 2 ^ 50 ≤ pOff p + n then .error (.trap (.ptrSpace, ptrPlus p n) s.net) else .ok (ptrPlus p n)
/-- n elements of a format at p. -/
def readElts (s : State) (p : Word) (fmt n al : Nat) : Except Stop (List XV × State) := do
  let w := fmtWidth fmt / 8
  let (bs, s1) ← acqRead s p (n * w) al
  pure ((List.range n).map fun i => dec fmt (ofBytes ((bs.drop (i * w)).take w)), s1)
/-- Format code of HFMT. -/
def hidFmt (x : BitVec 768) : Nat := if pHfmt x = 1 then fFp32 else fBf16

/-! ## Making positions (R347, R348) -/

/-- tk.text. -/
def execTkText (nx : Nx) (td : BitVec 4) (sa sb : Reg) (s : State) : Out :=
  let v := operands s sa sb 0
  endWord (.tkText nx td sa sb) nx v s
    (if wbits v.1 63 32 ≠ 0 ∨ wbits v.2.1 15 0 ≠ 0 then .trap s (vrange 0)
     else .done (setTk s td (mkTok kText false false false [] (wbits v.2.1 63 16) (wbits v.1 31 0) 0 0)) {})

/-- Is pair k of the list an offending one: its weight, or an id seen before (R348). -/
def pairBad (ps : List (Nat × Nat)) (k : Nat) : Bool :=
  let p := nth ps k (0, 0)
  let w := d32 p.2
  !w.isFin || (w.sign && !w.isZero) || (ps.take k).any fun q => q.1 == p.1
/-- −0 as +0. -/
def plusZero (w : Nat) : Nat := if w = 2 ^ 31 then 0 else w

/-- tk.mix. -/
def execTkMix (nx : Nx) (td : BitVec 4) (sa sb : Reg) (n : BitVec 4) (s : State) : Out :=
  let v := operands s sa sb 0
  endWord (.tkMix nx td sa sb n) nx v s
    (if wbits v.2.1 15 0 ≠ 0 then .trap s (vrange 0)
     else match acqRead s v.1 (8 * n.toNat) 8 with
       | .error n => ofStop s n
       | .ok (bs, s1) =>
         let ps := (wordsOf n.toNat bs).map fun w => (wbits w 31 0, plusZero (wbits w 63 32))
         match (List.range n.toNat).find? (pairBad ps) with
         | some k => afterReads s s1 (vrange k)
         | none => .done (setTk s1 td (mkTok kMix false false false (sortBy pairLt ps) (wbits v.2.1 63 16) 0 0 0)) {})

/-- tk.hid. -/
def execTkHid (nx : Nx) (td : BitVec 4) (sa sb : Reg) (fp32 : Bool) (s : State) : Out :=
  let v := operands s sa sb 0
  let key := ckey (wordCsrs s)
  let n := wbits v.2.1 15 0 + 1
  endWord (.tkHid nx td sa sb fp32) nx v s
    (match acqRead s v.1 (n * if fp32 then 4 else 2) 64 with
     | .error n => ofStop s n
     | .ok (bs, s1) =>
       .done (setTk s1 td (mkTok kHid false false false [] (wbits v.2.1 63 16) v.1.toNat
         ((if fp32 then 2 ^ 17 else 0) + n) (vecDigest key bs))) {})

/-! ## tk.emb (R349, R350) -/

def eW (d : List Word) (i : Nat) : Word := nth d i 0
def eDim (d : List Word) : Nat := wbits (eW d 1) 16 0
def eRstr (d : List Word) : Nat := wbits (eW d 1) 63 32
def eOfmt (d : List Word) : Nat := wbits (eW d 2) 11 6
def eTfmt (d : List Word) : Nat := wbits (eW d 2) 5 0
def ePstr (d : List Word) : Nat := wbits (eW d 4) 63 32
def eNv (d : List Word) : Nat := wbits (eW d 5) 31 0
/-- The ids of a position. -/
def idsOf (x : BitVec 768) : List Nat :=
  match pKind x with | 1 => [pId x] | 2 => (pPairs x).map (·.1) | _ => []
/-- The lowest word of an embedding descriptor that offends (R350). -/
def embBad (d : List Word) (x : BitVec 768) (proj : Bool) : Option Nat :=
  if wbits (eW d 1) 31 17 ≠ 0 ∨ eDim d = 0 ∨ 65536 < eDim d ∨ eRstr d % 64 ≠ 0 ∨
      (pKind x = kHid ∧ proj = false ∧ pHlen x ≠ eDim d) then some 1
  else if wbits (eW d 2) 63 12 ≠ 0 ∨ !(eOfmt d == fBf16 || eOfmt d == fFp32) ∨ !isIeee (eTfmt d) then some 2
  else if wbits (eW d 4) 31 0 ≠ 0 ∨ (proj = true ∧ ePstr d % 64 ≠ 0) then some 4
  else if wbits (eW d 5) 63 32 ≠ 0 ∨ eNv d = 0 ∨ (idsOf x).any (decide <| eNv d ≤ ·) then some 5
  else if eW d 6 ≠ 0 then some 6
  else if eW d 7 ≠ 0 then some 7
  else none
/-- Row `id` of the table. -/
def embRow (s : State) (d : List Word) (id : Nat) : Except Stop (List XV × State) := do
  let p ← ptrFwd s (eW d 0) (id * eRstr d)
  readElts s p (eTfmt d) (eDim d) 1
/-- The weighted sum over the pairs of a MIX, rounded at each step. -/
def embMix (d : List Word) : List (Nat × Nat) → List XV → State → Except Stop (List XV × State)
  | [], acc, s => .ok (acc, s)
  | p :: l, acc, s => do
    let (row, s1) ← embRow s d p.1
    embMix d l ((row.zip acc).map fun y => r32 (((d32 p.2).mul y.1).add false y.2)) s1
/-- The exact products of a projection. -/
def embProj (d : List Word) (vec : List XV) : List Nat → State → Except Stop (List XV × State)
  | [], s => .ok ([], s)
  | j :: l, s => do
    let p ← ptrFwd s (eW d 3) (j * ePstr d)
    let (row, s1) ← readElts s p (eTfmt d) vec.length 1
    let (rest, s2) ← embProj d vec l s1
    pure (exactSum ((row.zip vec).map fun y => y.1.mul y.2) :: rest, s2)
/-- The exact elements of an embedding. -/
def embValues (s : State) (d : List Word) (x : BitVec 768) (proj : Bool) : Except Stop (List XV × State) :=
  let zeros : List XV := List.replicate (eDim d) .zero
  match pKind x with
  | 0 => .ok (zeros, s)
  | 1 => embRow s d (pId x)
  | 2 => embMix d (pPairs x) zeros s
  | _ => do
    let (vec, s1) ← readElts s (pW x 1) (hidFmt x) (pHlen x) 1
    if proj then embProj d vec (List.range (eDim d)) s1 else pure (vec, s1)

/-- tk.emb (R350). -/
def execTkEmb (nx : Nx) (ta : BitVec 4) (sa sb : Reg) (proj : Bool) (s : State) : Out :=
  let v := operands s sa sb 0
  let x := tkIn s ta
  endWord (.tkEmb nx ta sa sb proj) nx v s
    (match acqRead s v.1 64 8 with
     | .error n => ofStop s n
     | .ok (bs, s1) =>
       let d := wordsOf 8 bs
       match embBad d x proj with
       | some i => afterReads s s1 (vrange i)
       | none =>
         match embValues s1 d x proj with
         | .error n => ofStop s n
         | .ok (vs, s2) =>
           storeWord s s2 v.2.1 (vs.flatMap fun y => toBytes (fmtWidth (eOfmt d) / 8) (rne (eOfmt d) y)) 64 {})

/-! ## The arithmetic of a collapse (R353 to R356) -/

/-- What a collapse is given: members, c, thresholds, logit of a member and a token, mask, key, position index, mode. -/
structure ColIn where
  nv : Nat
  E : Nat
  c : XV
  P : XV
  gth : XV
  ath : XV
  logit : Nat → Nat → XV
  allow : Option (Nat → Bool)
  sseed : Word
  pos : Nat
  mode : ColMode
  gate : Bool

/-- log2 e to 320 bits, and c of R353. -/
def colC (T : XV) : XV := r32 ((XV.fin false (2 * log2e + 1) (-321)).div T)
def log2r (x : XV) : XV := r32 x.log2
/-- The draw key of a token (R354). -/
def drawKey (a : ColIn) (i : Nat) (l : XV) : XV :=
  let x := lh128 (q4 a.sseed.toNat (a.sseed.toNat / 2 ^ 32) 0 0) (q4 i a.pos (a.pos / 2 ^ 32 % 2 ^ 16) 5)
  let u := XV.fin false (max (x.1.toNat / 256) 1) (-24)
  r32 ((l.mul a.c).add false (log2r (log2r u).neg).neg)

/-- A candidate: id, l, y, e, p. -/
structure Cand where
  id : Nat
  l : XV
  y : XV := .zero
  e : XV := .zero
  p : XV := .zero

/-- The first of a list by a value, the lowest id on ties: the list's ids rise. NaN is lowest. -/
def bestBy {α : Type} (f : α → XV) : List α → Option α
  | [] => none
  | a :: l => some (l.foldl (fun m b => if !(f b).isNan && ((f m).isNan || (f m).lt (f b)) then b else m) a)

/-- l of a token. -/
def colL (a : ColIn) (i : Nat) : XV := r32 ((treeSum fFp32 ((List.range a.E).map fun m => a.logit m i)).div (.ofInt a.E))
/-- The tokens of A under a mask, with l. -/
def colSet (a : ColIn) (ok : Nat → Bool) : List Cand :=
  (List.range a.nv).filterMap fun i => if ok i && !(colL a i).isNan then some { id := i, l := colL a i } else none
/-- y, e and p of the tokens of A. -/
def colProbs (a : ColIn) (A : List Cand) : List Cand :=
  let A := A.map fun x => { x with y := r32 (x.l.mul a.c) }
  let mx := A.foldl (fun m x => if XV.lt m x.y then x.y else m) (.inf true)
  let e (x : Cand) : XV :=
    if mx = .inf true ∨ x.y = .inf false then .one
    else if mx = .inf false then .zero
    else exp2r (r32 (x.y.add false mx.neg))
  let A := A.map fun x => { x with e := e x }
  let Z := treeSum fFp32 (A.map (·.e))
  A.map fun x => { x with p := r32 (x.e.div Z) }
def candLt (a b : Cand) : Bool := b.p.lt a.p || (a.p.eq b.p && decide (a.id < b.id))

/-- Length of the shortest prefix whose running sum reaches P (R355). -/
def prefixLen (P : XV) : XV → Nat → List Cand → Nat
  | _, n, [] => n
  | q, n, x :: l => let q := r32 (q.add false x.p); if !q.lt P then n + 1 else prefixLen P q (n + 1) l
/-- The nucleus (R355). -/
def nucleus (P : XV) (K : Nat) (rank : List Cand) : List Cand :=
  let k := min K rank.length
  let lastP := (nth rank (k - 1) { id := 0, l := .zero }).p
  let cand := rank.take k ++ (rank.drop k).filter fun x => x.p.eq lastP
  let n := if !XV.lt .zero P then 1 else prefixLen P .zero 0 cand
  let tie := (nth cand (n - 1) { id := 0, l := .zero }).p
  cand.take n ++ (cand.drop n).filter fun x => x.p.eq tie

/-- The id a mode picks from A and its ranking (R354). -/
def colPick (a : ColIn) (A rank : List Cand) : Nat :=
  let draw (l : List Cand) : Nat := ((bestBy (fun x => drawKey a x.id x.l) (sortBy (fun x y => decide (x.id < y.id)) l)).map (·.id)).getD 0
  match a.mode with
  | .argmax => ((bestBy (·.l) A).map (·.id)).getD 0
  | .sample => draw A
  | .topp k => draw (nucleus a.P k.toNat rank)
  | .topk k => draw (rank.take k.toNat)

/-- The pairs of a gated mixture (R356). -/
def colPairs (rank : List Cand) : List (Nat × Nat) :=
  let top := rank.take 8
  let q := top.foldl (fun q x => r32 (q.add false x.p)) .zero
  sortBy pairLt (top.map fun x => (x.id, rne fFp32 (x.p.div q)))

/-- A collapse (R353 to R357): the new position, and pmax with agr. `opened`: the OPEN policy took it. -/
def collapse (a : ColIn) (opened : Bool) : BitVec 768 × Word :=
  let con := a.allow.isSome
  let A0 := colSet a (a.allow.getD fun _ => true)
  let open_ := opened || (A0.isEmpty && con)
  let A := colProbs a (if A0.isEmpty && con then colSet a fun _ => true else A0)
  let rank := sortBy candLt A
  match rank with
  | [] => (mkTok kText con open_ false [] a.pos 0 0 0, 0)
  | r :: _ =>
    let hits := (List.range a.E).filter fun m => ((bestBy (fun (x : Cand) => a.logit m x.id) A).map (·.id)) == some r.id
    let agr := r32 ((XV.ofInt hits.length).div (.ofInt a.E))
    let out := wd (p32 r.p + p32 agr * 2 ^ 32)
    if a.gate && (r.p.lt a.gth || (decide (1 < a.E) && agr.lt a.ath)) then
      (mkTok kMix con open_ true (colPairs rank) a.pos 0 0 0, out)
    else (mkTok kText con open_ false [] a.pos (colPick a A rank) 0 0, out)

/-! ## Collapse descriptors (R351, R352) -/

def cNv (d : List Word) : Nat := wbits (nth d 2 0) 63 32
def cE (d : List Word) : Nat := wbits (nth d 2 0) 26 24 + 1
def cBytes (d : List Word) : Nat := if isSet (nth d 2 0).toNat 0 then 2 else 4
def cVpt (d : List Word) : Nat := wbits (nth d 4 0) 63 32
def cLoff (d : List Word) : Nat := wbits (nth d 4 0) 17 0
/-- Mask entries a collapse consumes (R358). -/
def cNw (d : List Word) : Nat := (cNv d + 63) / 64
/-- What is wrong with a collapse descriptor, if anything. -/
def colBad (p : Span) (d : List Word) : Option Trp :=
  let f (i hi lo : Nat) : Nat := wbits (nth d i 0) hi lo
  let T := d32 (f 0 31 0)
  let tiles := (rectOf p (nth d 3 0)).map rectCount
  if (d32 (f 0 63 32)).isNan ∨ !T.isFin ∨ T.isZero ∨ T.sign ∨ !(colC T).isFin then some (vrange 0)
  else if (d32 (f 1 63 32)).isNan ∨ (d32 (f 1 31 0)).isNan then some (vrange 1)
  else if cNv d = 0 ∨ 2 ^ 24 < cNv d ∨ f 2 31 27 ≠ 0 ∨ f 2 23 1 ≠ 0 ∨ (tiles.any fun n => decide (n * cVpt d < cNv d)) = true then
    some (vrange 2)
  else if cVpt d = 0 ∨ 65536 < cVpt d ∨ f 4 31 18 ≠ 0 ∨ cLoff d % 64 ≠ 0 ∨ 262144 < cLoff d + cE d * cVpt d * cBytes d then some (vrange 4)
  else if nth d 5 0 ≠ 0 then some (vrange 5)
  else if nth d 6 0 ≠ 0 then some (vrange 6)
  else if nth d 7 0 ≠ 0 then some (vrange 7)
  else if tiles.isNone then some (rejectT 0x19 0)
  else none

/-- The slices of logits: tile of the module, member, first token, tokens. -/
def colSlices (p : Span) (d : List Word) : List (Nat × Nat × Nat × Nat) :=
  let q := (rectOf p (nth d 3 0)).getD {}
  (List.range (rectCount q)).flatMap fun t =>
    let n := min (cVpt d) (cNv d - t * cVpt d)
    if n = 0 then [] else (List.range (cE d)).map fun m => (rectTile p q t, m, t * cVpt d, n)
/-- The TILE pointer of a tile's node byte. -/
def tilePtr (t off : Nat) : Word := mkPtr 2 (t / 16) (t % 16 * 2 ^ 18 + off)
/-- Read every slice. -/
def readSlices (port : PortId) (d : List Word) : List (Nat × Nat × Nat × Nat) → State → Except Stop State
  | [], s => .ok s
  | x :: l, s =>
    match acqReadAt s port (tilePtr x.1 (cLoff d + x.2.1 * cVpt d * cBytes d)) (x.2.2.2 * cBytes d) 1 with
    | .error t => .error t
    | .ok (_, s1) => readSlices port d l s1
/-- Logit of a member and a token, in memory. -/
def logitAt (s : State) (p : Span) (d : List Word) (m i : Nat) : XV :=
  let q := (rectOf p (nth d 3 0)).getD {}
  let t := rectTile p q (i / cVpt d)
  let k := keyTile t (cLoff d + (m * cVpt d + i % cVpt d) * cBytes d)
  dec (if cBytes d = 2 then fBf16 else fFp32) (leAt s k (cBytes d))

/-! ## tk.col and the collapse unit (R358, R359) -/

/-- tk.col joins the queue of the collapse unit with what it reads in its issue cycle (R146, R340). -/
def execTkCol (nx : Nx) (o : ColOp) (s : State) : Out :=
  let p := curSpan s
  let (id, s) := freshId s
  let c : Collapse := { id := id, h := s.cur.h, td := o.td.toNat, ta := tget p.tk o.ta.toNat 0, ptr := reg s o.sa, msk := o.msk, gate := o.gate
                        mode := o.mode, sseed := tget p.csr 0x17 0 }
  endWord (.tkCol nx o) nx (0, 0, 0) s (.hold (updSpan s s.cur.sp fun p => { p with cols := p.cols ++ [c] }) (.col nx o.sb))

/-- The collapse at the head of the unit's queue. -/
def headCol (p : Span) : Option Collapse := p.cols.head?
def setHead (s : State) (sp : Nat) (c : Collapse) : State := updSpan s sp fun p => { p with cols := c :: p.cols.tail }
/-- The head collapse leaves and its handler traps; the binding stays. -/
def colTrap (s : State) (sp : Nat) (c : Collapse) (t : Trp) : State :=
  raiseTrapFull (updSpan s sp fun p => { p with cols := p.cols.tail })
    { cause := t.1, tval := t.2, pc := (getH s sp c.h).pc, h := c.h } sp
/-- A collapse one of whose reads does not go on: it traps, with what its reads have left in the ordering machine (R345, R391), or with
the fault of a failed SC write that it waits for (R377), or it asks for what it lacks and waits. -/
def colStop (s : State) (sp : Nat) (c : Collapse) (n : Stop) : State :=
  match n, failedOf (getH s sp c.h) n with
  | .trap t net, _ => colTrap { s with net := net } sp c t
  | _, some t => colTrap (updH s sp c.h fun x => { x with podFault := none }) sp c t
  | n, none => askFor s (.handler sp c.h) n
/-- Does the collapse unit work for the span? -/
def colRuns (p : Span) : Bool := p.live && !p.frozen && !p.ended && !p.saved && !p.starting

/-- Entries of the mask channel of a collapse, none where it needs none. -/
def maskEntries (p : Span) (c : Collapse) : Option (List Token) :=
  if c.msk && !c.opened then c.bind.map fun b => tget p.ch b.1 [] else none
/-- Does a collapse lack mask entries? -/
def maskShort (p : Span) (c : Collapse) : Bool :=
  match maskEntries p c with
  | some l => decide (l.length < cNw c.desc)
  | none => false
/-- The mask bit of a token. -/
def maskBit (l : List Token) (i : Nat) : Bool :=
  match nth l (i / 64) .empty with
  | .word w => isSet w.toNat (i % 64)
  | _ => false

/-- What a mask deadline brings to the head collapse that lacks entries: OPEN or a trap (R359). The logits' faults come
first (R358). -/
def maskPolicy (s : State) (sp : Nat) (c : Collapse) (opens : Bool) (ch n : Nat) : State :=
  if opens then setHead s sp { c with opened := true }
  else match readSlices (.handler sp c.h) c.desc (colSlices (getSpan s sp) c.desc) s with
    | .error (.trap t net) => colTrap { s with net := net } sp c t
    | _ => colTrap s sp c (.maskDeadline, wd (ch + n * 65536))
/-- The judgement of a deadline at the end of its cycle: `grace` is that of the deadline plus GRACE, which only WAIT has. -/
def judgeMask (s : State) (sp : Nat) (grace : Bool) : State :=
  let p := getSpan s sp
  match headCol p with
  | none => s
  | some c =>
    match c.bind with
    | none => s
    | some (ch, dl, gr, pol) =>
      if p.live && !p.ended && !p.saved && c.running && maskShort p c && (grace == (pol == .wait)) &&
          decide ((if grace then dl + gr else dl) < now s) then
        maskPolicy s sp c (pol == .open_) ch (tget p.ch ch []).length
      else s

/-- The constrained collapse that holds the unit (R360). -/
def holder (p : Span) : Option Nat := (headCol p).bind fun c => if c.running && c.msk then some c.id else none
/-- Waits a tk.mask, issued while collapse k held the unit, no longer: k has completed or trapped (R360)? -/
def maskTurn (p : Span) (k : Word) : Bool := p.cols.all fun c => c.id != k.toNat
/-- Does such a word wait no longer, so that a constrained collapse starts after it? -/
def maskDue (p : Span) : Bool := p.hs.any fun x => match x.2.op with
  | some (.wait (.tkMask ..) _ k _ _) => maskTurn p k
  | some (.wait (.tkMaskOff _) _ k _ _) => maskTurn p k
  | _ => false
/-- COLLAPSE_START: the oldest collapse starts on the unit: its descriptor is read and checked, and a constrained one takes the
binding that stands, whose deadline applies at once if it is past (R358, R359). One that stands behind a tk.mask that waits no
longer starts after it (R360). -/
def execCollapseStart (sp : Nat) (s : State) : Out :=
  let p := getSpan s sp
  match headCol p with
  | none => .next s
  | some c =>
    if !colRuns p || c.running || (c.msk && maskDue p) then .next s
    else
      match acqReadAt s (.handler sp c.h) c.ptr 64 8 with
      | .error n => .next (colStop s sp c n)
      | .ok (bs, s1) =>
        let d := wordsOf 8 bs
        match colBad p d with
        | some t => .next (colTrap { s with net := s1.net } sp c t)
        | none =>
          if c.msk && p.bind.isNone then .next (colTrap { s with net := s1.net } sp c (vrange 0))
          else
            let s2 := setHead s1 sp { c with desc := d, running := true, bind := if c.msk then p.bind else none }
            .next (judgeMask (judgeMask s2 sp false) sp true)

/-- COLLAPSE_COMPLETE (R353 to R359): with its logits and its mask entries, the collapse is computed; tk[TD] and s[SB] take the
result, and a constrained one ends the binding. -/
def execCollapseComplete (sp : Nat) (s : State) : Out :=
  let p := getSpan s sp
  match headCol p with
  | none => .next s
  | some c =>
    if !colRuns p || !c.running || maskShort p c then .next s
    else
      let d := c.desc
      match readSlices (.handler sp c.h) d (colSlices p d) s with
      | .error n => .next (colStop s sp c n)
      | .ok s1 =>
        let f (i hi lo : Nat) : XV := d32 (wbits (nth d i 0) hi lo)
        let a : ColIn := {
          nv := cNv d, E := cE d, c := colC (f 0 31 0), P := f 0 63 32, gth := f 1 31 0, ath := f 1 63 32
          logit := logitAt s1 p d, allow := (maskEntries p c).map maskBit, sseed := c.sseed, pos := (pPos c.ta + 1) % 2 ^ 48
          mode := c.mode, gate := c.gate }
        let r := collapse a c.opened
        let took (s : State) : State := match maskEntries p c, c.bind with
          | some _, some b => (List.range (cNw d)).foldl (fun s _ => markTake s sp (.handler sp c.h) (qChan sp b.1)) s
          | _, _ => s
        let s2 := updSpan (landTk sp c.h c.td r.1 (took s1)) sp fun p => { p with
          cols := p.cols.tail
          bind := if c.msk then none else p.bind
          ch := match maskEntries p c, c.bind with
            | some l, some b => tput p.ch b.1 (l.drop (cNw d))
            | _, _ => p.ch }
        match (getH s sp c.h).op with
        | some (.col nx sb) => .next (landWord s2 sp c.h (getH s sp c.h).pc (now s) (wr1 sb r.2) nx)
        | _ => .next s2

/-- MASK_DEADLINE_EXPIRE (R359): OPEN and TRAP at the end of the deadline's cycle. -/
def execMaskDeadlineExpire (sp : Nat) (s : State) : Out := .next (judgeMask s sp false)
/-- MASK_GRACE_EXPIRE (R359): WAIT at the end of GRACE. -/
def execMaskGraceExpire (sp : Nat) (s : State) : Out := .next (judgeMask s sp true)

/-- The operands with which a mask word waits: its own, and the collapse that held the unit when it issued. -/
def maskHold (s : State) (a : Word) : Word × Word × Word :=
  match s.cur.latch with
  | some (a, k, e, _) => (a, k, e)
  | none => (a, wd ((holder (curSpan s)).getD 0), 0)
/-- Is a mask word blocked: by the collapse that held the unit when it issued (R360)? -/
def maskBlocked (s : State) : Bool :=
  match s.cur.latch with
  | some (_, k, _) => !maskTurn (curSpan s) k
  | none => (holder (curSpan s)).isSome

/-- tk.mask (R360); the deadline counts from the issue cycle (R359). -/
def execTkMask (nx : Nx) (sa : Reg) (pol : MaskPolicy) (ch : BitVec 6) (s : State) : Out :=
  let v := maskHold s (reg s sa)
  let m := (latchMark s).getD (now s)
  let p := curSpan s
  endWord (.tkMask nx sa pol ch) nx v s
    (if !isBound p ch.toNat then .trap s (illegalT s)
     else if wbits v.1 31 0 = 0 then .trap s (vrange 0)
     else if maskBlocked s then .wait s m
     else .done (updSpan s s.cur.sp fun p => { p with bind := some (ch.toNat, m + wbits v.1 31 0, wbits v.1 63 32, pol) }) {})

/-- tk.mask.off (R360). -/
def execTkMaskOff (nx : Nx) (s : State) : Out :=
  endWord (.tkMaskOff nx) nx (maskHold s 0) s
    (if maskBlocked s then .wait s 0 else .done (updSpan s s.cur.sp fun p => { p with bind := none }) {})

/-! ## Logs, digests, matching (R361 to R363) -/

/-- The 128 bytes of a record. -/
def recordBytes (x : BitVec 768) (p c : Q4) : List Byte :=
  (((List.range 12).map (pW x)) ++ [digLo p, digHi p, digLo c, digHi c]).flatMap fun w => toBytes 8 w.toNat

/-- The digests of a tk.log word: of the position, and of the chain after it. -/
def logDigests (s : State) (ta : BitVec 4) (b e : Word) : Q4 × Q4 :=
  let key := ckey (wordCsrs s)
  let p := posDigest key (tkIn s ta)
  (p, chainNext key (digOf b e) p)

/-- tk.log (R361). -/
def execTkLog (nx : Nx) (ta : BitVec 4) (sa sb : Reg) (s : State) : Out :=
  let v := operands s sa sb (sb + 1)
  let g := logDigests s ta v.2.1 v.2.2
  endWord (.tkLog nx ta sa sb) nx v s (storeWord s s v.1 (recordBytes (tkIn s ta) g.1 g.2) 64 (wrPair sb g.2))

/-- tk.log.chk (R361). -/
def execTkLogChk (nx : Nx) (ta : BitVec 4) (sa sb : Reg) (s : State) : Out :=
  let v := operands s sa sb (sb + 1)
  let g := logDigests s ta v.2.1 v.2.2
  endWord (.tkLogChk nx ta sa sb) nx v s
    (match acqRead s v.1 128 64 with
     | .error n => ofStop s n
     | .ok (bs, s1) =>
       let w := wordsOf 16 bs
       if (nth w 12 0, nth w 13 0, nth w 14 0, nth w 15 0) = (digLo g.1, digHi g.1, digLo g.2, digHi g.2) then
         .done (setTk s1 ta (putBits (tkIn s ta) 58 1 1)) (wrPair sb g.2)
       else afterReads s s1 (.replayDiverge, v.1))

/-- tk.dig (R362). -/
def execTkDig (nx : Nx) (ta : BitVec 4) (sa : Reg) (chain : Bool) (s : State) : Out :=
  let key := ckey (sampleCsrs (curSpan s))
  let p := posDigest key (tget (curSpan s).tk ta.toNat 0)
  pureWord nx (wrPair sa (if chain then chainNext key (digOf (reg s sa) (reg s (sa + 1))) p else p)) s

/-- Do two records match (R363)? -/
def sameRecord (s : State) (a b : List Word) : Except Stop (Bool × State) :=
  let x := ofWords (a.take 12)
  let y := ofWords (b.take 12)
  if nth a 14 0 ≠ nth b 14 0 ∨ nth a 15 0 ≠ nth b 15 0 ∨ pKind x ≠ pKind y then .ok (false, s)
  else match pKind x with
    | 0 => .ok (true, s)
    | 1 => .ok (pId x == pId y, s)
    | 2 => .ok (pNmix x == pNmix y && (List.range (min 8 (pNmix x))).all fun k => pPair x k == pPair y k, s)
    | _ =>
      if pHlen x ≠ pHlen y ∨ pHfmt x ≠ pHfmt y then .ok (false, s)
      else
        let n := pHlen x * (if pHfmt x = 1 then 4 else 2)
        if n = 0 then .ok (true, s)
        else do
          let (u, s1) ← acqRead s (pW x 1) n 1
          let (v, s2) ← acqRead s1 (pW y 1) n 1
          pure (u == v, s2)

/-- The comparison from record i on, n records left: the first that differs, or their end. -/
def matchFrom (la lb : Word) : Nat → Nat → State → Except Stop (Nat × State)
  | 0, i, s => .ok (i, s)
  | n + 1, i, s => do
    let pa ← ptrFwd s la (128 * i)
    let (ba, s1) ← acqRead s pa 128 64
    let pb ← ptrFwd s1 lb (128 * i)
    let (bb, s2) ← acqRead s1 pb 128 64
    let (same, s3) ← sameRecord s2 (wordsOf 16 ba) (wordsOf 16 bb)
    if same then matchFrom la lb n (i + 1) s3 else pure (i, s3)

/-- The lowest word of a match descriptor that offends. -/
def matchBad (d : List Word) : Option Nat :=
  let n := wbits (nth d 2 0) 31 0
  if wbits (nth d 2 0) 63 32 ≠ 0 ∨ n = 0 ∨ 2 ^ 20 < n then some 2
  else [3, 4, 5, 6, 7].find? fun i => nth d i 0 != 0

/-- tk.match (R363). -/
def execTkMatch (nx : Nx) (sa sb : Reg) (s : State) : Out :=
  let v := operands s sa 0 0
  endWord (.tkMatch nx sa sb) nx v s
    (match acqRead s v.1 64 8 with
     | .error n => ofStop s n
     | .ok (bs, s1) =>
       let d := wordsOf 8 bs
       let la := nth d 0 0
       let lb := nth d 1 0
       match matchBad d with
       | some i => afterReads s s1 (vrange i)
       | none =>
         if pOff la % 64 ≠ 0 then afterReads s s1 (.align, la)
         else if pOff lb % 64 ≠ 0 then afterReads s s1 (.align, lb)
         else match matchFrom la lb (wbits (nth d 2 0) 31 0) 0 s1 with
           | .error n => ofStop s n
           | .ok (i, s2) => .done s2 (wr1 sb (wd i)))

/-! ## Moving, loading, storing (R365) -/

/-- tk.mov. -/
def execTkMov (nx : Nx) (td ta : BitVec 4) (s : State) : Out :=
  pureWord nx {} (setTk s td (tget (curSpan s).tk ta.toNat 0))

/-- tk.mov.empty. -/
def execTkMovEmpty (nx : Nx) (td : BitVec 4) (sa : Reg) (s : State) : Out :=
  let v := reg s sa
  endWord (.tkMovEmpty nx td sa) nx (v, 0, 0) s
    (if wbits v 63 48 ≠ 0 then .trap s (vrange 0)
     else .done (setTk s td (mkTok kEmpty false false false [] v.toNat 0 0 0)) {})

/-- Does pair k of an image break R338? -/
def imagePairBad (x : BitVec 768) (k : Nat) : Bool :=
  let p := pPair x k
  let before := (List.range k).map (pPair x)
  !(d32 p.2).isFin || (d32 p.2).sign || before.any (fun q => q.1 == p.1) ||
  (match before.getLast? with | some q => pairLt p q | none => false)
/-- The lowest word of an image that tk.ld rejects. -/
def imageBad (x : BitVec 768) : Option Nat :=
  let k := pKind x
  let n := if k = kMix then pNmix x else 0
  if wbits (pW x 0) 53 48 ≠ 0 ∨ (k ≠ kMix ∧ pNmix x ≠ 0) ∨ (k = kMix ∧ (n = 0 ∨ 8 < n)) then some 0
  else if (k = kText ∧ wbits (pW x 1) 63 32 ≠ 0) ∨ ((k = kEmpty ∨ k = kMix) ∧ pW x 1 ≠ 0) then some 1
  else if (if k = kHid then wbits (pW x 2) 63 18 ≠ 0 ∨ pHlen x = 0 ∨ 65536 < pHlen x else pW x 2 ≠ 0) then some 2
  else if k ≠ kHid ∧ pW x 3 ≠ 0 then some 3
  else ((List.range 8).find? fun j => if j < n then imagePairBad x j else pW x (4 + j) != 0).map (· + 4)

/-- tk.ld. -/
def execTkLd (nx : Nx) (td : BitVec 4) (sa : Reg) (s : State) : Out :=
  let v := operands s sa 0 0
  endWord (.tkLd nx td sa) nx v s
    (match acqRead s v.1 128 64 with
     | .error n => ofStop s n
     | .ok (bs, s1) =>
       let x := ofWords ((wordsOf 16 bs).take 12)
       match imageBad x with
       | some i => afterReads s s1 (vrange i)
       | none => .done (setTk s1 td x) {})

/-- tk.st. -/
def execTkSt (nx : Nx) (ta : BitVec 4) (sa : Reg) (s : State) : Out :=
  let v := operands s sa 0 0
  let z : Q4 := q4 0 0 0 0
  endWord (.tkSt nx ta sa) nx v s (storeWord s s v.1 (recordBytes (tkIn s ta) z z) 64 {})

end Sys2Proof.Machine
end

