-- ==== Sys2Proof/Machine/Time.lean ====
section
/-!
DEFINITION. Machine/Time.lean: what the passing of a cycle does by itself: the clock, ages, timers, limits (R116, R173, R181,
R183, R359, R419).
-/
namespace Sys2Proof.Machine

/-! ## Ages of element slots (R173) -/

/-- The age of slot e after a cycle: one more for a contender with a ticket, as it was without, zero for a slot that was not
ready or has fired. -/
def nextAge (s : State) (T : Tile) (t e age : Nat) : Nat :=
  let tk : Option Nat := match T.seen with
    | some l => tfind l e
    | none => contends s t e
  match tk with
  | some n => if 0 < n then age + 1 else age
  | none => 0
/-- The slots of one tile. -/
def ageTile (s : State) (x : Nat × Tile) : Nat × Tile :=
  match x.2.leaf with
  | none => x
  | some _ =>
    let one (els : Tab Elem) (e : Nat) : Tab Elem :=
      let el := tget els e {}
      let a := nextAge s x.2 x.1 e el.age
      if a = el.age then els else tput els e { el with age := a }
    (x.1, { x.2 with elems := (List.range 8).foldl one x.2.elems })

/-! ## What a cycle does not end without (R172, R181, R188) -/

/-- The selector of a tile picks, if it has not and can. -/
def pickDue (s : State) (t : Nat) : State :=
  match selectorPick s t with
  | none => s
  | some (e, _) => match firingOf (sOpc (getTile s t) e) t e with
    | some f => after f s
    | none => s
/-- A slot that can pass the drain passes it, and one that has passed it discards what stands on its cycle inputs (R205). -/
def drainDue (s : State) (t e : Nat) : State :=
  let s1 := after (execDrainPass t e) s
  if (getElem s1 t e).discard.isEmpty then s1 else (List.range 16).foldl (fun s _ => after (execDrainPass t e) s) s1
/-- Of a tile on which a leaf of a moving span runs: the drains it passes, its firing and the updates its couplers owe. -/
def tileDue (s : State) (t : Nat) : State :=
  match (getTile s t).leaf with
  | none => s
  | some (sp, _) => if moves (getSpan s sp) then
      (List.range 15).foldl (fun s c => cplUpdate s t c) (pickDue ((List.range 9).foldl (fun s e => drainDue s t e) s) t)
    else s
/-- Of a span: the entries that its recvs take (R143), and the attention pages that must be abandoned (R332). -/
def spanDue (s : State) (sp : Nat) : State :=
  let s1 := (List.range 16).foldl (fun s h => recvDue s sp h) s
  (getSpan s sp).hs.foldl (fun s x => x.2.attHeld.foldl (fun s y => attAbandon s sp x.1 y.1) s) s1
/-- What a cycle begins with: the depth windows of a span that ended with the last one (R188). -/
def spanBegin (s : State) (sp : Nat) : State := ((getSpan s sp).streams.map (·.1)).foldl (fun s k => windowDue s sp k) s
def cycleDue (s : State) : State :=
  let s1 := (s.tiles.map (·.1)).foldl tileDue s
  let s2 := (s1.spans.map (·.1)).foldl spanDue s1
  (s2.spans.map (·.1)).foldl freezeDue s2

/-! ## Couplers (R181, R183) -/

/-- TIMER of the couplers of one tile, which an update of the cycle has returned to 0. -/
def timeTile (s : State) (x : Nat × Tile) : Nat × Tile :=
  match x.2.leaf with
  | none => x
  | some _ =>
    let one (k : Tab Cpl) (c : Nat) : Tab Cpl :=
      let y := tget k c {}
      if y.upd then tput k c { y with upd := false }
      else if cplRuns s x.1 c then tput k c { y with timer := y.timer + 1 }
      else k
    (x.1, { x.2 with cpl := (List.range 15).foldl one x.2.cpl })
/-- Contributions 64 cycles old have arrived. -/
def arriveDue (n : Nat) (k : Cpl) : Cpl :=
  let due := k.flight.filter fun x => decide (x.1 + 64 ≤ n)
  match due.getLast? with
  | none => k
  | some x => { k with prod := x.2, flight := k.flight.drop due.length }
def arriveTile (n : Nat) (x : Nat × Tile) : Nat × Tile := (x.1, { x.2 with cpl := x.2.cpl.map fun k => (k.1, arriveDue n k.2) })

/-! ## Dispatchers and watchdogs (R116, R419) -/

/-- Entries that head a list age in the cycles in which their die has a free slot. -/
def ageHeads (s : State) : State :=
  let one (d : Tab Disp) (x : Nat × List Nat) : Tab Disp :=
    match x.2 with
    | [] => d
    | k :: _ =>
      let die := x.1 / 64
      if (freeSlot s die).isSome then
        let y := tget d die {}
        tput d die { y with ages := tput y.ages k (tget y.ages k 0 + 1) }
      else d
  updCtl s fun c => { c with disp := c.ready.foldl one c.disp }
/-- Progress timers. -/
def countDogs (s : State) : State :=
  s.ctl.qctl.foldl (fun s x => if dogCounts s x.1 then updDog s x.1 fun d => { d with timer := d.timer + 1 } else s) s

/-! ## A cycle -/

/-- What the start of a cycle finds on a tile: the contenders, the occupancies of coupled links. -/
def beginTile (s : State) (x : Nat × Tile) : Nat × Tile :=
  match x.2.leaf with
  | none => x
  | some _ =>
    let one (k : Tab Cpl) (c : Nat) : Tab Cpl :=
      if cplEn x.2 c then tput k c { tget k c {} with occ := some (cplOcc s x.1 c 0) } else k
    (x.1, { x.2 with seen := some (readySlots s x.1), cpl := (List.range 15).foldl one x.2.cpl })
/-- Do the requests of a span's jobs stand still (R409)? -/
def jobsStill (p : Span) : Bool := p.frozen && !p.quiesced
/-- A stream after a cycle of its span: while that is frozen, saved or stops, its depth window does not advance (R409, R413), and while it
is frozen its jobs make no request. -/
def passStream (p : Span) (x : Stream) : Stream :=
  { x with winStart := if p.frozen || p.saved || p.quiesced then x.winStart + 1 else x.winStart
           reqAt := if jobsStill p then x.reqAt + 1 else x.reqAt }
/-- What a cycle leaves of a span: the core may pick again, a handler that an event of the cycle has woken among them (R136, R137). -/
def passSpan (x : Nat × Span) : Nat × Span :=
  (x.1, { x.2 with
    chNow := [], picked := false, foWaits := nearer x.2.foWaits
    hs := x.2.hs.map fun (y : Nat × Handler) => (y.1, { y.2 with fresh := false })
    streams := x.2.streams.map fun (y : Nat × Stream) => (y.1, passStream x.2 y.2) })
/-- A request of a job that is not made yet is made a cycle later while its span is frozen (R265, R409). -/
def passAcc (s : State) (a : Access) : Access :=
  if isJobTag a.tag && decide (now s < a.issued) && jobsStill (getSpan s (portSpan s a.port)) then { a with issued := a.issued + 1 } else a

/-- One cycle passes: what it does not end without is done, ages and timers advance, tokens, contributions and the clock move
on, and the next cycle begins. -/
def passCycle (s : State) : State :=
  let s0 := judgeWoken (cycleDue s)
  let s1 := { s0 with tiles := s0.tiles.map (ageTile s0) }
  let s2 := { s1 with tiles := s1.tiles.map (timeTile s1) }
  let s3 := countDogs (ageHeads s2)
  let s4 := { s3 with
    cycle := s3.cycle + 1, spans := s3.spans.map passSpan, net := { s3.net with acc := s3.net.acc.map (passAcc s3) } }
  let s5 := { s4 with tiles := s4.tiles.map fun x => let y := arriveTile (now s4) x; (y.1, moveOn y.2) }
  let s6 := s5.spans.foldl (fun s x => judgeMask (judgeMask s x.1 false) x.1 true) s5
  let s7 := (s6.spans.map (·.1)).foldl spanBegin s6
  { s7 with tiles := s7.tiles.map (beginTile s7) }
/-- An idle cycle of the whole fabric (R437): dispatchers, progress timers and the clock go on, the fabric stands still. -/
def idleCycle (s : State) : State := let s1 := countDogs (ageHeads s); { s1 with cycle := s1.cycle + 1 }
def idleCycles : Nat → State → State
  | 0, s => s
  | n + 1, s => idleCycles n (idleCycle s)
/-- n cycles pass. -/
def passCycles : Nat → State → State
  | 0, s => s
  | n + 1, s => passCycles n (passCycle s)

end Sys2Proof.Machine
end

