-- ==== Sys2Proof/Machine/Outside.lean ====
section
/-!
DEFINITION. Machine/Outside.lean: what comes from outside the module: peers' accesses (R430, R432, R433), power, heat, firmware,
attestation and management (R434 to R438), uncorrectable errors (R246).
-/
namespace Sys2Proof.Machine

/-! ## Peers (R430, R432) -/

/-- Bytes a request touches. -/
def reqSize : PeerReq → Nat
  | .read n => n
  | .write bs => bs.length
  | .amo _ dbl .. => if dbl then 8 else 4
/-- Is a request one that the attachment serves: 1 to 256 bytes within an aligned block of 256, an atomic aligned, the fp32 add of 4 bytes
(R430)? -/
def reqOk (a : Nat) (r : PeerReq) : Bool :=
  let n := reqSize r
  decide (1 ≤ n) && decide (a % 256 + n ≤ 256) && (match r with
    | .amo fn dbl .. => a % n == 0 && !(dbl && fn == .fadd)
    | _ => true)
/-- An answer to a peer: data, or none for an error completion. -/
def answer (s : State) (node : Nat) (d : Option (List Byte)) : State :=
  updNet s fun n => { n with replies := (node, d) :: n.replies }

/-- A request performs at its home in HBM. -/
def serveMem (s : State) (node a : Nat) (r : PeerReq) : State :=
  match r with
  | .read n => if isPoison s a n then answer s node none else answer s node (some (readN s.mem a n))
  | .write bs =>
    let x := homeWrite s a bs
    answer x.1 node (if x.2 then none else some [])
  | .amo fn _ b e =>
    let n := reqSize r
    if isPoison s a n then answer s node none
    else
      let old := readN s.mem a n
      answer (homeWrite s a (amoBytes fn n old b e)).1 node (some old)

/-- INBOUND_ACCESS (R432): served wholly within one valid HBM window; else an error completion. -/
def execInboundAccess (node pa : Nat) (r : PeerReq) (s : State) : Out :=
  .next (if reqOk pa r && inWindow s (fun _ => true) false pa (reqSize r) then serveMem s node pa r else answer s node none)

/-- The tenant that names a node (R433). -/
def hostTenant (s : State) (node : Nat) : Option Nat :=
  (List.range 16).find? fun n => isSet (tw s n 4).toNat 63 && wbits (tw s n 4) 9 0 == node

/-- Reads of the parts in order; none at the first that may not be read. -/
def ctlReadParts (s : State) (tn : Nat) : List (Nat × Nat) → Option (List Byte)
  | [] => some []
  | p :: ps =>
    if ctlMapped p.1 && ctlReadOk s tn p.1 then (ctlReadParts s tn ps).map (ctlBytes s p.1 p.2 ++ ·) else none
/-- Writes of the parts in order; the earlier ones stand when a later one fails (R446). -/
def ctlWriteParts (tn : Nat) : List (Nat × Nat) → List Byte → State → State × Bool
  | [], _, s => (s, true)
  | p :: ps, bs, s =>
    if !ctlMapped p.1 then (s, false)
    else match ctlStore s tn (p.1 / 8 * 8) (p.1 % 8) p.2 (fun _ => ofBytes (bs.take p.2)) true with
      | none => (s, false)
      | some s1 => ctlWriteParts tn ps (bs.drop p.2) s1

/-- APERTURE_ACCESS (R433): a CONTROL access of the tenant that names the node, word by word (R446). -/
def execApertureAccess (node off : Nat) (r : PeerReq) (s : State) : Out :=
  let n := reqSize r
  match hostTenant s node with
  | none => .next (answer s node none)
  | some tn =>
    if !reqOk off r || decide (2 ^ 24 < off + n) then .next (answer s node none)
    else match r with
      | .read _ => .next (answer s node (ctlReadParts s tn (ctlParts off n)))
      | .write bs =>
        let x := ctlWriteParts tn (ctlParts off n) bs s
        .next (answer x.1 node (if x.2 then some [] else none))
      | .amo fn _ b e =>
        let old := ctlBytes s off n
        if !ctlMapped off then .next (answer s node none)
        else match ctlStore s tn (off / 8 * 8) (off % 8) n (fun m => amoNew fn n m b.toNat e.toNat) false with
          | none => .next (answer s node none)
          | some s1 => .next (answer s1 node (some old))

/-! ## Power and heat (R436, R437) -/

/-- The tenant blocks of a module that starts: HEN and HOSTN of tenant 0 hold the host node of management (R436). -/
def bootTenants (f : Firm) : Tab Wide := [(0, setWordAt 0 4 (wd (2 ^ 63 + f.host.toNat)))]
/-- Does the root accept the images at boot (R434): a valid signature, and no version below the rollback counter? -/
def bootOk (f : Firm) : Bool := f.rootSigned && f.svcSigned && decide (f.rollback.toNat ≤ f.rootVer.toNat) && decide (f.rollback.toNat ≤ f.svcVer.toNat)
/-- The bytes of the peers, which are no state of this module. -/
def peerCells (m : List Host.Cell) : List Host.Cell := m.filter fun c => decide (2 ^ 64 ≤ c.1) && decide (c.1 < 2 ^ 80)
/-- POWER_ON (R434, R436): the root and the service image are measured, every object is zero, the dispatchers are seeded. A module whose
images are refused does not start (notes/assumptions/130.md, DESIGN CHOICE). -/
def execPowerOn (s : State) : Out :=
  if s.power || !bootOk s.firm then .next s
  else .next { State.reset with
    mem := peerCells s.mem, sched := s.sched
    ctl := { State.reset.ctl with tenants := bootTenants s.firm }
    firm := { s.firm with mroot := Config.measure s.firm.rootImg, msvc := Config.measure s.firm.svcImg } }

/-- Power is gone: every state of the module but the firmware's own storage is lost (R437). -/
def powerOff (s : State) : State :=
  { State.reset with
    mem := peerCells s.mem, power := false, sched := { s.sched with staged := none }, ctl := {}, firm := { s.firm with mroot := 0, msvc := 0 } }
def execPowerRemove (s : State) : Out := .next (powerOff s)

/-- THERMAL_THROTTLE (R437): idle cycles in the whole fabric, which change timing only. -/
def execThermalThrottle (cycles : Nat) (s : State) : Out := .next (idleCycles cycles s)
/-- THERMAL_CRITICAL (R437): every RUNNING launch is killed, then power is removed. -/
def execThermalCritical (s : State) : Out :=
  .next (powerOff ((s.ctl.launches.map (·.1)).foldl (fun s k => killSlot s k .killed) s))

/-! ## Firmware, attestation, management (R434, R435, R438) -/

/-- The strict-mode bit of each tenant. -/
def strictBits (s : State) : BitVec 16 :=
  BitVec.ofNat 16 (sumNat ((List.range 16).map fun n => if isSet (tw s n 5).toNat 63 then 2 ^ n else 0))
/-- Bytes 0 to 189 of a report (R435), byte 0 lowest. -/
def reportBody (s : State) (nonce : BitVec 256) : BitVec 1520 :=
  let f := s.firm
  Config.reportCfg f.node (strictBits s) ++ (f.rollback ++ f.svcVer ++ f.rootVer) ++ f.msvc ++ f.mroot ++ nonce
/-- ATTESTATION_REQUEST (R435): the signed report. -/
def execAttestationRequest (nonce : BitVec 256) (s : State) : Out :=
  let b := reportBody s nonce
  .next { s with firm := { s.firm with reports := (Config.sign b ++ b) :: s.firm.reports } }

/-- FIRMWARE_UPDATE (R434, R438): an image without a valid signature, or below the rollback counter, is refused. -/
def execFirmwareUpdate (service : Bool) (version : BitVec 64) (image : Nat) (signed : Bool) (s : State) : Out :=
  if signed && decide (s.firm.rollback.toNat ≤ version.toNat) then
    .next { s with firm := if service then { s.firm with svcVer := version, svcImg := image, svcSigned := signed }
                           else { s.firm with rootVer := version, rootImg := image, rootSigned := signed } }
  else .next s

/-- NODE_ID_SET (R438). -/
def execNodeIdSet (which : NodeId) (value : BitVec 10) (s : State) : Out :=
  .next { s with firm := match which with
    | .own => { s.firm with node := value }
    | .service => { s.firm with service := value }
    | .host => { s.firm with host := value } }

/-! ## Uncorrectable errors (R246) -/

/-- Does a line belong to a storage of the module (R240, R249)? -/
def lineExists (l : Nat) : Bool :=
  let a := 64 * l
  hbmExists a 64 || (decide (2 ^ 48 ≤ a) && decide (a < 2 ^ 48 + 2 ^ 30)) || (decide (2 ^ 49 ≤ a) && decide (a < 2 ^ 49 + 2 ^ 30)) ||
  (decide (2 ^ 50 ≤ a) && decide (a < 2 ^ 50 + 12 * 2 ^ 25)) || (decide (keyAcc 0 0 ≤ a) && decide (a < keyAcc 4096 0))
/-- UNCORRECTABLE_ERROR (R246): the whole line is poisoned. -/
def execUncorrectableError (line : Nat) (s : State) : Out :=
  .next (if lineExists line then { s with poison := insertLine line s.poison } else s)

end Sys2Proof.Machine
end

