-- ==== Sys2Proof/Machine/Pointer.lean ====
section
/-!
DEFINITION. Machine/Pointer.lean: the pointer words (R154). They act on fields and never check a pointer.
-/
namespace Sys2Proof.Machine

/-- The writes of a pointer word. -/
def ptrWrites (o : PtrOp) (v : Word) (fl : Bool) : Writes := wrF o.sd v o.fd o.fe fl

/-- The top 14 bits: SPACE and RANK. -/
def pTop (p : Word) : Nat := wbits p 63 50

/-- padd: the offset moves by an exact signed amount, modulo 2^50. -/
def ptrAdd (p : Word) (d : Int) : Word × Bool :=
  let t : Int := (pOff p : Int) + d
  (withOff p (t % (2 ^ 50 : Nat)).toNat, decide (t < 0) || decide ((2 ^ 50 : Nat) ≤ t))

def execPmk (nx : Nx) (o : PtrOp) (space : BitVec 4) (s : State) : Out :=
  let a := reg s o.sa
  let b := reg s o.sb
  pureWord nx (ptrWrites o (mkPtr space.toNat (wbits a 9 0) (wbits b 49 0))
    (decide (wbits a 63 10 ≠ 0) || decide (wbits b 63 50 ≠ 0))) s

def execPadd (nx : Nx) (o : PtrOp) (s : State) : Out :=
  let r := ptrAdd (reg s o.sa) (reg s o.sb).toInt
  pureWord nx (ptrWrites o r.1 r.2) s

def execPaddi (nx : Nx) (o : ImmOp) (s : State) : Out :=
  let r := ptrAdd (reg s o.sa) o.imm.toInt
  pureWord nx (wrF o.sd r.1 o.fd o.fe r.2) s

def execPdiff (nx : Nx) (o : PtrOp) (s : State) : Out :=
  let a := reg s o.sa
  let b := reg s o.sb
  pureWord nx (ptrWrites o (Word.ofInt ((pOff a : Int) - pOff b)) (decide (pTop a ≠ pTop b))) s

/-- Low bit and width of a pointer field (R46). -/
def pField : PField → Nat × Nat
  | .space => (60, 4) | .rank => (50, 10) | .off => (0, 50)

/-- pget (R154): the flag is taken from the field that was extracted, with SD = 0 too (notes/assumptions/121.md, DESIGN CHOICE). -/
def execPget (nx : Nx) (sd sa : Reg) (fd : BitVec 3) (fe : Bool) (f : PField) (s : State) : Out :=
  let v := wd ((reg s sa).toNat / 2 ^ (pField f).1 % 2 ^ (pField f).2)
  pureWord nx (wrF sd v fd fe (decide (v = 0))) s

def execPset (nx : Nx) (o : PtrOp) (f : PField) (s : State) : Out :=
  let b := (reg s o.sb).toNat
  pureWord nx (ptrWrites o (putBits (reg s o.sa) (pField f).1 (pField f).2 b) (decide (b / 2 ^ (pField f).2 ≠ 0))) s

/-- pchk's answer: 1 PTR_SPACE, 2 PROTECTION, 0 neither. -/
def ptrCheck (s : State) (p : Word) (n : Nat) (wr : Bool) : Nat :=
  if n = 0 then 0 else if !ptrOk p n then 1 else if !ownsOk s (curTenant s) p n wr then 2 else 0

def execPchk (nx : Nx) (o : PtrOp) (wr : Bool) (s : State) : Out :=
  let c := ptrCheck s (reg s o.sa) (reg s o.sb).toNat wr
  pureWord nx (ptrWrites o (wd c) (decide (c = 0))) s

def ptrCond (c : PCond) (a b : Word) : Bool :=
  match c with
  | .eq => decide (a = b) | .ne => decide (a ≠ b)
  | .lt => decide (pTop a = pTop b) && decide (pOff a < pOff b)
  | .ge => decide (pTop a = pTop b) && decide (pOff b ≤ pOff a)

def execPcmp (nx : Nx) (o : PtrOp) (c : PCond) (s : State) : Out :=
  let v := ptrCond c (reg s o.sa) (reg s o.sb)
  pureWord nx (ptrWrites o (wd v.toNat) v) s

end Sys2Proof.Machine
end

