-- ==== Sys2Proof/Machine/Tags.lean ====
section
/-!
DEFINITION. Machine/Tags.lean: tag words (R283 to R286) and launch words (R127 to R130).
-/
namespace Sys2Proof.Machine

/-! ## Tag words (R271, R283 to R286) -/

/-- The cluster a tag word names; PTR_SPACE with the index where the region has none (R283). -/
def tagClus (s : State) (ci : BitVec 6) : Except Trp Nat :=
  let p := curSpan s
  if p.rh * p.rw ≤ ci.toNat then .error (.ptrSpace, wd ci.toNat) else .ok (regionClus p ci.toNat)

def tagV (e : Word) : Bool := isSet e.toNat 63
def tagKey (e : Word) : Nat := wbits e 47 0
/-- Entry of way w of set `set`. -/
def tagAt (t : Tab Word) (set w : Nat) : Word := tget t (8 * set + w) 0
/-- The way of a set that holds a key. -/
def tagFind (t : Tab Word) (key : Nat) : Option Nat :=
  (List.range 8).find? fun w => let e := tagAt t (key % 512) w; tagV e && tagKey e == key
/-- The lowest way of a set that is not valid. -/
def tagFree (t : Tab Word) (set : Nat) : Option Nat := (List.range 8).find? fun w => !tagV (tagAt t set w)

/-- lookup (R284): the result and whether it hit. -/
def tagLookup (t : Tab Word) (key : Nat) : Word × Bool :=
  let set := key % 512
  match tagFind t key with
  | some w => (wd (wbits (tagAt t set w) 55 48 * 65536 + (8 * set + w)), true)
  | none =>
    match tagFree t set with
    | some w => (wd (2 ^ 63 + (8 * set + w)), false)
    | none => (wd (2 ^ 63 + 2 ^ 62 + 8 * set), false)

def execLookup (nx : Nx) (sd sa : Reg) (ci : BitVec 6) (fd : BitVec 3) (fe : Bool) (s : State) : Out :=
  endWord (.lookup nx sd sa ci fd fe) nx (0, 0, 0) s
    (match tagClus s ci with
     | .error t => .trap s t
     | .ok r =>
       let v := tagLookup (getClus s r).tags (wbits (reg s sa) 47 0)
       .done s (wrF sd v.1 fd fe v.2))

/-- Does an entry break R285 at slot n. -/
def tagBad (t : Tab Word) (n : Nat) (e : Word) : Bool :=
  wbits e 62 56 != 0 ||
  (tagV e && (tagKey e % 512 != n / 8 ||
    (List.range 8).any fun w => decide (8 * (n / 8) + w ≠ n) && tagV (tagAt t (n / 8) w) && tagKey (tagAt t (n / 8) w) == tagKey e))

def execTagSet (nx : Nx) (sd sa sb : Reg) (ci : BitVec 6) (s : State) : Out :=
  endWord (.tagSet nx sd sa sb ci) nx (0, 0, 0) s
    (match tagClus s ci with
     | .error t => .trap s t
     | .ok r =>
       let n := reg s sa
       let e := reg s sb
       let t := (getClus s r).tags
       if wbits n 63 12 ≠ 0 then .trap s (.ptrSpace, n)
       else if tagBad t n.toNat e then .trap s (rejectT 0x04 0)
       else .done (updClus s r fun c => { c with tags := tset c.tags n.toNat e 0 }) (wr1 sd (tget t n.toNat 0)))

/-- An entry with V cleared. -/
def tagOff (e : Word) : Word := putBits e 63 1 0

def execTagInv (nx : Nx) (sd sa : Reg) (ci : BitVec 6) (all : Bool) (s : State) : Out :=
  endWord (.tagInv nx sd sa ci all) nx (0, 0, 0) s
    (match tagClus s ci with
     | .error t => .trap s t
     | .ok r =>
       let t := (getClus s r).tags
       if all then
         .done (updClus s r fun c => { c with tags := c.tags.map fun p => (p.1, tagOff p.2) })
           (wr1 sd (wd (t.filter fun p => tagV p.2).length))
       else
         let key := wbits (reg s sa) 47 0
         match tagFind t key with
         | none => .done s (wr1 sd 0)
         | some w =>
           let n := 8 * (key % 512) + w
           .done (updClus s r fun c => { c with tags := tset c.tags n (tagOff (tget t n 0)) 0 }) (wr1 sd (tget t n 0)))

/-! ## Launch words (R127 to R130) -/

/-- Words 0 to 6 of an entry replaced; w7 := 0. -/
def putImage (s : State) (k : Nat) (ws : List Word) : State :=
  let e := (List.range 7).foldl (fun (e : Wide) i => setWordAt e i (nth ws i 0)) 0
  updCtl s fun c => { c with entries := tput c.entries k e }

/-- dep.set (R127). -/
def execDepSet (nx : Nx) (sd sa sb : Reg) (s : State) : Out :=
  let v := operands s sa sb 0
  let p := v.1
  let q := v.2.1
  endWord (.depSet nx sd sa sb) nx v s
    (if !(ptrOk p 1 && pSpace p == 4 && unitOf (pOff p) == 0) then .trap s (.ptrSpace, p)
     else if !ptrOk q 56 then .trap s (.ptrSpace, q)
     else match entryPtr s p with
       | .error t => .trap s (if t.1 = .protection ∧ pOff q % 8 ≠ 0 then (.align, q) else t)
       | .ok k => ofReads s do
         let (bs, s1) ← hRead s q 56 8
         let ws := wordsOf 7 bs
         let tn := curTenant s
         if (tn ≠ 0 ∧ wbits (nth ws 0 0) 63 60 ≠ tn) ∨ wbits (nth ws 0 0) 44 32 ≠ 0 ∨ wbits (nth ws 3 0) 31 0 ≠ 0 then
           throw (.trap (.protection, p) s1.net)
         pure (if resting (eState s k) then putImage s1 k ws else s1, wr1 sd (entryW s k 7)))

/-- dep.dec (R128), after its release. -/
def execDepDec (nx : Nx) (sd sa : Reg) (n : BitVec 10) (s : State) : Out :=
  let v := operands s sa 0 0
  endWord (.depDec nx sd sa n) nx v s
    (match entryPtr s v.1 with
     | .error t => .trap s t
     | .ok k =>
       if relWaits s .module then .wait s 0
       else .done (decEntry (publish s (curPort s).num (objEntry k)) k n.toNat) (wr1 sd (wd (ePcnt s k + eState s k * 2 ^ 32))))

/-- dep.read (R129). -/
def execDepRead (nx : Nx) (sd sa : Reg) (w : BitVec 3) (s : State) : Out :=
  endWord (.depRead nx sd sa w) nx (0, 0, 0) s
    (match entryPtr s (reg s sa) with
     | .error t => .trap s t
     | .ok k => .done s (wr1 sd (entryW s k w.toNat)))

/-- arm (R130), after its release. -/
def execArm (nx : Nx) (sd sa sb : Reg) (s : State) : Out :=
  let v := operands s sa sb 0
  endWord (.arm nx sd sa sb) nx v s
    (match entryPtr s v.1 with
     | .error t => .trap s t
     | .ok k =>
       if relWaits s .module then .wait s 0
       else if resting (eState s k) then
         if !armCheck s k then .trap s (.protection, v.1)
         else .done (armEntry (setEntryW (publish s (curPort s).num (objEntry k)) k 0 (putBits (entryW s k 0) 0 32 v.2.1.toNat)) k) (wr1 sd (entryW s k 7))
       else .done s (wr1 sd (entryW s k 7)))

end Sys2Proof.Machine
end

