-- ==== Sys2Proof/Machine/Dispatch.lean ====
section
/-!
DEFINITION. Machine/Dispatch.lean: one arm for each instruction and each step of an agent.
-/
namespace Sys2Proof.Machine

def exec (i : Instr) (s : State) : Host.Outcome State Fault Refusal :=
  match i with
  | .add nx o => Sys2Proof.Machine.execAdd nx o s
  | .sub nx o => Sys2Proof.Machine.execSub nx o s
  | .mul nx o => Sys2Proof.Machine.execMul nx o s
  | .mulh nx o => Sys2Proof.Machine.execMulh nx o s
  | .mulhu nx o => Sys2Proof.Machine.execMulhu nx o s
  | .div nx o => Sys2Proof.Machine.execDiv nx o s
  | .divu nx o => Sys2Proof.Machine.execDivu nx o s
  | .rem nx o => Sys2Proof.Machine.execRem nx o s
  | .remu nx o => Sys2Proof.Machine.execRemu nx o s
  | .and nx o => Sys2Proof.Machine.execAnd nx o s
  | .or nx o => Sys2Proof.Machine.execOr nx o s
  | .xor nx o => Sys2Proof.Machine.execXor nx o s
  | .sll nx o => Sys2Proof.Machine.execSll nx o s
  | .srl nx o => Sys2Proof.Machine.execSrl nx o s
  | .sra nx o => Sys2Proof.Machine.execSra nx o s
  | .min nx o => Sys2Proof.Machine.execMin nx o s
  | .max nx o => Sys2Proof.Machine.execMax nx o s
  | .minu nx o => Sys2Proof.Machine.execMinu nx o s
  | .maxu nx o => Sys2Proof.Machine.execMaxu nx o s
  | .addi nx o => Sys2Proof.Machine.execAddi nx o s
  | .andi nx o => Sys2Proof.Machine.execAndi nx o s
  | .ori nx o => Sys2Proof.Machine.execOri nx o s
  | .xori nx o => Sys2Proof.Machine.execXori nx o s
  | .slli nx o => Sys2Proof.Machine.execSlli nx o s
  | .srli nx o => Sys2Proof.Machine.execSrli nx o s
  | .srai nx o => Sys2Proof.Machine.execSrai nx o s
  | .li nx sd imm => Sys2Proof.Machine.execLi nx sd imm s
  | .liHi nx sd imm => Sys2Proof.Machine.execLiHi nx sd imm s
  | .cmp nx o c => Sys2Proof.Machine.execCmp nx o c s
  | .cmpi nx sd sa fd fe c imm => Sys2Proof.Machine.execCmpi nx sd sa fd fe c imm s
  | .sel nx sd sa sb f => Sys2Proof.Machine.execSel nx sd sa sb f s
  | .bits nx o se fn => Sys2Proof.Machine.execBits nx o se fn s
  | .pmk nx o space => Sys2Proof.Machine.execPmk nx o space s
  | .padd nx o => Sys2Proof.Machine.execPadd nx o s
  | .paddi nx o => Sys2Proof.Machine.execPaddi nx o s
  | .pdiff nx o => Sys2Proof.Machine.execPdiff nx o s
  | .pget nx sd sa fd fe f => Sys2Proof.Machine.execPget nx sd sa fd fe f s
  | .pset nx o f => Sys2Proof.Machine.execPset nx o f s
  | .pchk nx o wr => Sys2Proof.Machine.execPchk nx o wr s
  | .pcmp nx o c => Sys2Proof.Machine.execPcmp nx o c s
  | .ld nx o => Sys2Proof.Machine.execLd nx o s
  | .lds nx o => Sys2Proof.Machine.execLds nx o s
  | .st nx o => Sys2Proof.Machine.execSt nx o s
  | .recv nx o => Sys2Proof.Machine.execRecv nx o s
  | .send nx sa empty ch => Sys2Proof.Machine.execSend nx sa empty ch s
  | .amoAdd nx o => Sys2Proof.Machine.execAmoAdd nx o s
  | .amoAnd nx o => Sys2Proof.Machine.execAmoAnd nx o s
  | .amoOr nx o => Sys2Proof.Machine.execAmoOr nx o s
  | .amoXor nx o => Sys2Proof.Machine.execAmoXor nx o s
  | .amoMin nx o => Sys2Proof.Machine.execAmoMin nx o s
  | .amoMax nx o => Sys2Proof.Machine.execAmoMax nx o s
  | .amoMinu nx o => Sys2Proof.Machine.execAmoMinu nx o s
  | .amoMaxu nx o => Sys2Proof.Machine.execAmoMaxu nx o s
  | .amoSwap nx o => Sys2Proof.Machine.execAmoSwap nx o s
  | .amoCas nx o se fd fe => Sys2Proof.Machine.execAmoCas nx o se fd fe s
  | .amoFadd nx o => Sys2Proof.Machine.execAmoFadd nx o s
  | .fence nx k scope => Sys2Proof.Machine.execFence nx k scope s
  | .sfence nx sd sid scope => Sys2Proof.Machine.execSfence nx sd sid scope s
  | .barInit nx sd sa sb => Sys2Proof.Machine.execBarInit nx sd sa sb s
  | .barArrive nx sd sa sb scope fd fe => Sys2Proof.Machine.execBarArrive nx sd sa sb scope fd fe s
  | .barWait nx sd sa sb scope => Sys2Proof.Machine.execBarWait nx sd sa sb scope s
  | .cwait nx sd sa sb dbl c scope => Sys2Proof.Machine.execCwait nx sd sa sb dbl c scope s
  | .signal nx sa ch scope => Sys2Proof.Machine.execSignal nx sa ch scope s
  | .drain nx scope => Sys2Proof.Machine.execDrain nx scope s
  | .sbind nx o => Sys2Proof.Machine.execSbind nx o s
  | .sgather nx sd sa sid tok => Sys2Proof.Machine.execSgather nx sd sa sid tok s
  | .sscatter nx sd sa sid tok => Sys2Proof.Machine.execSscatter nx sd sa sid tok s
  | .sresp nx sd sid part peek test => Sys2Proof.Machine.execSresp nx sd sid part peek test s
  | .scancel nx sd sid => Sys2Proof.Machine.execScancel nx sd sid s
  | .sstat nx sd sid item => Sys2Proof.Machine.execSstat nx sd sid item s
  | .shape nx sd sa sid shp => Sys2Proof.Machine.execShape nx sd sa sid shp s
  | .sdepth nx sd sa sid => Sys2Proof.Machine.execSdepth nx sd sa sid s
  | .step nx sa c shp => Sys2Proof.Machine.execStep nx sa c shp s
  | .stepKeep nx sa shp => Sys2Proof.Machine.execStepKeep nx sa shp s
  | .grpOpen nx sa k shp => Sys2Proof.Machine.execGrpOpen nx sa k shp s
  | .grpClose nx => Sys2Proof.Machine.execGrpClose nx s
  | .cfgLoad nx sa c => Sys2Proof.Machine.execCfgLoad nx sa c s
  | .cfgPart nx sa c => Sys2Proof.Machine.execCfgPart nx sa c s
  | .clear nx sa classes => Sys2Proof.Machine.execClear nx sa classes s
  | .sysmodeOn nx sd sa sb auto nt1 kpl => Sys2Proof.Machine.execSysmodeOn nx sd sa sb auto nt1 kpl s
  | .sysmodeOff nx sd => Sys2Proof.Machine.execSysmodeOff nx sd s
  | .wpre nx sa sb keep mode => Sys2Proof.Machine.execWpre nx sa sb keep mode s
  | .mma nx last keepa klen1 => Sys2Proof.Machine.execMma nx last keepa klen1 s
  | .epi nx sa e1 m => Sys2Proof.Machine.execEpi nx sa e1 m s
  | .accShape nx sd sa slot => Sys2Proof.Machine.execAccShape nx sd sa slot s
  | .accDrop nx sd all slot => Sys2Proof.Machine.execAccDrop nx sd all slot s
  | .pseed nx sd sa sb => Sys2Proof.Machine.execPseed nx sd sa sb s
  | .pmemb nx sd sa => Sys2Proof.Machine.execPmemb nx sd sa s
  | .pmembInc nx sd => Sys2Proof.Machine.execPmembInc nx sd s
  | .ptau nx sd sa => Sys2Proof.Machine.execPtau nx sd sa s
  | .rnd nx sd sa k => Sys2Proof.Machine.execRnd nx sd sa k s
  | .cplSet nx sd sa sb p => Sys2Proof.Machine.execCplSet nx sd sa sb p s
  | .cplGet nx sd sa it => Sys2Proof.Machine.execCplGet nx sd sa it s
  | .digOn nx sd rst => Sys2Proof.Machine.execDigOn nx sd rst s
  | .digRead nx sd hi => Sys2Proof.Machine.execDigRead nx sd hi s
  | .cbk nx sd sa sb lg mask => Sys2Proof.Machine.execCbk nx sd sa sb lg mask s
  | .attQ nx sd sa sb lg mask => Sys2Proof.Machine.execAttQ nx sd sa sb lg mask s
  | .attRun nx sd sa sb => Sys2Proof.Machine.execAttRun nx sd sa sb s
  | .attMerge nx sd sa sb bf16 => Sys2Proof.Machine.execAttMerge nx sd sa sb bf16 s
  | .tkText nx td sa sb => Sys2Proof.Machine.execTkText nx td sa sb s
  | .tkMix nx td sa sb n => Sys2Proof.Machine.execTkMix nx td sa sb n s
  | .tkHid nx td sa sb fp32 => Sys2Proof.Machine.execTkHid nx td sa sb fp32 s
  | .tkEmb nx ta sa sb proj => Sys2Proof.Machine.execTkEmb nx ta sa sb proj s
  | .tkCol nx o => Sys2Proof.Machine.execTkCol nx o s
  | .tkMask nx sa p ch => Sys2Proof.Machine.execTkMask nx sa p ch s
  | .tkMaskOff nx => Sys2Proof.Machine.execTkMaskOff nx s
  | .tkLog nx ta sa sb => Sys2Proof.Machine.execTkLog nx ta sa sb s
  | .tkLogChk nx ta sa sb => Sys2Proof.Machine.execTkLogChk nx ta sa sb s
  | .tkDig nx ta sa chain => Sys2Proof.Machine.execTkDig nx ta sa chain s
  | .tkMatch nx sa sb => Sys2Proof.Machine.execTkMatch nx sa sb s
  | .tkMov nx td ta => Sys2Proof.Machine.execTkMov nx td ta s
  | .tkMovEmpty nx td sa => Sys2Proof.Machine.execTkMovEmpty nx td sa s
  | .tkLd nx td sa => Sys2Proof.Machine.execTkLd nx td sa s
  | .tkSt nx ta sa => Sys2Proof.Machine.execTkSt nx ta sa s
  | .lookup nx sd sa ci fd fe => Sys2Proof.Machine.execLookup nx sd sa ci fd fe s
  | .tagSet nx sd sa sb ci => Sys2Proof.Machine.execTagSet nx sd sa sb ci s
  | .tagInv nx sd sa ci all => Sys2Proof.Machine.execTagInv nx sd sa ci all s
  | .depSet nx sd sa sb => Sys2Proof.Machine.execDepSet nx sd sa sb s
  | .depDec nx sd sa n => Sys2Proof.Machine.execDepDec nx sd sa n s
  | .depRead nx sd sa w => Sys2Proof.Machine.execDepRead nx sd sa w s
  | .arm nx sd sa sb => Sys2Proof.Machine.execArm nx sd sa sb s
  | .nop nx => Sys2Proof.Machine.execNop nx s
  | .csrr nx sd csr => Sys2Proof.Machine.execCsrr nx sd csr s
  | .csrw nx sd sa csr => Sys2Proof.Machine.execCsrw nx sd sa csr s
  | .csrs nx sd sa csr => Sys2Proof.Machine.execCsrs nx sd sa csr s
  | .csrc nx sd sa csr => Sys2Proof.Machine.execCsrc nx sd sa csr s
  | .trap nx sa code => Sys2Proof.Machine.execTrap nx sa code s
  | .eret nx m => Sys2Proof.Machine.execEret nx m s
  | .kill nx sd sa wait => Sys2Proof.Machine.execKill nx sd sa wait s
  | .hmask nx sd sa m => Sys2Proof.Machine.execHmask nx sd sa m s
  | .hwake nx sd sa => Sys2Proof.Machine.execHwake nx sd sa s
  | .handlerIssue sp => Sys2Proof.Machine.execHandlerIssue sp s
  | .programBufferFill sp line => Sys2Proof.Machine.execProgramBufferFill sp line s
  | .channelArrival sp ch src => Sys2Proof.Machine.execChannelArrival sp ch src s
  | .trapDeliver sp => Sys2Proof.Machine.execTrapDeliver sp s
  | .operationStageEnd sp h => Sys2Proof.Machine.execOperationStageEnd sp h s
  | .clearComplete sp h => Sys2Proof.Machine.execClearComplete sp h s
  | .vadd t e => Sys2Proof.Machine.execVadd t e s
  | .vsub t e => Sys2Proof.Machine.execVsub t e s
  | .vmul t e => Sys2Proof.Machine.execVmul t e s
  | .vfma t e => Sys2Proof.Machine.execVfma t e s
  | .vmin t e => Sys2Proof.Machine.execVmin t e s
  | .vmax t e => Sys2Proof.Machine.execVmax t e s
  | .vabs t e => Sys2Proof.Machine.execVabs t e s
  | .vneg t e => Sys2Proof.Machine.execVneg t e s
  | .vdiv t e => Sys2Proof.Machine.execVdiv t e s
  | .vsqrt t e => Sys2Proof.Machine.execVsqrt t e s
  | .vexp2 t e => Sys2Proof.Machine.execVexp2 t e s
  | .vlog2 t e => Sys2Proof.Machine.execVlog2 t e s
  | .vrcpe t e => Sys2Proof.Machine.execVrcpe t e s
  | .vrsqe t e => Sys2Proof.Machine.execVrsqe t e s
  | .viadd t e => Sys2Proof.Machine.execViadd t e s
  | .visub t e => Sys2Proof.Machine.execVisub t e s
  | .vimul t e => Sys2Proof.Machine.execVimul t e s
  | .vand t e => Sys2Proof.Machine.execVand t e s
  | .vor t e => Sys2Proof.Machine.execVor t e s
  | .vxor t e => Sys2Proof.Machine.execVxor t e s
  | .vshl t e => Sys2Proof.Machine.execVshl t e s
  | .vshr t e => Sys2Proof.Machine.execVshr t e s
  | .vimin t e => Sys2Proof.Machine.execVimin t e s
  | .vimax t e => Sys2Proof.Machine.execVimax t e s
  | .vcmp t e => Sys2Proof.Machine.execVcmp t e s
  | .vsel t e => Sys2Proof.Machine.execVsel t e s
  | .vcvt t e => Sys2Proof.Machine.execVcvt t e s
  | .vscale t e => Sys2Proof.Machine.execVscale t e s
  | .vquant t e => Sys2Proof.Machine.execVquant t e s
  | .vdeq t e => Sys2Proof.Machine.execVdeq t e s
  | .vdot t e => Sys2Proof.Machine.execVdot t e s
  | .vlut t e => Sys2Proof.Machine.execVlut t e s
  | .vnoise t e => Sys2Proof.Machine.execVnoise t e s
  | .vtopk t e => Sys2Proof.Machine.execVtopk t e s
  | .vred t e => Sys2Proof.Machine.execVred t e s
  | .vscan t e => Sys2Proof.Machine.execVscan t e s
  | .rnet t e => Sys2Proof.Machine.execRnet t e s
  | .vperm t e => Sys2Proof.Machine.execVperm t e s
  | .vbcast t e => Sys2Proof.Machine.execVbcast t e s
  | .vpack t e => Sys2Proof.Machine.execVpack t e s
  | .vunpack t e => Sys2Proof.Machine.execVunpack t e s
  | .vslide t e => Sys2Proof.Machine.execVslide t e s
  | .steer t e => Sys2Proof.Machine.execSteer t e s
  | .merge t e => Sys2Proof.Machine.execMerge t e s
  | .gate t e => Sys2Proof.Machine.execGate t e s
  | .limit t e => Sys2Proof.Machine.execLimit t e s
  | .init t e => Sys2Proof.Machine.execInit t e s
  | .count t e => Sys2Proof.Machine.execCount t e s
  | .drop t e => Sys2Proof.Machine.execDrop t e s
  | .fill t e => Sys2Proof.Machine.execFill t e s
  | .copy t e => Sys2Proof.Machine.execCopy t e s
  | .mrd t e => Sys2Proof.Machine.execMrd t e s
  | .mwr t e => Sys2Proof.Machine.execMwr t e s
  | .mrdx t e => Sys2Proof.Machine.execMrdx t e s
  | .mwrx t e => Sys2Proof.Machine.execMwrx t e s
  | .rnetRoundResult t e => Sys2Proof.Machine.execRnetRoundResult t e s
  | .drainPass t e => Sys2Proof.Machine.execDrainPass t e s
  | .routerForward t p k => Sys2Proof.Machine.execRouterForward t p k s
  | .sequencerEmit t => Sys2Proof.Machine.execSequencerEmit t s
  | .fabricPortOffer sp n => Sys2Proof.Machine.execFabricPortOffer sp n s
  | .couplerUpdate t c => Sys2Proof.Machine.execCouplerUpdate t c s
  | .contributionArrival t c => Sys2Proof.Machine.execContributionArrival t c s
  | .depthWindowEnd sp sid => Sys2Proof.Machine.execDepthWindowEnd sp sid s
  | .configCommit sp h => Sys2Proof.Machine.execConfigCommit sp h s
  | .leafStart sp n => Sys2Proof.Machine.execLeafStart sp n s
  | .leafDrainComplete sp n => Sys2Proof.Machine.execLeafDrainComplete sp n s
  | .accessDispatch id => Sys2Proof.Machine.execAccessDispatch id s
  | .accessPerform id => Sys2Proof.Machine.execAccessPerform id s
  | .accessComplete id => Sys2Proof.Machine.execAccessComplete id s
  | .scTokenPass => Sys2Proof.Machine.execScTokenPass s
  | .podAccessExpire id => Sys2Proof.Machine.execPodAccessExpire id s
  | .podCwaitReread id => Sys2Proof.Machine.execPodCwaitReread id s
  | .pageWalkStart die => Sys2Proof.Machine.execPageWalkStart die s
  | .pageWalkComplete id => Sys2Proof.Machine.execPageWalkComplete id s
  | .invalidationComplete tenant => Sys2Proof.Machine.execInvalidationComplete tenant s
  | .barrierUpdate id => Sys2Proof.Machine.execBarrierUpdate id s
  | .streamDeliver sp sid => Sys2Proof.Machine.execStreamDeliver sp sid s
  | .portInRequest sp sid => Sys2Proof.Machine.execPortInRequest sp sid s
  | .portOutWrite sp sid => Sys2Proof.Machine.execPortOutWrite sp sid s
  | .ringInPosition sp sid => Sys2Proof.Machine.execRingInPosition sp sid s
  | .ringOutPosition sp sid => Sys2Proof.Machine.execRingOutPosition sp sid s
  | .coreStreamPlace sp sid => Sys2Proof.Machine.execCoreStreamPlace sp sid s
  | .jobStart sp sid => Sys2Proof.Machine.execJobStart sp sid s
  | .jobElementIssue sp sid => Sys2Proof.Machine.execJobElementIssue sp sid s
  | .jobElementPerform sp sid job e => Sys2Proof.Machine.execJobElementPerform sp sid job e s
  | .sfenceTokenComplete sp h => Sys2Proof.Machine.execSfenceTokenComplete sp h s
  | .wpreStart sp => Sys2Proof.Machine.execWpreStart sp s
  | .wpreComplete sp => Sys2Proof.Machine.execWpreComplete sp s
  | .mmaStart sp => Sys2Proof.Machine.execMmaStart sp s
  | .mmaLastRow sp => Sys2Proof.Machine.execMmaLastRow sp s
  | .mmaComplete sp => Sys2Proof.Machine.execMmaComplete sp s
  | .epiStart sp => Sys2Proof.Machine.execEpiStart sp s
  | .epilogueEmit sp t => Sys2Proof.Machine.execEpilogueEmit sp t s
  | .epiEnd sp => Sys2Proof.Machine.execEpiEnd sp s
  | .attPageAttend sp h pg => Sys2Proof.Machine.execAttPageAttend sp h pg s
  | .attPageRetry sp h pg => Sys2Proof.Machine.execAttPageRetry sp h pg s
  | .attPageAbandon sp h pg => Sys2Proof.Machine.execAttPageAbandon sp h pg s
  | .attRunEnd sp h => Sys2Proof.Machine.execAttRunEnd sp h s
  | .collapseStart sp => Sys2Proof.Machine.execCollapseStart sp s
  | .collapseComplete sp => Sys2Proof.Machine.execCollapseComplete sp s
  | .maskDeadlineExpire sp => Sys2Proof.Machine.execMaskDeadlineExpire sp s
  | .maskGraceExpire sp => Sys2Proof.Machine.execMaskGraceExpire sp s
  | .launchDispatch die => Sys2Proof.Machine.execLaunchDispatch die s
  | .graphCheck slot => Sys2Proof.Machine.execGraphCheck slot s
  | .sectionPlace slot sec => Sys2Proof.Machine.execSectionPlace slot sec s
  | .handlersStart sp => Sys2Proof.Machine.execHandlersStart sp s
  | .spanEnd sp => Sys2Proof.Machine.execSpanEnd sp s
  | .sectionRetire sp => Sys2Proof.Machine.execSectionRetire sp s
  | .launchRetire slot => Sys2Proof.Machine.execLaunchRetire slot s
  | .entryPcntWrite id => Sys2Proof.Machine.execEntryPcntWrite id s
  | .armStore id => Sys2Proof.Machine.execArmStore id s
  | .disarmStore id => Sys2Proof.Machine.execDisarmStore id s
  | .qctlWrite id => Sys2Proof.Machine.execQctlWrite id s
  | .resume id => Sys2Proof.Machine.execResume id s
  | .preempt id => Sys2Proof.Machine.execPreempt id s
  | .launchControlKill id => Sys2Proof.Machine.execLaunchControlKill id s
  | .inval id => Sys2Proof.Machine.execInval id s
  | .windowWrite id => Sys2Proof.Machine.execWindowWrite id s
  | .ownerWordStore id => Sys2Proof.Machine.execOwnerWordStore id s
  | .controlRegisterWrite id => Sys2Proof.Machine.execControlRegisterWrite id s
  | .preemptSave sp => Sys2Proof.Machine.execPreemptSave sp s
  | .preemptGraceExpire slot => Sys2Proof.Machine.execPreemptGraceExpire slot s
  | .preemptRestore sp => Sys2Proof.Machine.execPreemptRestore sp s
  | .killDone slot => Sys2Proof.Machine.execKillDone slot s
  | .watchdogExpire q => Sys2Proof.Machine.execWatchdogExpire q s
  | .watchdogGraceExpire q => Sys2Proof.Machine.execWatchdogGraceExpire q s
  | .watchdogResetDone q => Sys2Proof.Machine.execWatchdogResetDone q s
  | .ownerClearDone rank => Sys2Proof.Machine.execOwnerClearDone rank s
  | .inboundAccess node pa r => Sys2Proof.Machine.execInboundAccess node pa r s
  | .apertureAccess node off r => Sys2Proof.Machine.execApertureAccess node off r s
  | .podTranslationReply id r => Sys2Proof.Machine.execPodTranslationReply id r s
  | .podInvalidation node va size => Sys2Proof.Machine.execPodInvalidation node va size s
  | .powerOn => Sys2Proof.Machine.execPowerOn s
  | .thermalThrottle cycles => Sys2Proof.Machine.execThermalThrottle cycles s
  | .thermalCritical => Sys2Proof.Machine.execThermalCritical s
  | .powerRemove => Sys2Proof.Machine.execPowerRemove s
  | .attestationRequest nonce => Sys2Proof.Machine.execAttestationRequest nonce s
  | .firmwareUpdate service version image signed => Sys2Proof.Machine.execFirmwareUpdate service version image signed s
  | .nodeIdSet which value => Sys2Proof.Machine.execNodeIdSet which value s
  | .uncorrectableError line => Sys2Proof.Machine.execUncorrectableError line s

end Sys2Proof.Machine
end

