-- ==== Sys2Proof/Machine/Sched.lean ====
section
/-!
DEFINITION. Machine/Sched.lean: which step comes next (R369, R447; notes/assumptions/1.md). The schedule in the state names
steps and the cycles that pass before each; when it is empty, a cycle passes and a default is taken.
-/
namespace Sys2Proof.Machine

/-! ## What may happen next, when no schedule says -/

/-- Steps of a tile. -/
def tileSteps (s : State) (t : Nat) : List (State → Out) :=
  (List.range 8).filterMap (fun (e : Nat) => firingOf (sOpc (getTile s t) e) t e) ++
  (List.range 9).map (execDrainPass t) ++ (List.range 8).map (execRnetRoundResult t) ++ [execSequencerEmit t] ++
  (List.range 15).map (execCouplerUpdate t) ++
  (List.range 16).map fun x => execRouterForward t (x / 4) (x % 4)
/-- Steps of a stream number. -/
def streamSteps (s : State) (sp sid : Nat) : List (State → Out) :=
  let x := getStream s sp sid
  [execStreamDeliver sp sid, execPortInRequest sp sid, execPortOutWrite sp sid, execRingInPosition sp sid, execRingOutPosition sp sid,
   execCoreStreamPlace sp sid, execJobStart sp sid, execJobElementIssue sp sid, execDepthWindowEnd sp sid] ++
  (x.jobs.zip (List.range x.jobs.length)).flatMap fun j => j.1.flight.map fun f => execJobElementPerform sp sid j.2 f.1
/-- Steps of a handler. -/
def handlerSteps (s : State) (sp h : Nat) : List (State → Out) :=
  let x := getH s sp h
  [execOperationStageEnd sp h, execClearComplete sp h, execConfigCommit sp h, execSfenceTokenComplete sp h, execAttRunEnd sp h] ++
  (if x.miss then [execProgramBufferFill sp (x.pc.toNat / 8)] else []) ++
  ((List.range 64).filter fun i => x.attTodo.contains i || x.attAbsent.contains i || (tfind x.attHeld i).isSome).flatMap fun i =>
    [execAttPageAttend sp h i, execAttPageRetry sp h i, execAttPageAbandon sp h i]
/-- Steps of a span. -/
def spanSteps (s : State) (sp : Nat) : List (State → Out) :=
  let p := getSpan s sp
  [execTrapDeliver sp, execHandlersStart sp, execCollapseStart sp, execCollapseComplete sp, execWpreStart sp, execWpreComplete sp, execMmaStart sp,
   execMmaLastRow sp, execMmaComplete sp, execEpiStart sp, execEpiEnd sp, execSpanEnd sp, execSectionRetire sp, execPreemptSave sp, execPreemptRestore sp] ++
  (p.hs.map (·.1)).flatMap (handlerSteps s sp) ++ (p.streams.map (·.1)).flatMap (streamSteps s sp) ++
  (List.range p.tree.nodes.length).flatMap (fun n => [execLeafStart sp n, execLeafDrainComplete sp n]) ++
  ((p.fi.map (·.1) ++ p.fiDrain).map (execFabricPortOffer sp)) ++
  (p.toks.zip (List.range p.toks.length)).map (fun x => if x.1.1 then execFabricPortOffer sp x.1.2.1 else execChannelArrival sp x.1.2.1 (.token x.2)) ++
  (rectTiles p (wholeRect p)).flatMap fun t =>
    [execEpilogueEmit sp t] ++
    if (getTile s t).leaf.isNone && (getTile s t).bufs.all (fun b => b.2.isEmpty) then []
    else tileSteps s t ++ [execChannelArrival sp (cfgb (getTile s t) 15 26 5 0) (.link t 0), execChannelArrival sp (cfgb (getTile s t) 15 28 5 0) (.link t 1)]
/-- Steps of the ordering machine. -/
def netSteps (s : State) : List (State → Out) :=
  s.net.acc.flatMap (fun a => [execAccessDispatch a.id, execPageWalkComplete a.id, execAccessPerform a.id, execEntryPcntWrite a.id, execArmStore a.id,
    execDisarmStore a.id, execQctlWrite a.id, execResume a.id, execPreempt a.id, execLaunchControlKill a.id, execInval a.id, execWindowWrite a.id,
    execOwnerWordStore a.id, execControlRegisterWrite a.id, execPodCwaitReread a.id, execAccessComplete a.id]) ++
  s.net.bars.map (fun b => execBarrierUpdate b.id) ++
  (if s.net.acc.isEmpty then [] else (List.range 4).map execPageWalkStart) ++
  (if s.net.acc.any isSc then [execScTokenPass] else [])
/-- Steps of the launch machinery. -/
def launchSteps (s : State) : List (State → Out) :=
  (s.ctl.ready.filter fun x => !x.2.isEmpty).map (fun x => execLaunchDispatch (x.1 / 64)) ++
  s.ctl.launches.flatMap (fun l => [execGraphCheck l.1, execLaunchRetire l.1, execKillDone l.1, execPreemptGraceExpire l.1]) ++
  s.ctl.place.flatMap (fun x => x.2.map fun q => execSectionPlace q.1 q.2) ++
  s.ctl.qctl.flatMap (fun q => [execWatchdogExpire q.1, execWatchdogGraceExpire q.1, execWatchdogResetDone q.1]) ++
  s.ctl.owners.map (fun o => execOwnerClearDone o.1) ++ s.ctl.tenants.map (fun n => execInvalidationComplete n.1)
/-- Every step that may be able to happen. -/
def allSteps (s : State) : List (State → Out) := (s.spans.map (·.1)).flatMap (spanSteps s) ++ netSteps s ++ launchSteps s

/-- The first step of a list, from place `n` of it on and round, that changes the state. -/
def firstChange (l : List (State → Out)) (n : Nat) (s : State) : Option (State → Out) :=
  let k := n % max 1 l.length
  (l.drop k ++ l.take k).find? fun f => after f s != s
/-- A span one of whose handlers may issue, from the span of the focus on. -/
def issueSpan (s : State) : Option Nat :=
  let l := (s.spans.filter fun p => (pickHandler p.2).isSome).map (·.1)
  match l.find? fun n => decide (s.sched.focus ≤ n) with
  | some n => some n
  | none => l.head?
/-- A handler of a span issues, and the focus moves on. -/
def issueOne (sp : Nat) (s : State) : Out := execHandlerIssue sp { s with sched := { s.sched with focus := sp + 1 } }
/-- The default: in even cycles a handler issues if one may, else the first step of the rest that changes something; in odd
cycles the other way about. -/
def defaultStep (s : State) : Option (State → Out) :=
  let issue := (issueSpan s).map issueOne
  let rest := firstChange (allSteps s) (now s / 2) s
  if now s % 2 = 0 then issue <|> rest else rest <|> issue

/-! ## The next step -/

/-- A control word runs only when a handler issues it. -/
def isWord (i : Instr) : Bool := (Instr.nx? i).isSome
/-- The step that happens next and the state at which it happens: the head of the schedule, after the cycles it names; with no
schedule a cycle passes and the default is taken. -/
def nextEvent (s : State) : Option (State → Out) × State :=
  match s.sched.agenda with
  | (dt, i) :: rest =>
    let s1 := passCycles dt { s with sched := { s.sched with agenda := rest } }
    (if isWord i then none else some (exec i), s1)
  | [] =>
    let s1 := passCycle s
    (defaultStep s1, s1)

/-- A word that stands decoded runs in the same step. -/
def runStaged (o : Out) : Out :=
  match o with
  | .next s =>
    (match s.sched.staged with
     | some i => exec i { s with sched := { s.sched with staged := none } }
     | none => .next s)
  | o => o
/-- After every event the waiting cwaits of CONTROL space see what it has left there (R386), the reads of those that a write has just
completed are judged (R391), and a stopping span withdraws the words that have come to wait (R413). -/
def settleEvent (s : State) : State := withdrawDue (judgeWoken (wakeCtl s))
def wakeOut (o : Out) : Out :=
  match o with
  | .next s => .next (settleEvent s)
  | o => o
/-- An event of a module with power. -/
def runEvent (e : Option (State → Out) × State) : Out :=
  match e.1 with
  | some f => wakeOut (runStaged (f e.2))
  | none => .next e.2
/-- Without power only POWER_ON happens (R436, R437). -/
def offStep (s : State) : Out :=
  match s.sched.agenda with
  | (_, .powerOn) :: rest => exec .powerOn { s with sched := { s.sched with agenda := rest } }
  | _ => .fault .noPower

/-! ## A word placed to be fetched -/

/-- The span, handler and place at which `withFetchWord` puts a word: span 0 on cluster 0, handler 0, the first word of the
scratchpad. -/
def fetchPtr : Word := mkPtr 1 0 0
def fetchSpan (w : Word) : Span :=
  { live := true, slot := 0, prog := fetchPtr, ncfg := 256, hs := [(0, { st := .runnable })], pbuf := [(0, w :: List.replicate 7 0)] }
/-- A running span whose handler 0 stands at the word, with the word in memory and in the program buffer. -/
def placeWord (s : State) (w : Word) : State :=
  { s with
    power := true
    mem := writeN s.mem (keyScratch 0 0) (toBytes 8 w.toNat)
    spans := tput s.spans 0 (fetchSpan w)
    clusters := tput s.clusters 0 { getClus s 0 with span := some 0 }
    sched := { s.sched with agenda := [(0, .handlerIssue 0)], staged := none, nextId := max 1 s.sched.nextId } }

end Sys2Proof.Machine
end

