-- ==== Sys2Proof/Machine/Step.lean ====
section
/-!
DEFINITION. Machine/Step.lean: one step of the machine, and a word placed where the next step fetches it.
-/
namespace Sys2Proof.Machine

/-- One step: the event that comes next, with the word it issues if it issues one. -/
def step (s : State) : Host.Outcome State Fault Refusal :=
  if s.power then runEvent (nextEvent s) else offStep s

/-- `s` with a word stored where the next step fetches (notes/assumptions/3.md). -/
def State.withFetchWord (s : State) (nbits w : Nat) : State := placeWord s (BitVec.ofNat 64 (w % 2 ^ nbits))

end Sys2Proof.Machine
end

