-- ==== Sys2Proof/Safety.lean ====
section
/-!
DEFINITION. Safety.lean: the words in which claims speak of a state and of a run: what a well-kept state is, what a step did,
what an observer of one register, byte or CONTROL word sees.
-/
namespace Sys2Proof.Machine

/-- The step of an instruction answers the next state `t`. -/
def runs (i : Instr) (s t : State) : Prop := exec i s = .next t
/-- Memory is in its canonical form (no byte listed that reads as an unlisted one, addresses rising). -/
abbrev MemoryKept (s : State) : Prop := Memory.wf s.mem = true
/-- The module has power. -/
abbrev Powered (s : State) : Prop := s.power = true
/-- What a byte of memory reads as. -/
def byteAt (s : State) (a : Nat) : Byte := read1 s.mem a
/-- Memory reads everywhere as before. -/
def sameMemory (s t : State) : Prop := ∀ a, byteAt t a = byteAt s a
/-- Memory reads as before outside the n bytes at a. -/
def sameMemoryBut (s t : State) (a n : Nat) : Prop := ∀ b, (b < a ∨ a + n ≤ b) → byteAt t b = byteAt s b

/-! ## How a control word ends (R82 to R85) -/

/-- f[n] of a handler. -/
def flagOf (s : State) (sp h : Nat) (n : BitVec 3) : Bool := flagBit (getH s sp h).flags n

/-- The next program counter of a word at `pc`, from what its operation has left: flags, counters, return stack, registers;
`entry` is the handler's ENTRY, where a stopped handler stands (R83, R136). -/
def pcAfter (nx : Nx) (pc entry : BitVec 24) (flag : BitVec 3 → Bool) (k : BitVec 2 → W32) (stack : List (BitVec 24))
    (r : Reg → Word) : BitVec 24 :=
  match nx with
  | .next => pc + 1
  | .go d => pc + d.signExtend 24
  | .ift f d => if flag f then pc + d.signExtend 24 else pc + 1
  | .iff f d => if flag f then pc + 1 else pc + d.signExtend 24
  | .loop c d => if k c - 1 = 0 then pc + 1 else pc + d.signExtend 24
  | .call d => pc + d.signExtend 24
  | .ret => stack.headD 0
  | .wait _ => pc + 1
  | .case mk s => pc + 1 + ((r s).truncate 24 &&& mk.zeroExtend 24)
  | .stop => entry
/-- The counters after NX: `loop` takes one off its own (R83, R84). -/
def counterAfter (nx : Nx) (k : BitVec 2 → W32) (c : BitVec 2) : W32 :=
  match nx with
  | .loop c' _ => if c = c' then k c - 1 else k c
  | _ => k c
/-- The return stack after NX: `call` pushes, `ret` pops, a restart at ENTRY empties it (R83, R136). -/
def stackAfter (nx : Nx) (pc : BitVec 24) (l : List (BitVec 24)) : List (BitVec 24) :=
  match nx with
  | .call _ => (pc + 1) :: l
  | .ret => l.tail
  | .stop => []
  | _ => l
/-- The state of the handler after NX: `wait` on a channel without an entry waits, `stop` stops unless an arrival is
pending or a delivered trap waits for the stop, every other form goes on (R83, R85, R136, R406). -/
def stateAfter (nx : Nx) (pend : Bool) (has : BitVec 6 → Bool) : HState :=
  match nx with
  | .wait c => if has c then .runnable else .waiting c
  | .stop => if pend then .runnable else .stopped
  | _ => .runnable

/-- The parts of the machine beside the handlers' own: all but the spans, and of every span all but its handlers, its shared
registers and the note of when these were written, are as before. -/
def onlyHandlers (s t : State) : Prop :=
  { t with spans := s.spans } = s ∧
  ∀ q, { getSpan t q with
    hs := (getSpan s q).hs, shared := (getSpan s q).shared, sharedAt := (getSpan s q).sharedAt } = getSpan s q

/-- The word of handler h at `pc` has ended with the result v in register d and the flag result `fl`: every other register,
every other flag and every other handler is as before, and NX is evaluated on what the word left. -/
structure WordEnds (s t : State) (sp h : Nat) (pc : BitVec 24) (nx : Nx) (d : Reg) (v : Word) (fl : Option (BitVec 3 × Bool)) :
    Prop where
  regs : ∀ q j k, rdReg t q j k = if k = d ∧ k ≠ 0 ∧ q = sp ∧ (j = h ∨ 32 ≤ k.toNat) then v else rdReg s q j k
  flags : ∀ n, flagOf t sp h n = match fl with
    | some (m, b) => if n = m then b else flagOf s sp h n
    | none => flagOf s sp h n
  goes : (getH t sp h).pc = pcAfter nx pc (getH s sp h).entry (flagOf t sp h) (getK (getH s sp h)) (getH s sp h).rstack (rdReg t sp h)
  counters : ∀ c, getK (getH t sp h) c = counterAfter nx (getK (getH s sp h)) c
  stack : (getH t sp h).rstack = stackAfter nx pc (getH s sp h).rstack
  state : (getH t sp h).st = stateAfter nx ((getH s sp h).pend || (getH s sp h).trapWait) fun c => !(tget (getSpan s sp).ch c.toNat []).isEmpty
  idle : (getH t sp h).op = none
  own : (getH t sp h).mask = (getH s sp h).mask ∧ (getH t sp h).prio = (getH s sp h).prio ∧
    (getH t sp h).entry = (getH s sp h).entry ∧ (getH t sp h).held = (getH s sp h).held
  others : ∀ q j, (q ≠ sp ∨ j ≠ h) → getH t q j = getH s q j
  rest : onlyHandlers s t

/-- The word being issued has ended so. -/
abbrev Ends (s t : State) (nx : Nx) (d : Reg) (v : Word) (fl : Option (BitVec 3 × Bool)) : Prop :=
  WordEnds s t s.cur.sp s.cur.h s.cur.pc nx d v fl
/-- The register that the result for d of a word of handler h reaches when the word's stage ends with cycle c: d, or none (s0) where
a word that was issued later has written d in that cycle or after, since its value remains (R139). -/
def reaches (s : State) (sp h c : Nat) (d : Reg) : Reg :=
  if overtaken (getSpan s sp).sharedAt c (getH s sp h).issued d.toNat then 0 else d
/-- The same for the word being issued, which is the latest of all unless it has waited. -/
def target (s : State) (d : Reg) : Reg :=
  if s.cur.latch.isSome then reaches s s.cur.sp s.cur.h (now s) d else d
/-- A flag result that is written when FE = 1. -/
def flagIf (fe : Bool) (fd : BitVec 3) (b : Bool) : Option (BitVec 3 × Bool) := if fe then some (fd, b) else none

/-- The word being issued stays in its operation stage `op`: the handler is BLOCKED there, its registers, flags, counters, return
stack and program counter are as before, and so is every other handler and the rest of the machine (R82, R138). -/
def Stays (s t : State) (op : Op) : Prop :=
  getH t s.cur.sp s.cur.h = { getH s s.cur.sp s.cur.h with op := some op, st := .blocked } ∧
  (∀ q j k, rdReg t q j k = rdReg s q j k) ∧
  (∀ q j, (q ≠ s.cur.sp ∨ j ≠ s.cur.h) → getH t q j = getH s q j) ∧ onlyHandlers s t

end Sys2Proof.Machine
end

