-- ==== Sys2Proof/Certificates/Slice0/Obligations.lean ====
section
/-!
DEFINITION. Certificates/Slice0/Obligations.lean: what the provers are asked to show of the model. Where a statement needs a
table or a formula of the spec, it stands here in the spec's own terms, before the statement that uses it.
-/
namespace Sys2Proof.Machine

/-! ## Integer words (R86, R147 to R153) -/

/-- Is an integer outside the signed range of w bits. -/
def outside (w : Nat) (i : Int) : Bool := decide (i < -((2 ^ (w - 1) : Nat) : Int) ∨ ((2 ^ (w - 1) : Nat) : Int) ≤ i)
/-- A result with the flag result "res = 0". -/
def withZero {w : Nat} (r : BitVec w) : BitVec w × Bool := (r, decide (r.toNat = 0))
/-- Result and flag result of the register-form words that take one cycle (the table of R147), on w bits. -/
def cycleRules : List ((Nx → RegOp → Instr) × ((w : Nat) → BitVec w → BitVec w → BitVec w × Bool)) :=
  [ (.add, fun w a b => (BitVec.ofInt w (a.toInt + b.toInt), outside w (a.toInt + b.toInt)))
  , (.sub, fun w a b => (BitVec.ofInt w (a.toInt - b.toInt), outside w (a.toInt - b.toInt)))
  , (.and, fun w a b => withZero (BitVec.ofNat w (a.toNat &&& b.toNat)))
  , (.or, fun w a b => withZero (BitVec.ofNat w (a.toNat ||| b.toNat)))
  , (.xor, fun w a b => withZero (BitVec.ofNat w (a.toNat ^^^ b.toNat)))
  , (.sll, fun w a b => withZero (BitVec.ofNat w (a.toNat * 2 ^ (b.toNat % w))))
  , (.srl, fun w a b => withZero (BitVec.ofNat w (a.toNat / 2 ^ (b.toNat % w))))
  , (.sra, fun w a b => withZero (BitVec.ofInt w (a.toInt / ((2 ^ (b.toNat % w) : Nat) : Int))))
  , (.min, fun _ a b => if a.toInt ≤ b.toInt then (a, false) else (b, true))
  , (.max, fun _ a b => if b.toInt ≤ a.toInt then (a, false) else (b, true))
  , (.minu, fun _ a b => if a.toNat ≤ b.toNat then (a, false) else (b, true))
  , (.maxu, fun _ a b => if b.toNat ≤ a.toNat then (a, false) else (b, true)) ]
/-- Result and flag result of the multiplications (R147). -/
def productRules : List ((Nx → RegOp → Instr) × ((w : Nat) → BitVec w → BitVec w → BitVec w × Bool)) :=
  [ (.mul, fun w a b => (BitVec.ofInt w (a.toInt * b.toInt), outside w (a.toInt * b.toInt)))
  , (.mulh, fun w a b => (BitVec.ofInt w (a.toInt * b.toInt / ((2 ^ w : Nat) : Int)), outside w (a.toInt * b.toInt)))
  , (.mulhu, fun w a b => (BitVec.ofNat w (a.toNat * b.toNat / 2 ^ w), decide (2 ^ w ≤ a.toNat * b.toNat))) ]
/-- Quotient, remainder and flag result of a division (R148). -/
def divides (signed : Bool) (w : Nat) (a b : BitVec w) : BitVec w × BitVec w × Bool :=
  if b.toNat = 0 then (BitVec.ofNat w (2 ^ w - 1), BitVec.ofNat w (2 ^ w - 1), true)
  else if signed then
    if a.toInt = -((2 ^ (w - 1) : Nat) : Int) ∧ b.toInt = -1 then (a, 0, true)
    else (BitVec.ofInt w (a.toInt.tdiv b.toInt), BitVec.ofInt w (a.toInt - b.toInt * a.toInt.tdiv b.toInt), false)
  else (BitVec.ofNat w (a.toNat / b.toNat), BitVec.ofNat w (a.toNat - b.toNat * (a.toNat / b.toNat)), false)
def divisionRules : List ((Nx → RegOp → Instr) × ((w : Nat) → BitVec w → BitVec w → BitVec w × Bool)) :=
  [ (.div, fun w a b => let r := divides true w a b; (r.1, r.2.2))
  , (.divu, fun w a b => let r := divides false w a b; (r.1, r.2.2))
  , (.rem, fun w a b => let r := divides true w a b; (r.2.1, r.2.2))
  , (.remu, fun w a b => let r := divides false w a b; (r.2.1, r.2.2)) ]

/-- WD: the operands' low w bits, and the result written in full, sign-extended or zero-extended (R86, R147). -/
def atWd (wd : Wd) (f : (w : Nat) → BitVec w → BitVec w → BitVec w × Bool) (a b : Word) : Word × Bool :=
  match wd with
  | .w64 => f 64 a b
  | .w32s => let r := f 32 (BitVec.ofNat 32 a.toNat) (BitVec.ofNat 32 b.toNat); (BitVec.ofInt 64 r.1.toInt, r.2)
  | .w32z => let r := f 32 (BitVec.ofNat 32 a.toNat) (BitVec.ofNat 32 b.toNat); (BitVec.ofNat 64 r.1.toNat, r.2)

end Sys2Proof.Machine

open Sys2Proof Sys2Proof.Machine

/-- R138, R147: a multiplication stays in its operation stage for four cycles; when they are over, OPERATION_STAGE_END writes the
product and its flag result, and before that it changes nothing. Of two writes of a shared register in one cycle that of the
later-issued word remains (R139).

R148 with R138: a division never traps; it stays 36 cycles at 64 bits and 20 at 32, then writes the quotient or the
remainder, with all ones for a zero divisor.

It concludes that exec answers a next state with this effect, on conditions on the state and the operands alone, for mul, mulh,
mulhu, div, divu, rem, remu, operationStageEnd. -/
def Obligations.ProductsAndQuotientsCompute : Prop :=
  (∀ r ∈ productRules, ∀ (nx : Nx) (o : RegOp) (s : State),
     let v := atWd o.wd r.2 (reg s o.sa) (reg s o.sb)
     let w : Writes := { regs := [(o.sd, v.1)], flag := flagIf o.fe o.fd v.2 }
     (∃ t, exec (r.1 nx o) s = .next t ∧ Stays s t (.late (now s + 4) w nx)) ∧
     ∀ u : State, ∀ due sp h, (getH u sp h).op = some (.late due w nx) →
       (due ≤ now u → ∃ t, exec (.operationStageEnd sp h) u = .next t ∧
         WordEnds u t sp h (getH u sp h).pc nx (reaches u sp h (now u - 1) o.sd) v.1 (flagIf o.fe o.fd v.2)) ∧
       (now u < due → exec (.operationStageEnd sp h) u = .next u)) ∧
  (∀ r ∈ divisionRules, ∀ (nx : Nx) (o : RegOp) (s : State),
     let v := atWd o.wd r.2 (reg s o.sa) (reg s o.sb)
     let w : Writes := { regs := [(o.sd, v.1)], flag := flagIf o.fe o.fd v.2 }
     (∃ t, exec (r.1 nx o) s = .next t ∧ Stays s t (.late (now s + if o.wd = .w64 then 36 else 20) w nx)) ∧
     ∀ u : State, ∀ due sp h, (getH u sp h).op = some (.late due w nx) → due ≤ now u →
       ∃ t, exec (.operationStageEnd sp h) u = .next t ∧
         WordEnds u t sp h (getH u sp h).pc nx (reaches u sp h (now u - 1) o.sd) v.1 (flagIf o.fe o.fd v.2))

/-- R79, R147: every one-cycle register-form word completes, with its result in s[SD] and its flag result in f[FD] when FE = 1; all else
is as before. A result for s0 is discarded, with the other effects as they are, and s0 reads as zero.

R149, R150, R153: the immediate-form words complete with the result their tables give on 64 bits.

It concludes that exec answers a next state with this effect, on conditions on the state and the operands alone, for add, sub,
and, or, xor, sll, srl, sra, min, max, minu, maxu, addi, andi, ori, xori, slli, srli, srai, li, liHi. -/
def Obligations.RegisterAndImmediateWordsCompute : Prop :=
  ((∀ (s : State) (sp h : Nat), rdReg s sp h 0 = 0) ∧ (∀ s : State, reg s 0 = 0) ∧
   ∀ r ∈ cycleRules, ∀ (nx : Nx) (o : RegOp) (s : State), ∃ t, exec (r.1 nx o) s = .next t ∧
     Ends s t nx o.sd (atWd o.wd r.2 (reg s o.sa) (reg s o.sb)).1 (flagIf o.fe o.fd (atWd o.wd r.2 (reg s o.sa) (reg s o.sb)).2)) ∧
  ((∀ (nx : Nx) (o : ImmOp) (s : State),
     let a := reg s o.sa
     let b : Word := BitVec.ofInt 64 o.imm.toInt
     let gives (i : Instr) (v : Word) (fl : Bool) : Prop := ∃ t, exec i s = .next t ∧ Ends s t nx o.sd v (flagIf o.fe o.fd fl)
     gives (.addi nx o) (BitVec.ofInt 64 (a.toInt + o.imm.toInt)) (outside 64 (a.toInt + o.imm.toInt)) ∧
     gives (.andi nx o) (a &&& b) (decide (a &&& b = 0)) ∧
     gives (.ori nx o) (a ||| b) (decide (a ||| b = 0)) ∧
     gives (.xori nx o) (a ^^^ b) (decide (a ^^^ b = 0))) ∧
   (∀ (nx : Nx) (o : ShOp) (s : State),
     let a := reg s o.sa
     let gives (i : Instr) (v : Word) : Prop := ∃ t, exec i s = .next t ∧ Ends s t nx o.sd v (flagIf o.fe o.fd (decide (v.toNat = 0)))
     gives (.slli nx o) (BitVec.ofNat 64 (a.toNat * 2 ^ o.sh.toNat)) ∧
     gives (.srli nx o) (BitVec.ofNat 64 (a.toNat / 2 ^ o.sh.toNat)) ∧
     gives (.srai nx o) (BitVec.ofInt 64 (a.toInt / ((2 ^ o.sh.toNat : Nat) : Int)))) ∧
   (∀ (nx : Nx) (sd : Reg) (imm : BitVec 32) (s : State),
     (∃ t, exec (.li nx sd imm) s = .next t ∧ Ends s t nx sd (BitVec.ofInt 64 imm.toInt) none) ∧
     ∃ t, exec (.liHi nx sd imm) s = .next t ∧
       Ends s t nx sd (BitVec.ofNat 64 (imm.toNat * 2 ^ 32 + (reg s sd).toNat % 2 ^ 32)) none))

namespace Sys2Proof.Machine

/-- The conditions of cmp and cmpi (R150), on w bits. -/
def compares {w : Nat} (c : Cond) (a b : BitVec w) : Bool :=
  match c with
  | .eq => decide (a.toNat = b.toNat) | .ne => decide (a.toNat ≠ b.toNat)
  | .lt => decide (a.toInt < b.toInt) | .ge => decide (b.toInt ≤ a.toInt)
  | .ltu => decide (a.toNat < b.toNat) | .geu => decide (b.toNat ≤ a.toNat)

/-- What the sub-functions of bits give (R152): r is the result of a, with the field at pos and of length len. -/
def bitsGives {w : Nat} (fn : BitsFn) (a b e r : BitVec w) : Prop :=
  let pos := b.toNat % w
  let len := min (e.toNat % 128) w
  match fn with
  | .cnt => r.toNat = (List.range w).countP fun i => a.getLsbD i
  | .clz => r.toNat ≤ w ∧ (∀ i < r.toNat, a.getLsbD (w - 1 - i) = false) ∧ (r.toNat < w → a.getLsbD (w - 1 - r.toNat) = true)
  | .ctz => r.toNat ≤ w ∧ (∀ i < r.toNat, a.getLsbD i = false) ∧ (r.toNat < w → a.getLsbD r.toNat = true)
  | .ext => ∀ i < w, r.getLsbD i = (decide (i < len) && a.getLsbD (pos + i))
  | .exts => ∀ i < w, r.getLsbD i = (decide (len ≠ 0) && a.getLsbD (pos + min i (len - 1)))
  | .rev => ∀ i < w, r.getLsbD i = a.getLsbD ((w / 8 - 1 - i / 8) * 8 + i % 8)

end Sys2Proof.Machine

/-- R150, R151: cmp and cmpi write 1 or 0 and the outcome as flag, sel takes s[SA] when its flag is set, else s[SB].

R152: bits counts, finds, extracts or reverses, on 64 bits or on the low 32, and its flag result is "res = 0".

It concludes that exec answers a next state with this effect, on conditions on the state and the operands alone, for cmp, cmpi,
sel, bits. -/
def Obligations.ComparisonsAndBitsCompute : Prop :=
  ((∀ (nx : Nx) (o : RegOp) (c : Cond) (s : State),
     let v := match o.wd with
       | .w64 => compares c (reg s o.sa) (reg s o.sb)
       | _ => compares c (BitVec.ofNat 32 (reg s o.sa).toNat) (BitVec.ofNat 32 (reg s o.sb).toNat)
     ∃ t, exec (.cmp nx o c) s = .next t ∧ Ends s t nx o.sd (if v then 1 else 0) (flagIf o.fe o.fd v)) ∧
   (∀ (nx : Nx) (sd sa : Reg) (fd : BitVec 3) (fe : Bool) (c : Cond) (imm : BitVec 21) (s : State),
     let v := compares c (reg s sa) (BitVec.ofInt 64 imm.toInt)
     ∃ t, exec (.cmpi nx sd sa fd fe c imm) s = .next t ∧ Ends s t nx sd (if v then 1 else 0) (flagIf fe fd v)) ∧
   ∀ (nx : Nx) (sd sa sb : Reg) (f : BitVec 3) (s : State),
     ∃ t, exec (.sel nx sd sa sb f) s = .next t ∧
       Ends s t nx sd (if flagOf s s.cur.sp s.cur.h f then reg s sa else reg s sb) none) ∧
  (∀ (nx : Nx) (o : RegOp) (se : Reg) (fn : BitsFn) (s : State), ∃ t v, exec (.bits nx o se fn) s = .next t ∧
     Ends s t nx o.sd v (flagIf o.fe o.fd (decide (v = 0))) ∧
     (match o.wd with
      | .w64 => bitsGives fn (reg s o.sa) (reg s o.sb) (reg s se) v
      | .w32s => ∃ r : BitVec 32, v = BitVec.ofInt 64 r.toInt ∧ bitsGives fn (BitVec.ofNat 32 (reg s o.sa).toNat)
          (BitVec.ofNat 32 (reg s o.sb).toNat) (BitVec.ofNat 32 (reg s se).toNat) r
      | .w32z => ∃ r : BitVec 32, v = BitVec.ofNat 64 r.toNat ∧ bitsGives fn (BitVec.ofNat 32 (reg s o.sa).toNat)
          (BitVec.ofNat 32 (reg s o.sb).toNat) (BitVec.ofNat 32 (reg s se).toNat) r))

/-! ## Pointer words (R154) -/

/-- R154: each pointer word completes; it acts on SPACE [63:60], RANK [59:50] and OFFSET [49:0] alone, and the offset never
carries into them. That pget's flag is that of the field also where its result goes to s0 is the model's choice
(notes/assumptions/121.md).

R154: pchk gives 0 for no byte, 1 where an access would fault PTR_SPACE, else 2 where it would fault PROTECTION, else 0; it
judges by the space, rank and range rules and by the ownership rule of accesses.

It concludes that exec answers a next state with this effect, on conditions on the state and the operands alone, for pmk, padd,
paddi, pdiff, pget, pset, pchk, pcmp. -/
def Obligations.PointerWordsComputeAndCheck : Prop :=
  ((∀ (nx : Nx) (o : PtrOp) (s : State),
     let a := reg s o.sa
     let b := reg s o.sb
     let off (p : Word) : Nat := p.toNat % 2 ^ 50
     let top (p : Word) : Nat := p.toNat / 2 ^ 50
     let gives (i : Instr) (v : Word) (fl : Bool) : Prop := ∃ t, exec i s = .next t ∧ Ends s t nx o.sd v (flagIf o.fe o.fd fl)
     (∀ space : BitVec 4, gives (.pmk nx o space) (BitVec.ofNat 64 (space.toNat * 2 ^ 60 + a.toNat % 2 ^ 10 * 2 ^ 50 + off b))
       (decide (a.toNat / 2 ^ 10 ≠ 0 ∨ b.toNat / 2 ^ 50 ≠ 0))) ∧
     gives (.padd nx o) (BitVec.ofNat 64 (top a * 2 ^ 50 + (((off a : Int) + b.toInt) % ((2 ^ 50 : Nat) : Int)).toNat))
       (decide ((off a : Int) + b.toInt < 0 ∨ ((2 ^ 50 : Nat) : Int) ≤ (off a : Int) + b.toInt)) ∧
     gives (.pdiff nx o) (BitVec.ofInt 64 ((off a : Int) - (off b : Int))) (decide (top a ≠ top b)) ∧
     (∀ c : PCond,
       let v := match c with
         | .eq => decide (a = b) | .ne => decide (a ≠ b)
         | .lt => decide (top a = top b ∧ off a < off b) | .ge => decide (top a = top b ∧ off b ≤ off a)
       gives (.pcmp nx o c) (if v then 1 else 0) v) ∧
     (∀ f : PField,
       let lo := match f with | .space => 60 | .rank => 50 | .off => 0
       let n := match f with | .space => 4 | .rank => 10 | .off => 50
       gives (.pset nx o f)
         (BitVec.ofNat 64 (a.toNat / 2 ^ (lo + n) * 2 ^ (lo + n) + b.toNat % 2 ^ n * 2 ^ lo + a.toNat % 2 ^ lo))
         (decide (b.toNat / 2 ^ n ≠ 0)))) ∧
   (∀ (nx : Nx) (o : ImmOp) (s : State),
     let a := reg s o.sa
     let d : Int := ((a.toNat % 2 ^ 50 : Nat) : Int) + o.imm.toInt
     ∃ t, exec (.paddi nx o) s = .next t ∧
       Ends s t nx o.sd (BitVec.ofNat 64 (a.toNat / 2 ^ 50 * 2 ^ 50 + (d % ((2 ^ 50 : Nat) : Int)).toNat))
         (flagIf o.fe o.fd (decide (d < 0 ∨ ((2 ^ 50 : Nat) : Int) ≤ d)))) ∧
   (∀ (nx : Nx) (sd sa : Reg) (fd : BitVec 3) (fe : Bool) (f : PField) (s : State),
     let v := match f with
       | .space => (reg s sa).toNat / 2 ^ 60 | .rank => (reg s sa).toNat / 2 ^ 50 % 2 ^ 10 | .off => (reg s sa).toNat % 2 ^ 50
     ∃ t, exec (.pget nx sd sa fd fe f) s = .next t ∧ Ends s t nx sd (BitVec.ofNat 64 v) (flagIf fe fd (decide (v = 0))))) ∧
  (∀ (nx : Nx) (o : PtrOp) (wr : Bool) (s : State),
     let p := reg s o.sa
     let n := (reg s o.sb).toNat
     let gives (c : Nat) : Prop := ∃ t, exec (.pchk nx o wr) s = .next t ∧
       Ends s t nx o.sd (BitVec.ofNat 64 c) (flagIf o.fe o.fd (decide (c = 0)))
     (n = 0 → gives 0) ∧
     (n ≠ 0 → ptrOk p n = false → gives 1) ∧
     (n ≠ 0 → ptrOk p n = true → ownsOk s (curTenant s) p n wr = false → gives 2) ∧
     (n ≠ 0 → ptrOk p n = true → ownsOk s (curTenant s) p n wr = true → gives 0))

/-! ## The next address, CSRs, handlers, channels -/

/-- R83 to R85, R158: nop does nothing but evaluate its NX, in every one of the ten forms.

It concludes that exec answers a next state with this effect, on conditions on the state and the operands alone, for nop. -/
def Obligations.NextAddressForms : Prop :=
  ∀ (nx : Nx) (s : State), ∃ t, exec (.nop nx) s = .next t ∧ Ends s t nx 0 0 none

namespace Sys2Proof.Machine

/-- The CSRs a word may write, with their widths (R144). -/
def writableCsrs : List (Nat × Nat) :=
  [(0x00A, 8), (0x00C, 32), (0x00D, 32), (0x00E, 32), (0x00F, 32), (0x010, 32), (0x011, 32), (0x012, 32), (0x013, 32), (0x014, 16),
   (0x015, 32), (0x016, 32), (0x017, 64), (0x018, 32), (0x019, 32), (0x01A, 32), (0x01B, 32), (0x020, 64), (0x021, 64), (0x022, 24),
   (0x023, 4), (0x024, 64)]
/-- CSR n, as the handler of the word being issued reads it. -/
def csrNow (s : State) (n : Nat) : Word := readCsr s s.cur.sp s.cur.h n
/-- The bits of CSR n that a write may set: all but the reserved fields [61:48], [28] and [15:8] of TCAUSE (R8, R404). -/
def csrField (n i : Nat) : Bool :=
  !(decide (n = 0x020) && (decide (48 ≤ i ∧ i ≤ 61) || decide (i = 28) || decide (8 ≤ i ∧ i ≤ 15)))

/-- The recv in which the handler of channel ch is BLOCKED, if it is: the handler and the word. -/
def waitingRecv (s : State) (sp ch : Nat) : Option (Nat × Nx × RecvOp) :=
  match tfind (getSpan s sp).chmap ch with
  | some h =>
    match (getH s sp h).st, (getH s sp h).op with
    | .blocked, some (.wait (.recv nx o) ..) => if o.ch.toNat = ch then some (h, nx, o) else none
    | _, _ => none
  | none => none
/-- An entry has reached channel ch, whose handler is h, and its entries are `l` (R136, R143): a STOPPED handler starts at ENTRY, the wait of
a handler on that channel ends, one that is otherwise busy gets PEND. A recv that waits for it takes the entry that stands first when the
cycle ends, and a further entry of the cycle sets PEND. No other handler changes. -/
structure EntryReached (s t : State) (sp ch h : Nat) (l : List Token) : Prop where
  entries : tget (getSpan t sp).ch ch [] = l
  starts : (getH s sp h).st = .stopped → getH t sp h = { getH s sp h with
    st := .runnable, pc := (getH s sp h).entry, rstack := [], op := none, miss := false, fresh := true }
  waits : ∀ c, (getH s sp h).st = .waiting c → getH t sp h =
    if c.toNat = ch then { getH s sp h with st := .runnable, fresh := true } else { getH s sp h with pend := true }
  busy : (getH s sp h).st = .runnable ∨ ((getH s sp h).st = .blocked ∧ waitingRecv s sp ch = none) → getH t sp h = { getH s sp h with pend := true }
  recv : ∀ nx o, waitingRecv s sp ch = some (h, nx, o) →
    getH t sp h = (if tget (getSpan s sp).ch ch [] = [] then getH s sp h else { getH s sp h with pend := true }) ∧
    tget (getSpan (recvDue t sp h) sp).ch ch [] = (if o.peek then l else l.tail) ∧
    ∃ u, (∀ q j, getH u q j = getH t q j) ∧ (∀ q j k, rdReg u q j k = rdReg t q j k) ∧
      WordEnds u (recvDue t sp h) sp h (getH s sp h).pc nx (reaches s sp h (now s) o.sd)
        (match l.headD .empty with | .word w => BitVec.ofNat 64 (w.toNat / 2 ^ (64 * o.part.toNat)) | _ => 0)
        (flagIf o.fe o.fd (match l.headD .empty with | .word _ => false | _ => true))
  others : ∀ j, j ≠ h → getH t sp j = getH s sp j
  rest : t.mem = s.mem

end Sys2Proof.Machine

/-- R144, R157: csrr gives the CSR; csrw, csrs and csrc give its old value and write the low bits, as wide as the CSR, of s[SA],
of the old value with those bits set, or with those bits cleared; TCAUSE's reserved fields stay zero. No other CSR, no register but s[SD] and nothing outside the
span changes by it.

R159, R160: hmask gives the old MASK bits of the handlers of the span and writes, sets or clears those of s[SA]; hwake starts at
ENTRY each STOPPED handler that s[SA] names, answers which, and sets PEND of the others named.

It concludes that exec answers a next state with this effect, on conditions on the state and the operands alone, for csrr, csrw,
csrs, csrc, hmask, hwake. -/
def Obligations.CsrAndHandlerWordsAct : Prop :=
  ((∀ (nx : Nx) (sd : Reg) (n : BitVec 12) (s : State), ∃ t, exec (.csrr nx sd n) s = .next t ∧ Ends s t nx sd (csrNow s n.toNat) none) ∧
   ∀ c ∈ writableCsrs, ∀ (nx : Nx) (sd sa : Reg) (s : State),
     let old := csrNow s c.1
     let writes (i : Instr) (new : Word) : Prop := ∃ u t, exec i s = .next t ∧ WordEnds u t s.cur.sp s.cur.h s.cur.pc nx sd old none ∧
       (∀ i < 64, (csrNow u c.1).getLsbD i = (decide (i < c.2) && csrField c.1 i && new.getLsbD i)) ∧ u.cur = s.cur ∧
       (∀ m, m ≠ c.1 → csrNow u m = csrNow s m) ∧ (∀ q j k, rdReg u q j k = rdReg s q j k) ∧ { u with spans := s.spans } = s
     writes (.csrw nx sd sa (BitVec.ofNat 12 c.1)) (reg s sa) ∧
     writes (.csrs nx sd sa (BitVec.ofNat 12 c.1)) (old ||| reg s sa) ∧
     writes (.csrc nx sd sa (BitVec.ofNat 12 c.1)) (old &&& ~~~ reg s sa)) ∧
  ((∀ (nx : Nx) (sd sa : Reg) (m : MaskMode) (s : State),
     let sp := s.cur.sp
     let n := (getSpan s sp).nhnd
     let bit (g : Nat) : Bool := (reg s sa).getLsbD g
     ∃ u t v, exec (.hmask nx sd sa m) s = .next t ∧ WordEnds u t sp s.cur.h s.cur.pc nx sd v none ∧ onlyHandlers s u ∧
       (∀ g < 64, v.getLsbD g = (decide (g ≤ n) && (getH s sp g).mask)) ∧ (∀ q j k, rdReg u q j k = rdReg s q j k) ∧
       (∀ g, n < g → getH u sp g = getH s sp g) ∧
       ∀ g, g ≤ n → g < 64 → getH u sp g = { getH s sp g with mask := match m with
         | .wr => bit g | .set => (getH s sp g).mask || bit g | .clr => (getH s sp g).mask && !bit g }) ∧
   ∀ (nx : Nx) (sd sa : Reg) (s : State),
     let sp := s.cur.sp
     let n := (getSpan s sp).nhnd
     let named (g : Nat) : Bool := decide (g ≤ n) && (reg s sa).getLsbD g
     ∃ u t v, exec (.hwake nx sd sa) s = .next t ∧ WordEnds u t sp s.cur.h s.cur.pc nx sd v none ∧ onlyHandlers s u ∧
       (∀ g < 64, v.getLsbD g = (named g && decide ((getH s sp g).st = .stopped))) ∧ (∀ q j k, rdReg u q j k = rdReg s q j k) ∧
       ∀ g, getH u sp g =
         if named g = true then
           if (getH s sp g).st = .stopped then
             { getH s sp g with st := .runnable, pc := (getH s sp g).entry, rstack := [], op := none, miss := false, fresh := true }
           else { getH s sp g with pend := true }
         else getH s sp g)

/-- R155, R156, R387: recv gives the part of the head entry of its channel, zero and a set flag for an empty token, and removes the
entry unless it peeks; send and signal append one entry. Each completes when its channel is bound and holds an entry before which no
word of the cycle can come to stand (R143), or has room; signal when its release has nothing to wait for as well. A recv that finds no such
entry and a send that finds no room stay BLOCKED.

R136, R143: CHANNEL_ARRIVAL moves a token that waits at its unit into a channel with room, ahead of the words that were sent in the
same cycle, and the word at the head of a fabric link into the channel on which the link ends, ahead of the tokens of the cycle too; a drain
token leaves the link and is no entry. An entry that reaches a channel starts its STOPPED handler, ends a wait or a recv that waits
for it, or sets PEND.

It concludes that exec answers a next state with this effect, on conditions on the state and the operands alone, for recv, send,
signal, channelArrival. -/
def Obligations.ChannelsMoveEntriesAndWake : Prop :=
  ((∀ (nx : Nx) (o : RecvOp) (s : State) (e : Token) (rest : List Token),
     boundTo (curSpan s) o.ch.toNat s.cur.h = true → tget (curSpan s).ch o.ch.toNat [] = e :: rest →
     headOpen (curSpan s) o.ch.toNat = false →
     ∃ u t, exec (.recv nx o) s = .next t ∧
       WordEnds u t s.cur.sp s.cur.h s.cur.pc nx (target s o.sd)
         (match e with | .word w => BitVec.ofNat 64 (w.toNat / 2 ^ (64 * o.part.toNat)) | _ => 0)
         (flagIf o.fe o.fd (match e with | .word _ => false | _ => true)) ∧
       (∀ c, tget (getSpan t s.cur.sp).ch c [] = if c = o.ch.toNat ∧ o.peek = false then rest else tget (curSpan s).ch c []) ∧
       (∀ q j k, rdReg u q j k = rdReg s q j k) ∧ (∀ q j, getH u q j = getH s q j) ∧ u.mem = s.mem ∧ u.tiles = s.tiles ∧ u.ctl = s.ctl) ∧
   (∀ (nx : Nx) (o : RecvOp) (s : State),
     boundTo (curSpan s) o.ch.toNat s.cur.h = true → (tget (curSpan s).ch o.ch.toNat [] = [] ∨ headOpen (curSpan s) o.ch.toNat = true) →
     ∃ t, exec (.recv nx o) s = .next t ∧ Stays s t (.wait (.recv nx o) 0 0 0 0)) ∧
   (∀ (nx : Nx) (sa : Reg) (empty : Bool) (ch : BitVec 6) (s : State), isBound (curSpan s) ch.toNat = true →
     let v := operands s sa 0 0
     let tok : Token := if empty then .empty else .word (BitVec.ofNat 512 v.1.toNat)
     (chanRoom s s.cur.sp ch.toNat = true →
       ∃ t, exec (.send nx sa empty ch) s = .next t ∧
         WordEnds (enterChannel s s.cur.sp ch.toNat .send [] tok) t s.cur.sp s.cur.h s.cur.pc nx 0 0 none ∧
         tget (getSpan t s.cur.sp).ch ch.toNat [] = tget (curSpan s).ch ch.toNat [] ++ [tok]) ∧
     (chanRoom s s.cur.sp ch.toNat = false →
       ∃ t, exec (.send nx sa empty ch) s = .next t ∧ Stays s t (.wait (.send nx sa empty ch) v.1 v.2.1 v.2.2 0))) ∧
   ∀ (nx : Nx) (sa : Reg) (ch : BitVec 6) (sc : Scope) (s : State),
     isBound (curSpan s) ch.toNat = true → chanRoom s s.cur.sp ch.toNat = true → relWaits s sc = false →
     ((curH s).podFault = none ∨ sc ≠ .pod) →
     let tok : Token := .word (BitVec.ofNat 512 (operands s sa 0 0).1.toNat)
     ∃ t, exec (.signal nx sa ch sc) s = .next t ∧
       WordEnds (enterChannel s s.cur.sp ch.toNat .send (clockOf s (curPort s).num) tok) t s.cur.sp s.cur.h s.cur.pc nx 0 0 none ∧
       tget (getSpan t s.cur.sp).ch ch.toNat [] = tget (curSpan s).ch ch.toNat [] ++ [tok] ∧
       t.mem = s.mem) ∧
  ((∀ (s : State) (sp ch i h : Nat) (w : Word),
     let l := tget (getSpan s sp).ch ch []
     let sent := (tget (getSpan s sp).chNow ch (0, 0)).2
     (getSpan s sp).live = true → (getSpan s sp).saved = false → chanRoom s sp ch = true →
     (getSpan s sp).toks[i]? = some (false, ch, w) → tfind (getSpan s sp).chmap ch = some h →
     (∀ b ∈ s.net.bars, ¬ (b.sp = sp ∧ b.sid = w.toNat / 2 ^ 43 % 2 ^ 5 ∧ b.arrive = true)) →
     ∃ t, exec (.channelArrival sp ch (.token i)) s = .next t ∧ (getSpan t sp).toks = (getSpan s sp).toks.eraseIdx i ∧
       EntryReached s t sp ch h (l.take (l.length - sent) ++ Token.word (BitVec.ofNat 512 w.toNat) :: l.drop (l.length - sent))) ∧
   ∀ (s : State) (sp ch g k h : Nat) (tok : Token) (rest : List Token),
     let l := tget (getSpan s sp).ch ch []
     let later := tget (getSpan s sp).chNow ch (0, 0)
     let n := l.length - (later.1 + later.2)
     let c := if k = 0 then 25 else 27
     let kind := (tget (getTile s g).cfg (15 * 32 + c + 1) 0).toNat
     (getSpan s sp).live = true → (getSpan s sp).saved = false → (getClus s (g / 16)).span = some sp →
     kind / 2 ^ 10 % 2 ^ 2 = 3 → kind % 2 ^ 6 = ch → l.length < 8 →
     tget (getTile s g).bufs c [] = tok :: rest → (tget (getTile s g).waits c []).length ≤ rest.length → tfind (getSpan s sp).chmap ch = some h →
     ∃ t, exec (.channelArrival sp ch (.link g k)) s = .next t ∧ tget (getTile t g).bufs c [] = rest ∧
       (∀ m, m ≠ g → getTile t m = getTile s m) ∧ (∀ d, d ≠ c → tget (getTile t g).bufs d [] = tget (getTile s g).bufs d []) ∧
       (tok = .drain → tget (getSpan t sp).ch ch [] = l ∧ ∀ j, getH t sp j = getH s sp j) ∧
       (tok ≠ .drain → EntryReached s t sp ch h (l.take n ++ tok :: l.drop n)))

namespace Sys2Proof.Machine

/-! ## What an entry word, a launch slot and a kill are (R111, R416) -/

/-- A field of a word. -/
def fieldOf (w : Word) (hi lo : Nat) : Nat := w.toNat / 2 ^ lo % 2 ^ (hi + 1 - lo)
/-- Entry k is as before but for word i. -/
def onlyEntryWord (s t : State) (k i : Nat) (v : Word) : Prop :=
  ∀ j m, m < 8 → entryW t j m = if j = k ∧ m = i then v else entryW s j m
/-- The slots of other launches are as before. -/
def otherSlots (s t : State) (slot : Nat) : Prop := ∀ m, m ≠ slot → getL t m = getL s m
/-- The launch of a slot is killed with a code (R416 steps 1 and 2): its entry is KILLED, its slot shows KILLING, nothing of it waits to be
placed, its spans have stopped without completing a word and queue nothing, KPEND of its tenant is one higher; memory, other slots, other
spans and the clusters are as before. That the elements of its jobs in flight are discarded is the model's choice (log 74, DEDUCED). -/
structure LaunchKilled (s u : State) (slot code : Nat) : Prop where
  entry : onlyEntryWord s u (getL s slot).entry 7 (BitVec.ofNat 64 (6 * 2 ^ 60 + code * 2 ^ 52))
  sst : (getL u slot).sst = .killing ∧ (getL u slot).v = true ∧ otherSlots s u slot
  place : ∀ x, ∀ e ∈ tget u.ctl.place x [], e.1 ≠ slot
  spans : ∀ q ∈ spansOf s slot, (getSpan u q).ended = true ∧ (getSpan u q).trap = none ∧ (getSpan u q).frozen = false ∧
    (∀ h, (getH u q h).op = none ∧ (getH u q h).held = none ∧ ((tfind (getSpan s q).hs h).isSome = true → (getH u q h).st = .stopped)) ∧
    (∀ x ∈ (getSpan u q).streams, x.2.jobs = [] ∧ x.2.pass = false) ∧ (getSpan u q).sys.arr = [] ∧ (getSpan u q).sys.epi = []
  others : ∀ q, q ∉ spansOf s slot → getSpan u q = getSpan s q
  regs : ∀ q j k, rdReg u q j k = rdReg s q j k
  queued : ∀ a ∈ u.net.acc, portSpan s a.port ∈ spansOf s slot → (∃ q h, a.port = .handler q h ∨ a.port = .stream q h) → a.stat ≠ .queued
  pend : let n := (getL s slot).img.toNat / 2 ^ 60 % 2 ^ 4
    fieldOf (tw u n 7) 7 0 = (fieldOf (tw s n 7) 7 0 + 1) % 2 ^ 8
  timer : (tget u.ctl.dogs ((getL s slot).img.toNat / 2 ^ 54 % 2 ^ 6) {}).timer = 0
  rest : u.mem = s.mem ∧ u.tiles = s.tiles ∧ u.clusters = s.clusters

/-- A span that holds no trap and records none. -/
def noTrap (s : State) (sp : Nat) : Prop :=
  (getSpan s sp).trap = none ∧ (getSpan s sp).fabric = none ∧ ∀ g, (getH s sp g).held = none

/-- The trap of the word of handler h at `pc` has been delivered to the trap handler (R404 to R406): the trap CSRs are written, the
trap handler starts at its ENTRY unmasked, and the trapping handler is held at its word; no register and no byte changes. -/
def TrapDelivered (s t : State) (sp h : Nat) (pc : BitVec 24) (cause sw : Nat) (tval : Word) : Prop :=
  let th := (getSpan s sp).thnd
  let csr (n : Nat) : Word := tget (getSpan t sp).csr n 0
  csr 0x20 = BitVec.ofNat 64 (cause + sw * 2 ^ 16) ∧ csr 0x21 = tval ∧ csr 0x22 = BitVec.ofNat 64 pc.toNat ∧
  csr 0x23 = BitVec.ofNat 64 h ∧ csr 0x24 = 0 ∧
  (∀ n, n < 0x20 ∨ 0x24 < n → csr n = tget (getSpan s sp).csr n 0) ∧
  (getH t sp th).st = .runnable ∧ (getH t sp th).pc = (getH s sp th).entry ∧ (getH t sp th).mask = false ∧ (getH t sp th).rstack = [] ∧
  (getH t sp h).held.isSome = true ∧ (getH t sp h).pc = pc ∧ (getH t sp h).st = .blocked ∧ (getH t sp h).op = none ∧
  (getH t sp h).rstack = (getH s sp h).rstack ∧ (getH t sp h).flags = (getH s sp h).flags ∧
  (∀ c, getK (getH t sp h) c = getK (getH s sp h) c) ∧
  (getSpan t sp).trap.isSome = true ∧
  (∀ q j k, rdReg t q j k = rdReg s q j k) ∧ (∀ q j, (q ≠ sp ∨ (j ≠ h ∧ j ≠ th)) → getH t q j = getH s q j) ∧
  t.mem = s.mem ∧ t.tiles = s.tiles ∧ t.ctl = s.ctl ∧ t.net = s.net

/-- A trap of the trap handler's own word at `pc`, with none delivered, has been delivered to itself (R408): the trap CSRs are written, it
leaves the word and starts at its ENTRY unmasked; no register and no byte changes. -/
def OwnTrapDelivered (s t : State) (sp h : Nat) (pc : BitVec 24) (cause sw : Nat) (tval : Word) : Prop :=
  let csr (n : Nat) : Word := tget (getSpan t sp).csr n 0
  csr 0x20 = BitVec.ofNat 64 (cause + sw * 2 ^ 16) ∧ csr 0x21 = tval ∧ csr 0x22 = BitVec.ofNat 64 pc.toNat ∧
  csr 0x23 = BitVec.ofNat 64 h ∧ csr 0x24 = 0 ∧ (∀ n, n < 0x20 ∨ 0x24 < n → csr n = tget (getSpan s sp).csr n 0) ∧
  (getH t sp h).st = .runnable ∧ (getH t sp h).pc = (getH s sp h).entry ∧ (getH t sp h).mask = false ∧ (getH t sp h).rstack = [] ∧
  (getH t sp h).held = none ∧ (getH t sp h).op = none ∧ (getH t sp h).flags = (getH s sp h).flags ∧
  (∀ c, getK (getH t sp h) c = getK (getH s sp h) c) ∧ (getSpan t sp).trap.isSome = true ∧
  (∀ q j k, rdReg t q j k = rdReg s q j k) ∧ (∀ q j, (q ≠ sp ∨ j ≠ h) → getH t q j = getH s q j) ∧
  t.mem = s.mem ∧ t.tiles = s.tiles ∧ t.ctl = s.ctl ∧ t.net = s.net

end Sys2Proof.Machine

/-- R411 with R404 to R406: trap raises SOFTWARE precisely at itself with s[SA] as TVAL and its code in SWCODE, and it is delivered to
a stopped trap handler at once; NX is not evaluated. R408: of the trap handler itself it is delivered to that handler, which starts at its
ENTRY; while a trap is delivered to it, it is a double trap, which kills the launch with the trap's cause, and the kill's record carries ESC.

It concludes that exec answers a next state with this effect, on conditions on the state and the operands alone, for trap. -/
def Obligations.SoftwareTrapIsDelivered : Prop :=
  (∀ (nx : Nx) (sa : Reg) (code : BitVec 12) (s : State),
    let sp := s.cur.sp
    noTrap s sp → (getSpan s sp).ten = true → s.cur.h < 16 → s.cur.h = (getSpan s sp).thnd →
    ∃ t, exec (.trap nx sa code) s = .next t ∧ OwnTrapDelivered s t sp s.cur.h s.cur.pc 0x12 code.toNat (reg s sa)) ∧
  (∀ (nx : Nx) (sa : Reg) (code : BitVec 12) (s : State),
    let sp := s.cur.sp
    let slot := (getSpan s sp).slot
    (getSpan s sp).trap.isSome = true → (getSpan s sp).toSys = false → (getSpan s sp).ten = true → s.cur.h = (getSpan s sp).thnd →
    (getSpan s sp).live = true → (getL s slot).v = true → (getL s slot).sst ≠ .killing →
    ∃ t, exec (.trap nx sa code) s = .next t ∧ LaunchKilled s t slot 0x12 ∧
      (getL t slot).kill = (BitVec.ofNat 64 (2 ^ 62 + code.toNat * 2 ^ 16 + 0x12), (getSpan s sp).sec, BitVec.ofNat 64 (s.cur.pc.toNat * 16 + s.cur.h)) ∧
      ∀ h, canIssue (getSpan t sp) h = false) ∧
  ∀ (nx : Nx) (sa : Reg) (code : BitVec 12) (s : State),
    let sp := s.cur.sp
    noTrap s sp → (getSpan s sp).ten = true → s.cur.h < 16 → s.cur.h ≠ (getSpan s sp).thnd →
    (getH s sp (getSpan s sp).thnd).st = .stopped →
    ∃ t, exec (.trap nx sa code) s = .next t ∧ TrapDelivered s t sp s.cur.h s.cur.pc 0x12 code.toNat (reg s sa)

/-- R92, R93, R403: a word that is no instruction is not executed: HANDLER_ISSUE raises ILLEGAL at it, with the word as TVAL.

R407: with TEN = 0 a trap is delivered to no handler: the span freezes, and the launch shows FROZEN. -/
def Obligations.UndefinedWordsTrapOrFreeze : Prop :=
  (∀ (s : State) (sp h : Nat) (l : List Word),
     noTrap s sp → (getSpan s sp).ten = true → pickHandler (getSpan s sp) = some h → h < 16 → h ≠ (getSpan s sp).thnd →
     (getH s sp (getSpan s sp).thnd).st = .stopped →
     tfind (getSpan s sp).pbuf ((getH s sp h).pc.toNat / 8) = some l →
     (tget (getSpan s sp).pbufGaps ((getH s sp h).pc.toNat / 8) []).contains ((getH s sp h).pc.toNat % 8) = false →
     decode (nth l ((getH s sp h).pc.toNat % 8) 0) = none →
     ∃ t, exec (.handlerIssue sp) s = .next t ∧
       TrapDelivered s t sp h (getH s sp h).pc 1 0 (nth l ((getH s sp h).pc.toNat % 8) 0)) ∧
  (∀ (nx : Nx) (sa : Reg) (code : BitVec 12) (s : State),
     let sp := s.cur.sp
     let slot := (getSpan s sp).slot
     noTrap s sp → (getSpan s sp).ten = false → s.cur.h < 16 → (getL s slot).sst = .running →
     ∃ t, exec (.trap nx sa code) s = .next t ∧ (getSpan t sp).frozen = true ∧ (getSpan t sp).toSys = true ∧
       (getL t slot).sst = .frozen ∧ (getSpan t sp).csr = (getSpan s sp).csr ∧ (getH t sp s.cur.h).held.isSome = true ∧
       (∀ q j k, rdReg t q j k = rdReg s q j k) ∧ (∀ j, j ≠ s.cur.h → getH t sp j = getH s sp j) ∧
       ∀ h, canIssue (getSpan t sp) h = false)

/-- R412 with R408, R410: eret of the trap handler ends the delivered trap. After a control word's trap the held handler re-issues at
TPC, goes on at TPC + 1, or stops at ENTRY, and the eret word's own NX applies, unless the trap was the trap handler's own (R408): then the
eret acts on it as the held handler, and NX is not evaluated. After a fabric fault the span thaws and its faulted streams go on. No register
changes.

It concludes that exec answers a next state with this effect, on conditions on the state and the operands alone, for eret. -/
def Obligations.EretReturnsFromTrap : Prop :=
  ∀ (nx : Nx) (m : EretMode) (s : State) (tr : Trap),
    let sp := s.cur.sp
    let p := getSpan s sp
    let tpc : BitVec 24 := BitVec.ofNat 24 (tget p.csr 0x22 0).toNat
    let frz := (tget p.csr 0x20 0).getLsbD 63
    p.trap = some tr → p.ten = true → p.toSys = false → s.cur.h = p.thnd → p.fabric = none →
    (∀ g, g ≠ tr.h → (getH s sp g).held = none) →
    (tr.agent = 0 → frz = false → tr.h ≠ p.thnd →
      ∃ u t, exec (.eret nx m) s = .next t ∧ WordEnds s u sp s.cur.h s.cur.pc nx 0 0 none ∧
        (getSpan t sp).trap = none ∧ (getH t sp tr.h).held = none ∧
        (match m with
         | .retry => (getH t sp tr.h).st = .runnable ∧ (getH t sp tr.h).pc = tpc
         | .skip => (getH t sp tr.h).st = .runnable ∧ (getH t sp tr.h).pc = tpc + 1
         | .stop => (getH t sp tr.h).pc = (getH s sp tr.h).entry ∧
             (getH t sp tr.h).st = if (getH s sp tr.h).pend || (getH s sp tr.h).trapWait then .runnable else .stopped) ∧
        (∀ q j, (q ≠ sp ∨ j ≠ tr.h) → getH t q j = getH u q j) ∧ (∀ q j k, rdReg t q j k = rdReg s q j k) ∧ t.mem = s.mem) ∧
    (tr.agent = 0 → frz = false → tr.h = p.thnd →
      ∃ t, exec (.eret nx m) s = .next t ∧ (getSpan t sp).trap = none ∧ (getH t sp tr.h).held = none ∧
        (match m with
         | .retry => (getH t sp tr.h).st = .runnable ∧ (getH t sp tr.h).pc = tpc
         | .skip => (getH t sp tr.h).st = .runnable ∧ (getH t sp tr.h).pc = tpc + 1
         | .stop => (getH t sp tr.h).pc = (getH s sp tr.h).entry ∧
             (getH t sp tr.h).st = if (getH s sp tr.h).pend || (getH s sp tr.h).trapWait then .runnable else .stopped) ∧
        (∀ c, getK (getH t sp tr.h) c = getK (getH s sp tr.h) c) ∧
        (∀ q j, (q ≠ sp ∨ j ≠ tr.h) → getH t q j = getH s q j) ∧ (∀ q j k, rdReg t q j k = rdReg s q j k) ∧ t.mem = s.mem) ∧
    (tr.agent ≠ 0 → (frz = true → m = .retry) → (∀ g, (getH s sp g).held = none) →
      ∃ u t, exec (.eret nx m) s = .next t ∧ WordEnds s u sp s.cur.h s.cur.pc nx 0 0 none ∧
        (getSpan t sp).trap = none ∧ (getSpan t sp).frozen = false ∧
        (∀ sid, (getStream s sp sid).st = .faulted → (getStream t sp sid).st = .active ∧ (getStream t sp sid).fault = none) ∧
        (∀ q j, getH t q j = getH u q j) ∧ (∀ q j k, rdReg t q j k = rdReg s q j k) ∧ t.mem = s.mem)

/-! ## Loads, stores, atomics, counted waits (R273, R274, R366 to R386) -/

namespace Sys2Proof.Machine

/-- The offsets that a list of accesses covers, in its order. -/
def coverage (l : List Access) : List Nat := l.flatMap fun a => (List.range a.n).map (pOff a.ptr + ·)
/-- The bytes that a list of writes carries, in its order. -/
def carried (l : List Access) : List Byte := l.flatMap fun a => match a.kind with | .write bs => bs | _ => []
/-- The state with accesses at the end of the module's list and their numbers used up. -/
def withAccesses (s : State) (l : List Access) : State :=
  { s with net := { s.net with acc := s.net.acc ++ l }, sched := { s.sched with nextId := s.sched.nextId + l.length } }
/-- The accesses l are the parts of one access of the issuing word: n bytes at p, in ascending order, every byte once, all queued in
the handler's port and joined by the first one's number. -/
structure IssuedAs (s : State) (k : AKind) (p : Word) (n : Nat) (ord : Ord) (sc : Scope) (posted : Bool) (stat : AStat)
    (home : Word → Nat → Option Nat) (l : List Access) : Prop where
  some_ : l ≠ []
  ids : ∀ i (h : i < l.length), l[i].id = s.sched.nextId + i
  own : ∀ a ∈ l, a.port = .handler s.cur.sp s.cur.h ∧ a.grp = s.sched.nextId ∧ a.stat = stat ∧ a.ord = ord ∧ a.scope = sc ∧
    a.posted = posted ∧ a.fault = none ∧ a.phase = none ∧ a.issued = now s
  at_ : ∀ a ∈ l, pSpace a.ptr = pSpace p ∧ pRank a.ptr = pRank p ∧ a.key = home a.ptr a.n
  bytes : coverage l = (List.range n).map (pOff p + ·)
  kind : match k with
    | .write bs => (∀ a ∈ l, ∃ c, a.kind = .write c) ∧ carried l = bs
    | _ => ∀ a ∈ l, a.kind = k

/-- The space, rank and range rules of R48 for an access of n bytes at p, of which each word is judged by itself in CONTROL space
(R446): there an access is stopped before it begins by its first byte alone. -/
def beginsOk (p : Word) (n : Nat) : Bool := if pSpace p = 4 then ptrOk p 1 else ptrOk p n
/-- The checks that come before translation pass (R274): PTR_SPACE, ALIGN, PROTECTION; CONTROL words are checked at their unit. -/
def reachable (s : State) (p : Word) (n : Nat) (write : Bool) (al : Nat) : Prop :=
  beginsOk p n = true ∧ pOff p % al = 0 ∧ (pSpace p ≠ 4 → ownsOk s (curTenant s) p n write = true)
/-- p with d added to its offset, and whether that stays within an offset's range (R274). -/
def displaced (p : Word) (d : Int) : Word :=
  BitVec.ofNat 64 (p.toNat / 2 ^ 50 * 2 ^ 50 + ((((p.toNat % 2 ^ 50 : Nat) : Int) + d) % ((2 ^ 50 : Nat) : Int)).toNat)
def inRange (p : Word) (d : Int) : Prop :=
  0 ≤ ((p.toNat % 2 ^ 50 : Nat) : Int) + d ∧ ((p.toNat % 2 ^ 50 : Nat) : Int) + d < ((2 ^ 50 : Nat) : Int)

/-- The recorded fault of a posted write for which a memory word must wait (R377): the word is a release of POD scope, or the write was
SC, an acquire, for which everything waits (R370, R372). -/
def faultDue (s : State) (write : Bool) (ord : Ord) (sc : Scope) : Option (Cause × Word) :=
  match (curH s).podFault with
  | none => none
  | some (c, v, b) =>
    if (write = true ∧ (ord = .rel ∨ ord = .sc) ∧ sc = .pod) ∨ b = true then some (c, v) else none

/-- The word i waits in its operation stage for the accesses it has issued. -/
def issuesAccess (i : Instr) (s : State) (k : AKind) (p : Word) (n : Nat) (ord : Ord) (sc : Scope) : Prop :=
  ∃ l t, exec i s = .next t ∧ IssuedAs s k p n ord sc false .queued (fun q _ => keyOf q) l ∧
    Stays (withAccesses s l) t (.mem i s.sched.nextId)
/-- A store of bs to a peer (R274, R371): where the handler's entry gives the bytes a home they wait there to be sent, and the word
ends at once; else the word waits for the translation (the model's choice, notes/assumptions/84.md). -/
def postsStore (i : Instr) (nx : Nx) (s : State) (bs : List Byte) (p : Word) (n : Nat) (ord : Ord) (sc : Scope) : Prop :=
  match entryHome (curH s).xlat p n with
  | some _ => ∃ l t, exec i s = .next t ∧ IssuedAs s (.write bs) p n ord sc true .translated (entryHome (curH s).xlat) l ∧
      Ends (withAccesses s l) t nx 0 0 none
  | none => ∃ l t, exec i s = .next t ∧ IssuedAs s (.write bs) p n ord sc true .queued (fun q _ => keyOf q) l ∧
      Stays (withAccesses s l) t (.mem i s.sched.nextId)

/-- The atomic words without a comparand, with their operations (R379). -/
def atomicWords : List ((Nx → AmoOp → Instr) × AmoFn) :=
  [(.amoAdd, .add), (.amoAnd, .and), (.amoOr, .or), (.amoXor, .xor), (.amoMin, .min), (.amoMax, .max), (.amoMinu, .minu), (.amoMaxu, .maxu),
   (.amoSwap, .swap), (.amoFadd, .fadd)]

end Sys2Proof.Machine

/-- R273, R274, R366, R377, R380, R386: a memory word whose pointer passes the checks, and that waits for no posted write with a
recorded fault, puts its access into its handler's port and
stays in its operation stage; a store to a peer is posted, and its word ends once the store is translated, at once where the
handler's translation entry serves it. Nothing else changes; memory does not. That a store to a peer stays in its stage until it is
translated is the model's choice (notes/assumptions/84.md, DEDUCED): R371 ends it when the access joins the port's queue.

It concludes that exec answers a next state with this effect, on conditions on the state and the operands alone, for ld, lds, st,
amoAdd, amoAnd, amoOr, amoXor, amoMin, amoMax, amoMinu, amoMaxu, amoSwap, amoCas, amoFadd, cwait. -/
def Obligations.MemoryWordsIssueTheirAccess : Prop :=
  ∀ (nx : Nx) (s : State),
    (∀ o : MemOp, inRange (reg s o.sa) o.disp.toInt →
      let q := displaced (reg s o.sa) o.disp.toInt
      let n := 2 ^ o.sz.toNat
      let bs := (List.range n).map fun i => BitVec.ofNat 8 ((reg s o.sd).toNat / 2 ^ (8 * i))
      (reachable s q n false n → faultDue s false o.ord o.scope = none → issuesAccess (.ld nx o) s .read q n o.ord o.scope) ∧
      (reachable s q n true n → faultDue s true o.ord o.scope = none →
        if pSpace q = 5 then postsStore (.st nx o) nx s bs q n o.ord o.scope
        else issuesAccess (.st nx o) s (.write bs) q n o.ord o.scope)) ∧
    (∀ o : LdsOp, inRange (reg s o.sa) o.disp.toInt →
      let q := displaced (reg s o.sa) o.disp.toInt
      reachable s q (8 * (o.n1.toNat + 1)) false 8 → faultDue s false o.ord o.scope = none →
        issuesAccess (.lds nx o) s .read q (8 * (o.n1.toNat + 1)) o.ord o.scope) ∧
    (∀ o : AmoOp,
      let n := if o.dbl then 8 else 4
      reachable s (reg s o.sa) n true n → faultDue s true o.ord o.scope = none →
      (∀ c ∈ atomicWords, issuesAccess (c.1 nx o) s (.amo c.2 o.dbl (reg s o.sb) 0) (reg s o.sa) n o.ord o.scope) ∧
      ∀ (se : Reg) (fd : BitVec 3) (fe : Bool),
        issuesAccess (.amoCas nx o se fd fe) s (.amo .cas o.dbl (reg s o.sb) (reg s se)) (reg s o.sa) n o.ord o.scope) ∧
    ∀ (sd sa sb : Reg) (dbl : Bool) (c : CwCond) (sc : Scope),
      let n := if dbl then 8 else 4
      reachable s (reg s sa) n false n → faultDue s false .acq sc = none →
      issuesAccess (.cwait nx sd sa sb dbl c sc) s (.cwait c (reg s sb)) (reg s sa) n .acq sc

/-- R94, R274: a memory word that may not access traps at itself, by the first check that fails: PTR_SPACE (a displacement that
leaves the offset's range among them), then ALIGN, then PROTECTION. A word that passes them and must wait for a posted write
whose fault is recorded traps with that fault (R377; its place after the checks is the model's choice, log entry 84). Such a
word issues nothing. -/
def Obligations.MemoryWordsTrapBeforeAccess : Prop :=
  ∀ (nx : Nx) (s : State),
    let sp := s.cur.sp
    noTrap s sp → (getSpan s sp).ten = true → s.cur.h < 16 → s.cur.h ≠ (getSpan s sp).thnd →
    (getH s sp (getSpan s sp).thnd).st = .stopped →
    let traps (i : Instr) (c : Nat) (v : Word) : Prop := ∃ t, exec i s = .next t ∧ TrapDelivered s t sp s.cur.h s.cur.pc c 0 v
    let checks (i : Instr) (q : Word) (n al : Nat) (write : Bool) (ord : Ord) (sc : Scope) : Prop :=
      (beginsOk q n = false → traps i 3 q) ∧
      (beginsOk q n = true → pOff q % al ≠ 0 → traps i 12 q) ∧
      (beginsOk q n = true → pOff q % al = 0 → pSpace q ≠ 4 → ownsOk s (curTenant s) q n write = false → traps i 5 q) ∧
      (∀ c v, reachable s q n write al → faultDue s write ord sc = some (c, v) →
        ∃ t, exec i s = .next t ∧ TrapDelivered (clearPod s) t sp s.cur.h s.cur.pc c.code 0 v)
    (∀ o : MemOp,
      let q := displaced (reg s o.sa) o.disp.toInt
      (¬ inRange (reg s o.sa) o.disp.toInt → traps (.ld nx o) 3 q ∧ traps (.st nx o) 3 q) ∧
      (inRange (reg s o.sa) o.disp.toInt →
        checks (.ld nx o) q (2 ^ o.sz.toNat) (2 ^ o.sz.toNat) false o.ord o.scope ∧
        checks (.st nx o) q (2 ^ o.sz.toNat) (2 ^ o.sz.toNat) true o.ord o.scope)) ∧
    (∀ o : LdsOp,
      let q := displaced (reg s o.sa) o.disp.toInt
      (¬ inRange (reg s o.sa) o.disp.toInt → traps (.lds nx o) 3 q) ∧
      (inRange (reg s o.sa) o.disp.toInt → checks (.lds nx o) q (8 * (o.n1.toNat + 1)) 8 false o.ord o.scope)) ∧
    (∀ (o : AmoOp) (se : Reg) (fd : BitVec 3) (fe : Bool),
      let n := if o.dbl then 8 else 4
      (∀ c ∈ atomicWords, checks (c.1 nx o) (reg s o.sa) n n true o.ord o.scope) ∧
      checks (.amoCas nx o se fd fe) (reg s o.sa) n n true o.ord o.scope) ∧
    ∀ (sd sa sb : Reg) (dbl : Bool) (c : CwCond) (sc : Scope),
      checks (.cwait nx sd sa sb dbl c sc) (reg s sa) (if dbl then 8 else 4) (if dbl then 8 else 4) false .acq sc

namespace Sys2Proof.Machine

/-- The new value of an atomic (R379), on w bits: old value m, operand b, comparand e. -/
def atomicGives {w : Nat} (fn : AmoFn) (m b e : BitVec w) : BitVec w :=
  match fn with
  | .add => m + b
  | .and => m &&& b
  | .or => m ||| b
  | .xor => m ^^^ b
  | .min => if b.toInt < m.toInt then b else m
  | .max => if m.toInt < b.toInt then b else m
  | .minu => if b.toNat < m.toNat then b else m
  | .maxu => if m.toNat < b.toNat then b else m
  | .swap => b
  | .cas => if m = e then b else m
  | .fadd => BitVec.ofNat w (rne fFp32 ((d32 m.toNat).add false (d32 b.toNat)))
/-- The condition of cwait (R386), on w bits. -/
def countHolds {w : Nat} (c : CwCond) (v cmp : BitVec w) : Bool :=
  match c with
  | .eq => decide (v = cmp) | .ne => decide (v ≠ cmp)
  | .geu => decide (cmp.toNat ≤ v.toNat) | .ge => decide (cmp.toInt ≤ v.toInt)
/-- The n bytes at a as a number of w bits, least significant byte first (R240). -/
def valueAt (s : State) (w a n : Nat) : BitVec w := BitVec.ofNat w (ofBytes ((List.range n).map fun i => byteAt s (a + i)))
/-- Is an access SC with a scope that the ring of the module orders, rather than the serialiser of its port's die (R372)? -/
def ringOrders (a : Access) : Prop := a.scope = .module ∨ a.scope = .pod
/-- The SC order lets the access go on (R372): it is not SC; or the ring's token stands at its node with a grant left; or its die's
serialiser is free, or its own. -/
def scTurn (s : State) (a : Access) : Prop :=
  isSc a = true →
    (ringOrders a → scNodeOf s a.port a.key = s.net.scNode ∧ s.net.scGrants < 8) ∧
    (¬ ringOrders a → tget s.net.serial (portDie s a.port) 0 = 0 ∨ tget s.net.serial (portDie s a.port) 0 = a.id + 1)
/-- What an access that performs takes of the SC order (R372): one of the eight grants, or the serialiser. -/
def scTaken (s t : State) (a : Access) : Prop :=
  t.net.scNode = s.net.scNode ∧
  (isSc a = false → t.net.scGrants = s.net.scGrants ∧ t.net.serial = s.net.serial) ∧
  (isSc a = true → ringOrders a → t.net.scGrants = s.net.scGrants + 1 ∧ t.net.serial = s.net.serial) ∧
  (isSc a = true → ¬ ringOrders a → t.net.scGrants = s.net.scGrants ∧ tget t.net.serial (portDie s a.port) 0 = a.id + 1)
/-- A dispatched access that may perform now (R369, R372). -/
structure InTurn (s : State) (id : Nat) (a : Access) : Prop where
  here : findAcc s id = some a
  dispatched : a.stat = .dispatched
  turn : ∀ e ∈ aheadOf s a, isFence e.kind = false → e.stat = .dispatched → overlap e a = false
  sc : scTurn s a
/-- It may perform at its home k in memory, of this module or of a peer, where no rule of poison or of deterministic mode stops it; a
counted wait at a peer is evaluated so once (R386). -/
structure MayPerform (s : State) (id : Nat) (a : Access) (k : Nat) : Prop extends InTurn s id a where
  home : a.key = some k
  memory_ : k < 2 ^ 64 ∨ (k < 2 ^ 80 ∧ a.tries = 0)
  sound : isPoison s k a.n = false
  free : (getSpan s (portSpan s a.port)).det = false
/-- It reads a word of CONTROL space at offset o, after the parts of its word that stand before it (R446). -/
structure MayReadControl (s : State) (id : Nat) (a : Access) (o : Nat) : Prop extends InTurn s id a where
  home : a.key = some (2 ^ 80 + o)
  kind : a.kind = .read ∨ ∃ c cmp, a.kind = .cwait c cmp ∧ (a.n = 8 ∨ a.n = 4)
  after : ∀ b ∈ s.net.acc, b.grp = a.grp → b.port = a.port → b.id < a.id → b.stat = .performed ∧ b.fault = none
/-- A performed access with its data. -/
def performedWith (t : State) (a : Access) (bs : List Byte) : Prop :=
  findAcc t a.id = some { a with stat := .performed, data := bs, fault := none }
/-- An access has performed with a fault. -/
def performedBadly (t : State) (a : Access) (c : Cause) : Prop :=
  findAcc t a.id = some { a with stat := .performed, data := [], fault := some c }

end Sys2Proof.Machine

/-- R246, R369, R372, R379, R386, R446: a read takes the bytes at its home, in this module or at a peer; a write puts its bytes there;
an atomic takes the old value and writes the new one; a counted wait performs when its condition holds, and else goes on waiting. No
other byte changes. An SC access performs when the SC order lets it, and takes its place there; until then it stays. A read of
CONTROL space gives what its unit shows, or the fault of the unit's check.

It concludes that exec answers a next state with this effect, on conditions on the state and the operands alone, for
accessPerform. -/
def Obligations.AccessesPerformAtTheirHome : Prop :=
  (∀ (s : State) (id : Nat) (a : Access), InTurn s id a → a.key = none → isFence a.kind = true →
    ∃ t, exec (.accessPerform id) s = .next t ∧ performedWith t a [] ∧ sameMemory s t ∧ scTaken s t a) ∧
  (∀ (s : State) (id : Nat) (a : Access), findAcc s id = some a → ¬ scTurn s a → exec (.accessPerform id) s = .next s) ∧
  (∀ (s : State) (id : Nat) (a : Access) (o : Nat), MayReadControl s id a o →
    ∃ t, exec (.accessPerform id) s = .next t ∧ sameMemory s t ∧ t.ctl = s.ctl ∧ t.spans = s.spans ∧ scTaken s t a ∧
      (ctlMapped o = false → performedBadly t a .ptrSpace) ∧
      (ctlMapped o = true → ctlReadOk s (portTenant s a.port) o = false → performedBadly t a .protection) ∧
      (ctlMapped o = true → ctlReadOk s (portTenant s a.port) o = true →
        let bs := ctlBytes s o a.n
        (a.kind = .read → performedWith t a bs) ∧
        ∀ c cmp, a.kind = .cwait c cmp →
          let holds := if a.n = 8 then countHolds c (BitVec.ofNat 64 (ofBytes bs)) cmp
            else countHolds c (BitVec.ofNat 32 (ofBytes bs)) (BitVec.ofNat 32 cmp.toNat)
          if holds then performedWith t a bs else findAcc t id = some a)) ∧
  ∀ (s : State) (id : Nat) (a : Access) (k : Nat), MayPerform s id a k →
    ∃ t, exec (.accessPerform id) s = .next t ∧ t.ctl.entries = s.ctl.entries ∧ (∀ q j x, rdReg t q j x = rdReg s q j x) ∧ scTaken s t a ∧
      match a.kind with
      | .read => performedWith t a ((List.range a.n).map fun i => byteAt s (k + i)) ∧ sameMemory s t
      | .write bs => bs.length = a.n → performedWith t a [] ∧ (∀ i (h : i < bs.length), byteAt t (k + i) = bs[i]) ∧ sameMemoryBut s t k a.n
      | .amo fn dbl b e =>
        (a.n = (if dbl then 8 else 4)) →
        performedWith t a ((List.range a.n).map fun i => byteAt s (k + i)) ∧ sameMemoryBut s t k a.n ∧
        (dbl = true → valueAt t 64 k 8 = atomicGives fn (valueAt s 64 k 8) b e) ∧
        (dbl = false → valueAt t 32 k 4 = atomicGives fn (valueAt s 32 k 4) (BitVec.ofNat 32 b.toNat) (BitVec.ofNat 32 e.toNat))
      | .cwait c cmp =>
        (a.n = 8 ∨ a.n = 4) → sameMemory s t ∧
        let holds := if a.n = 8 then countHolds c (valueAt s 64 k 8) cmp else countHolds c (valueAt s 32 k 4) (BitVec.ofNat 32 cmp.toNat)
        if holds then performedWith t a ((List.range a.n).map fun i => byteAt s (k + i)) else findAcc t id = some { a with tries := a.tries + 1, issued := now s }
      | .fence _ => sameMemory s t

namespace Sys2Proof.Machine

/-- The one access of the group has performed without a fault, and its handler's word i waits for it. -/
structure WordServed (s : State) (sp h : Nat) (i : Instr) (a : Access) : Prop where
  here : findAcc s a.id = some a
  alone : s.net.acc.filter (fun b => b.grp == a.grp && b.port == a.port) = [a]
  port : a.port = .handler sp h
  done : a.stat = .performed ∧ a.fault = none ∧ a.posted = false ∧ a.tag ≠ .fetch
  word : (getH s sp h).op = some (.mem i a.grp)
  live : (getSpan s sp).live = true ∧ (getL s (getSpan s sp).slot).sst ≠ .killing
/-- The state once the access has left the outstanding set. -/
def retiredAccess (s u : State) (a : Access) : Prop :=
  u.net.acc = s.net.acc.filter (fun b => b.id != a.id) ∧ u.spans = s.spans ∧ u.mem = s.mem ∧ u.tiles = s.tiles ∧ u.ctl = s.ctl

end Sys2Proof.Machine

/-- R274, R369, R380, R381: when the access of a word is complete, the word ends with what the access read: ld with its 1 to 8 bytes
zero- or sign-extended, lds with one word for each register, an atomic with the old value, fence and st with none. A shared
register keeps the value of a later-issued word that ends in the same cycle (R139).

It concludes that exec answers a next state with this effect, on conditions on the state and the operands alone, for
accessComplete. -/
def Obligations.CompletedAccessEndsItsWord : Prop :=
  ∀ (s : State) (sp h : Nat) (nx : Nx) (a : Access),
    let v := ofBytes a.data
    let pc := (getH s sp h).pc
    let ends (d : Reg) (x : Word) (fl : Option (BitVec 3 × Bool)) : Prop :=
      ∃ u t, exec (.accessComplete a.id) s = .next t ∧ retiredAccess s u a ∧
        WordEnds u t sp h pc nx (reaches s sp h (now s) d) x fl
    (∀ o : MemOp, WordServed s sp h (.ld nx o) a → a.kind = .read → a.data.length = 2 ^ o.sz.toNat →
      ends o.sd (if o.sgn then BitVec.ofInt 64 (BitVec.ofNat (8 * 2 ^ o.sz.toNat) v).toInt else BitVec.ofNat 64 v) none) ∧
    (∀ o : MemOp, WordServed s sp h (.st nx o) a → (∃ bs, a.kind = .write bs) → ends 0 0 none) ∧
    (∀ (k : FenceKind) (sc : Scope), WordServed s sp h (.fence nx k sc) a → a.kind = .fence k → ends 0 0 none) ∧
    (∀ o : LdsOp, WordServed s sp h (.lds nx o) a → a.kind = .read → a.data.length = 8 * (o.n1.toNat + 1) →
      ∃ u t, exec (.accessComplete a.id) s = .next t ∧ retiredAccess s u a ∧
        (∀ j, j ≤ o.n1.toNat → o.sd.toNat + j < 64 → reaches s sp h (now s) (o.sd + BitVec.ofNat 6 j) ≠ 0 →
          rdReg t sp h (o.sd + BitVec.ofNat 6 j) = BitVec.ofNat 64 (ofBytes ((a.data.drop (8 * j)).take 8))) ∧
        (∀ k, (∀ j, j ≤ o.n1.toNat → k ≠ reaches s sp h (now s) (o.sd + BitVec.ofNat 6 j)) → rdReg t sp h k = rdReg s sp h k) ∧
        (getH t sp h).op = none ∧ (getH t sp h).flags = (getH s sp h).flags ∧ (∀ q j, (q ≠ sp ∨ j ≠ h) → getH t q j = getH s q j)) ∧
    (∀ (o : AmoOp) (fn : AmoFn) (b e : Word), a.kind = .amo fn o.dbl b e → a.data.length = (if o.dbl then 8 else 4) →
      (∀ c ∈ atomicWords, WordServed s sp h (c.1 nx o) a → ends o.sd (BitVec.ofNat 64 v) none) ∧
      ∀ (se : Reg) (fd : BitVec 3) (fe : Bool), WordServed s sp h (.amoCas nx o se fd fe) a →
        ends o.sd (BitVec.ofNat 64 v) (flagIf fe fd (decide (v = e.toNat % 2 ^ (if o.dbl then 64 else 32))))) ∧
    ∀ (sd sa sb : Reg) (dbl : Bool) (c : CwCond) (cmp : Word) (sc : Scope), WordServed s sp h (.cwait nx sd sa sb dbl c sc) a →
      a.kind = .cwait c cmp → ends sd (BitVec.ofNat 64 v) none

/-! ## Dispatch, fences, SC, drain (R369 to R372, R381, R388) -/

namespace Sys2Proof.Machine

/-- The rows of R370 that hold access r back while the earlier access e of its port is incomplete. -/
def heldBehind (s : State) (e r : Access) : Prop :=
  isAcq e = true ∨ (isSc e = true ∧ isSc r = true) ∨ (isRel r = true ∧ isRead e.kind = true) ∨
  (isRel r = true ∧ writeIn s e r.scope = true) ∨ (overlap e r = true ∧ isFence e.kind = false ∧ isQueued e = true) ∨
  (e.kind = .fence .rel ∧ isWrite r.kind = true) ∨ (isFence e.kind = true ∧ e.kind ≠ .fence .rel) ∨
  (r.kind = .fence .acq ∧ isRead e.kind = true) ∨
  (isFence r.kind = true ∧ r.kind ≠ .fence .acq ∧ (isRead e.kind = true ∨ writeIn s e r.scope = true))
/-- The access is still on this side of dispatch. -/
def notDispatched (t : State) (id : Nat) : Prop :=
  ∃ b, findAcc t id = some b ∧ (b.stat = .queued ∨ b.stat = .translated ∨ b.stat = .walk ∨ b.stat = .walking)

end Sys2Proof.Machine

/-- R265, R370: ACCESS_DISPATCH sends an access with nothing before it in its port to its home, and holds one back while any row of the
order table keeps it behind an earlier access of another word, a request of a job before its cycle has come.

R369: a read whose bytes outstanding writes of its port cover takes them from the youngest of those writes at dispatch, and
reads nothing at its home.

It concludes that exec answers a next state with this effect, on conditions on the state and the operands alone, for
accessDispatch. -/
def Obligations.DispatchOrdersAndForwards : Prop :=
  (∀ (s : State) (id : Nat) (a : Access), findAcc s id = some a → a.stat = .queued → a.phase = none → a.posted = false →
     (isJobTag a.tag = true → now s < a.issued → exec (.accessDispatch id) s = .next s) ∧
     ((isJobTag a.tag = true → a.issued ≤ now s) →
     (∀ k, a.key = some k → isFence a.kind = false → a.n ≠ 0 → pSpace a.ptr ≠ 5 → aheadOf s a = [] →
       s.net.acc.filter (fun b => b.grp == a.grp && b.port == a.port) = [a] →
       ∃ t, exec (.accessDispatch id) s = .next t ∧ findAcc t id = some { a with stat := .dispatched, issued := now s } ∧
         t.mem = s.mem ∧ t.spans = s.spans ∧ ∀ m, m ≠ id → findAcc t m = findAcc s m) ∧
     (isFence a.kind = true → (∀ sp sid, a.port ≠ .stream sp sid) → aheadOf s a = [] →
       s.net.acc.filter (fun b => b.grp == a.grp && b.port == a.port) = [a] →
       ∃ t, exec (.accessDispatch id) s = .next t ∧ findAcc t id = some { a with stat := .dispatched } ∧ t.mem = s.mem ∧ t.spans = s.spans)) ∧
     ((∃ e ∈ aheadOf s a, e.grp ≠ a.grp ∧ heldBehind s e a) → (a.key ≠ none ∨ isFence a.kind = true) →
       ∃ t, exec (.accessDispatch id) s = .next t ∧ notDispatched t id ∧ t.mem = s.mem ∧ t.spans = s.spans)) ∧
  (∀ (s : State) (id k l : Nat) (a w : Access) (bs : List Byte), findAcc s id = some a → a.stat = .queued → a.phase = none →
     a.posted = false → (isJobTag a.tag = true → a.issued ≤ now s) → a.kind = .read → a.ord = .plain → a.key = some k → a.n ≠ 0 → pSpace a.ptr ≠ 5 → aheadOf s a = [w] →
     s.net.acc.filter (fun b => b.grp == a.grp && b.port == a.port) = [a] →
     w.kind = .write bs → w.stat = .dispatched → w.fault = none → w.key = some l → w.n = bs.length → w.ord ≠ .sc →
     l ≤ k → k + a.n ≤ l + w.n →
     ∃ t, exec (.accessDispatch id) s = .next t ∧
       findAcc t id = some { a with stat := .performed, data := (bs.drop (k - l)).take a.n, issued := now s } ∧ t.mem = s.mem)

namespace Sys2Proof.Machine

/-- What holds a drain of scope sc that was issued when the next number of the module was m (R388): a read the span has issued, a write
of it whose home lies in the domain of its own port, the requests of a FAULTED stream or of a faulted job. A job's write has issued with
its element. -/
def drainHeld (s : State) (sp : Nat) (sc : Scope) (m : Nat) : Prop :=
  (∃ a ∈ s.net.acc, portSpan s a.port = sp ∧ (∀ n, a.port ≠ .device n) ∧ (match a.tag with | .job _ id => id | _ => a.id) < m ∧ isFence a.kind = false ∧
    (isRead a.kind = true ∨ writeIn s a sc = true)) ∨
  ∃ x ∈ (getSpan s sp).streams, x.2.st = .faulted ∨ ∃ j ∈ x.2.jobs, j.err ≠ none
/-- Does the recorded fault of a posted write hold up nothing of the issuing handler that is an access, a fence or a barrier word (R370,
R372, R377): there is none, or the write was not SC. -/
def noFailedSc (s : State) : Prop := ∀ f, (curH s).podFault = some f → f.2.2 = false
/-- A posted SC write of the issuing handler is outstanding, an acquire (R370, R371). -/
def acquireOut (s : State) : Prop := ∃ a ∈ s.net.acc, a.port = .handler s.cur.sp s.cur.h ∧ a.posted = true ∧ a.ord = .sc

end Sys2Proof.Machine

/-! ## Barriers (R267, R268, R383, R384) -/

namespace Sys2Proof.Machine

/-- One update of a barrier word by `arr` arrivals and d bytes (R268): the fields PH 63, LOST 62, EXP [61:51], ARR [50:40], DUE [39:0],
and whether the phase has ended. -/
def barrierAfter (w : Word) (arr : Nat) (d : Int) : Word × Bool :=
  let ph := w.toNat / 2 ^ 63
  let lost := w.toNat / 2 ^ 62 % 2
  let exp := w.toNat / 2 ^ 51 % 2 ^ 11
  let a := w.toNat / 2 ^ 40 % 2 ^ 11 + arr
  let due : Int := ((w.toNat % 2 ^ 40 : Nat) : Int) + d
  let word (ph lost a due : Nat) : Word := BitVec.ofNat 64 (ph * 2 ^ 63 + lost * 2 ^ 62 + exp * 2 ^ 51 + a * 2 ^ 40 + due)
  if exp < a ∨ due < 0 ∨ ((2 ^ 40 : Nat) : Int) ≤ due then (word ph 1 (w.toNat / 2 ^ 40 % 2 ^ 11) (w.toNat % 2 ^ 40), false)
  else if a = exp ∧ due = 0 then (word (1 - ph) lost 0 0, true)
  else (word ph lost a due.toNat, false)
/-- Only the barrier's 8 bytes and the operation stages of words that wait on a barrier have changed. -/
def barrierWritten (s u : State) (k : Nat) (w : Word) : Prop :=
  valueAt u 64 k 8 = w ∧ sameMemoryBut s u k 8 ∧ (∀ q j x, rdReg u q j x = rdReg s q j x) ∧ u.tiles = s.tiles ∧ u.ctl = s.ctl ∧
  ∀ q j, (∀ nx sd sa sb sc a b e m, (getH s q j).op ≠ some (.wait (.barWait nx sd sa sb sc) a b e m)) → getH u q j = getH s q j
/-- In deterministic mode, an access of port p, counted by clock c, to the barrier at k that a performed access of another port stands
against (R391, R393); `sc` is the class of accesses that never conflict with one another. -/
def barrierClash (s : State) (p : PortId) (c k : Nat) (write : Bool) (sc : Option Nat) : Prop :=
  (getSpan s (portSpan s p)).det = true ∧ detConflict s p c (linesOf k 8) write sc = true
/-- A pointer that names a barrier of the issuing word's region, with its line sound (R383). -/
def namesBarrier (s : State) (p : Word) (k : Nat) : Prop :=
  barKey p (regionRanks (curSpan s)) = some k ∧ pOff p % 8 = 0 ∧ isPoison s k 8 = false

end Sys2Proof.Machine

/-- R372, R381, R388: fence puts a marker in its port and waits for it; the marker performs once it is dispatched, an SC one only with
the grant of its ring node or its die's serialiser; the SC token moves on when nothing waits at its node or eight have been
granted; drain ends when the span has no read and no write of the scope outstanding and no FAULTED stream, and else waits; what the
span's streams have done is then ordered before what the handler does next (R378).

R268, R370, R384: bar.init sets EXP and clears the other fields; bar.arrive makes one arrival and changes DUE once its release has nothing
to wait for, and waits while it has; bar.wait ends when PH differs from bit 63 of s[SB] and waits while it does not, until an
update wakes it; none begins while an earlier acquire of the handler is outstanding, a posted SC store; BARRIER_UPDATE makes the update of a transfer, in the order of its stream. Each gives the word as it stood
before.

It concludes that exec answers a next state with this effect, on conditions on the state and the operands alone, for fence,
barInit, barArrive, barWait, drain, scTokenPass, barrierUpdate. -/
def Obligations.FencesDrainAndBarriers : Prop :=
  (∀ (nx : Nx) (s : State),
     (∀ (k : FenceKind) (sc : Scope), (∀ f, (curH s).podFault = some f → f.2.2 = false ∧ (k = .acq ∨ sc ≠ .pod)) →
       ∃ t, exec (.fence nx k sc) s = .next t ∧
         Stays (withAccesses s [{ id := s.sched.nextId, grp := s.sched.nextId, port := .handler s.cur.sp s.cur.h, kind := .fence k, scope := sc,
                                  n := 0, issued := now s }]) t (.mem (.fence nx k sc) s.sched.nextId)) ∧
     (∀ (id : Nat) (a : Access) (k : FenceKind), findAcc s id = some a → a.stat = .dispatched → a.kind = .fence k → a.key = none →
       (∀ e ∈ aheadOf s a, isFence e.kind = false → e.stat = .dispatched → overlap e a = false) →
       let ring := a.scope = .module ∨ a.scope = .pod
       let die := portDie s a.port
       (isSc a = false → ∃ t, exec (.accessPerform id) s = .next t ∧ performedWith t a [] ∧ t.mem = s.mem) ∧
       (isSc a = true → ring → s.net.scNode = 4 * die → s.net.scGrants < 8 →
         ∃ t, exec (.accessPerform id) s = .next t ∧ performedWith t a [] ∧ t.net.scGrants = s.net.scGrants + 1) ∧
       (isSc a = true → ring → s.net.scNode ≠ 4 * die → exec (.accessPerform id) s = .next s) ∧
       (isSc a = true → ¬ ring → tget s.net.serial die 0 = 0 →
         ∃ t, exec (.accessPerform id) s = .next t ∧ performedWith t a [] ∧ tget t.net.serial die 0 = a.id + 1) ∧
       (isSc a = true → ¬ ring → tget s.net.serial die 0 ≠ 0 → tget s.net.serial die 0 ≠ a.id + 1 →
         exec (.accessPerform id) s = .next s)) ∧
     (((∀ a ∈ s.net.acc, ¬ (isSc a = true ∧ (a.scope = .module ∨ a.scope = .pod) ∧ a.stat = .dispatched ∧
           scNodeOf s a.port a.key = s.net.scNode)) ∨ 8 ≤ s.net.scGrants) →
       exec .scTokenPass s = .next { s with net := { s.net with scNode := (s.net.scNode + 1) % 16, scGrants := 0 } }) ∧
     (∀ a ∈ s.net.acc, isSc a = true → (a.scope = .module ∨ a.scope = .pod) → a.stat = .dispatched →
       scNodeOf s a.port a.key = s.net.scNode → s.net.scGrants < 8 → exec .scTokenPass s = .next s) ∧
     ∀ sc : Scope, (sc = .pod → (curH s).podFault = none) →
       let m := (latchMark s).getD s.sched.nextId
       (¬ drainHeld s s.cur.sp sc m → ∃ u t, exec (.drain nx sc) s = .next t ∧ { u with net := s.net } = s ∧ u.net.acc = s.net.acc ∧
         Ends u t nx 0 0 none ∧
         ∀ x ∈ (curSpan s).streams, ∀ k,
           tget (clockOf s (PortId.stream s.cur.sp x.1).num) k 0 ≤ tget (clockOf u (PortId.handler s.cur.sp s.cur.h).num) k 0) ∧
       (drainHeld s s.cur.sp sc m → ∃ t, exec (.drain nx sc) s = .next t ∧ Stays s t (.wait (.drain nx sc) 0 0 0 m))) ∧
  (∀ (nx : Nx) (s : State),
     let me := (curPort s).num
     (∀ (sd sa sb : Reg) (k : Nat),
       let v := operands s sa sb 0
       let i := Instr.barInit nx sd sa sb
       namesBarrier s v.1 k → noFailedSc s → 1 ≤ v.2.1.toNat → v.2.1.toNat ≤ 2047 →
       (¬ acquireOut s → ¬ barrierClash s (curPort s) me k true none →
         ∃ u t, exec i s = .next t ∧ WordEnds u t s.cur.sp s.cur.h s.cur.pc nx (target s sd) (valueAt s 64 k 8) none ∧
           barrierWritten s u k (BitVec.ofNat 64 (v.2.1.toNat * 2 ^ 51))) ∧
       (acquireOut s → ∃ t, exec i s = .next t ∧ Stays s t (.wait i v.1 v.2.1 v.2.2 0))) ∧
     (∀ (sd sa sb : Reg) (sc : Scope) (fd : BitVec 3) (fe : Bool) (k : Nat),
       let v := operands s sa sb 0
       namesBarrier s v.1 k → noFailedSc s → ¬ barrierClash s (curPort s) me k true (some barClass) →
       -((2 ^ 40 : Nat) : Int) < v.2.1.toInt → v.2.1.toInt < ((2 ^ 40 : Nat) : Int) → (sc = .pod → (curH s).podFault = none) →
       let i := Instr.barArrive nx sd sa sb sc fd fe
       let r := barrierAfter (valueAt s 64 k 8) 1 v.2.1.toInt
       (relWaits s sc = false → ¬ acquireOut s → ∃ u t, exec i s = .next t ∧
         WordEnds u t s.cur.sp s.cur.h s.cur.pc nx (target s sd) (valueAt s 64 k 8) (flagIf fe fd r.2) ∧ barrierWritten s u k r.1) ∧
       (relWaits s sc = true ∨ acquireOut s → ∃ t, exec i s = .next t ∧ Stays s t (.wait i v.1 v.2.1 v.2.2 0))) ∧
     (∀ (sd sa sb : Reg) (sc : Scope) (k : Nat),
       let i := Instr.barWait nx sd sa sb sc
       let v := operands s sa sb 0
       let ends (w : Word) : Prop := ∃ u t, exec i s = .next t ∧ u.spans = s.spans ∧ u.mem = s.mem ∧
         WordEnds u t s.cur.sp s.cur.h s.cur.pc nx (target s sd) w none
       let waits (m : Nat) : Prop := ∃ t, exec i s = .next t ∧ Stays s t (.wait i v.1 v.2.1 v.2.2 m)
       let clash := barrierClash (observe s me (objBar k)) (curPort s) me k false (some barClass)
       namesBarrier s v.1 k → noFailedSc s →
       (latchMark s ≠ some 0 → latchMark s ≠ some 1 →
         (acquireOut s → waits 2) ∧
         (¬ acquireOut s → (valueAt s 64 k 8).getLsbD 63 ≠ v.2.1.getLsbD 63 → ¬ clash → ends (valueAt s 64 k 8)) ∧
         (¬ acquireOut s → (valueAt s 64 k 8).getLsbD 63 = v.2.1.getLsbD 63 → waits 0)) ∧
       (latchMark s = some 1 → ¬ clash → ends v.2.2) ∧ (latchMark s = some 0 → waits 0)) ∧
     ∀ (b : BarUpd) (k : Nat), s.net.bars.find? (fun c => c.id == b.id) = some b →
       (∀ c ∈ s.net.bars.takeWhile (fun c => c.id != b.id), ¬ (c.sp = b.sp ∧ c.sid = b.sid)) →
       barKey b.ptr (regionRanks (getSpan s b.sp)) = some k → isPoison s k 8 = false →
       ¬ barrierClash s (.stream b.sp b.sid) b.comp k true (some barClass) →
       ∃ t, exec (.barrierUpdate b.id) s = .next t ∧ t.net.bars = s.net.bars.filter (fun c => c.id != b.id) ∧
         barrierWritten s t k (barrierAfter (valueAt s 64 k 8) (if b.arrive then 1 else 0) b.delta).1)

/-! ## Translation (R247 to R252, R431) -/

namespace Sys2Proof.Machine

/-- The page table entry of a walk at table t and level l (R247, R248). -/
def pteAt (s : State) (t va l : Nat) : Nat :=
  ofBytes ((List.range 8).map fun i => byteAt s (t + 8 * (if l = 3 then va / 2 ^ 39 % 2048 else if l = 2 then va / 2 ^ 30 % 512
    else if l = 1 then va / 2 ^ 21 % 512 else va / 2 ^ 16 % 32) + i))
/-- The entry of a table at a level can be read: it lies in memory, on a sound line (R246, R250). -/
def readable (s : State) (t va l : Nat) : Prop :=
  let a := t + 8 * (if l = 3 then va / 2 ^ 39 % 2048 else if l = 2 then va / 2 ^ 30 % 512
    else if l = 1 then va / 2 ^ 21 % 512 else va / 2 ^ 16 % 32)
  isPoison s a 8 = false ∧ hbmExists a 8 = true
/-- The table lies in a window of the tenant (R249, R250). -/
def tableOwn (s : State) (tn t l : Nat) : Prop :=
  inWindow s (· == tn) false t (if l = 3 then 16384 else if l = 0 then 256 else 4096) = true
/-- An entry that leads on to a table of n bytes: V set, LEAF and WR clear, the reserved bits 0, the address aligned to n. -/
def leadsTo (pte n : Nat) : Prop :=
  pte / 2 ^ 61 = 4 ∧ pte / 2 ^ 52 % 2 ^ 9 = 0 ∧ pte % 2 ^ 8 = 0 ∧ pte / 2 ^ 8 % 2 ^ 44 * 256 % n = 0
/-- An entry that maps a page of n bytes: V and LEAF set, the page aligned, in memory and in a window of the tenant. -/
def mapsPage (s : State) (tn pte n : Nat) : Prop :=
  (pte / 2 ^ 61 = 6 ∨ pte / 2 ^ 61 = 7) ∧ pte / 2 ^ 52 % 2 ^ 9 = 0 ∧ pte % 2 ^ 8 = 0 ∧ pte / 2 ^ 8 % 2 ^ 44 * 256 % n = 0 ∧
  hbmExists (pte / 2 ^ 8 % 2 ^ 44 * 256) n = true ∧ inWindow s (· == tn) false (pte / 2 ^ 8 % 2 ^ 44 * 256) n = true
def pteAddr (pte : Nat) : Nat := pte / 2 ^ 8 % 2 ^ 44 * 256

end Sys2Proof.Machine

/-- R247 to R250: a walk from the tenant's root goes down the levels 3, 2, 1, 0 by the four index fields of the virtual address, and
ends at the page of 1 GiB, 2 MiB or 64 KiB that a leaf of level 2, 1 or 0 maps, if every table read lies in a window of the
tenant; a write needs WR of the leaf; an entry with V = 0 ends it without a page.

R250 to R252: PAGE_WALK_START gives a walk slot to the oldest request of the next tenant in turn, at most 128 a die;
PAGE_WALK_COMPLETE gives the access its home and its port the entry, or TRANSLATION, or UE, and a word that asks in the course of
its work the entry or the refusal (which a word then holds beside its port's entry until it ends: the model's reading,
notes/assumptions/11.md, DEDUCED, and 12.md, DESIGN CHOICE); INVALIDATION_COMPLETE drops the tenant's entries of the range, those that a
word or the reading of a record holds too, and clears BUSY once no access uses them, and waits while one does.

It concludes that exec answers a next state with this effect, on conditions on the state and the operands alone, for
pageWalkStart, pageWalkComplete, invalidationComplete. -/
def Obligations.WalksFollowTheTables : Prop :=
  (∀ (s : State) (tn va : Nat) (write : Bool),
     let root := (tw s tn 0).toNat / 2 ^ 14 % 2 ^ 38 * 16384
     let e3 := pteAt s root va 3
     let e2 := pteAt s (pteAddr e3) va 2
     let e1 := pteAt s (pteAddr e2) va 1
     let e0 := pteAt s (pteAddr e1) va 0
     let own2 := tableOwn s tn root 3 ∧ tableOwn s tn (pteAddr e3) 2
     let own1 := own2 ∧ tableOwn s tn (pteAddr e2) 1
     let own0 := own1 ∧ tableOwn s tn (pteAddr e1) 0
     let empty (e : Nat) : Prop := e / 2 ^ 63 % 2 = 0 → walk s tn va write = .absent
     let leaf (own : Prop) (e n : Nat) : Prop := mapsPage s tn e n →
       (own → walk s tn va write =
         if write = true ∧ e / 2 ^ 61 % 2 = 0 then .fail else .page (pteAddr e) n (decide (e / 2 ^ 61 % 2 = 1))) ∧
       (¬ own → walk s tn va write = .fail)
     readable s root va 3 →
     empty e3 ∧
     (leadsTo e3 4096 → readable s (pteAddr e3) va 2 →
       empty e2 ∧ leaf own2 e2 (2 ^ 30) ∧
       (leadsTo e2 4096 → readable s (pteAddr e2) va 1 →
         empty e1 ∧ leaf own1 e1 (2 ^ 21) ∧
         (leadsTo e1 256 → readable s (pteAddr e1) va 0 → empty e0 ∧ leaf own0 e0 (2 ^ 16))))) ∧
  (∀ (s : State),
     (∀ (die : Nat) (a : Access),
       let tn := portTenant s a.port
       let turn (n : Nat) : Int := ((n : Int) - (tget s.net.walkRot die 15 : Nat) - 1) % 16
       walksOf s die < 128 → (walkQueue s die).find? (fun b => portTenant s b.port == tn) = some a → tn < 16 →
       (∀ b ∈ walkQueue s die, portTenant s b.port < 16 → turn tn ≤ turn (portTenant s b.port)) →
       ∃ t, exec (.pageWalkStart die) s = .next t ∧ findAcc t a.id = some { a with stat := .walking } ∧
         (∀ m, m ≠ a.id → findAcc t m = findAcc s m) ∧ t.net.walkQ = s.net.walkQ.filter (· != a.id) ∧
         tget t.net.walkRot die 15 = tn ∧ t.mem = s.mem ∧ t.spans = s.spans) ∧
     (∀ die : Nat, 128 ≤ walksOf s die → exec (.pageWalkStart die) s = .next s) ∧
     (∀ (id sp h : Nat) (a : Access), findAcc s id = some a → a.stat = .walking → pSpace a.ptr = 0 → a.port = .handler sp h →
       (getSpan s sp).live = true → (getL s (getSpan s sp).slot).sst ≠ .killing →
       (a.tag = .probe →
         (∀ pa size wr, walk s (getSpan s sp).tenant.toNat (pOff a.ptr) (isWrite a.kind) = .page pa size wr →
           let e : Xlat := { pod := false, va := pOff a.ptr / size * size, pa := pa, size := size, wr := wr }
           ∃ t, exec (.pageWalkComplete id) s = .next t ∧ findAcc t id = none ∧
             getH t sp h = { getH s sp h with xlat := some e, pods := e :: (getH s sp h).pods } ∧ t.mem = s.mem) ∧
         (∀ i x y z m, (getH s sp h).op = some (.wait i x y z m) →
           walk s (getSpan s sp).tenant.toNat (pOff a.ptr) (isWrite a.kind) = .absent →
           ∃ t, exec (.pageWalkComplete id) s = .next t ∧ findAcc t id = none ∧
             getH t sp h = { getH s sp h with refused := (a.ptr, .translation) :: (getH s sp h).refused } ∧ t.mem = s.mem)) ∧
       (a.tag ≠ .probe → (∀ i, a.tag ≠ .att i) → a.posted = false →
       (∀ pa size wr, walk s (getSpan s sp).tenant.toNat (pOff a.ptr) (isWrite a.kind) = .page pa size wr → (isWrite a.kind = true → wr = true) →
         pOff a.ptr + a.n ≤ pOff a.ptr / size * size + size →
         ∃ t, exec (.pageWalkComplete id) s = .next t ∧
           findAcc t id = some { a with stat := .translated, key := some (pa + (pOff a.ptr - pOff a.ptr / size * size)) } ∧
           (getH t sp h).xlat = some { pod := false, va := pOff a.ptr / size * size, pa := pa, size := size, wr := wr } ∧
           (∀ q j x, rdReg t q j x = rdReg s q j x) ∧ t.mem = s.mem) ∧
       (walk s (getSpan s sp).tenant.toNat (pOff a.ptr) (isWrite a.kind) = .absent ∨
        walk s (getSpan s sp).tenant.toNat (pOff a.ptr) (isWrite a.kind) = .fail →
         ∃ t, exec (.pageWalkComplete id) s = .next t ∧ findAcc t id = some { a with stat := .performed, fault := some .translation } ∧
           t.spans = s.spans ∧ t.mem = s.mem) ∧
       (walk s (getSpan s sp).tenant.toNat (pOff a.ptr) (isWrite a.kind) = .poison →
         ∃ t, exec (.pageWalkComplete id) s = .next t ∧ findAcc t id = some { a with stat := .performed, fault := some .ue } ∧
           t.spans = s.spans ∧ t.mem = s.mem))) ∧
     ∀ tenant : Nat, (tw s tenant 6).getLsbD 63 = true →
       let size := 2 ^ ((tw s tenant 6).toNat % 2 ^ 6) * 65536
       let va := (tw s tenant 6).toNat / 2 ^ 16 % 2 ^ 34 * 65536 / size * size
       ((∃ a ∈ s.net.acc, portTenant s a.port = tenant ∧ pSpace a.ptr = 0 ∧ a.stat = .dispatched ∧ pOff a.ptr < va + size ∧ va < pOff a.ptr + a.n) →
         exec (.invalidationComplete tenant) s = .next s) ∧
       ((∀ a ∈ s.net.acc, portTenant s a.port = tenant → pSpace a.ptr = 0 → a.stat = .translated ∨ a.stat = .dispatched ∨ a.stat = .walking →
           pOff a.ptr + a.n ≤ va ∨ va + size ≤ pOff a.ptr) →
        (∀ p ∈ s.spans, ∀ x ∈ p.2.hs, x.2.attHeld = []) →
         ∃ t, exec (.invalidationComplete tenant) s = .next t ∧ (tw t tenant 6).getLsbD 63 = false ∧
           (∀ sp h e, (getSpan s sp).tenant.toNat = tenant → (getH t sp h).xlat = some e ∨ e ∈ (getH t sp h).pods → e.pod = false →
             e.va + e.size ≤ va ∨ va + size ≤ e.va) ∧
           (∀ e ∈ tget t.ctl.pods tenant [], e.pod = false → e.va + e.size ≤ va ∨ va + size ≤ e.va) ∧
           (∀ sp sid e, (getSpan s sp).tenant.toNat = tenant → (getStream t sp sid).xlat = some e → e.pod = false →
             e.va + e.size ≤ va ∨ va + size ≤ e.va) ∧
           (∀ q j x, rdReg t q j x = rdReg s q j x) ∧ t.mem = s.mem ∧ t.net = s.net))

/-! ## Accesses to peers (R377, R386, R431) -/

/-- R377, R386, R431: the reply of the pod translation service gives an access its home at the peer, or a TRANSLATION fault; an access
without an answer for PODTO completes with POD_TIMEOUT, as does one that the peer turns away with an error completion (whose cause is the
model's choice, notes/assumptions/131.md, DESIGN CHOICE); the word of a posted store is over when its translation arrives (the model's
choice, notes/assumptions/84.md, DEDUCED: R371 ends it when the access joins the port's queue); a counted wait at a peer is read again after 1,024 cycles; an invalidation
drops the entries of its range in every port once no access uses them, and is answered.

It concludes that exec answers a next state with this effect, on conditions on the state and the operands alone, for
podAccessExpire, podCwaitReread, podTranslationReply, podInvalidation. -/
def Obligations.PeerAccessesTranslateAndExpire : Prop :=
  ∀ (s : State) (id sp h : Nat) (a : Access), findAcc s id = some a → a.port = .handler sp h → pSpace a.ptr = 5 → isFence a.kind = false →
    (getSpan s sp).live = true → (getL s (getSpan s sp).slot).sst ≠ .killing →
    (a.stat = .walking → a.tag ≠ .probe →
      (∀ pa size, (size = 2 ^ 16 ∨ size = 2 ^ 21 ∨ size = 2 ^ 30) → pOff a.ptr + a.n ≤ pOff a.ptr / size * size + size →
        ∃ t, exec (.podTranslationReply id (.mapped pa size)) s = .next t ∧
          findAcc t id = some { a with stat := .translated
                                       key := some (2 ^ 64 + pRank a.ptr * 2 ^ 52 + (pa / size * size % 2 ^ 52 + (pOff a.ptr - pOff a.ptr / size * size))) } ∧
          t.mem = s.mem ∧
          ∀ nx o, a.posted = true → (getH s sp h).op = some (.mem (.st nx o) a.grp) →
            s.net.acc.filter (fun b => b.grp == a.grp && b.port == a.port) = [a] →
            ∃ u, (∀ q j x, rdReg u q j x = rdReg s q j x) ∧ WordEnds u t sp h (getH s sp h).pc nx 0 0 none) ∧
      (now s < a.asked + podTo s (getSpan s sp).tenant.toNat → exec (.podTranslationReply id .none_) s = .next s) ∧
      (∀ r, r = .refused ∨ (r = .none_ ∧ a.asked + podTo s (getSpan s sp).tenant.toNat ≤ now s) →
        ∃ t, exec (.podTranslationReply id r) s = .next t ∧
        findAcc t id = some { a with stat := .performed, fault := some .translation } ∧ t.mem = s.mem ∧ t.spans = s.spans)) ∧
    (a.stat = .dispatched → a.tag ≠ .probe → a.tag ≠ .fetch → a.kind = .read → a.posted = false →
      s.net.acc.filter (fun b => b.grp == a.grp && b.port == a.port) = [a] →
      ∀ i, (getH s sp h).op = some (.mem i a.grp) → noTrap s sp → (getSpan s sp).ten = true → h < 16 → h ≠ (getSpan s sp).thnd →
        (getH s sp (getSpan s sp).thnd).st = .stopped →
        ∀ e, (e = .podAccessExpire id ∧ now s ≥ a.issued + podTo s (getSpan s sp).tenant.toNat) ∨ e = .podTranslationReply id .refused →
        ∃ u t, exec e s = .next t ∧ u.spans = s.spans ∧ u.mem = s.mem ∧ u.ctl = s.ctl ∧ u.tiles = s.tiles ∧
          TrapDelivered u t sp h (getH s sp h).pc 14 0 a.ptr ∧ findAcc t id = none) ∧
    (∀ c cmp k, a.stat = .dispatched → a.kind = .cwait c cmp → a.key = some k → 2 ^ 64 ≤ k → k < 2 ^ 80 → a.n = 8 →
      a.tries ≠ 0 → a.issued + 1024 ≤ now s →
      ∃ t, exec (.podCwaitReread id) s = .next t ∧ sameMemory s t ∧
        findAcc t id = some (if countHolds c (valueAt s 64 k 8) cmp
          then { a with issued := now s, stat := .performed, data := (List.range 8).map fun i => byteAt s (k + i), fault := none }
          else { a with issued := now s, tries := a.tries + 1 })) ∧
    ∀ (va size : Nat),
      let apart (e : Xlat) : Prop := e.pod = true → e.va + e.size ≤ va ∨ va + size ≤ e.va
      (∀ b ∈ s.net.acc, pSpace b.ptr = 5 → b.stat = .translated ∨ b.stat = .dispatched ∨ b.stat = .walking →
        pOff b.ptr + b.n ≤ va ∨ va + size ≤ pOff b.ptr) →
      ∃ t, exec (.podInvalidation s.firm.service.toNat va size) s = .next t ∧ t.mem = s.mem ∧ t.net.acc = s.net.acc ∧
        t.net.replies = (s.firm.service.toNat, some []) :: s.net.replies ∧
        (∀ q j e, (getH t q j).xlat = some e ∨ e ∈ (getH t q j).pods → apart e) ∧
        (∀ q j e, (getStream t q j).xlat = some e → apart e) ∧
        ∀ n e, e ∈ tget t.ctl.pods n [] → apart e

/-! ## Stream words (R253 to R282, R382) -/

namespace Sys2Proof.Machine

/-- Stream number sid of span sp and barrier updates aside, the parts of the machine that a stream word does not touch are as they
were. -/
def onlyStream (s u : State) (sp sid : Nat) : Prop :=
  (∀ q n, (q ≠ sp ∨ n ≠ sid) → getStream u q n = getStream s q n) ∧ (∀ q j, getH u q j = getH s q j) ∧
  (∀ q j x, rdReg u q j x = rdReg s q j x) ∧ sameMemory s u ∧ u.tiles = s.tiles ∧ u.ctl = s.ctl
/-- The word ends with v in register d, after it has left the stream's number as y. -/
def endsWith (i : Instr) (s : State) (sid : Nat) (nx : Nx) (d : Reg) (v : Word) (y : Stream) : Prop :=
  ∃ u t, exec i s = .next t ∧ WordEnds u t s.cur.sp s.cur.h s.cur.pc nx d v none ∧ getStream u s.cur.sp sid = y ∧ onlyStream s u s.cur.sp sid
/-- The kind code of R261 of a bound stream. -/
def kindCode (k : SKind) (out : Bool) : Nat :=
  match k, out with
  | .port, false => 0 | .port, true => 1 | .ring, false => 2 | .ring, true => 3 | .core, _ => 4
/-- The state word of a stream number (R279): state [63:60], kind [59:57], port [56:52], queued jobs [51:49], progress [47:0]. -/
def statusWord (x : Stream) : Word :=
  BitVec.ofNat 64 ((match x.st with | .free => 0 | .idle => 1 | .active => 2 | .done => 3 | .faulted => 4) * 2 ^ 60 +
    (if x.st = .free then 7 else x.kind) * 2 ^ 57 + (if x.kind ≤ 1 then x.port else 0) * 2 ^ 52 + x.jobs.length * 2 ^ 49 +
    (match x.jobs with | j :: _ => (List.range 64).countP fun i => j.bmp.getLsbD i | [] => x.doneP) % 2 ^ 48)

end Sys2Proof.Machine

/-- R253 to R255, R276: sbind binds a free stream number by its descriptor and shape, a PORT stream to wait for passes, a RING or CORE
stream to start its one pass at once, and gives 0; it gives 1 for a number that is not free and 2 for a port direction that is
taken, and binds nothing. The descriptor is read at the address of the issue cycle, through the handler's port.

R263, R277: sgather and sscatter queue a job on a number that is free or that jobs own, give 0, and register the job's bytes at its
BAR; they give 1 for a bound or faulted number, and stay BLOCKED while four jobs are queued.

It concludes that exec answers a next state with this effect, on conditions on the state and the operands alone, for sbind,
sgather, sscatter. -/
def Obligations.StreamWordsBindAndQueue : Prop :=
  (∀ (nx : Nx) (o : SbindOp) (s : State),
     let d := target s o.sd
     let at_ := (operands s o.sa 0 0).1
     let sp := s.cur.sp
     let p := getSpan s sp
     let x := getStream s sp o.sid.toNat
     let kind := kindCode o.kind o.out
     let taken := ∃ y ∈ p.streams, y.2.st ≠ .free ∧ y.2.kind = kind ∧ y.2.port = o.port.toNat
     (x.st ≠ .free → endsWith (.sbind nx o) s o.sid.toNat nx d 1 x) ∧
     (x.st = .free → o.kind = .port → taken → endsWith (.sbind nx o) s o.sid.toNat nx d 2 x) ∧
     ∀ (bs : List Byte) (s1 s2 : State) (sh : Shape), x.st = .free → ¬ (o.kind = .port ∧ taken) →
       hRead s at_ 64 8 = .ok (bs, s1) → sbindBad p o (wordsOf 8 bs) = none → shapeOf s1 o.shp.toNat = .ok (sh, s2) →
       barOk p ((nth (wordsOf 8 bs) 6 0).toNat / 2 ^ 58) (nth (wordsOf 8 bs) 7 0) = true →
       let y : Stream := { st := .idle, kind := kind, tok := o.tok, port := o.port.toNat, fmt := o.fmt.toNat, shp := o.shp.toNat, shape := sh,
                           desc := wordsOf 8 bs, winStart := now s, xlat := x.xlat }
       endsWith (.sbind nx o) s o.sid.toNat nx d 0 (if o.kind = .port then y else { y with st := .active, pass := true })) ∧
  (∀ (nx : Nx) (sd sa : Reg) (sid : BitVec 5) (tok : Bool) (s : State),
     let v := operands s sa 0 0
     let d := target s sd
     let sp := s.cur.sp
     let x := getStream s sp sid.toNat
     ∀ g ∈ [true, false],
       let i : Instr := if g then .sgather nx sd sa sid tok else .sscatter nx sd sa sid tok
       ((x.st ≠ .free ∧ x.kind ≤ 4) ∨ x.st = .faulted → endsWith i s sid.toNat nx d 1 x) ∧
       (¬ ((x.st ≠ .free ∧ x.kind ≤ 4) ∨ x.st = .faulted) → 4 ≤ x.jobs.length →
         ∃ t, exec i s = .next t ∧ Stays s t (.wait i v.1 v.2.1 v.2.2 0)) ∧
       ∀ (bs : List Byte) (s1 : State), ¬ ((x.st ≠ .free ∧ x.kind ≤ 4) ∨ x.st = .faulted) → x.jobs.length < 4 →
         hRead s v.1 64 8 = .ok (bs, s1) → jobBad (getSpan s sp) (wordsOf 8 bs) = none →
         barOk (getSpan s sp) ((nth (wordsOf 8 bs) 4 0).toNat / 2 ^ 58) (nth (wordsOf 8 bs) 5 0) = true →
         let j : Job := { gather := g, tok := tok, desc := wordsOf 8 bs, uid := s1.sched.nextId }
         let n := (nth (wordsOf 8 bs) 4 0).toNat % 2 ^ 7
         let rb := (nth (wordsOf 8 bs) 3 0).toNat % 2 ^ 17
         endsWith i s sid.toNat nx d 0 { x with kind := if g then 5 else 6, st := .active, jobs := x.jobs ++ [j] } ∧
         ∃ t, exec i s = .next t ∧ (t.net.bars.drop s.net.bars.length).map (fun b => (b.ptr, b.delta, b.arrive)) =
           if nth (wordsOf 8 bs) 5 0 = 0 then [] else [(nth (wordsOf 8 bs) 5 0, ((n * rb : Nat) : Int), false)])

/-- R260, R278 to R282, R188: sresp gives and removes (or keeps) the head of a CORE stream's queue and waits for one; sstat reads the
state word, the bitmap, the depth word and the last fault; scancel frees the number once nothing is in flight and gives the old
state word, and waits while something is; shape changes the shape of the passes to come, or starts a new pass; sdepth sets the depth controller, which
DEPTH_WINDOW_END moves by one step toward its target. The model's choice where the rules are silent: what scancel discards, and that it
stops what a pass would deliver (notes/assumptions/90.md, DEDUCED); that shape gives the index in force, and a base that waits stays
(91.md, DEDUCED); that the depth word of a RING in-stream without limits holds its buffer's depth, and 0 for any other stream (92.md,
DEDUCED); that a window with more than 1,024 stages consumed counts 1 cycle for each (99.md, DESIGN CHOICE).

It concludes that exec answers a next state with this effect, on conditions on the state and the operands alone, for sresp,
scancel, sstat, shape, sdepth, depthWindowEnd. -/
def Obligations.StreamWordsReadAndChangeStreams : Prop :=
  ∀ (nx : Nx) (sd : Reg) (sid : BitVec 5) (s : State),
    let d := target s sd
    let n := sid.toNat
    let x := getStream s s.cur.sp n
    (∀ (part : BitVec 3) (peek test : Bool), x.st ≠ .free → x.kind = 4 →
      (x.queue = [] → ∃ t, exec (.sresp nx sd sid part peek test) s = .next t ∧ Stays s t (.wait (.sresp nx sd sid part peek test) 0 0 0 0)) ∧
      ∀ e rest, x.queue = e :: rest →
        endsWith (.sresp nx sd sid part peek test) s n nx d
          (if test then (match e with | .word _ => 0 | _ => 1)
           else (match e with | .word w => BitVec.ofNat 64 (w.toNat / 2 ^ (64 * part.toNat)) | _ => 0))
          (if test = true ∨ peek = true then x else { x with queue := rest })) ∧
    (∀ item : SItem, endsWith (.sstat nx sd sid item) s n nx sd (match item with
      | .st => statusWord x
      | .bmp => (match x.jobs.find? (·.faulted) with | some j => j.bmp | none => (match x.jobs with | j :: _ => j.bmp | [] => 0))
      | .dep => BitVec.ofNat 64 (x.dmax * 256 + x.dmin * 16 +
          (if x.kind = 2 ∧ x.st ≠ .free then ringDepth s (getSpan s s.cur.sp) x else 0))
      | .flt => x.lastFault) x) ∧
    (x.st = .free → endsWith (.scancel nx sd sid) s n nx d (match s.cur.latch with | some l => l.1 | none => 0) x) ∧
    (x.st ≠ .free →
      let old := match s.cur.latch with | some l => l.1 | none => statusWord x
      ((∀ a ∈ s.net.acc, a.port = .stream s.cur.sp n →
          isFence a.kind = true ∨ isQueued a = true ∨ (a.fault.isSome = true ∧ isJobTag a.tag = false)) →
        (∀ j ∈ x.jobs, j.started = true → ∀ f ∈ j.flight, ∃ a ∈ s.net.acc, a.port = .stream s.cur.sp n ∧ a.tag = .job f.1 f.2 ∧ isQueued a = true) →
        endsWith (.scancel nx sd sid) s n nx d old {} ∧
        ∃ t, exec (.scancel nx sd sid) s = .next t ∧ (∀ a ∈ t.net.acc, a.port = .stream s.cur.sp n → isFence a.kind = true) ∧
          (x.kind = 0 → x.pass = true → (getSpan t s.cur.sp).fiDrain = (getSpan s s.cur.sp).fiDrain ++ [x.port])) ∧
      ((∃ a ∈ s.net.acc, a.port = .stream s.cur.sp n ∧ isWrite a.kind = true ∧ a.stat = .dispatched ∧ a.fault = none) →
        ∃ u t, exec (.scancel nx sd sid) s = .next t ∧ Stays u t (.wait (.scancel nx sd sid) old 0 0 1) ∧
          onlyStream s u s.cur.sp n ∧ (getStream u s.cur.sp n).cancel = true)) ∧
    (∀ (sa : Reg) (shp : BitVec 6) (sh : Shape) (s1 : State), x.st ≠ .free → shapeOf s shp.toNat = .ok (sh, s1) →
      let v := operands s sa 0 0
      let old := match s.cur.latch with | some l => l.2.1 | none => BitVec.ofNat 64 x.shp
      let base : Option Word := if sa = 0 then x.nextShp.bind (·.2.2) else some v.1
      (x.kind ≤ 1 → endsWith (.shape nx sd sa sid shp) s n nx d
        old { x with nextShp := some (shp.toNat, sh, base) }) ∧
      (2 ≤ x.kind → x.kind ≤ 4 → x.st ≠ .active →
        endsWith (.shape nx sd sa sid shp) s n nx d old
          { x with st := .active, pass := true, shp := shp.toNat, shape := sh, nextShp := none
                   desc := match base with | none => x.desc | some v => x.desc.set 0 v
                   leaf := 0, phase := 0, iters := [], next := 0, doneP := 0, bytes := 0
                   resp := [], stage := [], regd := [], redoTo := 0, kept := [], drained := false }) ∧
      (2 ≤ x.kind → x.kind ≤ 4 → x.st = .active →
        ∃ t, exec (.shape nx sd sa sid shp) s = .next t ∧ Stays s1 t (.wait (.shape nx sd sa sid shp) v.1 old 0 0))) ∧
    (∀ sa : Reg, x.st ≠ .free → x.kind = 2 →
      let a := (reg s sa).toNat
      let depth := bufDepth (getTile s (ringTile (getSpan s s.cur.sp) x)) (ringBuf x)
      let dmin := a % 16
      let dmax := a / 16
      (a = 0 ∨ (1 ≤ dmin ∧ dmin ≤ dmax ∧ dmax ≤ 15 ∧ dmax ≤ depth) →
        endsWith (.sdepth nx sd sa sid) s n nx d (BitVec.ofNat 64 (x.dmax * 16 + x.dmin))
          (if a = 0 then { x with dmin := 0, dmax := 0, depth := depth }
           else { x with dmin := dmin, dmax := dmax, depth := if x.dmax = 0 then dmin else max dmin (min dmax x.depth) }))) ∧
    ∀ (sp k : Nat),
      let y := getStream s sp k
      flows (getSpan s sp) = true → y.st ≠ .free → y.kind = 2 → y.winStart + 1024 ≤ now s →
      ∃ t, exec (.depthWindowEnd sp k) s = .next t ∧ onlyStream s t sp k ∧
        (getStream t sp k).winStart = y.winStart + 1024 ∧ (getStream t sp k).winN = 0 ∧
        (y.dmax = 0 ∨ y.winN = 0 → (getStream t sp k).depth = y.depth) ∧
        (y.dmax ≠ 0 → y.winN ≠ 0 →
          let tc := if y.winUsed = 0 then 1024 else max 1 (1024 / y.winUsed)
          let lm := y.winLat / y.winN
          let target := max y.dmin (min y.dmax ((lm + tc - 1) / tc + 1))
          (getStream t sp k).depth = if y.depth < target then y.depth + 1 else if target < y.depth then y.depth - 1 else y.depth)

/-! ## What streams do (R256 to R262) -/

namespace Sys2Proof.Machine

/-- The exact offset of position q of a pass (R256): base, strides times the position's indices, the two outer iteration strides. -/
def positionOffset (x : Stream) (q : Nat) : Int :=
  let idx := shapeIdx x.shape q
  let i (d : Nat) : Int := ((nth idx d 0 : Nat) : Int)
  let str (d : Nat) : Int := (nth x.desc (1 + d) 0).toInt
  let it (k : Nat) : Int := ((nth x.iters k 0 : Nat) : Int)
  (((nth x.desc 0 0).toNat % 2 ^ 50 : Nat) : Int) + i 0 * str 0 + i 1 * str 1 + i 2 * str 2 + i 3 * str 3 +
    it 0 * (BitVec.ofNat 32 (nth x.desc 5 0).toNat).toInt + it 1 * (BitVec.ofNat 32 ((nth x.desc 5 0).toNat / 2 ^ 32)).toInt
/-- Is it a fence token that stands behind position q of the stream (R382)? -/
def tokenBehind (sp sid q : Nat) (a : Access) : Prop := a.port = .stream sp sid ∧ isFence a.kind = true ∧ q < a.tries
/-- The stream's port has been given the access of position q to n bytes at ptr, in its parts, at the end of its queue, or before the
first fence token that was placed after the position was first requested; w holds the bytes of a write. -/
def requests (s t : State) (sp sid q : Nat) (w : Option (List Byte)) (ptr : Word) (n : Nat) : Prop :=
  ∃ b c l, l ≠ [] ∧ s.net.acc = b ++ c ∧ t.net.acc = b ++ l ++ c ∧ (∀ a ∈ b, ¬ tokenBehind sp sid q a) ∧
    (∀ a, c.head? = some a → tokenBehind sp sid q a) ∧ coverage l = (List.range n).map (pOff ptr + ·) ∧
    (∀ a ∈ l, a.port = .stream sp sid ∧ a.tag = .pos q ∧ a.stat = .queued ∧ pSpace a.ptr = pSpace ptr ∧ pRank a.ptr = pRank ptr) ∧
    match w with
    | none => ∀ a ∈ l, a.kind = .read
    | some bs => (∀ a ∈ l, ∃ c, a.kind = .write c) ∧ carried l = bs
/-- A stream of a kind is in its pass and may move. -/
def inPass (s : State) (sp sid kind : Nat) : Prop :=
  flows (getSpan s sp) = true ∧ (getStream s sp sid).kind = kind ∧ (getStream s sp sid).pass = true ∧ (getStream s sp sid).st = .active ∧
    (getStream s sp sid).cancel = false
/-- A stream of a kind is in its pass, and what stands at hand moves on: also while a pre-emption or the watchdog lets the leaves that
run come to their ends (R413). -/
def inPassStill (s : State) (sp sid kind : Nat) : Prop :=
  moves (getSpan s sp) = true ∧ (getStream s sp sid).kind = kind ∧ (getStream s sp sid).pass = true ∧ (getStream s sp sid).st = .active ∧
    (getStream s sp sid).cancel = false
/-- Every byte, tile, register and handler is as it was. -/
def quiet (s t : State) : Prop :=
  sameMemory s t ∧ t.tiles = s.tiles ∧ (∀ q j, getH t q j = getH s q j) ∧ (∀ q j x, rdReg t q j x = rdReg s q j x) ∧ t.ctl = s.ctl

end Sys2Proof.Machine

/-- R256, R257, R260: PORT_IN_REQUEST and CORE_STREAM_PLACE request positions in order, a masked one standing as an empty token at
once; a position's access is to WB bytes at the exact pointer of R256; STREAM_DELIVER moves the lowest response to the port, and
after the last position a drain token, which ends the pass; CORE_STREAM_PLACE moves it into the queue of 8.

R258, R448: PORT_OUT_WRITE takes one token of its port, once it stands there, and none before: a word is written as its low WB bytes at the next position, an empty token and a
masked position write nothing, and the drain token ends the pass when no write is outstanding.

It concludes that exec answers a next state with this effect, on conditions on the state and the operands alone, for
streamDeliver, portInRequest, portOutWrite, coreStreamPlace. -/
def Obligations.PortStreamsMoveTokens : Prop :=
  (∀ (s : State) (sp sid : Nat),
     let x := getStream s sp sid
     let n := wordBytes s (getSpan s sp) x
     (∀ q ptr, x.shape.ext.length ≤ 4 → n ≠ 0 → posPtr s (getSpan s sp) x q = .ok ptr →
       ((pOff ptr : Nat) : Int) = positionOffset x q ∧ pSpace ptr = pSpace (nth x.desc 0 0) ∧ pRank ptr = pRank (nth x.desc 0 0)) ∧
     (inPass s sp sid 0 → x.next < shapeCount x.shape → x.next < x.doneP + 64 →
       (shapeMasked x.shape x.next = true →
         ∃ t, exec (.portInRequest sp sid) s = .next t ∧ quiet s t ∧ t.net = s.net ∧
           getStream t sp sid = { x with next := x.next + 1, resp := tput x.resp x.next (some .empty) }) ∧
       ∀ ptr, shapeMasked x.shape x.next = false → n ≠ 0 → posPtr s (getSpan s sp) x x.next = .ok ptr →
         ∃ t, exec (.portInRequest sp sid) s = .next t ∧ quiet s t ∧ requests s t sp sid x.next none ptr n ∧
           getStream t sp sid = { x with next := x.next + 1, resp := tput x.resp x.next none }) ∧
     (inPass s sp sid 4 → tget x.resp x.doneP none = none → x.next < shapeCount x.shape → x.queue.length + (x.next - x.doneP) < 8 →
       ∀ ptr, shapeMasked x.shape x.next = false → n ≠ 0 → posPtr s (getSpan s sp) x x.next = .ok ptr →
         ∃ t, exec (.coreStreamPlace sp sid) s = .next t ∧ quiet s t ∧ requests s t sp sid x.next none ptr n ∧
           getStream t sp sid = { x with next := x.next + 1, resp := tput x.resp x.next none }) ∧
     (∀ tok, inPassStill s sp sid 4 → tget x.resp x.doneP none = some tok → x.doneP + 1 ≠ shapeCount x.shape →
       ∃ t, exec (.coreStreamPlace sp sid) s = .next t ∧ quiet s t ∧ t.net = s.net ∧
         getStream t sp sid = { x with resp := tdel x.resp x.doneP, queue := x.queue ++ [tok], doneP := x.doneP + 1
                                       bytes := x.bytes + if tok = .empty then 0 else n }) ∧
     (inPassStill s sp sid 0 → (tget (getSpan s sp).fi x.port []).length < 2 → (getSpan s sp).fiDrain.contains x.port = false →
       (∀ tok, x.doneP ≠ shapeCount x.shape → tget x.resp x.doneP none = some tok →
         ∃ t, exec (.streamDeliver sp sid) s = .next t ∧ quiet s t ∧ t.net.acc = s.net.acc ∧
           tget (getSpan t sp).fi x.port [] = tget (getSpan s sp).fi x.port [] ++ [tok] ∧
           getStream t sp sid = { x with resp := tdel x.resp x.doneP, doneP := x.doneP + 1, bytes := x.bytes + if tok = .empty then 0 else n }) ∧
       (x.doneP = shapeCount x.shape →
         ∃ t, exec (.streamDeliver sp sid) s = .next t ∧ quiet s t ∧ t.net.acc = s.net.acc ∧
           tget (getSpan t sp).fi x.port [] = tget (getSpan s sp).fi x.port [] ++ [.drain] ∧
           (getStream t sp sid).pass = false ∧ (getStream t sp sid).st = .idle ∧
           (getSpan t sp).toks.length = (getSpan s sp).toks.length + if x.tok then 1 else 0))) ∧
  (∀ (s : State) (sp sid : Nat) (tok : Token) (rest : List Token),
     let x := getStream s sp sid
     let n := wordBytes s (getSpan s sp) x
     inPassStill s sp sid 1 → x.resp = [] → tget (getSpan s sp).fo x.port [] = tok :: rest → x.next < shapeCount x.shape →
     (rest.length < (tget (getSpan s sp).foWaits x.port []).length → exec (.portOutWrite sp sid) s = .next s) ∧
     ((tget (getSpan s sp).foWaits x.port []).length ≤ rest.length →
     (∀ w ptr, tok = .word w → shapeMasked x.shape x.next = false → n ≠ 0 → posPtr s (getSpan s sp) x x.next = .ok ptr →
       let bs := (List.range n).map fun i => BitVec.ofNat 8 (w.toNat / 2 ^ (8 * i))
       ∃ t, exec (.portOutWrite sp sid) s = .next t ∧ quiet s t ∧ requests s t sp sid x.next (some bs) ptr n ∧
         tget (getSpan t sp).fo x.port [] = rest ∧ (getStream t sp sid).next = x.next + 1 ∧ (getStream t sp sid).pass = true) ∧
     (tok = .empty ∨ (shapeMasked x.shape x.next = true ∧ tok ≠ .drain) →
       ∃ t, exec (.portOutWrite sp sid) s = .next t ∧ quiet s t ∧ t.net.acc = s.net.acc ∧ tget (getSpan t sp).fo x.port [] = rest ∧
         getStream t sp sid = { x with next := x.next + 1, doneP := x.doneP + 1 }) ∧
     (tok = .drain → (∀ a ∈ s.net.acc, a.port = .stream sp sid → isFence a.kind = true) →
       ∃ t, exec (.portOutWrite sp sid) s = .next t ∧ quiet s t ∧ t.net.acc = s.net.acc ∧ tget (getSpan t sp).fo x.port [] = rest ∧
         (getStream t sp sid).pass = false ∧ (getStream t sp sid).st = .idle)))

/-- R259, R243: RING_IN_POSITION requests the next position when its buffer entry is empty, and a masked one fills its entry with zeros
and sets it full at once; the completed read of a position fills its entry with the bytes read and sets it full, and the pass ends
after the last; RING_OUT_POSITION sets the next full entry empty and writes its bytes to the position's pointer.

It concludes that exec answers a next state with this effect, on conditions on the state and the operands alone, for
ringInPosition, ringOutPosition. -/
def Obligations.RingStreamsMoveEntries : Prop :=
  (∀ (s : State) (sp sid q : Nat) (a : Access),
    let x := getStream s sp sid
    let g := ringTile (getSpan s sp) x
    let b := ringBuf x
    let d := bufDepth (getTile s g) b
    let key := keyTile g (bufBase (getTile s g) b + q % d * bufEsz (getTile s g) b)
    let n := bufEsz (getTile s g) b
    (getSpan s sp).det = false → d ≠ 0 → x.kind = 2 → x.pass = true → x.cancel = false → (getSpan s sp).live = true →
    (getSpan s sp).ended = false → (getSpan s sp).frozen = false → (getL s (getSpan s sp).slot).sst ≠ .killing →
    findAcc s a.id = some a → a.port = .stream sp sid → a.tag = .pos q → a.stat = .performed → a.fault = none → a.data.length = n →
    s.net.acc.filter (fun b => b.grp == a.grp && b.port == a.port) = [a] →
    ∃ t, exec (.accessComplete a.id) s = .next t ∧ isFull (getTile t g) b (q % d) = true ∧
      (∀ i (h : i < a.data.length), byteAt t (key + i) = a.data[i]) ∧ sameMemoryBut s t key n ∧ findAcc t a.id = none ∧
      (getStream t sp sid).doneP = x.doneP + 1 ∧ (getStream t sp sid).stage = (if x.doneP + 1 = shapeCount x.shape then [] else tdel x.stage q) ∧
      (getStream t sp sid).pass = decide (x.doneP + 1 ≠ shapeCount x.shape) ∧
      (x.doneP + 1 = shapeCount x.shape → (getStream t sp sid).st = .done)) ∧
  ∀ (s : State) (sp sid : Nat),
    let x := getStream s sp sid
    let g := ringTile (getSpan s sp) x
    let b := ringBuf x
    let d := bufDepth (getTile s g) b
    let e := x.next % d
    let key := keyTile g (bufBase (getTile s g) b + e * bufEsz (getTile s g) b)
    let n := bufEsz (getTile s g) b
    (getSpan s sp).det = false → d ≠ 0 → x.stage = [] → x.next + 1 < shapeCount x.shape → x.doneP + 1 < shapeCount x.shape →
    (∀ a ∈ s.net.acc, a.port = .stream sp sid → a.tag ≠ .pos x.next) →
    (inPass s sp sid 2 → isFull (getTile s g) b e = false → 0 < ringDepth s (getSpan s sp) x →
      (∀ ptr, shapeMasked x.shape x.next = false → posPtr s (getSpan s sp) x x.next = .ok ptr →
        ∃ t, exec (.ringInPosition sp sid) s = .next t ∧ quiet s t ∧ requests s t sp sid x.next none ptr n ∧
          (getStream t sp sid).next = x.next + 1) ∧
      (shapeMasked x.shape x.next = true →
        ∃ t, exec (.ringInPosition sp sid) s = .next t ∧ isFull (getTile t g) b e = true ∧ (∀ i < n, byteAt t (key + i) = 0) ∧
          sameMemoryBut s t key n ∧ (getStream t sp sid).next = x.next + 1 ∧ (getStream t sp sid).doneP = x.doneP + 1)) ∧
    (inPass s sp sid 3 → isFull (getTile s g) b e = true → isPoison s key n = false →
      (∀ ptr, shapeMasked x.shape x.next = false → posPtr s (getSpan s sp) x x.next = .ok ptr →
        ∃ t, exec (.ringOutPosition sp sid) s = .next t ∧ sameMemory s t ∧ isFull (getTile t g) b e = false ∧
          requests s t sp sid x.next (some ((List.range n).map fun i => byteAt s (key + i))) ptr n ∧
          (getStream t sp sid).next = x.next + 1) ∧
      (shapeMasked x.shape x.next = true →
        ∃ t, exec (.ringOutPosition sp sid) s = .next t ∧ sameMemory s t ∧ isFull (getTile t g) b e = false ∧ t.net.acc = s.net.acc ∧
          (getStream t sp sid).next = x.next + 1 ∧ (getStream t sp sid).doneP = x.doneP + 1))

namespace Sys2Proof.Machine

/-- The requests of element e of a job, which was issued under number id, that cover n bytes at ptr: of at most 64 bytes, none across a
64-byte line, in ascending order, made by the stream's port for the cluster of the job (R263, R265). -/
structure ElementParts (s : State) (l : List Access) (sp sid e id : Nat) (j : Job) (off n : Nat) : Prop where
  bytes : coverage l = (List.range n).map (off + ·)
  own : ∀ a ∈ l, a.port = .stream sp sid ∧ a.tag = .job e id ∧ a.stat = .queued ∧ a.n ≤ 64 ∧
    pOff a.ptr / 64 = (pOff a.ptr + a.n - 1) / 64 ∧ a.clus = some (regionClus (getSpan s sp) ((nth j.desc 4 0).toNat / 2 ^ 58))
/-- An element's pointer may be accessed (R48, R94). -/
def elementOk (s : State) (sp : Nat) (j : Job) (p : Word) (write : Bool) : Prop :=
  ptrOk p (jRb j) = true ∧ pOff p % jAlign (jRb j) = 0 ∧ ownsOk s (getSpan s sp).tenant.toNat p (jRb j) write = true

end Sys2Proof.Machine

namespace Sys2Proof.Machine

/-- The positions that a fence token of the stream stands behind: all that were requested, before a fault too (R262, R382). -/
def requested (x : Stream) : Nat := if 5 ≤ x.kind then 2 ^ 40 else if x.kind = 0 ∨ x.kind = 4 then max x.next x.redoTo else x.next
/-- A request that stood before a fence token, which counts the positions below m, was dropped at a fault and has still to be made
again (R262, R266, R382). -/
def toRemake (s : State) (sp sid m : Nat) : Prop :=
  let x := getStream s sp sid
  let out (q : Nat) : Prop := ∃ a ∈ s.net.acc, a.port = .stream sp sid ∧ a.tag = .pos q
  ((x.kind = 0 ∨ x.kind = 4) ∧ x.next < x.redoTo ∧ x.next < m) ∨
  (x.kind = 1 ∧ ∃ r ∈ x.resp, r.1 < m ∧ (r.2 = none ∨ r.2 = some .drain) ∧ ¬ out r.1) ∨
  ((x.kind = 2 ∨ x.kind = 3) ∧ ∃ r ∈ x.stage, r.1 < m ∧ ¬ out r.1) ∨
  (5 ≤ x.kind ∧ ∃ j ∈ x.jobs, j.issued < j.again)

end Sys2Proof.Machine

/-- R263 to R266: JOB_START starts the first queued job; JOB_ELEMENT_ISSUE issues its next element, at the pointers that the element's
index gives: the requests that read its RB bytes, one in a cycle; when one of them is complete, writes of the bytes that it has read
take its place, at the same offset of the destination; JOB_ELEMENT_PERFORM sets the element's bit once no request of it is left, and
not before, and the job leaves the queue with its last element. That the writes take the read's place in the queue is the model's
choice (notes/assumptions/13.md, DEDUCED).

R382: sfence first waits as a fence of its scope; a free or done number answers its state word at once, else the fence's token
stands in the stream's queue, and SFENCE_TOKEN_COMPLETE ends the word with the state word once every request ahead of it is
complete, those too that a fault has dropped and that are made again, and not before.

It concludes that exec answers a next state with this effect, on conditions on the state and the operands alone, for sfence,
jobStart, jobElementIssue, jobElementPerform, sfenceTokenComplete. -/
def Obligations.JobsCopyAndFencesWait : Prop :=
  (∀ (s : State) (sp sid : Nat) (j : Job) (rest : List Job),
     let x := getStream s sp sid
     let me := PortId.stream sp sid
     x.st = .active → x.cancel = false → x.jobs = j :: rest → j.err = none →
     (flows (getSpan s sp) = true → j.started = false →
       ∃ t, exec (.jobStart sp sid) s = .next t ∧ quiet s t ∧ getStream t sp sid = { x with jobs := { j with started := true } :: rest }) ∧
     (∀ e i src dst, jobPtrs j e i = .ok (src, dst) →
       let stride := (BitVec.ofNat 32 ((nth j.desc 3 0).toNat / 2 ^ 32)).toInt
       let far (b : Word) : Int := ((pOff b : Nat) : Int) + i * stride
       let near (b : Word) : Int := ((pOff b : Nat) : Int) + ((e * ((nth j.desc 3 0).toNat % 2 ^ 17) : Nat) : Int)
       ((pOff src : Nat) : Int) = (if j.gather then far else near) (nth j.desc 0 0) ∧
       ((pOff dst : Nat) : Int) = (if j.gather then near else far) (nth j.desc 1 0)) ∧
     (flows (getSpan s sp) = true → j.started = true → j.issued < jN j → j.bmp.getLsbD j.issued = false → x.reqAt ≤ now s →
       (∀ a ∈ s.net.acc, a.id < s.sched.nextId ∧ (a.port = me → isFence a.kind = false)) → jRb j ≠ 0 →
       (∀ i s0 src dst, jobIndex s sp sid j j.issued = .ok (i, s0) → jobPtrs j j.issued i = .ok (src, dst) →
         elementOk s sp j src false → elementOk s sp j dst true →
         ∃ t l, exec (.jobElementIssue sp sid) s = .next t ∧ quiet s t ∧ t.net.acc = s.net.acc ++ l ∧
           ElementParts s l sp sid j.issued s.sched.nextId j (pOff src) (jRb j) ∧ (∀ a ∈ l, a.kind = .read) ∧
           (∀ k (h : k < l.length), l[k].issued = now s + k) ∧
           getStream t sp sid = { x with
             reads := []
             reqAt := now s + l.length
             jobs := { j with
               issued := j.issued + 1
               flight := tput j.flight j.issued s.sched.nextId
               ptrs := tput j.ptrs j.issued (src, dst) } :: rest }) ∧
       (∀ q n r m, jobIndex s sp sid j j.issued = .error (.peer q n r m) → (∀ a ∈ s.net.acc, a.port = me → a.tag ≠ .fetch) →
         q = withOff (nth j.desc 2 0) (pOff (nth j.desc 2 0) + 4 * j.issued) ∧ n = 4 ∧
         ∃ t l, exec (.jobElementIssue sp sid) s = .next t ∧ quiet s t ∧ t.net.acc = s.net.acc ++ l ∧
           coverage l = (List.range 4).map (pOff q + ·) ∧ (∀ a ∈ l, a.port = me ∧ a.tag = .fetch ∧ a.kind = .read) ∧
           getStream t sp sid = { x with reqAt := now s + 1 })) ∧
     (now s < x.reqAt → exec (.jobElementIssue sp sid) s = .next s) ∧
     (∀ e id src dst d a b c, (getSpan s sp).live = true → (getL s (getSpan s sp).slot).sst ≠ .killing →
       j.flight = [(e, id)] → j.ptrs = [(e, (src, dst))] → s.net.acc = b ++ a :: c → (∀ o ∈ b ++ c, o.id ≠ a.id) →
       (∀ o ∈ b ++ c, ¬ (o.grp = a.grp ∧ o.port = a.port)) → a.port = me → a.tag = .job e id → a.kind = .read → a.stat = .performed →
       a.fault = none → a.data.length = a.n → a.n ≠ 0 → a.ptr.toNat = src.toNat + d → pOff dst + d + a.n ≤ 2 ^ 50 →
       ∃ t l, exec (.accessComplete a.id) s = .next t ∧ quiet s t ∧ getStream t sp sid = x ∧ t.net.acc = b ++ l ++ c ∧
         ElementParts s l sp sid e id j (pOff dst + d) a.n ∧ (∀ o ∈ l, ∃ w, o.kind = .write w) ∧ carried l = a.data) ∧
     (∀ e id, (getSpan s sp).live = true → e < 64 → j.flight = [(e, id)] → j.redo = [] →
       ((∃ a ∈ s.net.acc, a.port = me ∧ a.tag = .job e id) → exec (.jobElementPerform sp sid 0 e) s = .next s) ∧
       ((∀ a ∈ s.net.acc, a.port = me → a.tag ≠ .job e id) →
         ∃ t, exec (.jobElementPerform sp sid 0 e) s = .next t ∧ quiet s t ∧ t.net.acc = s.net.acc ∧
           ((List.range 64).countP (fun i => j.bmp.getLsbD i || decide (i = e)) ≠ jN j →
             getStream t sp sid = { x with jobs := { j with bmp := j.bmp ||| BitVec.ofNat 64 (2 ^ e), flight := [] } :: rest }) ∧
           ((List.range 64).countP (fun i => j.bmp.getLsbD i || decide (i = e)) = jN j →
             (getSpan s sp).det = false ∨ j.late = false →
             getStream t sp sid = { x with jobs := rest, st := if rest = [] then .done else .active })))) ∧
  (∀ (nx : Nx) (sd : Reg) (sid : BitVec 5) (sc : Scope) (s : State),
     let x := getStream s s.cur.sp sid.toNat
     (sc = .pod → (curH s).podFault = none) →
     (relWaits s sc = true → ∃ t, exec (.sfence nx sd sid sc) s = .next t ∧ Stays s t (.wait (.sfence nx sd sid sc) 0 0 0 0)) ∧
     (relWaits s sc = false →
       (x.st = .free ∨ x.st = .done → ∃ u t, exec (.sfence nx sd sid sc) s = .next t ∧ { u with net := s.net } = s ∧
         u.net.acc = s.net.acc ∧ Ends u t nx (target s sd) (statusWord x) none ∧
         ∀ k, tget (clockOf s (PortId.stream s.cur.sp sid.toNat).num) k 0 ≤ tget (clockOf u (PortId.handler s.cur.sp s.cur.h).num) k 0) ∧
       (x.st ≠ .free → x.st ≠ .done →
         ∃ t, exec (.sfence nx sd sid sc) s = .next t ∧
           Stays (withAccesses s [{ id := s.sched.nextId, grp := s.sched.nextId, port := .stream s.cur.sp sid.toNat, kind := .fence .ar
                                    scope := sc, issued := now s, tries := requested x }]) t (.sfence nx sd sid.toNat s.sched.nextId))) ∧
     ∀ (sp h n id : Nat) (a : Access), (getH s sp h).op = some (.sfence nx sd n id) → findAcc s id = some a →
       ((getStream s sp n).st = .faulted ∨ toRemake s sp n a.tries ∨ (∃ e ∈ aheadOf s a, isRead e.kind = true ∨ writeIn s e a.scope = true) →
         exec (.sfenceTokenComplete sp h) s = .next s) ∧
       ((getStream s sp n).st ≠ .faulted → ¬ toRemake s sp n a.tries →
        (∀ e ∈ aheadOf s a, isRead e.kind = false ∧ writeIn s e a.scope = false) →
       ∃ u t, exec (.sfenceTokenComplete sp h) s = .next t ∧ u.spans = s.spans ∧ u.mem = s.mem ∧
         u.net.acc = s.net.acc.filter (fun b => b.id != id) ∧
         WordEnds u t sp h (getH s sp h).pc nx (reaches s sp h (now s) sd) (statusWord (getStream s sp n)) none))

/-! ## The tree, configuration, clear (R59, R131 to R133, R161 to R167, R244) -/

namespace Sys2Proof.Machine

/-- Of the whole machine only the tree of span sp has changed. -/
def onlyTree (s u : State) (sp : Nat) : Prop :=
  { u with spans := s.spans } = s ∧ ∀ q, { getSpan u q with tree := (getSpan s q).tree } = getSpan s q ∧ (q ≠ sp → getSpan u q = getSpan s q)
/-- A node of rectangle q may join under the innermost open node (R59): 64 nodes, 16 children, depth 8, inside its parent. -/
def joins (t : Tree) (q : Rect) (inner : Bool) : Prop :=
  t.nodes.length < 64 ∧ (inner = true → t.opened.length < 8) ∧
  ∀ i rest, t.opened = i :: rest → rectIn q (nodeAt t i).rect = true ∧ (childrenOf t i).length < 16

end Sys2Proof.Machine

namespace Sys2Proof.Machine

/-- What must hold for a leaf of the running tree to start (R162, R163): its turn, its configuration, idle tiles and ports. -/
structure LeafTurn (s : State) (sp n : Nat) : Prop where
  moves : flows (getSpan s sp) = true
  tree : (getSpan s sp).tree.running = true ∧ (getSpan s sp).tree.opened = [] ∧ (getSpan s sp).tree.stopped = false
  leaf : n < (getSpan s sp).tree.nodes.length ∧ isLeafNode (nodeAt (getSpan s sp).tree n) = true ∧ canStart (getSpan s sp).tree n = true
  config : holdsConfig s (getSpan s sp) (nodeAt (getSpan s sp).tree n) = true
  idle : rectBusy s (getSpan s sp) (nodeAt (getSpan s sp).tree n).rect = false
  writes : ∀ a ∈ s.net.acc, a.port = .handler sp 0 → isWrite a.kind = false
  passes : ∀ y ∈ (getSpan s sp).streams, y.2.pass = false
  shape : selBad s (getSpan s sp) (nodeAt (getSpan s sp).tree n) = false
  apart : (nodeAt (getSpan s sp).tree n).full = true ∨ ∃ ws, treeWords s sp (getSpan s sp).tree = .ok ws ∧
    ∀ j < (getSpan s sp).tree.nodes.length, isLeafNode (nodeAt (getSpan s sp).tree j) = true → concurrent (getSpan s sp).tree n j = true →
    ∀ y ∈ leafPorts s (getSpan s sp) (nodeAt (getSpan s sp).tree j) (nth ws j none),
      y ∉ portsOf s (rectTiles (getSpan s sp) (nodeAt (getSpan s sp).tree n).rect)
/-- The word a sequencer output emits at position q (R244). -/
def sequenceWord (T : Tile) (x : Node) (q k : Nat) : Token :=
  let sel := cfgb T 10 k 10 8
  if shapeMasked x.shape q then .empty
  else .word (BitVec.ofNat 512 ((if sel = 0 then x.runs * shapeCount x.shape + q else if sel ≤ 4 then nth (shapeIdx x.shape q) (sel - 1) 0 else 0)
    % 2 ^ fmtWidth (cfgb T 10 (4 + k) 5 0)))

end Sys2Proof.Machine

/-- R59, R161, R164 to R166: outside a declaration step starts a tree of one leaf and stays in its operation stage; inside one it adds
its leaf and completes; grp.open adds an inner node and opens it; grp.close closes the innermost, and the one that closes the root
starts the tree and stays in its stage. While the leaves of a stopped tree still run, step and grp.open wait: that is the model's choice
(notes/assumptions/118.md, DESIGN CHOICE), for R167 says only that started leaves run on.

R162, R163, R203, R244, R269: LEAF_START begins the phase of a leaf whose turn has come: its tiles run it with their slots at their
start and their links and configuration as they were, and every PORT stream it uses starts a pass, but for one whose port takes
end-of-transfer tokens; SEQUENCER_EMIT puts the word of
the next position, and after the last the drain token, on each enabled output; LEAF_DRAIN_COMPLETE ends the phase, PHASE rises by one,
and the word of a tree that is done completes. In a matrix section whose count has expired the span ends with the drain of its last leaf
(R312; that it does not end before is the model's reading, notes/assumptions/116.md, DEDUCED).

It concludes that exec answers a next state with this effect, on conditions on the state and the operands alone, for grpOpen,
grpClose, step, stepKeep, leafStart, sequencerEmit, leafDrainComplete. -/
def Obligations.TreesDeclareAndRunPhases : Prop :=
  (∀ (nx : Nx) (sa : Reg) (c : BitVec 8) (shp : BitVec 6) (s : State) (q : Rect), s.cur.h = 0 →
     let p := getSpan s s.cur.sp
     let v := operands s sa 0 0
     rectOf p v.1 = some q →
     (∀ (x : Shape) (s1 : State), shp ≠ 63 → shapeOf s shp.toNat = .ok (x, s1) → ∀ keep : Bool, (keep = false → c.toNat < p.ncfg) →
       let i : Instr := if keep then .stepKeep nx sa shp else .step nx sa c shp
       let leaf : Node := { parent := p.tree.opened.head?, kind := .leaf keep (if keep then 0 else c.toNat), rect := q, shp := shp.toNat, shape := x }
       (p.tree.opened = [] → p.tree.running = false →
         ∃ u t, exec i s = .next t ∧ onlyTree s1 u s.cur.sp ∧ (getSpan u s.cur.sp).tree = { nodes := [leaf], running := true } ∧ Stays u t (.tree nx)) ∧
       (p.tree.opened = [] → p.tree.running = true →
         ∃ t, exec i s = .next t ∧ Stays s1 t (.wait i v.1 v.2.1 v.2.2 0)) ∧
       (p.tree.opened ≠ [] → joins p.tree q false →
         ∃ u t, exec i s = .next t ∧ onlyTree s1 u s.cur.sp ∧ (getSpan u s.cur.sp).tree = { p.tree with nodes := p.tree.nodes ++ [leaf] } ∧
           WordEnds u t s.cur.sp s.cur.h s.cur.pc nx 0 0 none)) ∧
     (∀ (k : GKind) (n : Nat) (s1 : State),
       (shp = 63 ∧ n = 1 ∧ s1 = s) ∨ (shp ≠ 63 ∧ ∃ x, shapeOf s shp.toNat = .ok (x, s1) ∧ n = shapeCount x) → (k = .gang → n = 1) →
       (p.tree.opened = [] → p.tree.running = true →
         ∃ t, exec (.grpOpen nx sa k shp) s = .next t ∧ Stays s1 t (.wait (.grpOpen nx sa k shp) v.1 v.2.1 v.2.2 0)) ∧
       ((p.tree.opened = [] → p.tree.running = false) →
       let t0 : Tree := if p.tree.opened = [] then {} else p.tree
       let kind : NKind := match k with | .chain => .chain | .overlap d => .overlap (d.toNat + 1) | .gang => .gang
       joins t0 q true →
       ∃ u t, exec (.grpOpen nx sa k shp) s = .next t ∧ onlyTree s1 u s.cur.sp ∧ WordEnds u t s.cur.sp s.cur.h s.cur.pc nx 0 0 none ∧
         (getSpan u s.cur.sp).tree = { t0 with
           nodes := t0.nodes ++ [{ parent := t0.opened.head?, kind := kind, rect := q, n := n, shp := shp.toNat }]
           opened := t0.nodes.length :: t0.opened })) ∧
     ∀ (i : Nat) (rest : List Nat), p.tree.opened = i :: rest → childrenOf p.tree i ≠ [] →
       ((nodeAt p.tree i).kind = .chain ∨ ∀ a ∈ childrenOf p.tree i, ∀ b ∈ childrenOf p.tree i,
         a = b ∨ rectDisjoint (nodeAt p.tree a).rect (nodeAt p.tree b).rect = true) →
       (rest ≠ [] → ∃ u t, exec (.grpClose nx) s = .next t ∧ onlyTree s u s.cur.sp ∧ (getSpan u s.cur.sp).tree = { p.tree with opened := rest } ∧
         WordEnds u t s.cur.sp s.cur.h s.cur.pc nx 0 0 none) ∧
       (∀ ws, rest = [] → treeWords s s.cur.sp p.tree = .ok ws → portClash s p p.tree ws = false →
         ∃ u t, exec (.grpClose nx) s = .next t ∧ onlyTree (dropReads s s.cur.sp 0) u s.cur.sp ∧ (getSpan u s.cur.sp).tree.running = true ∧
           (getSpan u s.cur.sp).tree.opened = [] ∧ Stays u t (.tree nx))) ∧
  (∀ (s : State) (sp n : Nat),
     let p := getSpan s sp
     let x := nodeAt p.tree n
     let ts := rectTiles p x.rect
     (LeafTurn s sp n →
       ∃ t, exec (.leafStart sp n) s = .next t ∧ (nodeAt (getSpan t sp).tree n).running = true ∧
         (nodeAt (getSpan t sp).tree n).started = x.started + 1 ∧ (nodeAt (getSpan t sp).tree n).completed = x.completed ∧
         (∀ g ∈ ts, (getTile t g).leaf = some (sp, n) ∧ (getTile t g).elems = [] ∧ (getTile t g).bufs = (getTile s g).bufs ∧
           (getTile t g).cfg = (getTile s g).cfg ∧ (getTile t g).x = (getTile s g).x) ∧
         (∀ g, g ∉ ts → getTile t g = getTile s g) ∧
         (∀ y ∈ p.streams, y.2.kind ≤ 1 → y.2.st ≠ .free → 32 * y.2.kind + y.2.port ∈ portsOf s ts →
           (y.2.kind = 0 → tokenPort p y.2.port = false) →
           (getStream t sp y.1).pass = true ∧ (getStream t sp y.1).st = .active ∧ (getStream t sp y.1).next = 0 ∧ (getStream t sp y.1).leaf = n) ∧
         (∀ q j, (q ≠ sp ∨ j ≠ 0) → getH t q j = getH s q j) ∧
         getH t sp 0 = (if x.full then getH s sp 0 else { getH s sp 0 with pods := [], refused := [], reads := [] }) ∧
         (∀ q j k, rdReg t q j k = rdReg s q j k) ∧ t.mem = s.mem) ∧
     (∀ g, (getTile s g).leaf = some (sp, n) → p.live = true → p.frozen = false → p.ended = false → p.saved = false → n < p.tree.nodes.length →
       let T := getTile s g
       let q := tget x.seq g 0
       let on (k : Nat) : Prop := k < 4 ∧ cfgb T 10 k 11 11 = 1
       q ≤ shapeCount x.shape → (∀ k, on k → canEmit s sp g (0x38 + k) = true) →
       ∃ t, exec (.sequencerEmit g) s = .next t ∧ tget (nodeAt (getSpan t sp).tree n).seq g 0 = q + 1 ∧ t.mem = s.mem ∧
         (∀ k c, on k → c ∈ consumerIds → srcOf T c = 0x38 + k → c ≠ 25 → c ≠ 27 → (∃ m, consFmt T c = some (cfgb T 10 (4 + k) 5 0, m)) →
           tget (getTile t g).bufs c [] = tget T.bufs c [] ++ [if q = shapeCount x.shape then .drain else sequenceWord T x q k]) ∧
         (∀ c, c ∈ consumerIds → (∀ k, on k → srcOf T c ≠ 0x38 + k) → tget (getTile t g).bufs c [] = tget T.bufs c []) ∧
         (∀ u, u ≠ g → getTile t u = getTile s u)) ∧
     (p.live = true → p.frozen = false → p.ended = false → p.saved = false → x.running = true → isLeafNode x = true →
       (∀ g ∈ ts, tileDrained s x g = true) →
       (∃ t, exec (.leafDrainComplete sp n) s = .next t ∧ (getSpan t sp).phase = p.phase + 1 ∧
         (∀ g ∈ ts, (getTile t g).leaf = none ∧ (getTile t g).bufs = (getTile s g).bufs ∧ (getTile t g).cfg = (getTile s g).cfg) ∧
         ((p.isMatrix = true → p.sys.emitted < p.tcnt) → ∀ g, g ∉ ts → getTile t g = getTile s g) ∧
         (p.isMatrix = true → p.tcnt ≤ p.sys.emitted → (∀ g, g ∉ ts → (getTile s g).leaf = none) → (getSpan t sp).ended = true) ∧
         (∀ q j k, rdReg t q j k = rdReg s q j k) ∧ t.mem = s.mem) ∧
       ∀ nx, (p.isMatrix = true → p.sys.emitted < p.tcnt) → n = 0 → p.tree.nodes = [x] → p.tree.running = true → p.tree.stopped = false → p.quiesced = false → (getH s sp 0).op = some (.tree nx) →
         (∀ a ∈ s.net.acc, portSpan s a.port = sp → a.phase ≠ none → isWrite a.kind = false) → (∀ y ∈ p.streams, y.2.pass = false) →
         ∃ u t, exec (.leafDrainComplete sp n) s = .next t ∧ WordEnds u t sp 0 (getH s sp 0).pc nx 0 0 none ∧ (getSpan t sp).tree = {} ∧
           ∀ q j k, rdReg u q j k = rdReg s q j k))

/-- R69, R131 to R133, R122: cfg.load and cfg.part read their descriptor and stay in their stage until CONFIG_COMMIT commits the accepted stream to every tile of the
rectangle as one step; clear stays until CLEAR_COMPLETE has cleared the classes it names in every tile of the rectangle: .state its links,
full bits and couplers, with the coupler fields that cpl.set has written (R193), .acc its accumulators (and those of the whole systolic
rectangle it touches), .mem its bytes, .cfg its configuration. That .mem gives zero in every byte at CLEAR_COMPLETE is the model's reading
(notes/assumptions/97.md, DESIGN CHOICE).

It concludes that exec answers a next state with this effect, on conditions on the state and the operands alone, for cfgLoad,
cfgPart, clear, clearComplete, configCommit. -/
def Obligations.ConfigurationAndClearWords : Prop :=
  ∀ (nx : Nx) (s : State),
    (∀ (sa : Reg) (c : BitVec 8) (full : Bool) (ptr : Word) (len : Nat),
      let v := operands s sa 0 0
      c.toNat < (curSpan s).ncfg → rectOf (curSpan s) v.1 ≠ none → readDesc s (curSpan s) (curPort s) c.toNat = .ok (ptr, len) →
      ∃ t, exec (if full then .cfgLoad nx sa c else .cfgPart nx sa c) s = .next t ∧ Stays s t (.cfg nx full v.1 c.toNat ptr len)) ∧
    (∀ (sp h : Nat) (full : Bool) (rect : Word) (c : Nat) (q : Rect) (sh : Shadow) (ptr : Word) (len : Nat) (ws : List Nat),
      let p := getSpan s sp
      p.live = true → p.ended = false → p.saved = false → p.starting = false → (getH s sp h).op = some (.cfg nx full rect c ptr len) →
      rectOf p rect = some q → rectBusy s p q = false → readCmds s p (.handler sp h) ptr len = .ok ws →
      loadWords s sp q c (if full then .full else .part) ws = .ok (sh, ws) →
      ∃ u t, exec (.configCommit sp h) s = .next t ∧ WordEnds u t sp h (getH s sp h).pc nx 0 0 none ∧
        (getSpan u sp).cfgno = BitVec.ofNat 24 (seqNum ws) ∧
        ((∀ i < rectCount q, ∀ j < rectCount q, rectTile p q i = rectTile p q j → i = j) → ∀ i < rectCount q, ∀ e < 31, ∀ f < fieldCount e,
          let g := rectTile p q i
          let full := isFullStream ws
          (full = true ∨ isRoute e f = false) →
          tget (getTile u g).cfg (e * 32 + f) 0 =
            match (ws.filter fun w => cwTile w == i && cwElem w == e && cwField w == f).getLast? with
            | some w => BitVec.ofNat 12 (w % 2 ^ 12)
            | none => if full then 0 else tget (getTile s g).cfg (e * 32 + f) 0) ∧
        (∀ i < rectCount q,
          let g := rectTile p q i
          (getTile u g).last = some c ∧ (getTile u g).bufs = (getTile s g).bufs ∧ (getTile u g).x = (getTile s g).x) ∧
        (∀ g, g ∉ rectTiles p q → getTile u g = getTile s g) ∧ (∀ a j k, rdReg u a j k = rdReg s a j k) ∧ u.mem = s.mem) ∧
    (∀ (sa : Reg) (cl : BitVec 4) (q : Rect), rectOf (curSpan s) (reg s sa) = some q → (cl.getLsbD 3 = true → reg s sa = 0) →
      rectBusy s (curSpan s) q = false →
      ∃ t, exec (.clear nx sa cl) s = .next t ∧ Stays s t (.clear nx (reg s sa) cl (now s + (if cl.getLsbD 0 then 32 else 0) +
        (if cl.getLsbD 1 then 2048 else 0) + (if cl.getLsbD 2 then 4096 else 0) + (if cl.getLsbD 3 then 16 else 0)))) ∧
    ∀ (sp h : Nat) (d : Word) (cl : BitVec 4) (due : Nat) (q : Rect),
      let p := getSpan s sp
      (getH s sp h).op = some (.clear nx d cl due) → rectOf p d = some q → due ≠ 0 →
      (now s < due → exec (.clearComplete sp h) s = .next s) ∧
      (due ≤ now s → rectAccess s sp q = false →
        ∃ u t, exec (.clearComplete sp h) s = .next t ∧ WordEnds u t sp h (getH s sp h).pc nx 0 0 none ∧
          (∀ g ∈ rectTiles p q,
            (cl.getLsbD 0 = true → (getTile t g).bufs = [] ∧ (getTile t g).full = [] ∧ (getTile t g).cpl = [] ∧ (getTile t g).wasCfg = []) ∧
            (cl.getLsbD 1 = true → (getTile t g).acc = []) ∧
            (cl.getLsbD 2 = true → ∀ i < 2 ^ 18, byteAt t (2 ^ 48 + g * 2 ^ 18 + i) = 0) ∧
            (cl.getLsbD 3 = true → (getTile t g).cfg = []) ∧
            (cl.getLsbD 3 = false → (getTile t g).cfg = if cl.getLsbD 0 then
              (getTile s g).wasCfg.foldl (fun c x => tset c x.1 x.2 0) (getTile s g).cfg else (getTile s g).cfg)) ∧
          (∀ g, g ∉ rectTiles p q → getTile t g =
            if cl.getLsbD 1 && p.sys.on && (rectTiles p p.sys.rect).contains g && (rectTiles p q).any (rectTiles p p.sys.rect).contains then
              { getTile s g with acc := [] } else getTile s g) ∧
          (cl.getLsbD 2 = false → t.mem = s.mem) ∧
          (∀ a, (∀ g ∈ rectTiles p q, a < 2 ^ 48 + g * 2 ^ 18 ∨ 2 ^ 48 + g * 2 ^ 18 + 2 ^ 18 ≤ a) → byteAt t a = byteAt s a) ∧
          ∀ a j k, rdReg t a j k = rdReg s a j k)

/-- R140, R406 to R408: PROGRAM_BUFFER_FILL puts the line into the buffer and lets every handler that waits for it go on; TRAP_DELIVER
delivers the next recorded trap, a fabric fault at the word where handler 0 stands: the five trap CSRs are written, and the trap handler is
unmasked and starts at ENTRY, at once when it is STOPPED or the trap is its own, and else when it stops; nothing else changes. That the
trap CSRs and MASK are written while the trap handler still runs, and the word that TPC names for a fabric fault, are the model's choice
(notes/assumptions/86.md, DEDUCED).

It concludes that exec answers a next state with this effect, on conditions on the state and the operands alone, for
programBufferFill, trapDeliver. -/
def Obligations.LinesArriveAndTrapsAreDelivered : Prop :=
  ∀ (s : State) (sp : Nat),
    let p := getSpan s sp
    (∀ (line : Nat) (ws : List Word) (h0 : Nat),
      let wants (h : Nat) : Bool := (getH s sp h).miss && ((getH s sp h).pc.toNat / 8 == line)
      (List.range 16).find? wants = some h0 → fetchLine s sp h0 line = .ok ws → p.pbuf.length < 1024 →
      ∃ t, exec (.programBufferFill sp line) s = .next t ∧ tfind (getSpan t sp).pbuf line = some ws ∧
        (∀ m, m ≠ line → tfind (getSpan t sp).pbuf m = tfind p.pbuf m) ∧
        (∀ h < 16, getH t sp h = if wants h then { getH s sp h with miss := false, st := .runnable, fresh := true, pods := [], refused := [], reads := [] } else getH s sp h) ∧
        (∀ q j k, rdReg t q j k = rdReg s q j k) ∧ t.mem = s.mem ∧ t.net = s.net) ∧
    ∀ tr : Trap, p.trap = none → nextTrap p = some tr → p.ten = true → (∀ h, (getH s sp h).podFault = none) →
      (tr.agent ≠ 0 → p.thnd = 0 → inTree p = false) →
      let at_ : BitVec 24 × Nat := if tr.agent = 0 then (tr.pc, tr.h) else ((getH s sp 0).pc, 0)
      ∃ t, exec (.trapDeliver sp) s = .next t ∧
        (let csr (n : Nat) : Word := tget (getSpan t sp).csr n 0
         csr 0x20 = BitVec.ofNat 64 (tr.cause.code + tr.sw.toNat * 2 ^ 16 + tr.slot.toNat * 2 ^ 29 + tr.loc.toNat * 2 ^ 32 +
           tr.agent.toNat * 2 ^ 44 + (if tr.agent = 0 then 0 else 2 ^ 63)) ∧
         csr 0x21 = tr.tval ∧ csr 0x22 = BitVec.ofNat 64 at_.1.toNat ∧ csr 0x23 = BitVec.ofNat 64 at_.2 ∧ csr 0x24 = tr.cbmp ∧
         ∀ n, n < 0x20 ∨ 0x24 < n → csr n = tget p.csr n 0) ∧
        (getSpan t sp).trap = some { tr with pc := at_.1, h := at_.2 } ∧
        (let own : Prop := tr.agent = 0 ∧ tr.h = p.thnd
         let starts : Handler :=
           { getH s sp p.thnd with mask := false, st := .runnable, pc := (getH s sp p.thnd).entry, rstack := [], op := none, miss := false, fresh := true }
         (own → getH t sp p.thnd = { starts with held := none }) ∧
         (¬ own → getH t sp p.thnd = if (getH s sp p.thnd).st = .stopped then starts
          else { getH s sp p.thnd with mask := false, trapWait := true })) ∧
        (∀ q j, (q ≠ sp ∨ j ≠ p.thnd) → getH t q j = getH s q j) ∧ (∀ q j k, rdReg t q j k = rdReg s q j k) ∧
        t.mem = s.mem ∧ t.tiles = s.tiles ∧ t.net = s.net

/-! ## The matrix array (R287 to R318) -/

namespace Sys2Proof.Machine

/-- Of the whole machine only the systolic state of span sp has changed. -/
def onlySys (s u : State) (sp : Nat) : Prop :=
  { u with spans := s.spans } = s ∧ ∀ q, { getSpan u q with sys := (getSpan s q).sys } = getSpan s q ∧ (q ≠ sp → getSpan u q = getSpan s q)
/-- A word that changes the systolic state to y and ends with v in its SD, unless a later word's value there remains (R139). -/
def setsSys (i : Instr) (s : State) (nx : Nx) (sd : Reg) (v : Word) (y : Sys) : Prop :=
  ∃ u t, exec i s = .next t ∧ onlySys s u s.cur.sp ∧ (getSpan u s.cur.sp).sys = y ∧ WordEnds u t s.cur.sp s.cur.h s.cur.pc nx (target s sd) v none
/-- The slot's contents are zero in every tile of the systolic rectangle, its other tiles and slots and every byte are as before. -/
def slotZeroed (s u : State) (p : Span) (n : Nat) : Prop :=
  (∀ g ∈ rectTiles p p.sys.rect, ∀ i < 256, ∀ j < 64, tget (getTile u g).acc (accKey n i j) 0 = 0) ∧
  (∀ g, g ∉ rectTiles p p.sys.rect → getTile u g = getTile s g) ∧
  (∀ g, ∀ m, m ≠ n → ∀ i < 256, ∀ j < 64, tget (getTile u g).acc (accKey m i j) 0 = tget (getTile s g).acc (accKey m i j) 0) ∧ u.mem = s.mem

end Sys2Proof.Machine

/-- R289, R301, R302, R304, R305, R314 to R318: sysmode.on checks its rectangle and sets up an empty ring; sysmode.off leaves the mode once
nothing is queued and no slot is live, and gives the mode word; wpre, mma and epi each put one command behind the others, at most 8 for
the array and 4 for the epilogue, and wait while there is no room; acc.shape sets the shape of an EMPTY slot and acc.drop empties
one.

It concludes that exec answers a next state with this effect, on conditions on the state and the operands alone, for sysmodeOn,
sysmodeOff, wpre, mma, epi, accShape, accDrop. -/
def Obligations.MatrixWordsQueueCommands : Prop :=
  ∀ (nx : Nx) (s : State),
    let p := getSpan s s.cur.sp
    let y := p.sys
    let T := sysTile s p
    let cs := wordCsrs s
    (∀ (sd sa sb : Reg) (auto : Bool) (nt1 : BitVec 3) (kpl : BitVec 12) (q : Rect),
      let nt := nt1.toNat + 1
      let T0 := getTile s (rectTile p q 0)
      let o := operands s sa sb 0
      y.on = false → rectOf p o.1 = some q → rectBusy s p q = false → sysBad s p q nt = false →
      (auto = true → mPmode T0 = 0 ∧ mEmom T0 = false ∧ (∀ g ∈ rectTiles p q, linkFed (getTile s g) = false) ∧ voffTrap T0 o.2.1 = none) →
      (p.isMatrix = true → p.tcnt % max 1 (rectCount q / nt) = 0) →
      ∃ u t, exec (.sysmodeOn nx sd sa sb auto nt1 kpl) s = .next t ∧ WordEnds u t s.cur.sp s.cur.h s.cur.pc nx (target s sd) 0 none ∧
        (let z := (getSpan u s.cur.sp).sys
         z.on = true ∧ z.auto = auto ∧ z.nt = nt ∧ z.kpl = kpl.toNat ∧ z.rect = q ∧ z.head = 0 ∧ z.tail = 0 ∧ z.arr = [] ∧ z.epi = [] ∧ z.wpres = 0 ∧
         z.slots.length = mRing T0 ∧ ∀ i < mRing T0, ∃ a, z.slots[i]? = some a ∧ a.m = min 256 (512 / mRing T0) ∧ a.n = 64 * nt ∧
           a.st = if mEmom T0 = true ∧ mRing T0 - 2 ≤ i then 3 else 0) ∧
        (∀ g ∈ rectTiles p q, (getTile u g).acc = [] ∧ (getTile u g).aptr = 0 ∧ (getTile u g).bptr = 0) ∧
        (∀ g, g ∉ rectTiles p q → getTile u g = getTile s g) ∧ (∀ a j k, rdReg u a j k = rdReg s a j k) ∧ u.mem = s.mem) ∧
    (∀ sd : Reg,
      (y.on = false → ∃ t, exec (.sysmodeOff nx sd) s = .next t ∧ Ends s t nx (target s sd) 0 none) ∧
      (y.on = true → y.auto = false → y.arr = [] → y.epi = [] → (∀ a ∈ y.slots, a.st ≠ 1 ∧ a.st ≠ 2) →
        setsSys (.sysmodeOff nx sd) s nx sd (BitVec.ofNat 64 (2 ^ 8 + (y.nt - 1))) { emitted := y.emitted, epiQ := y.epiQ, epiD := y.epiD }) ∧
      (y.on = true → y.auto = false → y.arr ≠ [] → ∃ t, exec (.sysmodeOff nx sd) s = .next t ∧ Stays s t (.wait (.sysmodeOff nx sd) 0 0 0 0))) ∧
    (∀ (sa sb : Reg) (keep : Bool) (mode : WpreMode),
      let o := operands s sa sb 0
      let m := match mode with | .cfg => mPmode T | .off => 0 | .pert => 1 | .delta => 2 | .zonly => 3
      y.on = true → y.auto = false → (m = 0 ∨ isPair (mBfmt T) = true) → (keep = true → ∀ x ∈ sysTiles p, linkFed (getTile s x.2) = false) →
      (y.arr.length < 8 →
        setsSys (.wpre nx sa sb keep mode) s nx 0 0 { y with
          wpres := y.wpres + 1
          arr := y.arr ++ [.wpre (y.wpres % 2) m keep (o.1.toNat % 2 ^ 48) (o.2.1.toNat / 2 ^ 32) (o.2.1.toNat % 2 ^ 32) cs 0 0 []] }) ∧
      (8 ≤ y.arr.length →
        ∃ t, exec (.wpre nx sa sb keep mode) s = .next t ∧ Stays s t (.wait (.wpre nx sa sb keep mode) o.1 o.2.1 o.2.2 (packCsrs cs)))) ∧
    (∀ (last keepa : Bool) (klen1 : BitVec 7),
      let r := ringAfter T y
      let x := slotAt r.slots r.head
      y.on = true → y.auto = false → y.wpres ≠ 0 → klen1.toNat + 1 ≤ planeK T → (x.st = 1 → x.int = accInt T) →
      (y.arr.length < 8 →
        setsSys (.mma nx last keepa klen1) s nx 0 0 { y with arr := y.arr ++ [.mma ((y.wpres - 1) % 2) last keepa (klen1.toNat + 1) 0 0 0] }) ∧
      (8 ≤ y.arr.length → ∃ t, exec (.mma nx last keepa klen1) s = .next t ∧ Stays s t (.wait (.mma nx last keepa klen1) 0 0 0 0))) ∧
    (∀ (sa : Reg) (e1 m : BitVec 6),
      let o := operands s sa 0 0
      let y1 := if s.cur.latch.isSome then y else { y with
        momM := if mEmom T = true ∧ m ≠ e1 then m.toNat + 1 else 0, momE := e1.toNat }
      y.on = true → y.auto = false → voffTrap T o.1 = none →
      (s.cur.latch = none → if mEmom T = true then m.toNat = y.momM ∧ (y.momM ≠ 0 → e1.toNat = y.momE) else m = 0 ∧ e1 = 0) →
      (y.epi.length < 4 →
        setsSys (.epi nx sa e1 m) s nx 0 0 { y1 with
          epiQ := y.epiQ + 1, epi := y.epi ++ [{ voff := o.1.toNat, m := m.toNat, e1 := e1.toNat, csrs := cs }] }) ∧
      (4 ≤ y.epi.length →
        ∃ u t, exec (.epi nx sa e1 m) s = .next t ∧ onlySys s u s.cur.sp ∧ (getSpan u s.cur.sp).sys = y1 ∧
          Stays u t (.wait (.epi nx sa e1 m) o.1 o.2.1 o.2.2 (packCsrs cs)))) ∧
    (∀ (sd sa : Reg) (slot : BitVec 3),
      let n := slot.toNat
      let x := slotAt y.slots n
      let v := (operands s sa 0 0).1
      let m := v.toNat % 2 ^ 8 + 1
      let c := v.toNat / 2 ^ 8 + 1
      y.on = true → n < mRing T → x.st = 0 → m ≤ mmaxOf (mRing T) → c ≤ 64 * y.nt → c ≤ 512 → n ∉ (ringAfter T y).used →
      setsSys (.accShape nx sd sa slot) s nx sd (BitVec.ofNat 64 ((x.m - 1) % 256 + (x.n - 1) % 512 * 256))
        { y with slots := y.slots.set n { x with m := m, n := c } }) ∧
    ∀ (sd : Reg) (slot : BitVec 3),
      let n := slot.toNat
      let x := slotAt y.slots n
      (y.on = true → n < mRing T → x.st ≠ 3 → (x.st = 2 → n = y.tail) → n ∉ (ringAfter T y).used →
        ∃ u t, exec (.accDrop nx sd false slot) s = .next t ∧ WordEnds u t s.cur.sp s.cur.h s.cur.pc nx (target s sd) (x.st.zeroExtend 64) none ∧
          slotZeroed s u p n ∧ (getSpan u s.cur.sp).sys = { y with
            slots := y.slots.set n { x with st := 0, int := false }
            tail := if x.st = 2 then (y.tail + 1) % max 1 (ringProper T) else y.tail }) ∧
      (y.on = true → (ringAfter T y).used = [] →
        ∃ u t, exec (.accDrop nx sd true slot) s = .next t ∧
          WordEnds u t s.cur.sp s.cur.h s.cur.pc nx (target s sd) (BitVec.ofNat 64 (y.slots.countP fun a => a.st == 1 || a.st == 2)) none ∧
          (∀ a ∈ (getSpan u s.cur.sp).sys.slots, a.st = 0 ∨ a.st = 3) ∧ (getSpan u s.cur.sp).sys.head = 0 ∧ (getSpan u s.cur.sp).sys.tail = 0 ∧ u.mem = s.mem)

/-- R305, R309, R312: the commands of the array and of the epilogue run in order: a preload starts once no command before it uses its
plane; a product starts on the head slot once every product before it has entered its last row and the slot is not FULL; its last row
advances the head, its completion makes the slot FULL; an epilogue command starts on a FULL tail slot while the count of a matrix section
stands below TCNT; when every tile has emitted its words the slot is EMPTY and zero, the tail advances and the result tile counts. With
the tile that completes the count the span ends and closes what remains (R142). The model's choice (log 116): a leaf still running lets
the span end only after it; until then the handlers stand stopped and no command is queued.

It concludes that exec answers a next state with this effect, on conditions on the state and the operands alone, for wpreStart,
mmaStart, mmaLastRow, mmaComplete, epiStart, epiEnd. -/
def Obligations.MatrixCommandsRunInOrder : Prop :=
  ∀ (s : State) (sp : Nat),
    let p := getSpan s sp
    let y := p.sys
    let T := sysTile s p
    let becomes (i : Instr) (z : Sys) : Prop := ∃ t, exec i s = .next t ∧ onlySys s t sp ∧ (getSpan t sp).sys = z
    tokensMove p = true → y.on = true → y.auto = false →
    (∀ pre post pl m k ix g l cs got b, y.arr = pre ++ .wpre pl m k ix g l cs 0 got b :: post →
      (∀ c ∈ pre, isWpre c = false ∧ cmdPlane c ≠ pl) →
      becomes (.wpreStart sp) { y with arr := pre ++ .wpre pl m k ix g l cs 1 got b :: post }) ∧
    (∀ pre post pl last keepa klen sl got, y.arr = pre ++ .mma pl last keepa klen sl 0 got :: post →
      (∀ c ∈ pre, ∃ a b d e f g, c = .mma a b d e f 2 g ∧ ¬ (b = true ∧ f = y.head)) → (slotAt y.slots y.head).st ≠ 2 →
      let x := slotAt y.slots y.head
      becomes (.mmaStart sp) { y with
        slots := y.slots.set y.head (if x.st = 1 then x else { x with st := 1, int := accInt T })
        arr := pre ++ .mma pl last keepa klen y.head 1 0 :: post }) ∧
    (∀ pre post pl last keepa klen sl got, y.arr = pre ++ .mma pl last keepa klen sl 1 got :: post →
      (∀ c ∈ pre, mmaPending c = false) → ((slotAt y.slots sl).m + 15) / 16 ≤ got →
      becomes (.mmaLastRow sp) { y with
        arr := pre ++ .mma pl last keepa klen sl 2 got :: post
        head := if last then (y.head + 1) % max 1 (ringProper T) else y.head }) ∧
    (∀ pre post pl last keepa klen sl got, y.arr = pre ++ .mma pl last keepa klen sl 2 got :: post → (∀ c ∈ pre, isWpre c = true) →
      becomes (.mmaComplete sp) { y with
        arr := pre ++ post, slots := if last then y.slots.set sl { slotAt y.slots sl with st := 2 } else y.slots }) ∧
    (∀ c rest, y.epi = c :: rest → c.run = false → (slotAt y.slots y.tail).st = 2 → mEmom T = false → (∀ g ∈ rectTiles p y.rect, (getTile s g).leaf = none) →
      (p.isMatrix = true → y.emitted < p.tcnt) → becomes (.epiStart sp) { y with epi := { c with run := true, slot := y.tail } :: rest }) ∧
    ∀ c rest, y.epi = c :: rest → c.run = true →
      (∀ x ∈ sysTiles p, epiWords T (slotAt y.slots c.slot) (posOfIx y x.1) c ≤ tget c.pos x.2 0) →
      let z : Sys := { y with
        epi := rest, slots := y.slots.set c.slot { slotAt y.slots c.slot with st := 0, int := false }
        tail := (y.tail + 1) % max 1 (ringProper T), epiD := y.epiD + 1
        emitted := if mEmom T = true ∧ c.m ≠ c.e1 then y.emitted else y.emitted + rectCount y.rect / max 1 y.nt }
      let running := ∃ g ∈ rectTiles p (wholeRect p), (getTile s g).leaf ≠ none
      ((p.isMatrix = true → z.emitted < p.tcnt) → ∃ t, exec (.epiEnd sp) s = .next t ∧ slotZeroed s t p c.slot ∧ (getSpan t sp).sys = z) ∧
      (p.isMatrix = true → p.tcnt ≤ z.emitted → ∃ t, exec (.epiEnd sp) s = .next t ∧
        (∀ x ∈ (getSpan t sp).hs, x.2.st = .stopped ∧ x.2.op = none) ∧
        (running → slotZeroed s t p c.slot ∧ (getSpan t sp).ended = false ∧ (getSpan t sp).tree.stopped = true ∧
          (getSpan t sp).sys = { z with arr := [], epi := [], epiD := y.epiQ }) ∧
        (¬ running → (getSpan t sp).ended = true ∧ (getSpan t sp).tree = {} ∧ (getSpan t sp).sys = { emitted := z.emitted }))

/-- R41, R291 to R293, R303, R307, R308, R316, on a systolic region of one tile: WPRE_COMPLETE delivers the plane's codes from its full
entries and empties them unless the word keeps them; each slab (one for each MMA_START, in all tiles at once: the model's choice of grain, log
27) of an integer product, from lines that are not poisoned, adds, with saturation to 32 bits, the products of
its rows with the plane's columns and leaves every other element; EPILOGUE_EMIT puts the encoded lanes of the next columns on the
epilogue output.

It concludes that exec answers a next state with this effect, on conditions on the state and the operands alone, for wpreComplete,
mmaStart, epilogueEmit. -/
def Obligations.MatrixProductsAccumulate : Prop :=
  ∀ (s : State) (sp g : Nat),
    let p := getSpan s sp
    let y := p.sys
    let T := getTile s g
    tokensMove p = true → y.on = true → y.auto = false → y.nt = 1 → y.rect.w = 1 → y.rect.h = 1 → rectTile p y.rect 0 = g → g < 4096 →
    p.det = false → (getSpan s (portSpan s (.matrix g))).det = false → T.leaf = none →
    (∀ pre post pl m keep ix gs l cs got b, y.arr = pre ++ .wpre pl m keep ix gs l cs 1 got b :: post → (∀ c ∈ pre, isWpre c = false) →
      let e := T.bptr
      let bf := mBbuf T
      let n := 8 * planeK T * fmtWidth (mBfmt T)
      let at_ := 2 ^ 48 + g * 2 ^ 18 + bufBase T bf + e * bufEsz T bf
      linkFed T = false → isMatrixFmt (mBfmt T) = true → isPair (mBfmt T) = false → mBen T = false → mBfmt T ≠ 0x2A → planeEntries T = 1 → e < bufDepth T bf →
      isFull T bf e = true → isPoison s at_ n = false → planeBytes T ≤ bufEsz T bf →
      ∃ t, exec (.wpreComplete sp) s = .next t ∧ t.mem = s.mem ∧ (getSpan t sp).sys.arr = pre ++ post ∧
        isFull (getTile t g) bf e = keep ∧
        ∀ k < planeK T, ∀ j < 64, (tget (getSpan t sp).sys.planes (planeKey pl g k j) 0).toNat =
          elemAt ((List.range n).map fun i => byteAt s (at_ + i)) (fmtWidth (mBfmt T)) (64 * k + j)) ∧
    (∀ pre post pl last keepa klen sl got, y.arr = pre ++ .mma pl last keepa klen sl 1 got :: post → (∀ c ∈ pre, mmaPending c = false) →
      let x := slotAt y.slots sl
      let e := (T.aptr + if keepa then got else 0) % max 1 (bufDepth T (mAbuf T))
      let at_ := 2 ^ 48 + g * 2 ^ 18 + bufBase T (mAbuf T) + e * bufEsz T (mAbuf T)
      let bs := (List.range (slabBytes T)).map fun i => byteAt s (at_ + i)
      let a (r k : Nat) : Int := intOf (mAfmt T) (elemAt bs (fmtWidth (mAfmt T)) (planeK T * r + k))
      let b (k j : Nat) : Int := intOf (delB T) (tget y.planes (planeKey pl g k j) 0).toNat
      let sum (r j : Nat) : Int := ((List.range klen).map fun k => a r k * b k j).sum
      let old (i j : Nat) : Int := (tget T.acc (accKey sl i j) 0).toInt
      accPoisoned s (mRing T) g sl ((List.range 16).map (16 * got + ·) |>.filter (· < x.m)) 0 (min 64 x.n) = false →
      accInt T = true → 16 * got < x.m → x.m ≤ 256 → isFull T (mAbuf T) e = true → isPoison s at_ (slabBytes T) = false →
      ∃ t, exec (.mmaStart sp) s = .next t ∧ t.mem = s.mem ∧ (getSpan t sp).sys.arr = pre ++ .mma pl last keepa klen sl 1 (got + 1) :: post ∧
        isFull (getTile t g) (mAbuf T) e = keepa ∧
        ∀ i < x.m, ∀ j < 64, (tget (getTile t g).acc (accKey sl i j) 0).toInt =
          if 16 * got ≤ i ∧ i < 16 * got + 16 ∧ j < x.n then
            max (-(2 ^ 31 : Int)) (min (2 ^ 31 - 1 : Int) (old i j + sum (i - 16 * got) j))
          else old i j) ∧
    ∀ c rest rm L, y.epi = c :: rest → c.run = true → mEmom T = false → mEsc T = false → mEbias T = false → mAct T = 0 → L = epiLanes (mOfmt T) →
      Rm.of (mErm T) = some rm → rm ≠ .sr → (slotAt y.slots c.slot).int = false → (slotAt y.slots c.slot).n ≤ 64 →
      let x := slotAt y.slots c.slot
      let n := tget c.pos g 0
      let per := (x.n + L - 1) / L
      accPoisoned s (mRing T) g c.slot [n / per] (n % per * L) (min L (x.n - n % per * L)) = false →
      n < per * x.m → canEmit s sp g 0x40 = true → (p.isMatrix = true → y.emitted < p.tcnt) →
      let lane (l : Nat) : Nat := if x.n ≤ n % per * L + l then 0
        else enc (mOfmt T) rm false 0 (d32 (tget T.acc (accKey c.slot (n / per) (n % per * L + l)) 0).toNat)
      ∃ t, exec (.epilogueEmit sp g) s = .next t ∧ t.mem = s.mem ∧
        (∃ c', (getSpan t sp).sys.epi = c' :: rest ∧ tget c'.pos g 0 = n + 1) ∧
        ∀ k ∈ consumerIds, srcOf T k = 0x40 → k ≠ 25 → k ≠ 27 → consFmt T k = some (mOfmt T, L) →
          tget (getTile t g).bufs k [] = tget T.bufs k [] ++ [.word (pack (fmtWidth (mOfmt T)) ((List.range L).map lane))]

/-! ## Perturbation and noise words, couplers, digests (R179 to R195, R319 to R321, R397 to R400) -/

/-- R181, R183: COUPLER_UPDATE, once TIMER reaches the update period, moves the integrator by KI times the error of the occupancy at the
cycle's start, clamped to IMAX and held while the link is full or empty against the error's sign, sets u to (KP e + I) / 256 rounded
down and counts the update, once in a cycle; the consumer's contribution is u, the producer's is -u, at once in the same tile, else on
its way there; CONTRIBUTION_ARRIVAL gives the producer the oldest one under way.

It concludes that exec answers a next state with this effect, on conditions on the state and the operands alone, for
couplerUpdate, contributionArrival. -/
def Obligations.CouplersIntegrateOccupancy : Prop :=
  ∀ (s : State) (t c : Nat),
    let T := getTile s t
    let x := cplCfg T c
    let k := tget T.cpl c {}
    let only (s' : State) : Prop := (∀ u, u ≠ t → getTile s' u = getTile s u) ∧ { s' with tiles := s.tiles } = s ∧
      { getTile s' t with cpl := T.cpl } = T ∧ ∀ d, d ≠ c → tget (getTile s' t).cpl d {} = tget T.cpl d {}
    (cplRuns s t c = true →
      let e : Int := (startOcc s t c : Int) - (x.set : Int)
      let held := (startOcc s t c = cplSlots T c ∧ 0 < e) ∨ (startOcc s t c = 0 ∧ e < 0)
      let i : Int := if held then k.integ else max (-(x.imax : Int)) (min (x.imax : Int) (k.integ + (x.ki : Int) * e))
      let u : Int := ((x.kp : Int) * e + i) / 256
      (k.upd = true → exec (.couplerUpdate t c) s = .next s) ∧
      (k.upd = false → 2 ^ uperOf T c ≤ k.timer + 1 →
        ∃ s', exec (.couplerUpdate t c) s = .next s' ∧ only s' ∧
          (let k' := tget (getTile s' t).cpl c {}
           k'.integ = i ∧ k'.u = u ∧ k'.cons = u ∧ k'.nupd = k.nupd + 1 ∧ k'.timer = 0 ∧ k'.upd = true ∧
           ∀ sp n g e', T.leaf = some (sp, n) → producerOf s (getSpan s sp) t c = some (g, e') →
             if g = t then k'.prod = -u ∧ k'.flight = k.flight else k'.prod = k.prod ∧ k'.flight = k.flight ++ [(now s, -u)])) ∧
      (k.timer + 1 < 2 ^ uperOf T c → exec (.couplerUpdate t c) s = .next s)) ∧
    (∀ n v rest, k.flight = (n, v) :: rest →
      ∃ s', exec (.contributionArrival t c) s = .next s' ∧ only s' ∧ tget (getTile s' t).cpl c {} = { k with prod := v, flight := rest })

/-- R319 to R321: pseed, pmemb, pmemb.inc and ptau give the old value of their CSR and set it; rnd gives a word, half or Gaussian value of
LH128 under PSEED0 to PSEED3, PMEMB, PLAYER and the index s[SA][47:0] with counter word 4, and changes nothing else.

R191 to R195, R397 to R400: cpl.set writes a parameter of a coupler that is on, within its range and the checks of its link's parties,
and gives the old value; cpl.get reads an item as it is after the updates due in this cycle, of the coupler and of every coupler that
touches the slot whose tickets it counts, and changes nothing; dig.on and dig.read wait for the span's writes to GLOBAL and BASE, job elements among them,
then switch the digest on, or give the half of the digest asked for.

It concludes that exec answers a next state with this effect, on conditions on the state and the operands alone, for pseed, pmemb,
pmembInc, ptau, rnd, cplSet, cplGet, digOn, digRead. -/
def Obligations.NoiseCouplerAndDigestWordsAct : Prop :=
  (∀ (nx : Nx) (sd sa sb : Reg) (s : State),
     let csr (n : Nat) : Nat := (csrNow s n).toNat
     let sets (d : Reg) (i : Instr) (old : Word) (new : Nat → Option Nat) : Prop := ∃ u t, exec i s = .next t ∧
       WordEnds u t s.cur.sp s.cur.h s.cur.pc nx d old none ∧ u.cur = s.cur ∧ { u with spans := s.spans } = s ∧
       (∀ q j k, rdReg u q j k = rdReg s q j k) ∧
       ∀ n, csrNow u n = match new n with | some v => BitVec.ofNat 64 v | none => csrNow s n
     sets sd (.pseed nx sd sa sb) (BitVec.ofNat 64 (csr 0x11 % 2 ^ 32 * 2 ^ 32 + csr 0x10)) (fun n =>
       if n = 0x10 then some ((reg s sa).toNat % 2 ^ 32) else if n = 0x11 then some ((reg s sa).toNat / 2 ^ 32)
       else if n = 0x12 then some ((reg s sb).toNat % 2 ^ 32) else if n = 0x13 then some ((reg s sb).toNat / 2 ^ 32) else none) ∧
     ((reg s sa).toNat < 2 ^ 16 → sets (target s sd) (.pmemb nx sd sa) (csrNow s 0x14) (fun n => if n = 0x14 then some (reg s sa).toNat else none)) ∧
     sets sd (.pmembInc nx sd) (csrNow s 0x14) (fun n => if n = 0x14 then some ((csr 0x14 + 1) % 2 ^ 16) else none) ∧
     sets sd (.ptau nx sd sa) (csrNow s 0x15) (fun n => if n = 0x15 then some ((reg s sa).toNat % 2 ^ 32) else none) ∧
     ∀ k : RndKind,
       let w (n : Nat) : W32 := BitVec.ofNat 32 n
       let i := (reg s sa).toNat % 2 ^ 48
       let d := lh128 (w (csr 0x10), w (csr 0x11), w (csr 0x12), w (csr 0x13))
         (w i, w (i / 2 ^ 32 + csr 0x14 % 2 ^ 16 * 2 ^ 16), w (csr 0x16), w 4)
       ∃ t, exec (.rnd nx sd sa k) s = .next t ∧ Ends s t nx sd (match k with
         | .w0 => BitVec.ofNat 64 d.1.toNat
         | .lo => BitVec.ofNat 64 (d.2.1.toNat * 2 ^ 32 + d.1.toNat)
         | .hi => BitVec.ofNat 64 (d.2.2.2.toNat * 2 ^ 32 + d.2.2.1.toNat)
         | .gauss => BitVec.ofNat 64 (rne fFp32 (gauss d))) none) ∧
  (∀ (nx : Nx) (sd sa : Reg) (s : State),
     let p := getSpan s s.cur.sp
     (∀ (sb : Reg) (r : CplParam) (s1 : State) (old : Nat), cplSetEff s (reg s sa) (reg s sb) r = .ok (s1, old) →
       let t := rectTile p (wholeRect p) ((reg s sa).toNat / 2 ^ 4 % 2 ^ 10)
       let c := (reg s sa).toNat % 16
       let v := (reg s sb).toNat
       ∃ u, exec (.cplSet nx sd sa sb r) s = .next u ∧ WordEnds s1 u s.cur.sp s.cur.h s.cur.pc nx (target s sd) (BitVec.ofNat 64 old) none ∧
         (old = let x := cplCfg (getTile s t) c
           match r with
           | .sp => x.set | .kp => x.kp | .ki => x.ki | .uper => x.uper | .imax => x.imax | .basep => x.basep | .basec => x.basec
           | .wmin => x.wmin | .wmax => x.wmax | .irst => 0) ∧
         (let x := cplCfg (getTile u t) c
          match r with
          | .sp => x.set = v | .kp => x.kp = v | .ki => x.ki = v | .uper => x.uper = v | .imax => x.imax = v | .basep => x.basep = v
          | .basec => x.basec = v | .wmin => x.wmin = v | .wmax => x.wmax = v
          | .irst => (tget (getTile u t).cpl c {}).integ = 0 ∧ (tget (getTile u t).cpl c {}).u = 0) ∧
         (getTile u t).last = none ∧ (∀ g, g ≠ t → getTile u g = getTile s g) ∧ u.mem = s.mem) ∧
     (∀ (it : CplItem) (t c : Nat), cplSel s (reg s sa) = .ok (t, c) →
       let s1 := itemState s p t c it
       ∃ u, exec (.cplGet nx sd sa it) s = .next u ∧ Ends s u nx (target s sd)
         (if cplEn (getTile s t) c = false then 0 else
          let k := tget (getTile s1 t).cpl c {}
          match it with
          | .occ => BitVec.ofNat 64 (cplOcc s1 t c 1)
          | .integ => BitVec.ofInt 64 k.integ
          | .u => BitVec.ofInt 64 k.u
          | .ptick => (match producerOf s1 p t c with | some (g, e) => BitVec.ofNat 64 (tickets s1 p g e) | none => 0)
          | .ctick => BitVec.ofNat 64 (tickets s1 p t (cplCfg (getTile s t) c).cslot)
          | .nupd => BitVec.ofNat 64 k.nupd.toNat) none) ∧
     ((curH s).podFault = none →
       ((∀ a ∈ s.net.acc, isWrite a.kind = true → (pSpace a.ptr = 0 ∨ pSpace a.ptr = 3) → portSpan s a.port ≠ s.cur.sp) →
         (∀ x ∈ p.streams, ∀ j ∈ x.2.jobs, j.flight = []) →
         (∀ rst : Bool, ∃ u t, exec (.digOn nx sd rst) s = .next t ∧
           WordEnds u t s.cur.sp s.cur.h s.cur.pc nx (target s sd) (digest s p.digW).1 none ∧
           (getSpan u s.cur.sp).digOn = true ∧ (getSpan u s.cur.sp).digW = (if rst then [] else p.digW) ∧ { u with spans := s.spans } = s ∧
           ∀ q j k, rdReg u q j k = rdReg s q j k) ∧
         ∀ hi : Bool, ∃ t, exec (.digRead nx sd hi) s = .next t ∧
           Ends s t nx (target s sd) (if hi then (digest s p.digW).2 else (digest s p.digW).1) none) ∧
       (s.cur.latch = none →
         ((∃ a ∈ s.net.acc, isWrite a.kind = true ∧ (pSpace a.ptr = 0 ∨ pSpace a.ptr = 3) ∧ portSpan s a.port = s.cur.sp ∧ (∀ n, a.port ≠ .device n) ∧
             issuedAs a < s.sched.nextId) ∨
           ∃ x ∈ p.streams, ∃ j ∈ x.2.jobs, ∃ f ∈ j.flight, ∃ y, tfind j.ptrs f.1 = some y ∧ f.2 < s.sched.nextId ∧ (pSpace y.2 = 0 ∨ pSpace y.2 = 3)) →
         (∀ rst : Bool, ∃ t, exec (.digOn nx sd rst) s = .next t ∧ Stays s t (.wait (.digOn nx sd rst) 0 0 0 s.sched.nextId)) ∧
         ∀ hi : Bool, ∃ t, exec (.digRead nx sd hi) s = .next t ∧ Stays s t (.wait (.digRead nx sd hi) 0 0 0 s.sched.nextId))))

/-! ## Routers and fabric ports (R101, R102, R169, R170, R261) -/

namespace Sys2Proof.Machine

/-- The lanes of a token that a link of m lanes of format f carries: the bits above the last one are zero (R102, R198). -/
def lanesOf (f m : Nat) : Token → Token
  | .word w => .word (BitVec.ofNat 512 (w.toNat % 2 ^ (fmtWidth f * m)))
  | t => t
/-- What becomes of fabric port n of a span before it offers its head (R102, R261): the first end-of-transfer token waiting for the port,
whose stream has no arrival under way, joins the end of its queue when that holds fewer than two tokens, else with no such token the
drain token of its stream does; else nothing enters. q: its queue after; toks: the tokens still waiting; dr: the ports whose drain waits. -/
def PortEnters (s : State) (p : Span) (sp n : Nat) (q : List Token) (toks : List (Bool × Nat × Word)) (dr : List Nat) : Prop :=
  let q0 := tget p.fi n []
  let held (w : Word) : Prop := ∃ b ∈ s.net.bars, b.sp = sp ∧ b.sid = w.toNat / 2 ^ 43 % 2 ^ 5 ∧ b.arrive = true
  let waits (x : Bool × Nat × Word) : Prop := x.1 = true ∧ x.2.1 = n ∧ ¬ held x.2.2
  (∃ pre w post, p.toks = pre ++ (true, n, w) :: post ∧ (∀ x ∈ pre, ¬ waits x) ∧ ¬ held w ∧ q0.length < 2 ∧
    q = q0 ++ [.word (BitVec.ofNat 512 w.toNat)] ∧ toks = pre ++ post ∧ dr = p.fiDrain) ∨
  ((∀ x ∈ p.toks, ¬ waits x) ∧ n ∈ p.fiDrain ∧ q0.length < 2 ∧ q = q0 ++ [.drain] ∧ toks = p.toks ∧ dr = p.fiDrain.erase n) ∨
  ((2 ≤ q0.length ∨ (∀ x ∈ p.toks, ¬ waits x) ∧ n ∉ p.fiDrain) ∧ q = q0 ∧ toks = p.toks ∧ dr = p.fiDrain)

end Sys2Proof.Machine

/-- R101, R102, R170, R261: ROUTER_FORWARD moves the head of a router stream to every link that starts at its stream in the neighbouring
tile, when each has a free credit, and else moves nothing; at FABRIC_PORT_OFFER a waiting end-of-transfer token, else a drain token, joins
the end of the queue of a port with room; then the head of the queue goes to each link that has a credit and has not had it, as the link's
own lanes, and leaves the queue once every link has had it, at once where the port has no link.

It concludes that exec answers a next state with this effect, on conditions on the state and the operands alone, for
routerForward, fabricPortOffer. -/
def Obligations.RoutersAndPortsMoveTokens : Prop :=
  ∀ (s : State),
    (∀ (t d k sp u : Nat) (tok : Token), (getClus s (t / 16)).span = some sp → tokensMove (getSpan s sp) = true → d < 4 → k < 4 →
      headOf (getTile s t) (32 + 4 * d + k) = some tok → nbr (getSpan s sp) t d = some u → u ≠ t →
      let code := 0x20 + 4 * ((d + 2) % 4) + k
      (canEmit s sp u code = false → exec (.routerForward t d k) s = .next s) ∧
      (canEmit s sp u code = true →
        ∃ t', exec (.routerForward t d k) s = .next t' ∧ tget (getTile t' t).bufs (32 + 4 * d + k) [] = (tget (getTile s t).bufs (32 + 4 * d + k) []).tail ∧
          t'.mem = s.mem ∧ (∀ q j x, rdReg t' q j x = rdReg s q j x) ∧
          (∀ c ∈ consumerIds, srcOf (getTile s u) c = code → c ≠ 25 → c ≠ 27 → consFmt (getTile s u) c = prodFmt s (getSpan s sp) u code →
            tget (getTile t' u).bufs c [] = tget (getTile s u).bufs c [] ++ [tok]) ∧
          (∀ c ∈ consumerIds, srcOf (getTile s u) c ≠ code → tget (getTile t' u).bufs c [] = tget (getTile s u).bufs c []) ∧
          ∀ v, v ≠ t → v ≠ u → getTile t' v = getTile s v)) ∧
    ∀ (sp n : Nat) (q : List Token) (toks : List (Bool × Nat × Word)) (dr : List Nat), tokensMove (getSpan s sp) = true → n < 32 →
      let p := getSpan s sp
      let links := portLinks s p n
      let goes (l : Nat) : Prop := l ∈ links ∧ l ∉ tget p.fiTaken n [] ∧ roomAt s sp (l / 64) (l % 64) = true
      PortEnters s p sp n q toks dr → links.Nodup → (∀ l ∈ links, l % 64 ≠ 25 ∧ l % 64 ≠ 27 ∧ slotsOf (getTile s (l / 64)) (l % 64) ≠ 0) →
      ∃ t, exec (.fabricPortOffer sp n) s = .next t ∧ (getSpan t sp).toks = toks ∧ (getSpan t sp).fiDrain = dr ∧ t.mem = s.mem ∧
        (∀ j, j ≠ n → tget (getSpan t sp).fi j [] = tget p.fi j []) ∧
        ((q = [] ∨ ∃ l ∈ links, l ∉ tget p.fiTaken n [] ∧ ¬ goes l) → tget (getSpan t sp).fi n [] = q) ∧
        ((∀ l ∈ links, l ∈ tget p.fiTaken n [] ∨ goes l) → tget (getSpan t sp).fi n [] = q.tail) ∧
        (∀ tok rest l f m, q = tok :: rest → goes l → consFmt (getTile s (l / 64)) (l % 64) = some (f, m) →
          tget (getTile t (l / 64)).bufs (l % 64) [] = tget (getTile s (l / 64)).bufs (l % 64) [] ++ [lanesOf f m tok]) ∧
        (∀ tok rest, q = tok :: rest → ∀ l, l ∈ tget (getSpan t sp).fiTaken n [] ↔
          (l ∈ tget p.fiTaken n [] ∨ goes l) ∧ ∃ k ∈ links, k ∉ tget p.fiTaken n [] ∧ ¬ goes k) ∧
        ∀ g c, c < 64 → (q = [] ∨ ¬ goes (g * 64 + c)) → tget (getTile t g).bufs c [] = tget (getTile s g).bufs c []

/-! ## Attention (R322 to R337) -/

namespace Sys2Proof.Machine

/-- The bytes bs stand at home address k. -/
def standAt (s : State) (k : Nat) (bs : List Byte) : Prop := ∀ i (h : i < bs.length), byteAt s (k + i) = bs[i]
/-- The bf16 or fp32 value at a home address. -/
def bf16At (s : State) (k : Nat) : XV := dec fBf16 (valueAt s 16 k 2).toNat
def fp32At (s : State) (k : Nat) : XV := d32 (valueAt s 32 k 4).toNat
/-- The word completes, with v in its SD unless a later word's value there remains (R139), on a state u in which only memory, digests
and the order of deterministic mode may differ from s. -/
def writesMemory (i : Instr) (s : State) (nx : Nx) (sd : Reg) (v : Word) (q : State → Prop) : Prop :=
  ∃ u t, exec i s = .next t ∧ WordEnds u t s.cur.sp s.cur.h s.cur.pc nx (target s sd) v none ∧ q u ∧ (∀ a j k, rdReg u a j k = rdReg s a j k) ∧
    (∀ a j, getH u a j = getH s a j) ∧ u.tiles = s.tiles ∧ u.ctl.entries = s.ctl.entries
/-- Handler h of span sp runs att.run and its span moves. -/
def attends (s : State) (sp h : Nat) : Prop :=
  (getSpan s sp).live = true ∧ (getSpan s sp).frozen = false ∧ (getSpan s sp).ended = false ∧ (getSpan s sp).saved = false ∧
  ∃ nx sd, (getH s sp h).op = some (.att nx sd)
/-- The run of handler h asks for the walk of page i, behind the requests already queued, unless it waits for that page already. -/
def asksPage (s t : State) (sp h i : Nat) : Prop :=
  if ∃ a ∈ s.net.acc, a.port = .handler sp h ∧ a.tag = .att i then t = s else
    t.net.walkQ = s.net.walkQ ++ [s.sched.nextId] ∧ ∃ a, t.net.acc = s.net.acc ++ [a] ∧ a.id = s.sched.nextId ∧ a.port = .handler sp h ∧ a.tag = .att i ∧
      a.ptr = pagePtr (getH s sp h).attDesc i ∧ a.stat = .walk
/-- R337's recurrence: the running maximum, denominator and sums by channel, from the first record over the later ones. -/
def mergedRecords (first : MRec) (later : List MRec) : XV × XV × (Nat → XV) :=
  later.foldl (fun x r =>
    let mx := x.1.vmax r.m
    let al := exp2r (r32 (x.1.add false mx.neg))
    let be := exp2r (r32 (r.m.add false mx.neg))
    (mx, r32 ((r32 (x.2.1.mul al)).add false (r32 (r.l.mul be))),
      fun ch => r32 ((r32 ((x.2.2 ch).mul al)).add false (r32 ((nth r.a ch .zero).mul be))))) (first.m, first.l, fun ch => nth first.a ch .zero)

end Sys2Proof.Machine

/-- R322 to R325, R334, R335: cbk copies a codebook set to the same offset of every stack of its mask and gives its size; att.q builds,
in every stack of its mask, the table of the query's inner products with that stack's key codebooks: entry (g, c) is the exact sum of
the eight products, rounded once to fp32.

It concludes that exec answers a next state with this effect, on conditions on the state and the operands alone, for cbk, attQ. -/
def Obligations.CodebookWordsFillStacks : Prop :=
  ∀ (nx : Nx) (sd sa sb : Reg) (lg : BitVec 3) (mask : BitVec 12) (s s1 : State) (bs : List Byte),
    (getSpan s s.cur.sp).det = false →
    let g := 2 ^ lg.toNat
    let o := operands s sa sb 0
    (let dst := o.2.1
     let off := pOff dst
     pSpace dst = 3 → pRank dst = 0 → off + 8192 * g ≤ 2 ^ 25 → off % 4096 = 0 → windowBad s (curTenant s) mask.toNat [(off, 8192 * g)] = none →
     pOff o.1 % 64 = 0 → acqRead s o.1 (8192 * g) 64 = .ok (bs, s1) →
     writesMemory (.cbk nx sd sa sb lg mask) s nx sd (BitVec.ofNat 64 (8192 * g)) fun u =>
       (∀ k < 12, mask.getLsbD k = true → standAt u (2 ^ 50 + k * 2 ^ 25 + off) bs) ∧
       ∀ a, (∀ k < 12, mask.getLsbD k = true → a < 2 ^ 50 + k * 2 ^ 25 + off ∨ 2 ^ 50 + k * 2 ^ 25 + off + 8192 * g ≤ a) → byteAt u a = byteAt s a) ∧
    (let b := o.2.1
     let lut := b.toNat / 2 ^ 32
     let set := b.toNat % 2 ^ 32
     let home (k off : Nat) := 2 ^ 50 + k * 2 ^ 25 + off
     let q (ch : Nat) : XV := d32 (ofBytes ((bs.drop (4 * ch)).take 4))
     lut % 4096 = 0 → set % 4096 = 0 → lut + 1024 * g ≤ 2 ^ 25 → set + 8192 * g ≤ 2 ^ 25 → lut < 2 ^ 25 → set < 2 ^ 25 →
     windowBad s (curTenant s) mask.toNat [(lut, 1024 * g), (set, 8192 * g)] = none →
     pOff o.1 % 64 = 0 → acqRead s o.1 (32 * g) 64 = .ok (bs, s1) → (∀ k < 12, mask.getLsbD k = true → isPoison s (home k set) (4096 * g) = false) →
     writesMemory (.attQ nx sd sa sb lg mask) s nx sd 0 fun u =>
       (∀ k < 12, mask.getLsbD k = true → ∀ i < g, ∀ c < 256,
         valueAt u 32 (home k lut + 1024 * i + 4 * c) 4 = BitVec.ofNat 32 (rne fFp32 (exactSum ((List.range 8).map fun j =>
           (q (8 * i + j)).mul (bf16At s (home k set + 4096 * i + 16 * c + 2 * j)))))) ∧
       ∀ a, (∀ k < 12, mask.getLsbD k = true → a < home k lut ∨ home k lut + 1024 * g ≤ a) → byteAt u a = byteAt s a)

/-- R328 to R332, R336: att.run, once its descriptor passes, stays in its stage with the pages its mask selects to attend; a page without
valid tokens gets its record at once, for another a walk is asked for in the walker's queue, at whose completion the page is held, set
aside as absent, or left out as faulted, and once held, when its turn on its stack comes, it gets the record of its LUT and codebooks; an
absent page is asked for once more when nothing else is left; if a page is left out, only the bytes of its own record, which are then not
defined, may change; at the end CBMP and SD take the bitmap. The model's choice (log 55, DEDUCED): a held page is dropped once 11,000 cycles
(the 10 µs of R332 at 1.1 GHz) have passed since an invalidation that covers it arrived, and not before.

R337: att.merge reads the selected records that hold valid tokens in ascending order, gives their number, and writes the merged sums,
each divided by the merged denominator and rounded once to the output format; with no such record it writes zeros.

It concludes that exec answers a next state with this effect, on conditions on the state and the operands alone, for attRun,
attMerge, attPageAttend, attPageRetry, attPageAbandon, attRunEnd. -/
def Obligations.AttentionAttendsAndMerges : Prop :=
  (∀ (nx : Nx) (sd sa sb : Reg) (s : State),
     (∀ (bs : List Byte) (s1 : State),
       let o := operands s sa sb 0
       acqRead s o.1 64 8 = .ok (bs, s1) → runBad (wordsOf 8 bs) o.2.1 = none → runPtrs s (wordsOf 8 bs) = none →
       ∃ t, exec (.attRun nx sd sa sb) s = .next t ∧ t.mem = s.mem ∧ (∀ q j k, rdReg t q j k = rdReg s q j k) ∧
         (∀ q j, (q ≠ s.cur.sp ∨ j ≠ s.cur.h) → getH t q j = getH s q j) ∧
         getH t s.cur.sp s.cur.h = { curH s with
           op := some (.att nx sd), st := .blocked, attDesc := wordsOf 8 bs
           attTodo := (List.range ((nth (wordsOf 8 bs) 1 0).toNat / 2 ^ 8 % 2 ^ 8)).filter fun i => o.2.1.toNat / 2 ^ i % 2 == 1
           attHeld := [], attSeq := [], attAbsent := [], attRetry := false, attBmp := 0, attFault := [] }) ∧
     ∀ (sp h i k : Nat),
       let x := getH s sp h
       let d := x.attDesc
       let ended (t : State) (bit : Bool) : Prop :=
         i ∉ (getH t sp h).attTodo ∧ tfind (getH t sp h).attHeld i = none ∧ i ∉ (getH t sp h).attAbsent ∧
         (getH t sp h).attBmp.getLsbD i = (bit || x.attBmp.getLsbD i) ∧ (getH t sp h).attFault = x.attFault
       let quietly (t : State) : Prop := t.mem = s.mem ∧ (∀ q j y, rdReg t q j y = rdReg s q j y) ∧ (∀ q j, (q ≠ sp ∨ j ≠ h) → getH t q j = getH s q j)
       attends s sp h → i < 64 → (getSpan s sp).det = false → keyOf (recPtr d i) = some k → k < 2 ^ 64 → isPoison s k (recBytes d) = false →
       (i ∈ x.attTodo → nValid d i = 0 →
         ∃ t, exec (.attPageAttend sp h i) s = .next t ∧ ended t true ∧ sameMemoryBut s t k (recBytes d) ∧
           valueAt t 32 k 4 = 0xFF800000 ∧ valueAt t 32 (k + 4) 4 = 0 ∧ valueAt t 32 (k + 8) 4 = 0 ∧
           valueAt t 32 (k + 12) 4 = BitVec.ofNat 32 (aP0 d + i) ∧ ∀ j, 16 ≤ j → j < recBytes d → byteAt t (k + j) = 0) ∧
       (i ∈ x.attTodo → nValid d i ≠ 0 → tfind x.attHeld i = none →
         ∃ t, exec (.attPageAttend sp h i) s = .next t ∧ quietly t ∧ getH t sp h = x ∧ asksPage s t sp h i) ∧
       (∀ id a, findAcc s id = some a → a.port = .handler sp h → a.tag = .att i → a.stat = .walking → pSpace a.ptr = 0 → spanKilled s sp = false →
         let w := walk s (getSpan s sp).tenant.toNat (pOff (pagePtr d i)) false
         let wanted := i ∈ x.attAbsent ∨ (i ∈ x.attTodo ∧ tfind x.attHeld i = none)
         let leaves (c : Cause) : Prop := ∃ t, exec (.pageWalkComplete id) s = .next t ∧ sameMemoryBut s t k (recBytes d) ∧
           i ∉ (getH t sp h).attTodo ∧ i ∉ (getH t sp h).attAbsent ∧ (getH t sp h).attBmp = x.attBmp ∧
           (getH t sp h).attFault = x.attFault ++ [(i, c, pagePtr d i)]
         (∀ pa size wr, wanted → w = .page pa size wr → (aStk d) / 2 ^ ((pa + pOff (pagePtr d i) % size) / 2 ^ 36) % 2 = 1 →
           ∃ t, exec (.pageWalkComplete id) s = .next t ∧ quietly t ∧ tfind (getH t sp h).attHeld i = some (pa + pOff (pagePtr d i) % size) ∧
             i ∈ (getH t sp h).attTodo ∧ i ∉ (getH t sp h).attAbsent) ∧
         (∀ pa size wr, wanted → w = .page pa size wr → (aStk d) / 2 ^ ((pa + pOff (pagePtr d i) % size) / 2 ^ 36) % 2 = 0 → leaves .ptrSpace) ∧
         (wanted → w = .fail → leaves .translation) ∧ (wanted → w = .poison → leaves .ue) ∧
         (w = .absent → i ∉ x.attAbsent → i ∈ x.attTodo → tfind x.attHeld i = none →
           ∃ t, exec (.pageWalkComplete id) s = .next t ∧ quietly t ∧ i ∉ (getH t sp h).attTodo ∧ i ∈ (getH t sp h).attAbsent) ∧
         (w = .absent → i ∈ x.attAbsent →
           ∃ t, exec (.pageWalkComplete id) s = .next t ∧ sameMemoryBut s t k (recBytes d) ∧ (∀ q j y, rdReg t q j y = rdReg s q j y) ∧
             (∀ q j, (q ≠ sp ∨ j ≠ h) → getH t q j = getH s q j) ∧ ended t false)) ∧
       (∀ a, i ∈ x.attTodo → nValid d i ≠ 0 → tfind x.attHeld i = some a → a % 65536 = 0 → a / 2 ^ 36 < 12 → attNext s sp h i a = true →
         windowBad s (getSpan s sp).tenant.toNat (2 ^ (a / 2 ^ 36)) [(aLut d, 1024 * aG d), (aCbk d, 8192 * aG d)] = none →
         let b := 2 ^ 50 + a / 2 ^ 36 * 2 ^ 25
         isPoison s a 65536 = false → isPoison s (b + aLut d) (1024 * aG d) = false → isPoison s (b + aCbk d) (8192 * aG d) = false →
         ∃ t, exec (.attPageAttend sp h i) s = .next t ∧ ended t true ∧ sameMemoryBut s t k (recBytes d) ∧
           standAt t k (recordOf d i (pageTriple (aG d) (nValid d i) (fun o => (byteAt s (a + o)).toNat)
             (fun g c => fp32At s (b + aLut d + 1024 * g + 4 * c))
             (fun g c j => bf16At s (b + aCbk d + 4096 * (aG d + g) + 16 * c + 2 * j))))) ∧
       (x.attTodo = [] → i ∈ x.attAbsent → (∀ j ∈ x.attAbsent, i ≤ j) →
         ∃ u t, exec (.attPageRetry sp h i) s = .next t ∧ quietly t ∧ getH t sp h = { x with attRetry := true } ∧
           { u with spans := s.spans } = s ∧ getH u sp h = { x with attRetry := true } ∧ asksPage u t sp h i) ∧
       (∀ a r, tfind x.attHeld i = some a → invRange s (getSpan s sp).tenant.toNat = some r → meets (pOff (pagePtr d i)) 65536 r.1 r.2 = true →
         (tget s.ctl.invAt (getSpan s sp).tenant.toNat 0 + 11000 ≤ now s →
           ∃ t, exec (.attPageAbandon sp h i) s = .next t ∧ quietly t ∧ ended t false) ∧
         (now s < tget s.ctl.invAt (getSpan s sp).tenant.toNat 0 + 11000 → exec (.attPageAbandon sp h i) s = .next s)) ∧
       (∀ nx' sd', x.op = some (.att nx' sd') → x.attTodo = [] → x.attAbsent = [] → x.attFault = [] →
         ∃ u t, exec (.attRunEnd sp h) s = .next t ∧ WordEnds u t sp h x.pc nx' (reaches s sp h (now s) sd') x.attBmp none ∧ tget (getSpan u sp).csr 0x24 0 = x.attBmp ∧
           (∀ n, n ≠ 0x24 → tget (getSpan u sp).csr n 0 = tget (getSpan s sp).csr n 0) ∧ quietly u)) ∧
  (∀ (nx : Nx) (sd sa sb : Reg) (bf16 : Bool) (s s1 s2 : State) (bs : List Byte) (rs : List MRec) (k : Nat),
     let o := operands s sa sb 0
     hRead s o.1 64 8 = .ok (bs, s1) →
     let d := wordsOf 8 bs
     let w := if bf16 then 2 else 4
     let n := 8 * 2 ^ ((nth d 1 0).toNat % 8)
     runBad d o.2.1 = none → mergePtrs s d (n * w) = none →
     readRecs d ((List.range (aNp d)).filter fun i => isSet o.2.1.toNat i) s1 = .ok (rs, s2) →
     (getSpan s s.cur.sp).det = false → pSpace (nth d 6 0) ≠ 4 → keyOf (nth d 6 0) = some k → isPoison s k (n * w) = false →
     writesMemory (.attMerge nx sd sa sb bf16) s nx sd (BitVec.ofNat 64 rs.length) fun u =>
       sameMemoryBut s u k (n * w) ∧
       (rs = [] → ∀ i < n * w, byteAt u (k + i) = 0) ∧
       (∀ r later, rs = r :: later → (∀ x ∈ rs, x.a.length = n) → ∀ i < n,
         let x := mergedRecords r later
         valueAt u (8 * w) (k + w * i) w = BitVec.ofNat (8 * w) (rne (if bf16 then fBf16 else fFp32) ((x.2.2 i).div x.2.1))))

/-! ## Soft tokens (R338 to R365) -/

namespace Sys2Proof.Machine

/-- Soft-token register n of the issuing span. -/
def tokenOfReg (s : State) (n : BitVec 4) : BitVec 768 := tget (getSpan s s.cur.sp).tk n.toNat 0
/-- A position by its words: word 0 with its kind and position index, words 1 to 3, and no pairs (R338). -/
def position (kind pos w1 w2 w3 : Nat) : BitVec 768 :=
  BitVec.ofNat 768 (kind * 2 ^ 62 + pos + w1 * 2 ^ 64 + w2 * 2 ^ 128 + w3 * 2 ^ 192)
/-- The word's result for tk[n] stands: where it has waited, no word that was issued later has written tk[n] since (R139, R340). -/
def landsTk (s : State) (n : BitVec 4) : Prop :=
  s.cur.latch = none ∨ overtaken (curSpan s).tkAt (now s) (curH s).issued n.toNat = false
/-- The word ends with register td holding a position that satisfies q, unless a later word's stands there; no other soft-token
register, no scalar register, no byte and no other handler changes. -/
def makesToken (i : Instr) (s : State) (nx : Nx) (td : BitVec 4) (q : BitVec 768 → Prop) : Prop :=
  ∃ u t, exec i s = .next t ∧ WordEnds u t s.cur.sp s.cur.h s.cur.pc nx 0 0 none ∧
    (landsTk s td → q (tget (getSpan u s.cur.sp).tk td.toNat 0)) ∧
    (∀ n : BitVec 4, (n ≠ td ∨ ¬ landsTk s td) → tget (getSpan u s.cur.sp).tk n.toNat 0 = tokenOfReg s n) ∧ u.mem = s.mem ∧ u.tiles = s.tiles ∧
    (∀ a j k, rdReg u a j k = rdReg s a j k) ∧ ∀ a j, getH u a j = getH s a j

end Sys2Proof.Machine

namespace Sys2Proof.Machine

/-- n bytes at p are in memory that needs no translation, sound, and the issuing handler may write them, in a span without deterministic
mode; k is their home. -/
def writable (s : State) (p : Word) (n al k : Nat) : Prop :=
  pSpace p ≠ 4 ∧ keyOf p = some k ∧ ptrOk p n = true ∧ pOff p % al = 0 ∧ ownsOk s (curTenant s) p n true = true ∧ isPoison s k n = false ∧
  (getSpan s s.cur.sp).det = false
/-- The 128 bytes of a record: the twelve words of the position, its digest, the chain digest (R361). -/
def record (x : BitVec 768) (p c : Q4) : List Byte :=
  toBytes 96 x.toNat ++ toBytes 8 (digLo p).toNat ++ toBytes 8 (digHi p).toNat ++ toBytes 8 (digLo c).toNat ++ toBytes 8 (digHi c).toNat
/-- The word ends with a digest in two adjacent registers, but for one that d discards; no other register changes, on a state u. -/
def endsPair (i : Instr) (s : State) (d : Reg → Reg) (r : Reg) (lo hi : Word) (q : State → Prop) : Prop :=
  ∃ u t, exec i s = .next t ∧ q u ∧ (d r ≠ 0 → rdReg t s.cur.sp s.cur.h r = lo) ∧ (d (r + 1) ≠ 0 → rdReg t s.cur.sp s.cur.h (r + 1) = hi) ∧
    (∀ k, (k ≠ r ∨ d r = 0) → (k ≠ r + 1 ∨ d (r + 1) = 0) → rdReg t s.cur.sp s.cur.h k = rdReg s s.cur.sp s.cur.h k) ∧ t.mem = u.mem ∧
    (getSpan t s.cur.sp).tk = (getSpan u s.cur.sp).tk ∧ (getH t s.cur.sp s.cur.h).op = none

end Sys2Proof.Machine

/-- R338, R346 to R348, R365: tk.text, tk.mix and tk.hid make a position of their kind at the index in s[SB], MIX with its pairs ordered
by falling weight and then rising id; tk.mov copies a register, tk.mov.empty makes an EMPTY position, tk.ld takes a valid image
from memory.

R343 to R345, R350, R361 to R363, R365: tk.st and tk.log write the 128 bytes of a record, tk.log with the position's digest and the
chain's, which it also leaves in its pair of registers; tk.log.chk compares the digests of a record and marks the position LOGGED;
tk.dig gives a digest; tk.match gives the number of the first record that differs; tk.emb writes the elements of the embedding.

It concludes that exec answers a next state with this effect, on conditions on the state and the operands alone, for tkText,
tkMix, tkHid, tkEmb, tkLog, tkLogChk, tkDig, tkMatch, tkMov, tkMovEmpty, tkLd, tkSt. -/
def Obligations.TokenWordsMakeReadAndWrite : Prop :=
  (∀ (nx : Nx) (td ta : BitVec 4) (sa sb : Reg) (s : State),
     let v := operands s sa sb 0
     let a := v.1.toNat
     let b := v.2.1.toNat
     (a < 2 ^ 32 → b % 2 ^ 16 = 0 → makesToken (.tkText nx td sa sb) s nx td (· = position 1 (b / 2 ^ 16) a 0 0)) ∧
     (∀ (n : BitVec 4) (bs : List Byte) (s1 : State), 1 ≤ n.toNat → n.toNat ≤ 8 → b % 2 ^ 16 = 0 → acqRead s v.1 (8 * n.toNat) 8 = .ok (bs, s1) →
       let ps := (wordsOf n.toNat bs).map fun w => (w.toNat % 2 ^ 32, if w.toNat / 2 ^ 32 = 2 ^ 31 then 0 else w.toNat / 2 ^ 32)
       (∀ p ∈ ps, (d32 p.2).isFin = true ∧ ((d32 p.2).isZero = false → (d32 p.2).sign = false)) → (ps.map (·.1)).Nodup →
       makesToken (.tkMix nx td sa sb n) s nx td fun x =>
         pKind x = 2 ∧ pNmix x = n.toNat ∧ pPos x = b / 2 ^ 16 ∧ (pPairs x).Perm ps ∧
         (pPairs x).Pairwise fun p q => q.2 < p.2 ∨ (p.2 = q.2 ∧ p.1 < q.1)) ∧
     (∀ (fp32 : Bool) (bs : List Byte) (s1 : State), acqRead s v.1 ((b % 2 ^ 16 + 1) * if fp32 then 4 else 2) 64 = .ok (bs, s1) →
       makesToken (.tkHid nx td sa sb fp32) s nx td fun x => x = position 3 (b / 2 ^ 16) a ((if fp32 then 2 ^ 17 else 0) + (b % 2 ^ 16 + 1))
         (vecDigest (ckey (wordCsrs s)) bs)) ∧
     makesToken (.tkMov nx td ta) s nx td (· = tokenOfReg s ta) ∧
     ((reg s sa).toNat < 2 ^ 48 → makesToken (.tkMovEmpty nx td sa) s nx td (· = position 0 (reg s sa).toNat 0 0 0)) ∧
     ∀ (bs : List Byte) (s1 : State), acqRead s v.1 128 64 = .ok (bs, s1) →
       let x := BitVec.ofNat 768 (ofBytes (bs.take 96))
       imageBad x = none → makesToken (.tkLd nx td sa) s nx td (· = x)) ∧
  (∀ (nx : Nx) (ta : BitVec 4) (sa sb : Reg) (s : State),
     let v := operands s sa sb (sb + 1)
     let x := tkIn s ta
     let z : Q4 := (0, 0, 0, 0)
     let key := ckey (wordCsrs s)
     let pd := posDigest key x
     let cd := chainNext key (digOf v.2.1 v.2.2) pd
     (∀ k, writable s v.1 128 64 k →
       writesMemory (.tkSt nx ta sa) s nx 0 0 (fun u => standAt u k (record x z z) ∧ sameMemoryBut s u k 128) ∧
       endsPair (.tkLog nx ta sa sb) s (target s) sb (digLo cd) (digHi cd) fun u => standAt u k (record x pd cd) ∧ sameMemoryBut s u k 128) ∧
     (∀ (bs : List Byte) (s1 : State), acqRead s v.1 128 64 = .ok (bs, s1) →
       bs.drop 96 = (record x pd cd).drop 96 →
       endsPair (.tkLogChk nx ta sa sb) s (target s) sb (digLo cd) (digHi cd) fun u => u.mem = s.mem ∧
         (landsTk s ta → tget (getSpan u s.cur.sp).tk ta.toNat 0 = x ||| BitVec.ofNat 768 (2 ^ 58)) ∧
         ∀ n : BitVec 4, (n ≠ ta ∨ ¬ landsTk s ta) → tget (getSpan u s.cur.sp).tk n.toNat 0 = tokenOfReg s n) ∧
     (∀ chain : Bool,
       let pd := posDigest (ckey (sampleCsrs (curSpan s))) (tokenOfReg s ta)
       let d := if chain then chainNext (ckey (sampleCsrs (curSpan s))) (digOf (reg s sa) (reg s (sa + 1))) pd else pd
       endsPair (.tkDig nx ta sa chain) s id sa (digLo d) (digHi d) fun u => u = s) ∧
     (∀ (bs : List Byte) (s1 s2 : State) (n : Nat), acqRead s v.1 64 8 = .ok (bs, s1) →
       let d := wordsOf 8 bs
       matchBad d = none → pOff (nth d 0 0) % 64 = 0 → pOff (nth d 1 0) % 64 = 0 →
       matchFrom (nth d 0 0) (nth d 1 0) ((nth d 2 0).toNat % 2 ^ 32) 0 s1 = .ok (n, s2) →
       writesMemory (.tkMatch nx sa sb) s nx sb (BitVec.ofNat 64 n) fun u => u.mem = s.mem) ∧
     ∀ (proj : Bool) (bs : List Byte) (s1 s2 : State) (vs : List XV) (k : Nat), acqRead s v.1 64 8 = .ok (bs, s1) →
       let d := wordsOf 8 bs
       let f := (nth d 2 0).toNat / 2 ^ 6 % 2 ^ 6
       embBad d x proj = none → embValues s1 d x proj = .ok (vs, s2) → writable s v.2.1 (fmtWidth f / 8 * vs.length) 64 k → vs ≠ [] →
       writesMemory (.tkEmb nx ta sa sb proj) s nx 0 0 fun u =>
         standAt u k (vs.flatMap fun y => toBytes (fmtWidth f / 8) (rne f y)) ∧ sameMemoryBut s u k (fmtWidth f / 8 * vs.length) ∧
         (pKind x = 0 → ∀ i < fmtWidth f / 8 * ((nth d 1 0).toNat % 2 ^ 17), byteAt u (k + i) = 0))

/-- R351 to R360: tk.col stands in the queue of the collapse unit with what it read in its issue cycle; COLLAPSE_START starts the oldest
once its descriptor is read and checked, opened at once
where its deadline is past under OPEN; COLLAPSE_COMPLETE, with its logits and mask entries at hand, writes tk[TD] and s[SB] together,
takes the mask entries and ends the binding; tk.mask binds a channel with a deadline, unless the collapse that held the unit
when it issued still does; tk.mask.off ends the binding; a constrained collapse behind a tk.mask that waits no longer starts after it; at a
deadline OPEN opens the collapse, and nothing happens before the deadline. The model's choice (log 60, DEDUCED): the descriptor is read and
checked when the collapse starts on the unit, not when tk.col issues.

It concludes that exec answers a next state with this effect, on conditions on the state and the operands alone, for tkCol,
tkMask, tkMaskOff, collapseStart, collapseComplete, maskDeadlineExpire, maskGraceExpire. -/
def Obligations.CollapsesRunOnTheUnit : Prop :=
  ∀ (nx : Nx) (s : State),
    (∀ o : ColOp, ∃ u t, exec (.tkCol nx o) s = .next t ∧ Stays u t (.col nx o.sb) ∧ u.mem = s.mem ∧
      (∀ q j, getH u q j = getH s q j) ∧ (∀ q j k, rdReg u q j k = rdReg s q j k) ∧ (getSpan u s.cur.sp).cols = (curSpan s).cols ++
        [{ id := s.sched.nextId, h := s.cur.h, td := o.td.toNat, ta := tokenOfReg s o.ta, ptr := reg s o.sa, msk := o.msk, gate := o.gate, mode := o.mode
           sseed := csrNow s 0x17 }]) ∧
    (∀ (sa : Reg) (pol : MaskPolicy) (ch : BitVec 6),
      let v := maskHold s (reg s sa)
      let m := (latchMark s).getD (now s)
      isBound (curSpan s) ch.toNat = true → v.1.toNat % 2 ^ 32 ≠ 0 →
      (maskBlocked s = true → ∃ t, exec (.tkMask nx sa pol ch) s = .next t ∧ Stays s t (.wait (.tkMask nx sa pol ch) v.1 v.2.1 v.2.2 m)) ∧
      (maskBlocked s = false → ∃ u t, exec (.tkMask nx sa pol ch) s = .next t ∧ WordEnds u t s.cur.sp s.cur.h s.cur.pc nx 0 0 none ∧ u.mem = s.mem ∧
        (getSpan u s.cur.sp).bind = some (ch.toNat, m + v.1.toNat % 2 ^ 32, v.1.toNat / 2 ^ 32, pol) ∧
        ∀ q j k, rdReg u q j k = rdReg s q j k)) ∧
    (maskBlocked s = true → ∃ t, exec (.tkMaskOff nx) s = .next t ∧
      Stays s t (.wait (.tkMaskOff nx) (maskHold s 0).1 (maskHold s 0).2.1 (maskHold s 0).2.2 0)) ∧
    (maskBlocked s = false →
      ∃ u t, exec (.tkMaskOff nx) s = .next t ∧ WordEnds u t s.cur.sp s.cur.h s.cur.pc nx 0 0 none ∧ u.mem = s.mem ∧
        (getSpan u s.cur.sp).bind = none ∧ ∀ q j k, rdReg u q j k = rdReg s q j k) ∧
    ∀ (sp : Nat) (c : Collapse) (rest : List Collapse),
      let p := getSpan s sp
      p.cols = c :: rest → colRuns p = true →
      (c.running = false → c.msk = true → maskDue p = true → exec (.collapseStart sp) s = .next s) ∧
      (∀ (bs : List Byte) (s1 : State), c.running = false → acqReadAt s (.handler sp c.h) c.ptr 64 8 = .ok (bs, s1) →
        let d := wordsOf 8 bs
        let past (x : Nat × Nat × Nat × MaskPolicy) : Prop :=
          (if x.2.2.2 = .wait then x.2.1 + x.2.2.1 else x.2.1) < now s ∧ (tget p.ch x.1 []).length < (cNv d + 63) / 64 ∧ c.opened = false
        colBad p d = none → (c.msk = true → p.bind ≠ none ∧ maskDue p = false) →
        (∀ x, c.msk = true → p.bind = some x → past x → x.2.2.2 = .open_) →
        ∃ t, exec (.collapseStart sp) s = .next t ∧ t.mem = s.mem ∧ (∀ q j, getH t q j = getH s q j) ∧
          ∃ b, (getSpan t sp).cols = { c with desc := d, running := true, bind := if c.msk then p.bind else none, opened := b } :: rest ∧
            (b = true ↔ c.opened = true ∨ (c.msk = true ∧ ∃ x, p.bind = some x ∧ past x))) ∧
      (∀ (s1 : State) (sb : Reg), c.running = true → maskShort p c = false → readSlices (.handler sp c.h) c.desc (colSlices p c.desc) s = .ok s1 →
        (getH s sp c.h).op = some (.col nx sb) →
        let f (i lo : Nat) : XV := d32 ((nth c.desc i 0).toNat / 2 ^ lo % 2 ^ 32)
        let r := collapse { nv := cNv c.desc, E := cE c.desc, c := colC (f 0 0), P := f 0 32, gth := f 1 0, ath := f 1 32, logit := logitAt s p c.desc
                            allow := (maskEntries p c).map maskBit, sseed := c.sseed, pos := (pPos c.ta + 1) % 2 ^ 48, mode := c.mode
                            gate := c.gate } c.opened
        ∃ u t, exec (.collapseComplete sp) s = .next t ∧ WordEnds u t sp c.h (getH s sp c.h).pc nx (reaches s sp c.h (now s) sb) r.2 none ∧ u.mem = s.mem ∧
          tget (getSpan u sp).tk c.td 0 = (if overtaken p.tkAt (now s) (getH s sp c.h).issued c.td then tget p.tk c.td 0 else r.1) ∧ (∀ n, n ≠ c.td → tget (getSpan u sp).tk n 0 = tget p.tk n 0) ∧ (getSpan u sp).cols = rest ∧
          (getSpan u sp).bind = (if c.msk then none else p.bind) ∧
          (∀ ch dl gr pol, c.msk = true → c.opened = false → c.bind = some (ch, dl, gr, pol) →
            tget (getSpan u sp).ch ch [] = (tget p.ch ch []).drop ((cNv c.desc + 63) / 64)) ∧
          ∀ q j k, rdReg u q j k = rdReg s q j k) ∧
      ∀ ch dl gr pol, c.running = true → c.msk = true → c.opened = false → c.bind = some (ch, dl, gr, pol) →
        (tget p.ch ch []).length < (cNv c.desc + 63) / 64 →
        (pol = .open_ → dl < now s → ∃ t, exec (.maskDeadlineExpire sp) s = .next t ∧ (getSpan t sp).cols = { c with opened := true } :: rest ∧
          t.mem = s.mem ∧ ∀ q j, getH t q j = getH s q j) ∧
        (now s ≤ dl → exec (.maskDeadlineExpire sp) s = .next s) ∧
        (now s ≤ dl + gr → exec (.maskGraceExpire sp) s = .next s) ∧
        (∀ s1, pol = .wait → dl + gr < now s → readSlices (.handler sp c.h) c.desc (colSlices p c.desc) s = .ok s1 → noTrap s sp → p.ten = true →
          c.h < 16 → c.h ≠ p.thnd → (getH s sp p.thnd).st = .stopped →
          ∃ u t, exec (.maskGraceExpire sp) s = .next t ∧ (getSpan u sp).cols = rest ∧ (∀ q j, getH u q j = getH s q j) ∧ u.mem = s.mem ∧
            TrapDelivered u t sp c.h (getH s sp c.h).pc 10 0 (BitVec.ofNat 64 (ch + (tget p.ch ch []).length * 65536)))

/-! ## Tags and launches (R127 to R130, R283 to R286, R426) -/

/-- R271, R283 to R286: lookup finds the way of the key's set that is valid and holds the key, else its lowest free way, else neither;
tag.set writes an entry of a slot, tag.inv clears the valid bit of the key's entry, tag.inv.all of every entry; each gives what stood
there.

It concludes that exec answers a next state with this effect, on conditions on the state and the operands alone, for lookup,
tagSet, tagInv. -/
def Obligations.TagWordsKeepTheTable : Prop :=
  ∀ (nx : Nx) (sd sa : Reg) (ci : BitVec 6) (s : State),
    let p := getSpan s s.cur.sp
    let r := p.anchor + 8 * (ci.toNat / p.rw) + ci.toNat % p.rw
    let tags := (getClus s r).tags
    let at_ (n : Nat) : Word := tget tags n 0
    let key := (reg s sa).toNat % 2 ^ 48
    let slot (w : Nat) := 8 * (key % 512) + w
    let holds (w : Nat) : Prop := (at_ (slot w)).getLsbD 63 = true ∧ (at_ (slot w)).toNat % 2 ^ 48 = key
    let changes (i : Instr) (v : Word) (new : Nat → Word) : Prop := ∃ u t, exec i s = .next t ∧
      WordEnds u t s.cur.sp s.cur.h s.cur.pc nx (target s sd) v none ∧ (∀ n, tget (getClus u r).tags n 0 = new n) ∧ (∀ q, q ≠ r → getClus u q = getClus s q) ∧
      { u with clusters := s.clusters } = s
    ci.toNat < p.rh * p.rw →
    (∀ (fd : BitVec 3) (fe : Bool),
      (∀ w < 8, holds w → (∀ v < w, ¬ holds v) → ∃ t, exec (.lookup nx sd sa ci fd fe) s = .next t ∧
        Ends s t nx (target s sd) (BitVec.ofNat 64 ((at_ (slot w)).toNat / 2 ^ 48 % 2 ^ 8 * 2 ^ 16 + slot w)) (flagIf fe fd true)) ∧
      ((∀ w < 8, ¬ holds w) →
        (∀ w < 8, (at_ (slot w)).getLsbD 63 = false → (∀ v < w, (at_ (slot v)).getLsbD 63 = true) → ∃ t, exec (.lookup nx sd sa ci fd fe) s = .next t ∧
          Ends s t nx (target s sd) (BitVec.ofNat 64 (2 ^ 63 + slot w)) (flagIf fe fd false)) ∧
        ((∀ w < 8, (at_ (slot w)).getLsbD 63 = true) → ∃ t, exec (.lookup nx sd sa ci fd fe) s = .next t ∧
          Ends s t nx (target s sd) (BitVec.ofNat 64 (2 ^ 63 + 2 ^ 62 + slot 0)) (flagIf fe fd false)))) ∧
    (∀ sb : Reg,
      let n := (reg s sa).toNat
      let e := reg s sb
      n < 4096 → e.toNat / 2 ^ 56 % 2 ^ 7 = 0 →
      (e.getLsbD 63 = true → e.toNat % 2 ^ 48 % 512 = n / 8 ∧ ∀ w < 8, 8 * (n / 8) + w ≠ n → (at_ (8 * (n / 8) + w)).getLsbD 63 = true →
        (at_ (8 * (n / 8) + w)).toNat % 2 ^ 48 ≠ e.toNat % 2 ^ 48) →
      changes (.tagSet nx sd sa sb ci) (at_ n) fun m => if m = n then e else at_ m) ∧
    (∀ w < 8, holds w → (∀ v < w, ¬ holds v) →
      changes (.tagInv nx sd sa ci false) (at_ (slot w)) fun m => if m = slot w then BitVec.ofNat 64 ((at_ m).toNat % 2 ^ 63) else at_ m) ∧
    ((∀ w < 8, ¬ holds w) → changes (.tagInv nx sd sa ci false) 0 at_) ∧
    changes (.tagInv nx sd sa ci true) (BitVec.ofNat 64 (tags.countP fun x => x.2.getLsbD 63)) fun m => BitVec.ofNat 64 ((at_ m).toNat % 2 ^ 63)

namespace Sys2Proof.Machine

/-- Of CONTROL space only entry k has changed, and its place in the ready lists and ages. -/
def onlyEntry (s u : State) (k : Nat) : Prop :=
  u.mem = s.mem ∧ u.spans = s.spans ∧ u.tiles = s.tiles ∧ u.clusters = s.clusters ∧
  (∀ j, j ≠ k → tget u.ctl.entries j 0 = tget s.ctl.entries j 0) ∧ u.ctl.launches = s.ctl.launches ∧ u.ctl.qctl = s.ctl.qctl ∧
  u.ctl.tenants = s.ctl.tenants ∧ u.ctl.windows = s.ctl.windows ∧ u.ctl.owners = s.ctl.owners
/-- Word 0 of an entry with PCNT n, and a word 7 with a state and nothing else. -/
def withPcnt (w : Word) (n : Nat) : Word := BitVec.ofNat 64 (w.toNat / 2 ^ 32 * 2 ^ 32 + n % 2 ^ 32)

end Sys2Proof.Machine

/-- R108 to R110, R114, R115, R127 to R130, R426: dep.read gives a word of the entry; dep.set replaces the image of a resting entry and
changes no other; dep.dec takes from PCNT of an ARMED entry, and at zero makes it READY at the end of its queue's list; arm sets PCNT
and arms a resting entry of a queue that allows it; kill kills an ARMED or READY entry at once, and the launch of a RUNNING one (R416, R417),
of which it gives nothing where the launch is its own; an entry in another state it leaves; kill.wait ends once the launch it kills, or one
of the entry that is being killed already, is gone. Each but dep.read gives what stood before. The model's choice (log 74, DEDUCED): the job
elements of the killed launch that are in flight are discarded.

It concludes that exec answers a next state with this effect, on conditions on the state and the operands alone, for depSet,
depDec, depRead, arm, kill. -/
def Obligations.LaunchWordsChangeEntries : Prop :=
  ∀ (nx : Nx) (sd sa : Reg) (s : State) (k : Nat),
    let a := (operands s sa 0 0).1
    let e (u : State) (i : Nat) : Word := entryW u k i
    let st := (e s 7).toNat / 2 ^ 60
    let pc := (e s 0).toNat % 2 ^ 32
    let resting := st = 0 ∨ st = 4 ∨ st = 5 ∨ st = 6
    let list (u : State) : List Nat := tget u.ctl.ready (k / 4096 * 64 + (e s 0).toNat / 2 ^ 54 % 2 ^ 6) []
    let ends (i : Instr) (v : Word) (q : State → Prop) : Prop := ∃ u t, exec i s = .next t ∧
      WordEnds u t s.cur.sp s.cur.h s.cur.pc nx (target s sd) v none ∧ onlyEntry s u k ∧ q u
    (entryPtr s (reg s sa) = .ok k → ∀ w : BitVec 3, ends (.depRead nx sd sa w) (e s w.toNat) fun u => u = s) ∧
    (∀ (sb : Reg) (bs : List Byte) (s1 : State),
      let b := (operands s sa sb 0).2.1
      entryPtr s a = .ok k → ptrOk b 56 = true → hRead s b 56 8 = .ok (bs, s1) →
      let ws := wordsOf 7 bs
      (curTenant s = 0 ∨ (nth ws 0 0).toNat / 2 ^ 60 = curTenant s) → (nth ws 0 0).toNat / 2 ^ 32 % 2 ^ 13 = 0 → (nth ws 3 0).toNat % 2 ^ 32 = 0 →
      ends (.depSet nx sd sa sb) (e s 7) fun u =>
        (resting → (∀ i < 7, e u i = nth ws i 0) ∧ e u 7 = 0) ∧ (¬ resting → tget u.ctl.entries k 0 = tget s.ctl.entries k 0)) ∧
    (∀ n : BitVec 10, entryPtr s a = .ok k → relWaits s .module = false →
      ends (.depDec nx sd sa n) (BitVec.ofNat 64 (pc + st * 2 ^ 32)) fun u =>
        (st = 1 → n.toNat ≤ pc → e u 0 = withPcnt (e s 0) (pc - n.toNat) ∧
          (n.toNat < pc → e u 7 = e s 7 ∧ u.ctl.ready = s.ctl.ready) ∧
          (n.toNat = pc → (e u 7).toNat / 2 ^ 60 = 2 ∧ list u = list s ++ [k])) ∧
        (st ≠ 1 ∨ pc < n.toNat → tget u.ctl.entries k 0 = tget s.ctl.entries k 0 ∧ u.ctl.ready = s.ctl.ready)) ∧
    (∀ sb : Reg,
      let b := (operands s sa sb 0).2.1
      entryPtr s a = .ok k → relWaits s .module = false →
      (resting → armCheck s k = true → ends (.arm nx sd sa sb) (e s 7) fun u => e u 0 = withPcnt (e s 0) b.toNat ∧
        (b.toNat % 2 ^ 32 ≠ 0 → (e u 7).toNat = 2 ^ 60 ∧ u.ctl.ready = s.ctl.ready) ∧
        (b.toNat % 2 ^ 32 = 0 → (e u 7).toNat = 2 * 2 ^ 60 ∧ list u = list s ++ [k])) ∧
      (¬ resting → ends (.arm nx sd sa sb) (e s 7) fun u => u = s)) ∧
    (∀ (wait : Bool) (slot : Nat), s.cur.latch = none → entryPtr s (reg s sa) = .ok k → st = 3 → slotOfEntry s k = some slot → (getL s slot).entry = k →
      let i : Instr := .kill nx sd sa wait
      (s.cur.sp ∈ spansOf s slot → ∃ t, exec i s = .next t ∧ LaunchKilled s t slot 0x11) ∧
      (s.cur.sp ∉ spansOf s slot → (curSpan s).ended = false → ∃ u t, exec i s = .next t ∧ LaunchKilled s u slot 0x11 ∧
        (wait = false → WordEnds u t s.cur.sp s.cur.h s.cur.pc nx (target s sd) (e s 7) none) ∧
        (wait = true → Stays u t (.wait i (reg s sa) (e s 7) 0 (getL s slot).uid)))) ∧
    (∀ wait : Bool, s.cur.latch = none → entryPtr s (reg s sa) = .ok k → st ≠ 1 → st ≠ 2 → st ≠ 3 → (curSpan s).ended = false →
      let dying (x : Nat × Launch) : Prop := x.2.v = true ∧ x.2.entry = k ∧ x.2.sst = .killing
      ((wait = false ∨ st ≠ 6 ∨ ∀ x ∈ s.ctl.launches, ¬ dying x) → ends (.kill nx sd sa wait) (e s 7) fun u => u = s) ∧
      (wait = true → st = 6 → (∃ x ∈ s.ctl.launches, dying x) → ∃ x ∈ s.ctl.launches, dying x ∧ ∃ t, exec (.kill nx sd sa wait) s = .next t ∧
        Stays s t (.wait (.kill nx sd sa wait) (reg s sa) (e s 7) 0 (getL s x.1).uid))) ∧
    (∀ (wait : Bool) (a old e : Word) (uid : Nat), s.cur.latch = some (a, old, e, uid) →
      let going := ∃ x ∈ s.ctl.launches, x.2.v = true ∧ x.2.uid = uid ∧ x.2.sst = .killing
      (going → ∃ t, exec (.kill nx sd sa wait) s = .next t ∧ Stays s t (.wait (.kill nx sd sa wait) a old e uid)) ∧
      (¬ going → ∃ t, exec (.kill nx sd sa wait) s = .next t ∧ WordEnds s t s.cur.sp s.cur.h s.cur.pc nx (target s sd) old none)) ∧
    ∀ wait : Bool, s.cur.latch = none → entryPtr s (reg s sa) = .ok k → st = 1 ∨ st = 2 → (curSpan s).ended = false →
      ends (.kill nx sd sa wait) (e s 7) fun u => e u 7 = BitVec.ofNat 64 (6 * 2 ^ 60 + 17 * 2 ^ 52) ∧ (∀ i < 7, e u i = e s i) ∧
        ∀ l ∈ u.ctl.ready, k ∉ l.2

/-! ## Element slots (R170 to R178, R196 to R224) -/

namespace Sys2Proof.Machine

/-- Slot e of tile g holds opcode `opc` and is the one the issue selector takes next: its context c, the selector state and the rotation
pointer after it (R170, R174). -/
structure Turn (s : State) (g e opc : Nat) (c : Ctx) (x : BitVec 32) (rot : Nat) : Prop where
  ctx : ctxOf s g e = some c
  picked : selectorPick s g = some (e, x, rot)
  opcode : c.opc = opc
/-- The firing is ordered after what the tokens of its inputs `ins` carry (R392). -/
def joined (c : Ctx) (ins : List Nat) : State :=
  ins.foldl (fun s j => markJoin s c.sp (.slot c.t c.e) (qBuf c.t (3 * c.e + j)) 0) c.s
/-- The machine after a firing: on the state s1 its inputs `ins` have lost their heads, the slot keeps `el`, counts the firing and no
longer contends in this cycle, the vector unit is taken for the issue interval, and the tokens `outs` are placed on every link of their
outputs. -/
def afterFiring (c : Ctx) (x : BitVec 32) (rot : Nat) (ins : List Nat) (outs : List (Nat × Token)) (el : Elem) (s1 : State) : State :=
  let d := now c.s + interval c
  outs.foldl (fun s o => emit s c.sp c.t (0x10 + 2 * c.e + o.1) o.2)
    (updTile (ins.foldl (fun s j => markDrop s c.sp (qBuf c.t (3 * c.e + j)) 0) s1) c.t fun T =>
      let T' := ins.foldl (fun T j => popHead T (3 * c.e + j)) T
      { T' with x := x, rot := rot, unitFree := d, seen := T'.seen.map fun l => tdel l c.e, elems := tput T'.elems c.e { el with f := c.el.f + 1, age := 0, busy := d } })
/-- A firing that changes nothing else. -/
def fired (c : Ctx) (x : BitVec 32) (rot : Nat) (ins : List Nat) (outs : List (Nat × Token)) (el : Elem) : State :=
  afterFiring c x rot ins outs el (joined c ins)
/-- The code of lane i of a word of lanes of format `fmt`. -/
def laneOf (fmt : Nat) (w : Wide) (i : Nat) : Nat := w.toNat / 2 ^ (fmtWidth fmt * i) % 2 ^ fmtWidth fmt
/-- A firing of a slot whose named inputs show the words w j: it consumes them and places one word on each of its outputs, whose lane i
is `lane o i`; nothing else happens. -/
def firesWords (i : Nat → Nat → Instr) (c : Ctx) (x : BitVec 32) (rot : Nat) (L : Nat → Nat) (lane : Nat → Nat → Nat) (os : List Nat) : Prop :=
  ∃ v : Nat → Wide, exec (i c.t c.e) c.s = .next (fired c x rot (namedIns c.T c.e) (os.map fun o => (o, .word (v o))) c.el) ∧
    ∀ o ∈ os, ∀ k < L o, laneOf (c.ofmt o) (v o) k = lane o k % 2 ^ fmtWidth (c.ofmt o)
/-- One evaluation of LH128 for lane i of an output of L lanes, with counter word c3: key PSEED0 to PSEED3, destination index n of R200. -/
def laneDraw (c : Ctx) (L i c3 : Nat) : Q4 :=
  let n := (c.ti * 8 + c.e) % 2 ^ 16 * 2 ^ 32 + (c.el.f * L + i) % 2 ^ 32
  let k (m : Nat) : W32 := BitVec.ofNat 32 (csrOf c.x.csrs m)
  lh128 (k 0x10, k 0x11, k 0x12, k 0x13)
    (BitVec.ofNat 32 n, BitVec.ofNat 32 (n / 2 ^ 32 + csrOf c.x.csrs 0x14 % 2 ^ 16 * 2 ^ 16), k 0x16, BitVec.ofNat 32 c3)
/-- A value rounded once into lane i of output o (R200, R33). -/
def roundedLane (c : Ctx) (o i : Nat) (sat : Bool) (v : XV) : Nat :=
  enc (c.ofmt o) c.rm sat (if c.rm = .sr then (laneDraw c (c.olan o) i 1).1.toNat else 0) v
/-- The constant of R201 as an integer and as an exact value. -/
def immInt (fmt imm : Nat) : Int := if fmt = 0x26 then (BitVec.ofNat 32 imm).toInt else intOf fmt imm
def immVal (fmt imm : Nat) : XV := if isInt fmt then .ofInt (immInt fmt imm) else dec 0x24 imm

/-- The floating-point group (R207), vexp2 and vlog2 (R208), vcvt (R213): exact result of lanes a, b and c, under RDN or not. -/
def floatRules : List ((Nat → Nat → Instr) × Nat × (Bool → XV → XV → XV → XV)) :=
  [ (.vadd, 0x01, fun rdn a b _ => a.add rdn b), (.vsub, 0x02, fun rdn a b _ => a.add rdn b.neg), (.vmul, 0x03, fun _ a b _ => a.mul b)
  , (.vfma, 0x04, fun rdn a b c => (a.mul b).add rdn c), (.vmin, 0x05, fun _ a b _ => a.vmin b), (.vmax, 0x06, fun _ a b _ => a.vmax b)
  , (.vabs, 0x07, fun _ a _ _ => a.abs), (.vneg, 0x08, fun _ a _ _ => a.neg), (.vdiv, 0x09, fun _ a b _ => a.div b)
  , (.vsqrt, 0x0A, fun _ a _ _ => a.sqrt), (.vexp2, 0x0B, fun _ a _ _ => a.exp2), (.vlog2, 0x0C, fun _ a _ _ => a.log2)
  , (.vcvt, 0x28, fun _ a _ _ => a) ]
/-- The integer group (R210): the exact result of lanes a and b as integers. -/
def integerRules : List ((Nat → Nat → Instr) × Nat × (Int → Int → Int)) :=
  [ (.viadd, 0x10, (· + ·)), (.visub, 0x11, (· - ·)), (.vimul, 0x12, (· * ·)), (.vimin, 0x18, min), (.vimax, 0x19, max) ]
/-- Its bitwise and shift opcodes, on the w-bit codes of lanes a and b; `ar` is SUB[0], `sg` says that the format has a sign. -/
def codeRules : List ((Nat → Nat → Instr) × Nat × (Nat → Bool → Bool → Nat → Nat → Nat)) :=
  [ (.vand, 0x13, fun _ _ _ a b => a &&& b), (.vor, 0x14, fun _ _ _ a b => a ||| b), (.vxor, 0x15, fun _ _ _ a b => a ^^^ b)
  , (.vshl, 0x16, fun w _ _ a b => a * 2 ^ (b % w))
  , (.vshr, 0x17, fun w ar sg a b =>
      if ar && sg && decide (2 ^ (w - 1) ≤ a) then 2 ^ w - 1 - (2 ^ w - 1 - a) / 2 ^ (b % w) else a / 2 ^ (b % w)) ]
/-- The conditions of vcmp (R211). -/
def vcompares (cond : Nat) (a b : XV) : Bool :=
  let lt := a.lt b
  let eq := a.eq b
  match cond with | 0 => eq | 1 => !eq | 2 => lt | 3 => lt || eq | 4 => b.lt a | _ => b.lt a || eq

end Sys2Proof.Machine

/-- R198, R200, R201, R207 to R209, R213, R214, R219: the floating-point opcodes, the conversions, vscale and vnoise fire when the
selector takes their slot: lane i of the result is the exact result of the lanes i of the inputs, rounded once to the output format. The
model's choice (log 46, DEDUCED): vscale takes a power of two beyond 2^±5,000, where R214 scales exactly, as one at that bound.

It concludes that exec answers a next state with this effect, on conditions on the state and the operands alone, for vadd, vsub,
vmul, vfma, vmin, vmax, vabs, vneg, vdiv, vsqrt, vexp2, vlog2, vrcpe, vrsqe, vcvt, vscale, vnoise. -/
def Obligations.FloatElementsComputeLanes : Prop :=
  ∀ (s : State) (g e opc : Nat) (c : Ctx) (x : BitVec 32) (rot : Nat) (w : Nat → Wide), Turn s g e opc c x rot →
    (∀ j ∈ namedIns c.T c.e, c.tok j = .word (w j) ∧ c.lan j = c.lan 0) → c.olan 0 = c.lan 0 → c.lan 0 * fmtWidth (c.ofmt 0) ≤ 512 →
    let val (j i : Nat) : XV := dec (c.fmt j) (laneOf (c.fmt j) (w j) i)
    let b (i : Nat) : XV := if isSet c.sub 7 then immVal (c.fmt 0) c.imm else val 1 i
    let fires (i : Nat → Nat → Instr) (lane : Nat → Nat) : Prop := firesWords i c x rot (fun _ => c.lan 0) (fun _ k => lane k) [0]
    (∀ r ∈ floatRules, opc = r.2.1 → fires r.1 fun i => roundedLane c 0 i c.sat (r.2.2 (c.rm == .rdn) (val 0 i) (b i) (val 2 i))) ∧
    (let est (v : XV) : Nat := enc 0x22 .rne false 0 v * (if c.ofmt 0 = 0x22 then 1 else 2 ^ 16)
     (opc = 0x0D → fires .vrcpe fun i => est (XV.one.div (val 0 i))) ∧
     (opc = 0x0E → fires .vrsqe fun i => est (XV.one.div (val 0 i).sqrt))) ∧
    (opc = 0x29 → fires .vscale fun i =>
      let k : Int := if isSet c.sub 7 then (BitVec.ofNat 32 c.imm).toInt else intOf (c.fmt 1) (laneOf (c.fmt 1) (w 1) i)
      roundedLane c 0 i c.sat ((val 0 i).scale (max (-5000) (min 5000 k)))) ∧
    (opc = 0x32 → fires .vnoise fun i =>
      let q := laneDraw c (c.lan 0) i 3
      if c.sub % 4 = 2 then q.1.toNat
      else
        let g := if c.sub % 4 = 0 then (XV.ofInt ((q.1.toNat / 2 ^ 8 : Nat) : Int)).scale (-24) else gauss q
        roundedLane c 0 i c.sat ((val 0 i).add (c.rm == .rdn) ((dec 0x24 c.imm).mul g)))

/-- R210 to R212, R225 to R227: the integer opcodes wrap or clamp the exact result, the bitwise ones and the shifts work on codes, vcmp
gives 1 or 0, vsel takes the lane of B or C, and the movements move lanes.

It concludes that exec answers a next state with this effect, on conditions on the state and the operands alone, for viadd, visub,
vimul, vand, vor, vxor, vshl, vshr, vimin, vimax, vcmp, vsel, vperm, vbcast, vpack, vunpack, vslide. -/
def Obligations.IntegerElementsComputeLanes : Prop :=
  ∀ (s : State) (g e opc : Nat) (c : Ctx) (x : BitVec 32) (rot : Nat) (w : Nat → Wide), Turn s g e opc c x rot →
    (∀ j ∈ namedIns c.T c.e, c.tok j = .word (w j)) → (∀ o, c.olan o * fmtWidth (c.ofmt o) ≤ 512) →
    let L := c.lan 0
    let wd := fmtWidth (c.ofmt 0)
    let code (j i : Nat) : Nat := laneOf (c.fmt j) (w j) i
    let fires (i : Nat → Nat → Instr) (lane : Nat → Nat) : Prop := firesWords i c x rot (fun _ => c.olan 0) (fun _ k => lane k) [0]
    (c.olan 0 = L → (∀ j ∈ namedIns c.T c.e, c.lan j = L) →
      let bi (i : Nat) : Int := if isSet c.sub 7 then immInt (c.fmt 0) c.imm else intOf (c.fmt 1) (code 1 i)
      (∀ r ∈ integerRules, opc = r.2.1 → isInt (c.ofmt 0) = true → fires r.1 fun i =>
        let v : Int := r.2.2 (intOf (c.fmt 0) (code 0 i)) (bi i)
        let lo : Int := if c.ofmt 0 = 0x21 then 0 else -(((2 ^ (wd - 1) : Nat)) : Int)
        let hi : Int := if c.ofmt 0 = 0x21 then 255 else (((2 ^ (wd - 1) : Nat)) : Int) - 1
        ((if c.sat then max lo (min hi v) else v) % ((2 ^ wd : Nat) : Int)).toNat) ∧
      (∀ r ∈ codeRules, opc = r.2.1 → isInt (c.ofmt 0) = true → c.fmt 0 = c.ofmt 0 → (isSet c.sub 7 = false → c.fmt 1 = c.ofmt 0) → fires r.1 fun i =>
        r.2.2 wd (isSet c.sub 0) (c.ofmt 0 != 0x21) (code 0 i) ((bi i) % ((2 ^ wd : Nat) : Int)).toNat) ∧
      (opc = 0x20 → fires .vcmp fun i =>
        let a := dec (c.fmt 0) (code 0 i)
        let b := if isSet c.sub 7 then immVal (c.fmt 0) c.imm else dec (c.fmt 1) (code 1 i)
        if vcompares (c.sub % 8) a b then 1 else 0) ∧
      (opc = 0x21 → fires .vsel fun i => if code 0 i ≠ 0 then code 1 i else code 2 i) ∧
      (opc = 0x40 → fires .vperm fun i =>
        let b := intOf (c.fmt 1) (code 1 i)
        if 0 ≤ b ∧ b < (L : Int) then code 0 b.toNat else 0)) ∧
    (opc = 0x41 → c.imm % 128 < L → fires .vbcast fun _ => code 0 (c.imm % 128)) ∧
    (opc = 0x42 → c.lan 1 = L → c.olan 0 = 2 * L → fires .vpack fun i => if i < L then code 0 i else code 1 (i - L)) ∧
    (opc = 0x43 → L = 2 * c.olan 0 → c.olan 1 = c.olan 0 →
      firesWords .vunpack c x rot (fun _ => c.olan 0) (fun o i => code 0 (o * c.olan 0 + i)) [0, 1]) ∧
    (opc = 0x44 → c.olan 0 = L → c.imm % 128 ≤ L →
      let n := c.imm % 128
      let prev (i : Nat) : Nat := match c.el.held with | some (.word v) => laneOf (c.fmt 0) v i | _ => 0
      ∃ v, exec (.vslide g e) s = .next (fired c x rot [0] [(0, .word v)] { c.el with held := some (.word (w 0)) }) ∧
        ∀ i < L, laneOf (c.ofmt 0) v i = (if n ≤ i then code 0 (i - n) else prev (L - n + i)) % 2 ^ wd)

namespace Sys2Proof.Machine

/-- Lanes of a block: block b of k lanes. -/
def inBlock {α : Type} (f : Nat → α) (k b : Nat) : List α := (List.range k).map fun i => f (b * k + i)

end Sys2Proof.Machine

/-- R215 to R217: vquant scales each block by a power of two, or divides it by its given scale, and rounds with saturation; vdeq
multiplies by the block's scale; vdot gives the exact sum of a group's products, clamped, wrapped or rounded once.

It concludes that exec answers a next state with this effect, on conditions on the state and the operands alone, for vquant, vdeq,
vdot. -/
def Obligations.BlockElementsComputeLanes : Prop :=
  ∀ (s : State) (g e opc : Nat) (c : Ctx) (x : BitVec 32) (rot : Nat) (w : Nat → Wide), Turn s g e opc c x rot →
    (∀ j ∈ namedIns c.T c.e, c.tok j = .word (w j)) → (∀ o, c.olan o * fmtWidth (c.ofmt o) ≤ 512) →
    let G := 2 ^ (c.sub % 8)
    let L := c.lan 0
    let val (j i : Nat) : XV := dec (c.fmt j) (laneOf (c.fmt j) (w j) i)
    let int (j i : Nat) : Int := intOf (c.fmt j) (laneOf (c.fmt j) (w j) i)
    L % G = 0 → L ≠ 0 →
    (opc = 0x2A → isSet c.sub 3 = false → c.olan 0 = L → c.olan 1 = L / G →
      let bad (b : Nat) : Prop := ∃ a ∈ inBlock (val 0) G b, a.isFin = false
      ∀ m : Nat → XV, (∀ b < L / G, ¬ bad b → (∃ a ∈ inBlock (val 0) G b, (m b).eq a.abs = true) ∧ ∀ a ∈ inBlock (val 0) G b, (m b).lt a.abs = false) →
      ∃ v0 v1, exec (.vquant g e) s = .next (fired c x rot [0] [(0, .word v0), (1, .word v1)] c.el) ∧
        ∀ b < L / G,
          (bad b → laneOf (c.ofmt 1) v1 b = 0xFF % 2 ^ fmtWidth (c.ofmt 1) ∧ ∀ i < G, laneOf (c.ofmt 0) v0 (b * G + i) = 0) ∧
          (¬ bad b →
            let sc : Nat := if (m b).isZero then 0x7F else (max 0 (min 254 ((m b).log2f - emaxOf (c.ofmt 0) + 127))).toNat
            laneOf (c.ofmt 1) v1 b = sc % 2 ^ fmtWidth (c.ofmt 1) ∧
            ∀ i < G, laneOf (c.ofmt 0) v0 (b * G + i) =
              roundedLane c 0 (b * G + i) true ((val 0 (b * G + i)).scale (127 - (sc : Int))) % 2 ^ fmtWidth (c.ofmt 0))) ∧
    (opc = 0x2A → isSet c.sub 3 = true → c.olan 0 = L → c.lan 1 = L / G →
      firesWords .vquant c x rot (fun _ => L) (fun _ i =>
        let sc := val 1 (i / G)
        if sc.isNan ∨ sc.isZero then 0 else roundedLane c 0 i true ((val 0 i).div sc)) [0]) ∧
    (opc = 0x2B → c.olan 0 = L → c.lan 1 = L / G →
      firesWords .vdeq c x rot (fun _ => L) (fun _ i =>
        let sc := val 1 (i / G)
        roundedLane c 0 i c.sat (if sc.isZero then (if (val 0 i).isFin then .zero else .nan) else (val 0 i).mul sc)) [0]) ∧
    (opc = 0x30 → c.lan 1 = L → c.olan 0 = L / G → (isSet c.sub 3 = true → c.lan 2 = L / G) →
      (isInt (c.ofmt 0) = true → firesWords .vdot c x rot (fun _ => L / G) (fun _ b =>
        let wd := fmtWidth (c.ofmt 0)
        let v : Int := (inBlock (fun i => int 0 i * int 1 i) G b).sum + if isSet c.sub 3 then int 2 b else 0
        let m : Int := ((2 ^ (wd - 1) : Nat) : Int)
        ((if c.sat then max (-m) (min (m - 1) v) else v) % ((2 ^ wd : Nat) : Int)).toNat) [0]) ∧
      (isInt (c.ofmt 0) = false → firesWords .vdot c x rot (fun _ => L / G) (fun _ b =>
        roundedLane c 0 b c.sat (exactSum (inBlock (fun i => (val 0 i).mul (val 1 i)) G b ++ if isSet c.sub 3 then [val 2 b] else []))) [0]))

namespace Sys2Proof.Machine

/-- A value code ranks before another: larger first, NaN last (R220). -/
def outranks (fmt a b : Nat) : Bool :=
  !(dec fmt a).isNan && ((dec fmt b).isNan || (dec fmt b).lt (dec fmt a))
/-- A code as a result shows it: a NaN is the canonical one of its format (R23). -/
def canonical (fmt a : Nat) : Nat := if (dec fmt a).isNan then enc fmt .rne false 0 .nan else a
/-- The k best pairs of a list, in rank order, equal values in the order of the list. -/
def kBest (fmt k : Nat) (l : List (BitVec 64 × BitVec 32)) : List (BitVec 64 × BitVec 32) :=
  (l.mergeSort fun a b => !outranks fmt b.1.toNat a.1.toNat).take k
/-- The operations of vred, vscan and rnet on exact values (a sum is rounded once to the output format) and on integers. -/
def foldsF (fo : Nat) (sat : Bool) (op : Nat) (a b : XV) : XV :=
  match op with | 0 => dec fo (enc fo .rne sat 0 (a.add false b)) | 2 => a.vmin b | _ => a.vmax b
def foldsI (op : Nat) (a b : Int) : Int := match op with | 0 => a + b | 2 => min a b | _ => max a b
/-- The code of an integer result, clamped or wrapped to its format (R21). -/
def intCode (fo : Nat) (sat : Bool) (v : Int) : Nat :=
  let w := fmtWidth fo
  let m : Int := ((2 ^ (w - 1) : Nat) : Int)
  let u := if fo = 0x21 then max 0 (min 255 v) else max (-m) (min (m - 1) v)
  ((if sat then u else v) % ((2 ^ w : Nat) : Int)).toNat

end Sys2Proof.Machine

namespace Sys2Proof.Machine

/-- The operations of the network on exact values: of equal values, as of the two zeros, the extremes keep that of the lower tile, which
stands first (R44, R224). -/
def netsF (fo : Nat) (sat : Bool) (op : Nat) (a b : XV) : XV :=
  match op with
  | 0 => foldsF fo sat 0 a b
  | 2 => if a.isNan || b.isNan then .nan else if b.lt a then b else a
  | _ => if a.isNan || b.isNan then .nan else if a.lt b then b else a
/-- Two machines differ at most in the order of events kept for deterministic mode (R391, R392). -/
def sameButOrder (t u : State) : Prop :=
  { t with net := { t.net with marks := u.net.marks, clocks := u.net.clocks } } = u
/-- The result of a round of the reduction network from the contributions in ascending tile index (R224): res is the value token, and the
id token of `.topk`. -/
def roundGives (c : Ctx) (cs : List (Token × Token)) (res : Token × Token) : Prop :=
  let ws : List (Wide × Wide) := cs.filterMap fun x => match x.1 with
    | .word a => some (a, match x.2 with | .word b => b | _ => 0)
    | _ => none
  let k := c.lan 0
  let op := c.sub % 8
  let wd := fmtWidth (c.ofmt 0)
  (ws = [] → res = (.empty, .empty)) ∧
  (ws ≠ [] → op = 3 →
    let pairs := ws.flatMap fun w => (List.range k).map fun i => (BitVec.ofNat 64 (canonical (c.fmt 0) (laneOf (c.fmt 0) w.1 i)), BitVec.ofNat 32 (laneOf 0x25 w.2 i))
    ∃ v0 v1, res = (.word v0, .word v1) ∧ ∀ i < k, ∃ p, (kBest (c.fmt 0) k pairs)[i]? = some p ∧
      laneOf (c.ofmt 0) v0 i = p.1.toNat % 2 ^ wd ∧ laneOf 0x25 v1 i = p.2.toNat) ∧
  (ws ≠ [] → op ≠ 3 → ∃ v, res = (.word v, .empty) ∧ ∀ i < k,
    let l := ws.map fun w => laneOf (c.fmt 0) w.1 i
    laneOf (c.ofmt 0) v i = (if isIeee (c.fmt 0) then enc (c.ofmt 0) .rne c.sat 0 ((treeFold (netsF (c.ofmt 0) c.sat op) 70 (l.map (dec (c.fmt 0)))).getD .zero)
      else intCode (c.ofmt 0) c.sat ((treeFold (foldsI op) 70 (l.map (intOf (c.fmt 0)))).getD 0)) % 2 ^ wd)

end Sys2Proof.Machine

/-- R220 to R222: vtopk keeps the best pairs of a group of words, NaNs as the canonical one, and emits them at its last; vred reduces each block of a word in the tree
and folds the words of a group; vscan emits the running results of each word; an empty token counts towards the group. The model's choices:
SAT of a float sum clamps at every addition, and a vscan group open at the drain gives one empty token (log 43, DEDUCED); vscan's extremes
follow vmax and vmin with a NaN and with zeros of both signs (log 127, DESIGN CHOICE).

R223, R224: an rnet firing joins its tokens to the slot's next round; RNET_ROUND_RESULT combines a round once every participant of the
group has contributed to it, removes it from each, and places the slot's oldest result on its outputs when they have room. The model's
choices: SAT of a float sum clamps at every addition (log 43, DEDUCED); a .topk contribution with an empty token on one input counts as empty
(log 124, DESIGN CHOICE); a NaN stays in an extreme (log 125, DESIGN CHOICE).

It concludes that exec answers a next state with this effect, on conditions on the state and the operands alone, for vtopk, vred,
vscan, rnet, rnetRoundResult. -/
def Obligations.GroupsAndNetworkCombine : Prop :=
  (∀ (s : State) (g e opc : Nat) (c : Ctx) (x : BitVec 32) (rot : Nat), Turn s g e opc c x rot → c.olan 0 * fmtWidth (c.ofmt 0) ≤ 512 →
     let L := c.lan 0
     let W := c.imm % 2 ^ 24
     let fin := c.mustFinish
     let ins : List Nat := if fin then [] else [0]
     let last : Prop := fin = true ∨ W ≤ c.el.grp + 1
     let ends (i : Instr) (outs : List (Nat × Token)) (el : Elem) : Prop := exec i s = .next (fired c x rot ins outs el)
     let word (w : Wide) : Prop := fin = false ∧ c.tok 0 = .word w
     let blank : Prop := fin = true ∨ c.tok 0 = .empty
     (opc = 0x33 → c.olan 0 = 2 ^ (c.sub % 4) → c.olan 1 = 2 ^ (c.sub % 4) → c.olan 1 * fmtWidth (c.ofmt 1) ≤ 512 →
       c.el.cand.Pairwise (fun a b => outranks (c.fmt 0) b.1.toNat a.1.toNat = false) →
       let k := 2 ^ (c.sub % 4)
       c.el.cand.length ≤ k →
       ∀ new : List (BitVec 64 × BitVec 32), (blank ∧ new = []) ∨ (∃ w, word w ∧ new = (List.range L).map fun i =>
           (BitVec.ofNat 64 (canonical (c.fmt 0) (laneOf (c.fmt 0) w i)), BitVec.ofNat 32 (c.el.grp * L + i))) →
       let best := kBest (c.fmt 0) k (c.el.cand ++ new)
       (¬ last → ends (.vtopk g e) [] { c.el with cand := best, grp := c.el.grp + 1 }) ∧
       (last → ∃ v0 v1, ends (.vtopk g e) [(0, .word v0), (1, .word v1)] { c.el with cand := [], grp := 0 } ∧
         ∀ i < k,
           laneOf (c.ofmt 0) v0 i = (match best[i]? with
             | some p => p.1.toNat
             | none => if c.fmt 0 = 0x25 then 2 ^ 31 else enc (c.fmt 0) .rne false 0 (.inf true)) % 2 ^ fmtWidth (c.ofmt 0) ∧
           laneOf (c.ofmt 1) v1 i = (match best[i]? with | some p => p.2.toNat | none => 2 ^ 32 - 1) % 2 ^ fmtWidth (c.ofmt 1))) ∧
     (opc = 0x38 →
       let G := 2 ^ (c.sub % 8)
       let n := L / G
       let op := c.sub / 2 ^ 3 % 2 ^ 3
       let flt := isIeee (c.fmt 0)
       c.olan 0 = n → L % G = 0 → L ≠ 0 → (c.el.carry ≠ [] → c.el.carry.length = n) →
       ∀ acc : List Int,
         (blank ∧ acc = c.el.carry) ∨ (∃ w, word w ∧
           let lane (i : Nat) : Nat := laneOf (c.fmt 0) w i
           let first (b : Nat) : Int :=
             if flt then
               let f (i : Nat) : XV := if op = 3 then (dec (c.fmt 0) (lane i)).abs else dec (c.fmt 0) (lane i)
               ((enc 0x24 .rne false 0 ((treeFold (foldsF (c.ofmt 0) c.sat op) 64 (inBlock f G b)).getD .zero) : Nat) : Int)
             else
               let f (i : Nat) : Int := if op = 3 then ((intOf (c.fmt 0) (lane i)).natAbs : Int) else intOf (c.fmt 0) (lane i)
               (inBlock f G b).tail.foldl (foldsI op) (f (b * G))
           acc = (List.range n).map fun b => match c.el.carry[b]? with
             | none => first b
             | some a => if flt then ((enc 0x24 .rne false 0 (foldsF (c.ofmt 0) c.sat op (dec 0x24 a.toNat) (dec 0x24 (first b).toNat)) : Nat) : Int)
                 else foldsI op a (first b)) →
       (¬ last → ends (.vred g e) [] { c.el with carry := acc, grp := c.el.grp + 1 }) ∧
       (last → acc = [] → ends (.vred g e) [(0, .empty)] { c.el with carry := [], grp := 0 }) ∧
       (last → acc ≠ [] → (flt = true ∨ isInt (c.ofmt 0) = true) → ∃ v, ends (.vred g e) [(0, .word v)] { c.el with carry := [], grp := 0 } ∧
         ∀ b < n, laneOf (c.ofmt 0) v b = (if flt then enc (c.ofmt 0) .rne c.sat 0 (dec 0x24 (acc.getD b 0).toNat)
           else intCode (c.ofmt 0) c.sat (acc.getD b 0)) % 2 ^ fmtWidth (c.ofmt 0))) ∧
     (opc = 0x39 → c.olan 0 = L →
       let op := c.sub / 2 ^ 3 % 2 ^ 3
       let fo := c.ofmt 0
       let flt := isIeee fo
       let wd := fmtWidth fo
       (flt = true ∨ isInt fo = true) →
       (blank → ends (.vscan g e) [(0, .empty)] (if last then { c.el with carry := [], grp := 0 } else { c.el with grp := c.el.grp + 1 })) ∧
       ∀ (w : Wide) (y : Nat → Nat), word w →
         y 0 = (match c.el.carry.head? with
           | some a => a.toNat
           | none =>
             if flt then enc fo .rne false 0 (match op with | 0 => .zero | 1 => .inf true | _ => .inf false)
             else match op with
               | 0 => 0
               | 1 => if fo = 0x21 then 0 else 2 ^ (wd - 1)
               | _ => if fo = 0x21 then 255 else 2 ^ (wd - 1) - 1) →
         (∀ i < L, y (i + 1) =
           let a := laneOf (c.fmt 0) w i
           if flt then enc fo .rne c.sat 0 (foldsF fo c.sat op (dec fo (y i)) (dec (c.fmt 0) a))
           else intCode fo c.sat (foldsI op (intOf fo (y i)) (intOf (c.fmt 0) a))) →
         ∃ v, ends (.vscan g e) [(0, .word v)]
             (if last then { c.el with carry := [], grp := 0 } else { c.el with carry := [(y L : Int)], grp := c.el.grp + 1 }) ∧
           ∀ i < L, laneOf fo v i = (if isSet c.sub 6 then y i else y (i + 1)) % 2 ^ wd)) ∧
  ((∀ (s : State) (g e : Nat) (c : Ctx) (x : BitVec 32) (rot : Nat), Turn s g e 0x3A c x rot →
     let a := c.tok 0
     let b := if c.sub % 8 = 3 then c.tok 1 else .empty
     let v : Token × Token := if a = .empty ∨ (c.sub % 8 = 3 ∧ b = .empty) then (.empty, .empty) else (a, b)
     let ins := namedIns c.T e
     exec (.rnet g e) s = .next (afterFiring c x rot ins [] { c.el with contrib := c.el.contrib ++ [v] }
       (markAdd (joined c ins) c.sp (qRound g e) c.el.contrib.length 0 (clockOf (joined c ins) (PortId.slot g e).num)))) ∧
   ∀ (s : State) (g e : Nat) (c : Ctx), ctxOf s g e = some c → c.opc = 0x3A →
     let outs := usedOuts c.T e c.receives
     let lanesOk : Prop := c.lan 0 * fmtWidth (c.ofmt 0) ≤ 512 ∧ (c.sub % 8 = 3 → c.lan 0 ≤ 8 ∧ fmtWidth (c.fmt 0) ≤ 64)
     let place (u : State) (r : Token × Token) : State :=
       outs.foldl (fun u o => emit u c.sp g (0x10 + 2 * e + o) (if o = 0 then r.1 else if r.1 = .empty then .empty else r.2)) u
     let gives (u : State) : Prop := ∃ t, exec (.rnetRoundResult g e) s = .next t ∧ sameButOrder t u
     (∀ ds : List Ctx, c.group.map (fun p => ctxOf s p.1 p.2) = ds.map some → (∀ d ∈ ds, d.el.contrib ≠ []) → (∃ d ∈ ds, d.receives = true) →
       (g, e) ∈ c.group → c.group.Nodup → c.group.length ≤ 4096 → lanesOk → (isIeee (c.fmt 0) = true ∨ isInt (c.ofmt 0) = true) →
       (∀ d ∈ ds, d.sub = c.sub ∧ d.lan 0 = c.lan 0 ∧ d.fmt 0 = c.fmt 0 ∧ (d.receives = true → d.ofmt 0 = c.ofmt 0) ∧ d.sat = c.sat) → c.receives = true →
       ∃ res, roundGives c (ds.map fun d => d.el.contrib.headD (.empty, .empty)) res ∧
         let u := ds.foldl (fun u d => updElem u d.t d.e fun y => { y with contrib := y.contrib.tail, res := if d.receives then y.res ++ [res] else y.res }) s
         ∀ r rest, c.el.res ++ [res] = r :: rest → (c.room outs = true → gives (place (updElem u g e fun y => { y with res := rest }) r)) ∧
           (c.room outs = false → gives u)) ∧
     ((∃ p ∈ c.group, ∀ d, ctxOf s p.1 p.2 = some d → d.el.contrib = []) →
       (c.el.res = [] → exec (.rnetRoundResult g e) s = .next s) ∧
       ∀ r rest, c.el.res = r :: rest → c.room outs = true →
         gives (place (updElem s g e fun y => { y with res := rest }) r)))

namespace Sys2Proof.Machine

/-- The opcodes whose empty tokens follow R74. -/
def policyOps : List ((Nat → Nat → Instr) × Nat) :=
  floatRules.map (fun r => (r.1, r.2.1)) ++ integerRules.map (fun r => (r.1, r.2.1)) ++ codeRules.map (fun r => (r.1, r.2.1)) ++
  [ (.vrcpe, 0x0D), (.vrsqe, 0x0E), (.vcmp, 0x20), (.vsel, 0x21), (.vscale, 0x29), (.vquant, 0x2A), (.vdeq, 0x2B), (.vdot, 0x30), (.vlut, 0x31)
  , (.vnoise, 0x32), (.vperm, 0x40), (.vbcast, 0x41), (.vpack, 0x42), (.mrdx, 0x62), (.mwrx, 0x63) ]
/-- Does a control token read as true (R228)? -/
def controlTrue (c : Ctx) (j : Nat) (tok : Token) : Bool :=
  match tok with | .word w => intOf (c.fmt j) (laneOf (c.fmt j) w 0) != 0 | _ => false

end Sys2Proof.Machine

/-- R74, R226, R227: a firing that meets an empty token on an input whose policy is ABS consumes its inputs and emits nothing; otherwise, under FWD,
it emits an empty token on each output; under CONST the input shows the constant in every lane. The model's choices: vunpack and vslide give an empty token on each output for an
empty token on A whatever its policy but CONST (log 44, DEDUCED); of a weight pair the constant is code 0 (log 119, DESIGN CHOICE).

R205: DRAIN_PASS: a slot whose conditions hold passes the drain token: one on every link of its outputs, its inputs' drain tokens
gone; on its cycle inputs it then discards what stands there until their drain token has come; the weight-preload input takes its own. The
model's choice (log 42, DEDUCED): an rnet slot does not pass the drain token while a result is still owed to it.

It concludes that exec answers a next state with this effect, on conditions on the state and the operands alone, for drainPass. -/
def Obligations.EmptyAndDrainTokensPass : Prop :=
  ((∀ (s : State) (g e opc : Nat) (c : Ctx) (x : BitVec 32) (rot : Nat), Turn s g e opc c x rot → c.tok 0 = .empty →
     let blank := (usedOuts c.T e true).map fun o => (o, Token.empty)
     (opc = 0x43 → exec (.vunpack g e) s = .next (fired c x rot (namedIns c.T e) blank c.el)) ∧
     (opc = 0x44 → exec (.vslide g e) s = .next (fired c x rot (namedIns c.T e) blank c.el))) ∧
   ∀ (s : State) (g e opc : Nat) (c : Ctx) (x : BitVec 32) (rot : Nat), Turn s g e opc c x rot → ∀ r ∈ policyOps, opc = r.2 →
     let ins := namedIns c.T e
     ((∃ j ∈ ins, c.head j = some .empty ∧ inPol c.T e j = 1) → exec (r.1 g e) s = .next (fired c x rot ins [] c.el)) ∧
     ((∀ j ∈ ins, c.head j = some .empty → inPol c.T e j ≠ 1) → (∃ j ∈ ins, c.head j = some .empty ∧ inPol c.T e j ≠ 2) →
       exec (r.1 g e) s = .next (fired c x rot ins ((usedOuts c.T e true).map fun o => (o, .empty)) c.el)) ∧
     ∀ j ∈ ins, c.head j = some .empty → inPol c.T e j = 2 → c.lan j * fmtWidth (c.fmt j) ≤ 512 →
       ∃ w, c.tok j = .word w ∧ ∀ i < c.lan j, laneOf (c.fmt j) w i = (match inSel c.T e j with
         | 0 => enc (c.fmt j) .rne true 0 .zero
         | 1 => enc (c.fmt j) .rne true 0 .one
         | 2 => if c.fmt j = 0x28 then 0 else enc (c.fmt j) .rne true 0 (.fin true 1 4000)
         | _ => enc (c.fmt j) .rne true 0 (.fin false 1 4000)) % 2 ^ fmtWidth (c.fmt j)) ∧
  (∀ (s : State) (g : Nat),
     (∀ (e : Nat) (c : Ctx), ctxOf s g e = some c → e < 8 → c.el.drained = false →
       let ins := namedIns c.T e
       let atDrain (j : Nat) : Prop := c.head j = some .drain
       let outs := usedOuts c.T e c.receives
       let may : Prop := if ins = [] then leafCount c.x ≤ tget c.x.seq g 0 ∧ c.el.busy ≤ now s
         else (if ∀ j ∈ ins, j ∈ c.cycleIns then ∃ j ∈ ins, atDrain j else ∀ j ∈ ins, j ∉ c.cycleIns → atDrain j) ∧
           (c.opc = 0x53 → c.el.cnt = 0) ∧ (c.opc = 0x3A → c.el.res = [] ∧ (c.el.contrib = [] ∨
             ∃ p ∈ c.group, (getElem s p.1 p.2).contrib = [] ∧ (getElem s p.1 p.2).drained = true))
       (¬ may → exec (.drainPass g e) s = .next s) ∧
       (may → c.mustFinish = false → c.el.busy ≤ now s → c.room outs = true →
         exec (.drainPass g e) s = .next (ins.foldl (fun s j => if j ∈ c.cycleIns then discardHead s c.sp g e j
           else markDrop (updTile s g fun T => popHead T (3 * e + j)) c.sp (qBuf g (3 * e + j)) 0)
           (outs.foldl (fun s o => emit s c.sp g (0x10 + 2 * e + o) .drain) (updElem s g e fun y => { y with drained := true, discard := c.cycleIns }))))) ∧
     (∀ (e : Nat) (c : Ctx), ctxOf s g e = some c → e < 8 → c.el.drained = true →
       exec (.drainPass g e) s = .next (c.el.discard.foldl (fun s j => discardHead s c.sp g e j) s)) ∧
     (headOf (getTile s g) 24 = some .drain → exec (.drainPass g 8) s =
       .next (markDrop (updTile s g fun T => popHead T 24) (portSpan s (.matrix g)) (qBuf g 24) 0)) ∧
     ∀ (sp e j : Nat), j < 3 → e < 8 →
       let T := getTile s g
       let t := discardHead s sp g e j
       (∀ tok l, tget T.bufs (3 * e + j) [] = tok :: l → tget (getTile t g).bufs (3 * e + j) [] = l ∧ t.mem = s.mem ∧
         (tok ≠ .drain → tget (getTile t g).elems e {} = tget T.elems e {}) ∧
         (tok = .drain → (tget (getTile t g).elems e {}).discard = (tget T.elems e {}).discard.filter (· != j))) ∧
       (tget T.bufs (3 * e + j) [] = [] → t = s))

/-- R228 to R236: steer, merge, gate, drop, limit, init, count, fill and copy consume and emit what their entries say.

R170, R173 to R177, R237: the issue selector takes nothing while the vector unit is occupied or no slot is ready that was so at the
cycle's start, with the tickets and the full/empty bit it had then; else the oldest contender with a
ticket and an age of at least 4,032, or the contender its draw points at, or the next in rotation; an event of another slot changes
nothing.

It concludes that exec answers a next state with this effect, on conditions on the state and the operands alone, for steer, merge,
gate, limit, init, count, drop, fill, copy. -/
def Obligations.TokensMoveAndSelectorDraws : Prop :=
  (∀ (s : State) (g e opc : Nat) (c : Ctx) (x : BitVec 32) (rot : Nat) (a b d : Option Token), Turn s g e opc c x rot →
     (∀ j, inPol c.T e j = 0) → c.head 0 = a → c.head 1 = b → c.head 2 = d →
     let is (t : Option Token) (tok : Token) : Prop := t = some tok ∧ tok ≠ .drain
     let none_ (t : Option Token) : Prop := t = none ∨ t = some .drain
     let does (i : Instr) (ins : List Nat) (outs : List (Nat × Token)) (el : Elem) : Prop := exec i s = .next (fired c x rot ins outs el)
     let fillsWith (w : Token) (o : Nat) (v : Nat) : Prop := ∃ u, w = .word u ∧ ∀ i < c.olan o, laneOf (c.ofmt o) u i = v % 2 ^ fmtWidth (c.ofmt o)
     let constant : Nat := if isInt (c.ofmt 0) then ((immInt (c.ofmt 0) c.imm) % ((2 ^ fmtWidth (c.ofmt 0) : Nat) : Int)).toNat
       else enc (c.ofmt 0) .rne false 0 (dec 0x24 c.imm)
     (∀ o, c.olan o * fmtWidth (c.ofmt o) ≤ 512) →
     (opc = 0x50 → ∀ ta tb, is a ta → is b tb → does (.steer g e) [0, 1] [(if controlTrue c 1 tb then 1 else 0, ta)] c.el) ∧
     (opc = 0x51 → ∀ td, is d td →
       (controlTrue c 2 td = true → ∀ tb, is b tb → does (.merge g e) [2, 1] [(0, tb)] c.el) ∧
       (controlTrue c 2 td = false → ∀ ta, is a ta → does (.merge g e) [2, 0] [(0, ta)] c.el)) ∧
     (opc = 0x52 → ∀ ta tb, is a ta → is b tb → does (.gate g e) [0, 1] [(0, if controlTrue c 1 tb then ta else .empty)] c.el) ∧
     (opc = 0x56 → isSet c.sub 0 = false → ∀ ta tb, is a ta → is b tb →
       does (.drop g e) [0, 1] (if controlTrue c 1 tb then [] else [(0, ta)]) c.el) ∧
     (opc = 0x56 → isSet c.sub 0 = true → ∀ ta, is a ta → does (.drop g e) [0] (if ta = .empty then [] else [(0, ta)]) c.el) ∧
     (opc = 0x53 →
       (∀ tb, is b tb → 0 < c.el.cnt → does (.limit g e) [1] [] { c.el with cnt := c.el.cnt - 1 }) ∧
       (∀ ta, is a ta → (none_ b ∨ c.el.cnt = 0) → c.el.cnt < c.imm ∧ does (.limit g e) [0] [(0, ta)] { c.el with cnt := c.el.cnt + 1 })) ∧
     (opc = 0x54 →
       (c.el.cnt < c.sub % 16 → ∃ w, does (.init g e) [] [(0, w)] { c.el with cnt := c.el.cnt + 1 } ∧
         if isSet c.sub 4 then w = .empty else fillsWith w 0 constant) ∧
       (∀ ta, is a ta → c.sub % 16 ≤ c.el.cnt → does (.init g e) [0] [(0, ta)] c.el)) ∧
     (opc = 0x55 → ∀ ta, is a ta →
       let m := c.el.cnt
       ∃ w0 w1, fillsWith w0 0 m ∧ fillsWith w1 1 (if (m + 1) % (if c.imm = 0 then 2 ^ 32 else c.imm) = 0 then 1 else 0) ∧
         does (.count g e) [0] (if cfgv c.T e 11 = 0 then [(0, w0)] else [(0, w0), (1, w1)]) { c.el with cnt := m + 1 }) ∧
     (opc = 0x57 → ∀ ta, is a ta → ∃ w, does (.fill g e) [0] [(0, w)] { c.el with held := some w } ∧
       (ta ≠ .empty → w = ta) ∧ (ta = .empty → if isSet c.sub 0 then w = c.el.held.getD (.word 0) else fillsWith w 0 constant)) ∧
     (opc = 0x58 → ∀ ta, is a ta →
       does (.copy g e) (if c.el.cnt + 1 < c.imm then [] else [0]) [(0, ta)] { c.el with cnt := if c.el.cnt + 1 < c.imm then c.el.cnt + 1 else 0 })) ∧
  (∀ (s : State) (g sp n : Nat), (getTile s g).leaf = some (sp, n) →
     let T := getTile s g
     let had (e : Nat) : Option Nat := match T.seen with | some l => tfind l e | none => some (tickets s (getSpan s sp) g e)
     let ready (e : Nat) : Prop := e < 8 ∧ (had e).isSome = true ∧ ∃ c, ctxOf s g e = some c ∧ c.readyBy T.seen.isNone = true
     let tk (e : Nat) : Nat := (had e).getD 0
     let age (e : Nat) : Nat := (tget T.elems e {}).age
     let old (e : Nat) : Prop := ready e ∧ 0 < tk e ∧ 4032 ≤ age e
     let x1 := T.x ^^^ (T.x <<< 13)
     let x2 := x1 ^^^ (x1 >>> 17)
     let x3 := x2 ^^^ (x2 <<< 5)
     ∀ sum : Nat → Nat, sum 0 = 0 → (∀ e < 8, (ready e → sum (e + 1) = sum e + tk e) ∧ (¬ ready e → sum (e + 1) = sum e)) →
     ((now s < T.unitFree ∨ ∀ e, ¬ ready e) ↔ selectorPick s g = none) ∧
     ∀ (e : Nat) (x : BitVec 32) (rot : Nat), selectorPick s g = some (e, x, rot) →
       ready e ∧
       ((∃ d, old d) → old e ∧ x = T.x ∧ rot = T.rot ∧ ∀ d, old d → age d < age e ∨ (age d = age e ∧ e ≤ d)) ∧
       ((∀ d, ¬ old d) → 0 < sum 8 → x = x3 ∧ rot = T.rot ∧ sum e ≤ x3.toNat % sum 8 ∧ x3.toNat % sum 8 < sum (e + 1)) ∧
       ((∀ d, ¬ old d) → sum 8 = 0 → x = T.x ∧ rot = e ∧
         ∀ d, ready d → if e ≤ T.rot then d ≤ T.rot ∧ e ≤ d else (T.rot < d → e ≤ d)) ∧
       ∀ d, d ≠ e → ∀ r ∈ policyOps, exec (r.1 g d) s = .next s)

namespace Sys2Proof.Machine

/-- n bytes as a number, the first the lowest (R5). -/
def littleEndian (f : Nat → Byte) (n : Nat) : Nat := (List.range n).foldr (fun i a => (f i).toNat + 256 * a) 0
/-- Between s and u only memory, poison, the full/empty bits of tile g, the order of events kept for deterministic mode and the counts of
consumed stages have changed. -/
def onlyNode (s u : State) (g : Nat) : Prop :=
  { u with mem := s.mem, poison := s.poison, tiles := s.tiles, net := s.net, spans := s.spans } = s ∧
  (∀ h, h ≠ g → getTile u h = getTile s h) ∧ { getTile u g with full := (getTile s g).full } = getTile s g ∧
  ∀ q, { getSpan u q with streams := (getSpan s q).streams } = getSpan s q
/-- The fault of a firing of context c. -/
def faultOf (c : Ctx) (cause : Cause) (tval : Word) : State :=
  fabricFault c.s c.sp { cause := cause, tval := tval, agent := 1, loc := BitVec.ofNat 12 (rectIndex c.p (wholeRect c.p) c.t), slot := BitVec.ofNat 3 c.e }

end Sys2Proof.Machine

/-- R20, R206, R218, R237 to R239, outside deterministic mode: vlut, mrd, mwr, mrdx and mwrx read and write the tile's memory node where their
entries say, in whole bytes whose unused bits read as zero and are written as zero, change full/empty bits as their entries say, and fault on an entry, byte or offset out of range with no other effect. The model's choice
(log 47, DEDUCED): TVAL of such a fault of mrdx and mwrx is the lane's offset, of mrd and mwr the address that the entry gives, sign-extended.

It concludes that exec answers a next state with this effect, on conditions on the state and the operands alone, for vlut, mrd,
mwr, mrdx, mwrx. -/
def Obligations.MemoryElementsAccessNode : Prop :=
  ∀ (s : State) (g e opc : Nat) (c : Ctx) (x : BitVec 32) (rot : Nat) (w : Nat → Wide), Turn s g e opc c x rot →
    (getSpan s (portSpan s (.slot g e))).det = false → (getSpan s c.sp).det = false →
    let node := 2 ^ 48 + g * 2 ^ 18
    let B := c.sub / 2 ^ 4 % 2 ^ 3
    let base (b : Nat) := bufBase c.T b
    let size (b : Nat) : Nat := bufDepth c.T b * bufEsz c.T b
    let ins := namedIns c.T e
    let done (i : Instr) (outs : List (Nat × Token)) (u : State) : Prop := exec i s = .next (afterFiring c x rot ins outs c.el u)
    let ix : Int := if isSet c.sub 2 then ((c.el.f % max 1 (bufDepth c.T B) : Nat) : Int) else intOf (c.fmt 0) (laneOf (c.fmt 0) (w 0) 0)
    let off : Nat := c.imm % 2 ^ 18
    let addr : Int := ((base B : Nat) : Int) + ix * ((bufEsz c.T B : Nat) : Int) + ((off : Nat) : Int)
    let at_ := node + addr.toNat
    let far (n : Nat) : Prop := ix < 0 ∨ (bufDepth c.T B : Int) ≤ ix ∨ bufEsz c.T B < off + n
    (opc = 0x60 ∨ opc = 0x61 → (∃ j ∈ ins, c.tok j = .empty) → done (if opc = 0x60 then .mrd g e else .mwr g e) (if opc = 0x60 then [(0, .empty)] else []) s) ∧
    ((∀ j ∈ ins, c.tok j = .word (w j)) →
      (opc = 0x60 →
        let bits := fmtWidth (c.ofmt 0) * c.olan 0
        let n := (bits + 7) / 8
        (far n → exec (.mrd g e) s = .next (faultOf c .ptrSpace (BitVec.ofInt 64 addr))) ∧
        (¬ far n → n ≤ 64 → isPoison s at_ n = false →
          ∃ v u, done (.mrd g e) [(0, .word v)] u ∧ v.toNat = littleEndian (fun i => byteAt s (at_ + i)) n % 2 ^ bits ∧
            onlyNode s u g ∧ u.mem = s.mem ∧ u.poison = s.poison ∧
            ∀ b k, isFull (getTile u g) b k = if isSet c.sub 0 = true ∧ isSet c.sub 1 = false ∧ b * 16 + k = B * 16 + ix.toNat then false else isFull (getTile s g) b k)) ∧
      (opc = 0x61 →
        let bits := fmtWidth (c.fmt 1) * c.lan 1
        let n := (bits + 7) / 8
        (far n → exec (.mwr g e) s = .next (faultOf c .ptrSpace (BitVec.ofInt 64 addr))) ∧
        (¬ far n → n ≤ 64 → isPoison s at_ n = false →
          ∃ u, done (.mwr g e) [] u ∧ onlyNode s u g ∧ u.poison = s.poison ∧ sameMemoryBut s u at_ n ∧
            (∀ i < n, (byteAt u (at_ + i)).toNat = (w 1).toNat % 2 ^ bits / 2 ^ (8 * i) % 2 ^ 8) ∧
            ∀ b k, isFull (getTile u g) b k = if isSet c.sub 0 = true ∧ b * 16 + k = B * 16 + ix.toNat then true else isFull (getTile s g) b k)) ∧
      (opc = 0x31 →
        let b := c.sub % 8
        let wd := fmtWidth (c.ofmt 0)
        let n := size b * 8 / wd
        let place (i : Nat) : Option Nat :=
          let v := intOf (c.fmt 0) (laneOf (c.fmt 0) (w 0) i)
          if 0 ≤ v ∧ v < (n : Int) then some v.toNat else if isSet c.sub 3 then some (if v < 0 then 0 else n - 1) else none
        wd ∈ [8, 16, 32, 64] → c.olan 0 = c.lan 0 → c.lan 0 * wd ≤ 512 →
        (∀ i < c.lan 0, ∀ p, place i = some p → isPoison s (node + (base b + p * (wd / 8))) (wd / 8) = false) →
        ∃ v, done (.vlut g e) [(0, .word v)] s ∧ ∀ i < c.lan 0, laneOf (c.ofmt 0) v i = match place i with
          | none => 0
          | some p => littleEndian (fun k => byteAt s (node + (base b + p * (wd / 8)) + k)) (wd / 8)) ∧
      (opc = 0x62 ∨ opc = 0x63 →
        let i_ : Instr := if opc = 0x62 then .mrdx g e else .mwrx g e
        let wd := if opc = 0x62 then fmtWidth (c.ofmt 0) else fmtWidth (c.fmt 1)
        let L := c.lan 0
        let at' (i : Nat) : Int := intOf (c.fmt 0) (laneOf (c.fmt 0) (w 0) i)
        let outOf (i : Nat) : Prop := at' i < 0 ∨ (size B : Int) < at' i + ((wd / 8 : Nat) : Int)
        let skew (i : Nat) : Prop := at' i % ((wd / 8 : Nat) : Int) ≠ 0
        wd ∈ [8, 16, 32, 64] →
        (∀ i < L, outOf i → (∀ k < i, ¬ outOf k) → exec i_ s = .next (faultOf c .ptrSpace (BitVec.ofInt 64 (at' i)))) ∧
        (∀ i < L, (∀ k < L, ¬ outOf k) → skew i → (∀ k < i, ¬ skew k) → exec i_ s = .next (faultOf c .align (BitVec.ofInt 64 (at' i)))) ∧
        ((∀ i < L, ¬ outOf i ∧ ¬ skew i ∧ isPoison s (node + (base B + (at' i).toNat)) (wd / 8) = false) →
          (opc = 0x62 → c.olan 0 = L → L * wd ≤ 512 → ∃ v, done (.mrdx g e) [(0, .word v)] s ∧
            ∀ i < L, laneOf (c.ofmt 0) v i = littleEndian (fun k => byteAt s (node + (base B + (at' i).toNat) + k)) (wd / 8)) ∧
          (opc = 0x63 → c.lan 1 = L → ∃ u, done (.mwrx g e) [] u ∧ onlyNode s u g ∧ u.poison = s.poison ∧
            (∀ i < L, (∀ k, i < k → k < L → at' k ≠ at' i) →
              littleEndian (fun k => byteAt u (node + (base B + (at' i).toNat) + k)) (wd / 8) = laneOf (c.fmt 1) (w 1) i) ∧
            (∀ a, (∀ i < L, a < node + (base B + (at' i).toNat) ∨ node + (base B + (at' i).toNat) + wd / 8 ≤ a) → byteAt u a = byteAt s a) ∧
            (getTile u g).full = (getTile s g).full))))

/-! ## Launches: dispatch, the graph, placement, start, the end (R49 to R55, R114 to R125, R142, R427 to R429) -/

namespace Sys2Proof.Machine

/-- The head entry of a queue's list on a die, where the queue rivals: EN = 1, HOLD = 0, WST = 0 (R116, R420). -/
def rivals (s : State) (die q k : Nat) : Prop :=
  q < 64 ∧ (tget s.ctl.ready (die * 64 + q) []).head? = some k ∧ (qword s q).getLsbD 59 = true ∧ (qword s q).getLsbD 58 = false ∧
  (qword s q).toNat / 2 ^ 41 % 8 = 0
/-- TICK of an entry (R108). -/
def ticksOf (s : State) (k : Nat) : Nat := (entryW s k 0).toNat / 2 ^ 46 % 2 ^ 8

end Sys2Proof.Machine

/-- R116, R117: LAUNCH_DISPATCH does nothing within 64 cycles of the last one, without a free slot or without a contender; else it takes
the head entry of a contender (the oldest of age 2^19 with tickets, the one its draw points at, or the next in rotation): STATE becomes
RUNNING, the entry leaves its list, the lowest free slot holds the launch.

R49 to R51, R76, R118: GRAPH_CHECK: a graph that breaks a rule fails its launch with the event of R76; else every section waits with
its NPRED, and the roots are armed in ascending index; while a page of the graph lacks its translation the check asks for that and waits. What is
accepted keeps R51: successors name sections of the graph, once each, and
NPRED counts the lists that name a section.

It concludes that exec answers a next state with this effect, on conditions on the state and the operands alone, for
launchDispatch, graphCheck. -/
def Obligations.LaunchesAreDrawnAndChecked : Prop :=
  (∀ (s : State) (die : Nat), die < 4 →
     let d := tget s.ctl.disp die {}
     let free (slot : Nat) : Prop := die * 16 ≤ slot ∧ slot < die * 16 + 16 ∧ (getL s slot).v = false
     let age (k : Nat) : Nat := tget d.ages k 0
     let x1 := d.x ^^^ (d.x <<< 13)
     let x2 := x1 ^^^ (x1 >>> 17)
     let x3 := x2 ^^^ (x2 <<< 5)
     let old (q k : Nat) : Prop := rivals s die q k ∧ 0 < ticksOf s k ∧ 2 ^ 19 ≤ age k
     (now s < d.nextAt ∨ (∀ slot, ¬ free slot) ∨ (∀ q k, ¬ rivals s die q k) → exec (.launchDispatch die) s = .next s) ∧
     ∀ (slot : Nat) (sum : Nat → Nat), d.nextAt ≤ now s → free slot → (∀ m < slot, ¬ free m) → (∃ q k, rivals s die q k) →
       sum 0 = 0 → (∀ q < 64, (∀ k, rivals s die q k → sum (q + 1) = sum q + ticksOf s k) ∧ ((∀ k, ¬ rivals s die q k) → sum (q + 1) = sum q)) →
       ∃ q k t, exec (.launchDispatch die) s = .next t ∧ rivals s die q k ∧
         ((∃ p j, old p j) → old q k ∧ (∀ p j, old p j → age j < age k ∨ (age j = age k ∧ q ≤ p)) ∧
           (tget t.ctl.disp die {}).x = d.x ∧ (tget t.ctl.disp die {}).rot = d.rot) ∧
         ((∀ p j, ¬ old p j) → 0 < sum 64 → sum q ≤ x3.toNat % sum 64 ∧ x3.toNat % sum 64 < sum (q + 1) ∧
           (tget t.ctl.disp die {}).x = x3 ∧ (tget t.ctl.disp die {}).rot = d.rot) ∧
         ((∀ p j, ¬ old p j) → sum 64 = 0 → (tget t.ctl.disp die {}).x = d.x ∧ (tget t.ctl.disp die {}).rot = q ∧
           ∀ p j, rivals s die p j → if q ≤ d.rot then p ≤ d.rot ∧ q ≤ p else (d.rot < p → q ≤ p)) ∧
         (tget t.ctl.disp die {}).nextAt = now s + 64 ∧ onlyEntryWord s t k 7 (BitVec.ofNat 64 (3 * 2 ^ 60)) ∧
         (∀ x, tget t.ctl.ready x [] = (tget s.ctl.ready x []).filter (· != k)) ∧ otherSlots s t slot ∧
         (let l := getL t slot
          l.v = true ∧ l.entry = k ∧ l.img = tget s.ctl.entries k 0 ∧ l.secs = [] ∧ l.failed = none ∧ l.sst = .running ∧ l.retired = 0 ∧
          l.checked = decide (entryW s k 1 = 0)) ∧
         t.mem = s.mem ∧ t.spans = s.spans ∧ t.tiles = s.tiles ∧ t.clusters = s.clusters) ∧
  (∀ (s : State) (slot : Nat),
     let l := getL s slot
     l.v = true → l.checked = false → l.sst ≠ .killing →
     (∀ (secs : List Wide) (succ : List (List Nat)) (arr : Word), readGraph s l = .ok (secs, succ, arr) →
       let npred (n : Nat) : Nat := (secs.getD n 0).toNat / 2 ^ 36 % 2 ^ 12
       (0 < secs.length ∧ secs.length ≤ 2048 ∧ succ.length = secs.length ∧
         (∀ n < secs.length, (succ.getD n []).Nodup ∧ (∀ v ∈ succ.getD n [], v < secs.length) ∧
           npred n = ((List.range secs.length).filter fun m => (succ.getD m []).contains n).length)) ∧
       ∃ t, exec (.graphCheck slot) s = .next t ∧ otherSlots s t slot ∧ (getL t slot).checked = true ∧ (getL t slot).succ = succ ∧
         (getL t slot).failed = l.failed ∧ (getL t slot).secs.length = secs.length ∧
         (∀ n < secs.length, ∃ x, (getL t slot).secs[n]? = some x ∧ x.record = secs.getD n 0 ∧ x.preds = npred n ∧
           x.st = if npred n = 0 then .armed (now s) else .waiting) ∧
         tget t.ctl.place (slot / 16) [] = tget s.ctl.place (slot / 16) [] ++
           ((List.range secs.length).filter fun n => npred n == 0).map (fun n => (slot, n)) ∧
         t.mem = s.mem ∧ t.spans = s.spans ∧ t.tiles = s.tiles ∧ t.ctl.entries = s.ctl.entries) ∧
     (∀ (n : Nat) (p : Word) (w : Bool), readGraph s l = .error (n, .xlat p w) → l.failed = none →
       ∃ t, exec (.graphCheck slot) s = .next t ∧ { t with net := s.net, sched := s.sched } = s ∧
         ∃ a ∈ t.net.acc, a.port = .device (l.img.toNat / 2 ^ 60 % 2 ^ 4) ∧ a.tag = .probe) ∧
     ∀ (n : Nat) (c : Cause) (v : Word) (net : Net), readGraph s l = .error (n, .trap (c, v) net) → l.failed = none →
       ∃ t, exec (.graphCheck slot) s = .next t ∧ otherSlots s t slot ∧ (getL t slot).checked = true ∧
         (getL t slot).failed = some (BitVec.ofNat 8 (if c = .configReject then v.toNat % 2 ^ 8 else 0x80 + c.code), BitVec.ofNat 12 n, c, v) ∧
         t.spans = s.spans ∧ t.tiles = s.tiles ∧ t.ctl.entries = s.ctl.entries ∧
         ∀ e ∈ tget t.ctl.place (slot / 16) [], e.1 ≠ slot)

namespace Sys2Proof.Machine

/-- A rectangle of clusters of a die (R119): its anchor's row and column leave room for rh rows and rw columns. -/
def onDie (die rh rw a : Nat) : Prop := ∃ y x, y + rh ≤ 8 ∧ x + rw ≤ 8 ∧ a = 64 * die + 8 * y + x
def inRegion (a rh rw r : Nat) : Prop := ∃ y x, y < rh ∧ x < rw ∧ r = a + 8 * y + x
/-- A cluster that a tenant's section may take (R119, R422). -/
def takeable (s : State) (tn r : Nat) : Prop :=
  clusOwner s r = tn ∧ clusBusy s r = false ∧ (getClus s r).span = none ∧ ∀ d ∈ s.ctl.dogs, r ∉ d.2.clusters

end Sys2Proof.Machine

/-- R53, R55, R76, R119 to R123, R125, R135: SECTION_PLACE takes for an armed section whose turn it is the region of R119: a matching
resident one, else a free one without a tag, else any, each of lowest anchor; it reserves the clusters, clears STATE and ACC, and the
span waits to start. A rectangle that never fits fails the launch with SECTION. HANDLERS_START, when the clear and configuration 0 are
done, loads the argument block and makes the handlers with RUN runnable at their ENTRY.

It concludes that exec answers a next state with this effect, on conditions on the state and the operands alone, for sectionPlace,
handlersStart. -/
def Obligations.SectionsArePlacedAndStarted : Prop :=
  (∀ (s : State) (p : Span) (la sa a : Nat) (res : Bool), chooseRegion s p la sa = some (a, res) → 1 ≤ p.rh → 1 ≤ p.rw →
    let okAt (b : Nat) : Prop := onDie p.die p.rh p.rw b ∧ ∀ r, inRegion b p.rh p.rw r → takeable s p.tenant.toNat r
    let matches_ (b : Nat) : Prop := la ≠ 0 ∧ sa ≠ 0 ∧ ∀ r, inRegion b p.rh p.rw r → (getClus s r).resid =
      some { laff := BitVec.ofNat 32 la, saff := BitVec.ofNat 32 sa, cfgt := p.cfgt, index := 0, anchor := b, rh := p.rh, rw := p.rw }
    let bare (b : Nat) : Prop := ∀ r, inRegion b p.rh p.rw r → (getClus s r).resid = none
    okAt a ∧ (res = true ↔ ∃ b, okAt b ∧ matches_ b) ∧
    ((∃ b, okAt b ∧ matches_ b) → matches_ a ∧ ∀ b, okAt b → matches_ b → a ≤ b) ∧
    ((∀ b, okAt b → ¬ matches_ b) → ((∃ b, okAt b ∧ bare b) → bare a ∧ ∀ b, okAt b → bare b → a ≤ b) ∧
      ((∀ b, okAt b → ¬ bare b) → ∀ b, okAt b → a ≤ b))) ∧
  (∀ (s : State) (slot n c : Nat),
    let l := getL s slot
    let p := sectionSpan s slot n
    let x := l.secs.getD n {}
    x.st = .armed c → l.v = true → l.failed = none → (l.sst = .running ∨ l.sst = .frozen) → (∀ d ∈ s.ctl.dogs, slot ∉ d.2.slots) →
    (slot, n) ∈ tget s.ctl.place (slot / 16) [] →
    (everFits s p = false →
      ∃ t, exec (.sectionPlace slot n) s = .next t ∧
        (getL t slot).failed = some (0x15, BitVec.ofNat 12 n, .configReject, (rejectT 0x15 n).2) ∧ t.spans = s.spans ∧ t.clusters = s.clusters) ∧
    ∀ (tbl : List Byte) (a : Nat) (res : Bool), everFits s p = true → checkRecords s p (wordAt x.record 6) = .ok tbl → placeTurn s slot n = true →
      restoreFirst s p.die = false → regionOf s slot n = some (a, res) → tbl.length = 192 →
      n < l.secs.length → a < 256 → p.rh ≤ 8 → p.rw ≤ 8 →
      let e (i : Nat) : Nat := ofBytes ((tbl.drop (8 * i)).take 8)
      let sp := s.sched.nextId
      ∃ t, exec (.sectionPlace slot n) s = .next t ∧ t.mem = s.mem ∧ t.ctl.entries = s.ctl.entries ∧
        (∀ q, q ≠ sp → getSpan t q = getSpan s q) ∧
        (let q := getSpan t sp
         q.live = true ∧ q.starting = true ∧ q.loadPending = !res ∧ q.anchor = a ∧ q.slot = slot ∧ q.sec = n ∧ q.tenant = p.tenant ∧
         q.rh = p.rh ∧ q.rw = p.rw ∧ q.nhnd = p.nhnd ∧ q.cfgt = p.cfgt ∧ q.prog = p.prog ∧
         q.clearDue = now s + max (8 * (p.nhnd + 1)) 2080 ∧
         (∀ h, h ≤ p.nhnd → (getH t sp h).entry = BitVec.ofNat 24 (e h % 2 ^ 24) ∧ (getH t sp h).mask = isSet (e h) 35 ∧
           (getH t sp h).prio = BitVec.ofNat 3 (e h / 2 ^ 32) ∧ (getH t sp h).st = .stopped ∧ (getH t sp h).pend = isSet (e h) 31 ∧
           ∀ k, rdReg t sp h k = 0) ∧
         ∀ ch < 64, tfind q.chmap ch = if isSet (tbl.getD (128 + ch) 0).toNat 7 then some ((tbl.getD (128 + ch) 0).toNat % 16) else none) ∧
        (∀ r, (getClus t r).span = if r ∈ rectRanks a p.rh p.rw then some sp else (getClus s r).span) ∧
        (∀ r ∈ rectRanks a p.rh p.rw, ∀ i < 16, (getTile t (16 * r + i)).bufs = [] ∧ (getTile t (16 * r + i)).full = [] ∧
          (getTile t (16 * r + i)).acc = [] ∧ (getTile t (16 * r + i)).cfg = (getTile s (16 * r + i)).cfg) ∧
        (res = false → ∀ r ∈ rectRanks a p.rh p.rw, (getClus t r).resid = none) ∧
        (∃ y, (getL t slot).secs[n]? = some y ∧ y.st = .placed) ∧ (slot, n) ∉ tget t.ctl.place (slot / 16) []) ∧
  ∀ (s : State) (sp : Nat),
    let p := getSpan s sp
    p.live = true → p.starting = true → p.ended = false →
    (p.loadPending = true ∨ now s < p.clearDue + 16 → exec (.handlersStart sp) s = .next s) ∧
    ∀ bs : List Byte, p.loadPending = false → p.clearDue + 16 ≤ now s → (p.args = 0 ∧ bs = [] ∨
        p.args ≠ 0 ∧ readRec s p.tenant.toNat (.device p.tenant.toNat) p.args 128 1 = .ok bs ∧ bs.length = 128) →
      ∃ t, exec (.handlersStart sp) s = .next t ∧ (getSpan t sp).starting = false ∧ t.mem = s.mem ∧
        (∀ h, (tfind p.hs h).isSome = true → (getH t sp h).st = (if (getH s sp h).pend then .runnable else .stopped) ∧ (getH t sp h).pend = false ∧
          (getH t sp h).pc = (getH s sp h).pc ∧ (getH t sp h).entry = (getH s sp h).entry) ∧
        (∀ k : Reg, 32 ≤ k.toNat → rdReg t sp 0 k = if p.args ≠ 0 ∧ k.toNat < 48 then BitVec.ofNat 64 (ofBytes ((bs.drop (8 * (k.toNat - 32))).take 8)) else 0) ∧
        (∀ g ∈ rectTiles p (wholeRect p), (getTile t g).x ≠ 0 ∧ (getTile t g).cfg = (getTile s g).cfg) ∧
        ∀ q, q ≠ sp → getSpan t q = getSpan s q

namespace Sys2Proof.Machine

/-- The record that an event leaves in a tenant's queue (R423), where the queue has room and its place exists and is sound: EVTAIL one
higher, 64 bytes of eight words at EVB + 64 × (EVTAIL mod 2^EVLG), nothing else in memory. -/
def recordPosted (s t : State) (n : Nat) (w0 w1 w2 w3 w4 user : Nat) : Prop :=
  let tail := (tw s n 2).toNat / 2 ^ 32
  let a := (tw s n 1).toNat / 2 ^ 12 % 2 ^ 40 * 4096 + 64 * (tail % 2 ^ ((tw s n 1).toNat % 2 ^ 6))
  (tw t n 2).toNat = (tail + 1) % 2 ^ 32 * 2 ^ 32 + (tw s n 2).toNat % 2 ^ 32 ∧ sameMemoryBut s t a 64 ∧
  ∀ i < 64, (byteAt t (a + i)).toNat = ([w0, w1, w2, w3, w4, user, tail * 2 ^ 32, now s].getD (i / 8) 0) / 2 ^ (8 * (i % 8)) % 2 ^ 8
/-- A tenant's event queue has room for a record, at a place that exists and is not poisoned, and asks for no message (R423). -/
def roomForRecord (s : State) (n : Nat) : Prop :=
  let lg := (tw s n 1).toNat % 2 ^ 6
  let tail := (tw s n 2).toNat / 2 ^ 32
  let a := (tw s n 1).toNat / 2 ^ 12 % 2 ^ 40 * 4096 + 64 * (tail % 2 ^ lg)
  lg ≠ 0 ∧ (tail + 2 ^ 32 - (tw s n 2).toNat % 2 ^ 32) % 2 ^ 32 ≠ 2 ^ lg ∧ hbmExists a 64 = true ∧ a / 64 ∉ s.poison ∧ tw s n 3 = 0
/-- Word 0 of a record (R423). -/
def recordHead (type tenant entry sec queue : Nat) : Nat :=
  type * 2 ^ 56 + tenant * 2 ^ 52 + entry / 4096 % 4 * 2 ^ 50 + entry % 4096 * 2 ^ 38 + sec % 4096 * 2 ^ 26 + queue % 64 * 2 ^ 20
/-- What R142 asks of a span that ends: handler 0 stopped, every other stopped or waiting, none held by a trap, no tree, no array or
epilogue command, no queued job, no pass of a PORT stream, no end token that can still enter its channel. -/
structure SpanIdle (s : State) (sp : Nat) (p : Span) : Prop where
  first : (tget p.hs 0 {}).st = .stopped
  rest : ∀ h ≤ p.nhnd, (tget p.hs h {}).held = none ∧ ((tget p.hs h {}).st = .stopped ∨ ∃ c, (tget p.hs h {}).st = .waiting c)
  tree : p.tree.running = false ∧ p.toSys = false
  array : p.sys.arr = [] ∧ p.sys.epi = []
  streams : ∀ x ∈ p.streams, x.2.jobs = [] ∧ (x.2.kind ≤ 1 → x.2.pass = false)
  tokens : ∀ x ∈ p.toks, x.1 = true ∨ chanRoom s sp x.2.1 = false

end Sys2Proof.Machine

/-- R76, R109, R118, R142, R312, R427 to R429: SPAN_END ends a span whose conditions hold, or whose count has expired, all but the job elements it
has issued; SECTION_RETIRE, once no access and no such element is outstanding, frees its clusters with configuration and tag, counts its successors down, arms those that reach zero and
resets the queue's timer; LAUNCH_RETIRE writes DONE or FAILED, posts the record, decrements the valid successors of a DONE launch that its
tenant owns, and frees the slot. The model's choices: a token whose channel is full does not hold SPAN_END (log 65, DEDUCED); requests of
RING and CORE streams in flight when the span ends are cancelled as by scancel (log 66, DEDUCED); a fault still recorded on a handler's port,
which the second clause leaves out, is posted at retirement (log 28, DEDUCED).

It concludes that exec answers a next state with this effect, on conditions on the state and the operands alone, for spanEnd,
sectionRetire, launchRetire. -/
def Obligations.SpansAndLaunchesRetire : Prop :=
  (∀ (s : State) (sp : Nat),
    let p := getSpan s sp
    p.live = true → p.starting = false → p.ended = false → p.saved = false → (getL s p.slot).sst ≠ .killing →
    (SpanIdle s sp p ∨ (p.isMatrix = true ∧ p.tcnt ≤ p.sys.emitted) →
      ∃ t, exec (.spanEnd sp) s = .next t ∧ t.mem = s.mem ∧ (getSpan t sp).ended = true ∧ (getSpan t sp).ch = [] ∧
        (getSpan t sp).streams = (p.streams.filterMap fun x =>
          let js := x.2.jobs.filter fun j => !j.flight.isEmpty
          if js.isEmpty then none else some (x.1, { x.2 with jobs := js, cancel := true })) ∧
        (∀ h, (getH t sp h).op = none ∧ (getH t sp h).pend = false ∧ ((tfind p.hs h).isSome = true → (getH t sp h).st = .stopped)) ∧
        (∀ q j k, rdReg t q j k = rdReg s q j k) ∧ (∀ q, q ≠ sp → getSpan t q = getSpan s q) ∧ t.clusters = s.clusters ∧
        (∀ g ∈ rectTiles p (wholeRect p), (getTile t g).leaf = none ∧ (getTile t g).cfg = (getTile s g).cfg) ∧
        ∀ g, g ∉ rectTiles p (wholeRect p) → g ∉ rectTiles p p.sys.rect → getTile t g = getTile s g) ∧
    ((p.isMatrix = false ∨ p.sys.emitted < p.tcnt) → ((tget p.hs 0 {}).st ≠ .stopped ∨ p.tree.running = true ∨ p.sys.arr ≠ [] ∨ p.sys.epi ≠ []) →
      exec (.spanEnd sp) s = .next s)) ∧
  (∀ (s : State) (sp : Nat),
    let p := getSpan s sp
    let l := getL s p.slot
    let succ := l.succ.getD p.sec []
    let clear : Prop := (∀ a ∈ s.net.acc, portSpan s a.port = sp → ∃ n, a.port = .device n) ∧ (∀ b ∈ s.net.bars, b.sp ≠ sp) ∧
      ∀ x ∈ p.streams, ∀ j ∈ x.2.jobs, j.flight = []
    p.live = true → p.ended = true → l.sst ≠ .killing →
    (¬ clear → exec (.sectionRetire sp) s = .next s) ∧
    (clear → (∀ h, (getH s sp h).podFault = none) → p.det = false → p.sec < l.secs.length → succ.Nodup → p.sec ∉ succ → (∀ n ∈ succ, n < l.secs.length) →
      ∃ t, exec (.sectionRetire sp) s = .next t ∧ t.mem = s.mem ∧ t.tiles = s.tiles ∧ tfind t.spans sp = none ∧ (∀ q, q ≠ sp → getSpan t q = getSpan s q) ∧
        (∀ r, (getClus t r).resid = (getClus s r).resid ∧ (getClus t r).span = if r ∈ regionRanks p then none else (getClus s r).span) ∧
        (getL t p.slot).retired = l.retired + 1 ∧ (getL t p.slot).failed = l.failed ∧ otherSlots s t p.slot ∧
        (∀ n < l.secs.length, ∃ x y, l.secs[n]? = some x ∧ (getL t p.slot).secs[n]? = some y ∧ y.record = x.record ∧
          y.preds = (if n ∈ succ then x.preds - 1 else x.preds) ∧
          y.st = if n = p.sec then .retired else if n ∈ succ ∧ x.preds = 1 ∧ l.failed = none then .armed (now s) else x.st) ∧
        (tget t.ctl.dogs ((l.img.toNat / 2 ^ 54) % 2 ^ 6) {}).timer = 0)) ∧
  ∀ (s : State) (slot : Nat),
    let l := getL s slot
    let n := l.img.toNat / 2 ^ 60 % 2 ^ 4
    let q := l.img.toNat / 2 ^ 54 % 2 ^ 6
    let isOver : Prop := (∀ p ∈ s.spans, p.2.live = true → p.2.slot ≠ slot) ∧
      ∀ x ∈ l.secs, x.st = .retired ∨ x.st = .ended ∨ (x.st = .waiting ∧ l.failed ≠ none)
    let slotOf (k : Nat) : Nat := l.img.toNat / 2 ^ (128 + 16 * k) % 2 ^ 16
    let names (k e : Nat) : Prop := k < 4 ∧ 2 ^ 15 ≤ slotOf k ∧ e = slotOf k / 2 ^ 12 % 4 * 4096 + slotOf k % 2 ^ 12
    let owned (e : Nat) : Prop := n = 0 ∨ eTenant s e = n
    l.v = true → l.checked = true → l.sst ≠ .killing →
    (¬ isOver → exec (.launchRetire slot) s = .next s) ∧
    (isOver →
      ∃ t, exec (.launchRetire slot) s = .next t ∧ (getL t slot).v = false ∧ otherSlots s t slot ∧ t.spans = s.spans ∧ t.tiles = s.tiles ∧
        t.clusters = s.clusters ∧ (tget t.ctl.dogs q {}).timer = 0 ∧
        entryW t l.entry 7 = (match l.failed with
          | none => BitVec.ofNat 64 (4 * 2 ^ 60)
          | some f => BitVec.ofNat 64 (5 * 2 ^ 60 + f.1.toNat * 2 ^ 52 + f.2.1.toNat * 2 ^ 40)) ∧
        (∀ e, e ≠ l.entry →
          let c := (List.range 4).countP fun k => decide (2 ^ 15 ≤ slotOf k) && decide (e = slotOf k / 2 ^ 12 % 4 * 4096 + slotOf k % 2 ^ 12)
          if l.failed = none ∧ owned e ∧ eState s e = 1 ∧ 0 < c ∧ 0 < ePcnt s e then
            ePcnt t e = ePcnt s e - c ∧ eState t e = (if ePcnt s e ≤ c then 2 else 1)
          else ∀ m < 8, entryW t e m = entryW s e m) ∧
        (l.img.toNat / 2 ^ 64 % 2 ^ 64 = 0 → t.mem = s.mem) ∧
        (l.img.toNat / 2 ^ 64 % 2 ^ 64 ≠ 0 → roomForRecord s n →
          let user := l.img.toNat / 2 ^ 384 % 2 ^ 64
          match l.failed with
          | some f => recordPosted s t n (recordHead 0x41 n l.entry f.2.1.toNat q) f.2.2.1.code f.2.2.2.toNat 0 (l.retired % 2 ^ 64) user
          | none => ∀ refused : Nat → Nat, (∀ k < 4, ((∃ e, names k e ∧ ¬ owned e) → refused k = 2 ^ k) ∧ ((∀ e, names k e → owned e) → refused k = 0)) →
              lDet l = false → recordPosted s t n (recordHead 0x40 n l.entry 0 q) 0 0 (refused 0 + refused 1 + refused 2 + refused 3) (l.retired % 2 ^ 64) user))

/-! ## CONTROL space (R107 to R115, R418 to R422, R446) -/

namespace Sys2Proof.Machine

/-- An aligned 8-byte store of the value v to the CONTROL word at `off`, at its home and next to perform. -/
structure CtlStore (s : State) (id : Nat) (a : Access) (off : Nat) (v : Word) : Prop where
  here : findAcc s id = some a
  dispatched : a.stat = .dispatched
  kind : a.kind = .write ((List.range 8).map fun i => BitVec.ofNat 8 (v.toNat / 2 ^ (8 * i)))
  place : a.key = some (2 ^ 80 + off) ∧ a.n = 8 ∧ off % 8 = 0 ∧ off < 2 ^ 24
  turn : ctlTurn s a = true
  plain : isSc a = false
/-- The event i performs access a with the effect u on the machine beside the accesses' own states. -/
def actsAs (i : Instr) (s : State) (a : Access) (u : State) : Prop :=
  ∃ t, exec i s = .next t ∧ { t with net := s.net } = { u with net := s.net } ∧
    ∃ x, findAcc t a.id = some x ∧ x.stat = .performed ∧ x.fault = none ∧ x.port = a.port
/-- It faults with PROTECTION and changes nothing. -/
def refusesStore (i : Instr) (s : State) (a : Access) : Prop :=
  ∃ t, exec i s = .next t ∧ { t with net := s.net } = s ∧
    findAcc t a.id = some { a with stat := .performed, data := [], fault := some .protection }
/-- An entry that rests (R110). -/
def rests (s : State) (k : Nat) : Prop := fieldOf (entryW s k 7) 63 60 ∈ [0, 4, 5, 6]
/-- A tenant owns an entry; tenant 0 owns every one (R111). -/
def ownsEntry (s : State) (tn k : Nat) : Prop := tn = 0 ∨ fieldOf (entryW s k 0) 63 60 = tn
/-- The queue check of an arm (R115). -/
def mayArm (s : State) (k : Nat) : Prop :=
  let q := qword s (fieldOf (entryW s k 0) 59 54)
  fieldOf q 59 59 = 1 ∧ fieldOf q 63 60 = fieldOf (entryW s k 0) 63 60
/-- Of CONTROL space only entry k changes, to the words `w`; it joins its ready list when `ready`. -/
def entryBecomes (s u : State) (k : Nat) (w : Nat → Word) (ready : Bool) : Prop :=
  { u with ctl := { u.ctl with entries := s.ctl.entries, ready := s.ctl.ready } } = s ∧
  (∀ m < 8, entryW u k m = w m) ∧ (∀ j m, j ≠ k → entryW u j m = entryW s j m) ∧
  ∀ x, tget u.ctl.ready x [] = if ready = true ∧ x = k / 4096 * 64 + fieldOf (w 0) 59 54 then tget s.ctl.ready x [] ++ [k] else tget s.ctl.ready x []

end Sys2Proof.Machine

/-- R108 to R115: stores to launch entries: the arm store and the disarm store, the stores to words 0 to 6 of a resting entry, the PCNT
store that makes an ARMED entry READY at zero; whatever breaks R111, R115 or R446 faults with PROTECTION and changes nothing.

R112: the store or atomic on PCNT alone, at an entry that rests or is ARMED: PCNT takes the value; an ARMED entry whose PCNT becomes zero
is READY in the same step and joins its list.

It concludes that exec answers a next state with this effect, on conditions on the state and the operands alone, for
entryPcntWrite, armStore, disarmStore. -/
def Obligations.EntryAndPcntStoresAct : Prop :=
  (∀ (s : State) (id off : Nat) (a : Access) (v : Word), CtlStore s id a off v → off / 2 ^ 18 % 2 ^ 4 = 0 →
     let k := off / 2 ^ 22 * 4096 + off / 2 ^ 6 % 2 ^ 12
     let i := off % 64 / 8
     let tn := portTenant s a.port
     let old (m : Nat) : Word := entryW s k m
     let put (j : Nat) (x : Word) (m : Nat) : Word := if m = j then x else old m
     (i = 7 → v = BitVec.ofNat 64 (2 ^ 60) →
       (ownsEntry s tn k → rests s k → mayArm s k →
         ∃ u, actsAs (.armStore id) s a u ∧
           if fieldOf (old 0) 31 0 = 0 then entryBecomes s u k (put 7 (BitVec.ofNat 64 (2 * 2 ^ 60))) true
           else entryBecomes s u k (put 7 (BitVec.ofNat 64 (2 ^ 60))) false) ∧
       (¬ (ownsEntry s tn k ∧ rests s k ∧ mayArm s k) → refusesStore (.armStore id) s a)) ∧
     (i = 7 → v = 0 →
       (ownsEntry s tn k → fieldOf (old 7) 63 60 = 1 → ∃ u, actsAs (.disarmStore id) s a u ∧ entryBecomes s u k (put 7 0) false) ∧
       (¬ (ownsEntry s tn k ∧ fieldOf (old 7) 63 60 = 1) → refusesStore (.disarmStore id) s a)) ∧
     (i = 7 → v ≠ 0 → v ≠ BitVec.ofNat 64 (2 ^ 60) → refusesStore (.controlRegisterWrite id) s a) ∧
     (i < 7 →
       let sound : Prop := match i with
         | 0 => fieldOf v 44 32 = 0 ∧ (tn = 0 ∨ fieldOf v 63 60 = fieldOf (old 0) 63 60)
         | 3 => fieldOf v 31 0 = 0
         | _ => True
       (ownsEntry s tn k → rests s k → sound → ∃ u, actsAs (.controlRegisterWrite id) s a u ∧ entryBecomes s u k (put i v) false) ∧
       (¬ (ownsEntry s tn k ∧ rests s k ∧ sound) → refusesStore (.controlRegisterWrite id) s a))) ∧
  (∀ (s : State) (id off : Nat) (a : Access) (new : Nat), findAcc s id = some a → a.stat = .dispatched → a.key = some (2 ^ 80 + off) → a.n = 4 →
     off % 64 = 0 → off < 2 ^ 24 → off / 2 ^ 18 % 2 ^ 4 = 0 → ctlTurn s a = true → isSc a = false → new < 2 ^ 32 →
     let k := off / 2 ^ 22 * 4096 + off / 2 ^ 6 % 2 ^ 12
     let old (m : Nat) : Word := entryW s k m
     let pcnt : BitVec 32 := BitVec.ofNat 32 (old 0).toNat
     ((a.kind = .write ((List.range 4).map fun i => BitVec.ofNat 8 (new / 2 ^ (8 * i)))) ∨
       ∃ fn b e, a.kind = .amo fn false b e ∧ new = (atomicGives fn pcnt (BitVec.ofNat 32 b.toNat) (BitVec.ofNat 32 e.toNat)).toNat) →
     let st := fieldOf (old 7) 63 60
     let w0 : Word := BitVec.ofNat 64 ((old 0).toNat / 2 ^ 32 * 2 ^ 32 + new)
     let ready : Bool := decide (st = 1 ∧ new = 0)
     (ownsEntry s (portTenant s a.port) k → (rests s k ∨ st = 1) →
       ∃ u, actsAs (.entryPcntWrite id) s a u ∧ entryBecomes s u k (fun m => if m = 0 then w0
         else if m = 7 ∧ ready then BitVec.ofNat 64 (2 * 2 ^ 60 + (old 7).toNat % 2 ^ 60) else old m) ready) ∧
     (¬ (ownsEntry s (portTenant s a.port) k ∧ (rests s k ∨ st = 1)) → refusesStore (.entryPcntWrite id) s a))

/-! ## Launch control, pre-emption, kill, the watchdog (R413 to R422) -/

namespace Sys2Proof.Machine

/-- Bytes of save area that the spans of a launch take (R414). -/
def areaOf (s : State) (slot : Nat) : Nat :=
  ((spansOf s slot).map fun q => (getSpan s q).rh * (getSpan s q).rw * 10551296 + 16384).sum
/-- Those of the spans of a launch that come before one of them. -/
def areaBefore (s : State) (slot sp : Nat) : Nat :=
  (((spansOf s slot).takeWhile (· != sp)).map fun q => (getSpan s q).rh * (getSpan s q).rw * 10551296 + 16384).sum
/-- Of the launch slots only field changes of `slot`'s record are made: the slot becomes l. -/
def slotBecomes (s u : State) (slot : Nat) (l : Launch) : Prop := getL u slot = l ∧ otherSlots s u slot ∧ u.mem = s.mem ∧ u.tiles = s.tiles ∧
  u.ctl.entries = s.ctl.entries

end Sys2Proof.Machine

/-- R113, R120, R419, R421, R422, R424, R425, R433, R446: stores to queue words, tenant blocks, INVAL, window entries and cluster owner words keep the
ranges and the rights of their tables; a change of owner starts the clears of R124 and takes the tag of the region that the
cluster is part of from all its clusters; every other store faults with PROTECTION and changes nothing, one to a word that the unit does
not have with PTR_SPACE.

R407, R410, R413, R415 to R418: commands of launch control: RESUME lets a FROZEN launch go on with a retry of its held word, and marks a
PREEMPTED one to be placed again; PREEMPT of a RUNNING launch with a save area large enough makes it PREEMPTING and quiesces its spans; KILL
kills it; a command that meets another state, or another code, changes nothing; SAVE is written while the launch is RUNNING. The model's
choice (log 74, DEDUCED): the job elements of a killed launch that are in flight are discarded.

It concludes that exec answers a next state with this effect, on conditions on the state and the operands alone, for qctlWrite,
resume, preempt, launchControlKill, inval, windowWrite, ownerWordStore, controlRegisterWrite. -/
def Obligations.ControlAndLaunchStoresAct : Prop :=
  (∀ (s : State) (id off : Nat) (a : Access) (v : Word), CtlStore s id a off v →
     let tn := portTenant s a.port
     let unit := off / 2 ^ 18 % 2 ^ 4
     let byte := off % 2 ^ 18
     let keeps (ok : Prop) (i : Instr) (eff : State → Prop) : Prop :=
       (ok → ∃ u, actsAs i s a u ∧ eff u) ∧ (¬ ok → refusesStore i s a)
     let missing (i : Instr) : Prop := ∃ t, exec i s = .next t ∧ { t with net := s.net } = s ∧
       findAcc t a.id = some { a with stat := .performed, data := [], fault := some .ptrSpace }
     let there : Prop := off < 2 ^ 22 ∧ byte < if unit = 1 then 512 else 1024
     ((unit = 1 → ¬ there → missing (.qctlWrite id)) ∧
       (unit = 2 → ¬ there → missing (if byte % 64 / 8 = 6 then .inval id else .controlRegisterWrite id)) ∧
       (unit = 3 → ¬ there → missing (.windowWrite id)) ∧
       (unit = 4 → 256 ≤ byte → byte % 16 / 8 = 1 → missing (.controlRegisterWrite id)) ∧
       (unit = 5 → 512 ≤ byte → missing (.ownerWordStore id)) ∧ (6 ≤ unit → missing (.controlRegisterWrite id))) ∧
     (unit = 1 → there →
       let q := byte / 8
       let old := qword s q
       let same (hi lo : Nat) : Prop := fieldOf v hi lo = fieldOf old hi lo
       let trips : Prop := fieldOf old 43 41 = 3 ∧ fieldOf v 43 41 = 0
       keeps (fieldOf v 57 56 = 0 ∧ fieldOf v 40 32 = 0 ∧ fieldOf v 31 16 = 0 ∧ (same 43 41 ∨ trips) ∧
           (fieldOf v 55 55 = 1 → 20 ≤ fieldOf v 54 49 ∧ fieldOf v 54 49 ≤ 44 ∧ 10 ≤ fieldOf v 48 44 ∧ fieldOf v 48 44 ≤ 24) ∧
           (tn = 0 ∨ (fieldOf old 63 60 = tn ∧ same 63 59 ∧ same 55 44)))
         (.qctlWrite id) fun u =>
           qword u q = BitVec.ofNat 64 (v.toNat / 2 ^ 16 * 2 ^ 16) ∧ (∀ p, p ≠ q → qword u p = qword s p) ∧
           (trips → (tget u.ctl.dogs q {}).timer = 0) ∧ (¬ trips → u.ctl.dogs = s.ctl.dogs) ∧
           { u with ctl := { u.ctl with qctl := s.ctl.qctl, dogs := s.ctl.dogs } } = s) ∧
     (unit = 2 → there →
       let n := byte / 64
       let i := byte % 64 / 8
       let old (m : Nat) : Word := tw s n m
       let sets (x : Word) (u : State) : Prop := (∀ m j, j < 8 → tw u m j = if m = n ∧ j = i then x else tw s m j) ∧
         (∀ m, tget u.ctl.invAt m 0 = if i = 6 ∧ m = n then now s else tget s.ctl.invAt m 0) ∧
         { u with ctl := { u.ctl with tenants := s.ctl.tenants, invAt := s.ctl.invAt } } = s
       let right : Prop := tn = 0 ∨ (tn = n ∧ (i = 2 ∨ i = 6))
       let share (w : Word) : Nat := if fieldOf w 63 63 = 1 then fieldOf w 62 56 else 0
       (i = 0 → keeps (right ∧ fieldOf v 63 52 = 0 ∧ fieldOf v 13 0 = 0) (.controlRegisterWrite id) (sets v)) ∧
       (i = 1 → keeps (right ∧ fieldOf v 63 52 = 0 ∧ fieldOf v 11 6 = 0 ∧ (fieldOf v 5 0 = 0 ∨ (6 ≤ fieldOf v 5 0 ∧ fieldOf v 5 0 ≤ 20)))
         (.controlRegisterWrite id) (sets v)) ∧
       (i = 2 → keeps right (.controlRegisterWrite id) (sets (BitVec.ofNat 64 ((old 2).toNat / 2 ^ 32 * 2 ^ 32 + v.toNat % 2 ^ 32)))) ∧
       (i = 3 → keeps right (.controlRegisterWrite id) (sets v)) ∧
       (i = 4 → keeps (right ∧ fieldOf v 62 10 = 0 ∧
           (fieldOf v 63 63 = 1 → ∀ m < 16, m ≠ n → fieldOf (tw s m 4) 63 63 = 1 → fieldOf (tw s m 4) 9 0 ≠ fieldOf v 9 0))
         (.controlRegisterWrite id) (sets v)) ∧
       (i = 5 → keeps (right ∧ (fieldOf v 39 32 = 0 ∨ (10 ≤ fieldOf v 39 32 ∧ fieldOf v 39 32 ≤ 30)) ∧
           ((List.range 16).map fun m => if m = n then share v else share (tw s m 5)).sum ≤ 128)
         (.controlRegisterWrite id) (sets (BitVec.ofNat 64 (v.toNat / 2 ^ 32 * 2 ^ 32 + (old 5).toNat % 2 ^ 32)))) ∧
       (i = 6 → fieldOf (old 6) 63 63 = 0 → keeps (right ∧ fieldOf v 62 50 = 0 ∧ fieldOf v 15 6 = 0 ∧ fieldOf v 5 0 ≤ 34)
         (.inval id) (sets (BitVec.ofNat 64 (2 ^ 63 + v.toNat % 2 ^ 63)))) ∧
       (i = 6 → fieldOf (old 6) 63 63 = 1 → keeps right (.inval id) (fun u => u = s)) ∧
       (i = 7 → refusesStore (.controlRegisterWrite id) s a)) ∧
     (unit = 3 → there →
       let n := byte / 16
       let w (m : Nat) : Nat := (tget s.ctl.windows m 0).toNat
       let new : Nat := if byte % 16 / 8 = 0 then w n / 2 ^ 64 * 2 ^ 64 + v.toNat else v.toNat * 2 ^ 64 + w n % 2 ^ 64
       let owner (x : Nat) := x / 2 ^ 60 % 2 ^ 4
       let valid (x : Nat) : Prop := x / 2 ^ 59 % 2 = 1
       let kind (x : Nat) := x / 2 ^ 58 % 2
       let base (x : Nat) := x / 2 ^ 64 % 2 ^ 32
       let size (x : Nat) := x / 2 ^ 96 % 2 ^ 32
       keeps (tn = 0 ∧ (byte % 16 / 8 = 0 → fieldOf v 57 0 = 0) ∧
           (valid new → 1 ≤ size new ∧
             (if kind new = 1 then base new / 512 < 12 ∧ base new % 512 + size new ≤ 512 else hbmExists (base new * 65536) (size new * 65536) = true) ∧
             ∀ p ∈ s.ctl.windows, p.1 ≠ n → valid p.2.toNat → kind p.2.toNat = kind new →
               base new + size new ≤ base p.2.toNat ∨ base p.2.toNat + size p.2.toNat ≤ base new) ∧
           ((owner new = owner (w n) ∧ (valid new ↔ valid (w n))) ∨ fieldOf (tw s (owner (w n)) 7) 7 0 = 0))
         (.windowWrite id) fun u => (∀ m, (tget u.ctl.windows m 0).toNat = if m = n then new else w m) ∧
           { u with ctl := { u.ctl with windows := s.ctl.windows } } = s) ∧
     (unit = 5 → byte < 512 →
       let r := off / 2 ^ 22 * 64 + byte / 8
       let own := fieldOf v 3 0
       let old := fieldOf (tget s.ctl.owners r 0) 3 0
       (own = old → keeps (tn = 0 ∧ fieldOf v 62 4 = 0) (.ownerWordStore id) (fun u => u = s)) ∧
       (own ≠ old → keeps (tn = 0 ∧ fieldOf v 62 4 = 0 ∧ fieldOf (tget s.ctl.owners r 0) 63 63 = 0 ∧ (getClus s r).span = none ∧
             (∀ p ∈ s.spans, p.2.live = true → r ∉ regionRanks p.2) ∧ fieldOf (tw s old 7) 7 0 = 0)
           (.ownerWordStore id) fun u =>
             (∀ x, tget u.ctl.owners x 0 = if x = r then BitVec.ofNat 64 (2 ^ 63 + own) else tget s.ctl.owners x 0) ∧
             (getClus u r).clearDue = now s + 65536 ∧
             (∀ x, { getClus u x with resid := none, clearDue := 0 } = { getClus s x with resid := none, clearDue := 0 } ∧
               (x ≠ r → (getClus u x).clearDue = (getClus s x).clearDue) ∧
               (getClus u x).resid = match (getClus s r).resid with
                 | some g => if (x = r ∨ x ∈ rectRanks g.anchor g.rh g.rw) ∧ (getClus s x).resid = some g then none else (getClus s x).resid
                 | none => (getClus s x).resid) ∧
             u.mem = s.mem ∧ u.spans = s.spans ∧ u.tiles = s.tiles))) ∧
  (∀ (s : State) (id off : Nat) (a : Access) (v : Word), CtlStore s id a off v → off / 2 ^ 18 % 2 ^ 4 = 4 → off % 2 ^ 18 < 256 →
     let slot := off / 2 ^ 22 * 16 + off % 2 ^ 18 / 16
     let i := off % 16 / 8
     let l := getL s slot
     let n := l.img.toNat / 2 ^ 60 % 2 ^ 4
     let tn := portTenant s a.port
     let right : Prop := tn = 0 ∨ (l.v = true ∧ n = tn)
     let cmd := fieldOf v 59 56
     let event : Instr := if cmd = 1 then .resume id else if cmd = 2 then .preempt id else if cmd = 3 then .launchControlKill id else .controlRegisterWrite id
     let fits : Prop := ∃ p ∈ s.ctl.windows, (window p.2).v = true ∧ (window p.2).sram = false ∧ (window p.2).owner = n ∧
       (window p.2).base * 2 ^ 16 ≤ l.save.toNat * 2 ^ 16 ∧ l.save.toNat * 2 ^ 16 + areaOf s slot ≤ ((window p.2).base + (window p.2).size) * 2 ^ 16
     (i = 0 → ¬ (right ∧ fieldOf v 33 0 = 0) → refusesStore event s a) ∧
     (i = 0 → right → fieldOf v 33 0 = 0 →
       (cmd ∉ [1, 2, 3] → actsAs event s a s) ∧
       (cmd = 1 → (l.v = false ∨ l.sst = .running ∨ l.sst = .preempting ∨ l.sst = .killing) → actsAs event s a s) ∧
       (cmd = 1 → l.v = true → l.sst = .preempted → (∃ q ∈ spansOf s slot, (getSpan s q).saved = true) →
         ∃ u, actsAs event s a u ∧ slotBecomes s u slot { l with resume := true } ∧ u.spans = s.spans) ∧
       (cmd = 1 → l.v = true → l.sst = .frozen → ∀ (q : Nat) (t : Trap), spansOf s slot = [q] → (getSpan s q).trap = some t → (getSpan s q).toSys = true →
         t.agent = 0 → (getSpan s q).fabric = none → (∀ x ∈ (getSpan s q).hs, x.1 ≠ t.h → x.2.held = none) →
         ∃ u, actsAs event s a u ∧ slotBecomes s u slot { l with sst := .running } ∧ (getSpan u q).trap = none ∧ (getSpan u q).toSys = false ∧
           (getSpan u q).frozen = false ∧ getH u q t.h = { getH s q t.h with held := none, st := .runnable, pc := t.pc, op := none } ∧
           ∀ h, h ≠ t.h → getH u q h = getH s q h) ∧
       (cmd = 2 → ¬ (l.v = true ∧ l.sst = .running ∧ fits) → actsAs event s a s) ∧
       (cmd = 2 → l.v = true → l.sst = .running → fits → (∃ q ∈ spansOf s slot, (getSpan s q).saved = false) →
         ∃ u, actsAs event s a u ∧ slotBecomes s u slot { l with sst := .preempting, since := now s, resume := false } ∧
           ∀ q, ((getSpan u q).quiesced = if q ∈ spansOf s slot then true else (getSpan s q).quiesced) ∧
             ((getSpan u q).saveAt = if q ∈ spansOf s slot then l.save.toNat * 2 ^ 16 + areaBefore s slot q else (getSpan s q).saveAt) ∧
             ∀ j k, rdReg u q j k = rdReg s q j k) ∧
       (cmd = 3 → (l.v = false ∨ l.sst = .killing) → actsAs event s a s) ∧
       (cmd = 3 → l.v = true → l.sst ≠ .killing → ∃ u, actsAs event s a u ∧ LaunchKilled s u slot 0x11)) ∧
     (i = 1 → ¬ (right ∧ fieldOf v 63 52 = 0 ∧ fieldOf v 15 0 = 0) → refusesStore (.controlRegisterWrite id) s a) ∧
     (i = 1 → right → fieldOf v 63 52 = 0 → fieldOf v 15 0 = 0 → l.v = true → l.sst = .running →
       ∃ u, actsAs (.controlRegisterWrite id) s a u ∧ slotBecomes s u slot { l with save := BitVec.ofNat 36 (fieldOf v 51 16) } ∧ u.spans = s.spans))

namespace Sys2Proof.Machine

/-- A span has drained (R413). -/
structure HasDrained (s : State) (sp : Nat) : Prop where
  quiesced : (getSpan s sp).quiesced = true
  leaves : ∀ n ∈ (getSpan s sp).tree.nodes, isLeafNode n = true → n.running = false
  words : ∀ h < 16, (getH s sp h).op = none ∨ (h = 0 ∧ ∃ nx, (getH s sp h).op = some (.tree nx))
  accesses : (∀ a ∈ s.net.acc, portSpan s a.port = sp → ∃ n, a.port = .device n) ∧ ∀ b ∈ s.net.bars, b.sp ≠ sp
  collapses : (getSpan s sp).cols = []
  jobs : ∀ x ∈ (getSpan s sp).streams, ∀ j ∈ x.2.jobs, j.flight = []
/-- The event of a launch's failed pre-emption is posted (R403, R423): only its tenant's block, its record and its message change, and where
the queue has room the record names the grace period and the word of handler 0 of the lowest section that is placed or saved. -/
def graceTold (s u : State) (slot grace : Nat) : Prop :=
  let l := getL s slot
  let n := l.img.toNat / 2 ^ 60 % 2 ^ 4
  { u with mem := s.mem, net := s.net, sched := s.sched, ctl := { u.ctl with tenants := s.ctl.tenants } } = s ∧
  sameMemoryBut s u ((tw s n 1).toNat / 2 ^ 12 % 2 ^ 40 * 4096 + 64 * ((tw s n 2).toNat / 2 ^ 32 % 2 ^ ((tw s n 1).toNat % 2 ^ 6))) 64 ∧
  (roomForRecord s n → ∃ q ∈ spansOf s slot, (∀ x ∈ spansOf s slot, (getSpan s q).sec ≤ (getSpan s x).sec) ∧
    recordPosted s u n (recordHead 0x10 n l.entry (getSpan s q).sec (l.img.toNat / 2 ^ 54 % 2 ^ 6)) 0x10 grace ((getH s q 0).pc.toNat * 16) 0
      (l.img.toNat / 2 ^ 384 % 2 ^ 64))
/-- The home bytes of a region: its memory nodes and its scratchpads (R240). -/
def regionByte (rs : List Nat) (a : Nat) : Prop :=
  ∃ r ∈ rs, (2 ^ 48 + r * 2 ^ 22 ≤ a ∧ a < 2 ^ 48 + (r + 1) * 2 ^ 22) ∨ (2 ^ 49 + r * 2 ^ 22 ≤ a ∧ a < 2 ^ 49 + (r + 1) * 2 ^ 22)
/-- A tile with the classes STATE, ACC and CFG of R122 cleared. -/
def tileCleared (T : Tile) : Prop := T.bufs = [] ∧ T.full = [] ∧ T.cpl = [] ∧ T.acc = [] ∧ T.cfg = []

end Sys2Proof.Machine

/-- R403, R413 to R415: PREEMPT_SAVE saves a drained span of a PREEMPTING launch in its save area, which lies in HBM: its clusters are cleared
and freed, and the launch is PREEMPTED once all its spans are saved; PREEMPT_RESTORE, on the same clusters once they are free, brings back
from the area, while it holds what the save left there, the memory of the region and its poison, its tags, its tiles and every register
as they were; a span that has not drained when the grace is over is told to its tenant and kills its launch with PREEMPT. The model's choice
(log 103, DEDUCED): that telling is an event of its own before the KILLED event, with the section and the words that the record of the kill
carries.

R416, R423: KILL_DONE waits for the launch's requests at peers; then its spans are gone, its clusters are cleared of STATE, ACC and CFG and
freed without a tag, its slot is free, KPEND falls by one, and the KILLED record is posted; where nothing of the launch was dispatched, no
byte but the record's changes. The model's choices (log 74, DEDUCED): KILL_DONE waits for requests at peers alone, and discards what else is
dispatched; it clears only clusters that the launch's spans still hold.

It concludes that exec answers a next state with this effect, on conditions on the state and the operands alone, for preemptSave,
preemptGraceExpire, preemptRestore, killDone. -/
def Obligations.PreemptionAndKillsAct : Prop :=
  (∀ (s : State) (sp : Nat),
     let p := getSpan s sp
     let l := getL s p.slot
     let rs := regionRanks p
     let area (a : Nat) : Prop := p.saveAt ≤ a ∧ a < p.saveAt + p.rh * p.rw * 10551296 + 16384
     let regionLine (k : Nat) : Prop := regionByte rs (64 * k) ∨ ∃ r ∈ rs, 2 ^ 51 + r * 2 ^ 21 ≤ 64 * k ∧ 64 * k < 2 ^ 51 + (r + 1) * 2 ^ 21
     (p.live = true → p.saved = false → ¬ HasDrained s sp → exec (.preemptSave sp) s = .next s) ∧
     (p.live = true → p.saved = false → p.ended = false → p.starting = false → l.sst = .preempting → HasDrained s sp →
       ∃ t, exec (.preemptSave sp) s = .next t ∧ (getSpan t sp).saved = true ∧ (∀ q j k, rdReg t q j k = rdReg s q j k) ∧
         (∀ q, q ≠ sp → getSpan t q = getSpan s q) ∧
         (∀ h, (getH t sp h).pc = (getH s sp h).pc ∧ (getH t sp h).flags = (getH s sp h).flags ∧ (getH t sp h).rstack = (getH s sp h).rstack) ∧
         (∀ r ∈ rs, (getClus t r).span = none ∧ ∀ i < 16, tileCleared (getTile t (16 * r + i))) ∧ (∀ r, r ∉ rs → (getClus t r).span = (getClus s r).span) ∧
         (∀ a, regionByte rs a → byteAt t a = 0) ∧
         (∀ a, ¬ regionByte rs a → ¬ area a → byteAt t a = byteAt s a) ∧
         ((∀ q ∈ spansOf s p.slot, q ≠ sp → (getSpan s q).saved = true) → (getL t p.slot).sst = .preempted) ∧
         ∀ u : State, getSpan u sp = getSpan t sp → (getL u p.slot).resume = true → (getL u p.slot).sst = .preempted →
           (∀ r ∈ rs, takeable u p.tenant.toNat r) → MemoryKept s → MemoryKept u → p.saveAt % 2 ^ 16 = 0 →
           p.saveAt + p.rh * p.rw * 10551296 + 16384 ≤ 2 ^ 48 →
           (∀ a, area a → byteAt u a = byteAt t a ∧ (a / 64 ∈ u.poison ↔ a / 64 ∈ t.poison)) →
           ∃ v, exec (.preemptRestore sp) u = .next v ∧ (getSpan v sp).saved = false ∧ (getSpan v sp).quiesced = false ∧
             (∀ a, (regionByte rs a → byteAt v a = byteAt s a) ∧ (¬ regionByte rs a → byteAt v a = byteAt u a)) ∧
             (∀ k, (regionLine k → (k ∈ v.poison ↔ k ∈ s.poison)) ∧ (¬ regionLine k → (k ∈ v.poison ↔ k ∈ u.poison))) ∧
             (∀ r ∈ rs, (getClus v r).span = some sp ∧
               (∀ i < 4096, tget (getClus v r).tags i 0 = tget (getClus s r).tags i 0) ∧ ∀ i < 16, getTile v (16 * r + i) = getTile s (16 * r + i)) ∧
             (∀ j k, rdReg v sp j k = rdReg s sp j k ∧ (getH v sp j).pc = (getH s sp j).pc ∧ (getH v sp j).flags = (getH s sp j).flags ∧
               (getH v sp j).rstack = (getH s sp j).rstack) ∧ ∀ q, q ≠ sp → getSpan v q = getSpan u q) ∧
     (p.live = true → p.saved = true → (l.resume = false ∨ ∃ r ∈ rs, ¬ takeable s p.tenant.toNat r) → exec (.preemptRestore sp) s = .next s) ∧
     ∀ slot,
       let m := getL s slot
       let n := m.img.toNat / 2 ^ 60 % 2 ^ 4
       let g := fieldOf (tw s n 5) 39 32
       let due := m.since + 2 ^ (if g = 0 then 20 else g)
       (m.v = true → m.sst = .preempting → due ≤ now s → (∃ q ∈ spansOf s slot, (getSpan s q).saved = false ∧ ¬ HasDrained s q) →
         ∃ u t, exec (.preemptGraceExpire slot) s = .next t ∧ graceTold s u slot (2 ^ (if g = 0 then 20 else g)) ∧ LaunchKilled u t slot 0x10) ∧
       ((m.sst ≠ .preempting ∨ now s < due ∨ ∀ q ∈ spansOf s slot, (getSpan s q).saved = true ∨ HasDrained s q) →
         exec (.preemptGraceExpire slot) s = .next s)) ∧
  (∀ (s : State) (slot : Nat),
     let l := getL s slot
     let n := l.img.toNat / 2 ^ 60 % 2 ^ 4
     let ofIt (a : Access) : Prop := portSpan s a.port ∈ spansOf s slot ∧ ∀ m, a.port ≠ .device m
     let atPeer (a : Access) : Prop := ofIt a ∧ pSpace a.ptr = 5 ∧ (a.stat = .dispatched ∨ a.stat = .performed) ∧ a.tag ≠ .probe
     l.v = true → l.sst = .killing →
     ((∃ a ∈ s.net.acc, atPeer a) → exec (.killDone slot) s = .next s) ∧
     ((∀ a ∈ s.net.acc, ¬ atPeer a) →
       ∃ t, exec (.killDone slot) s = .next t ∧ (getL t slot).v = false ∧ otherSlots s t slot ∧
         (∀ q ∈ spansOf s slot, tfind t.spans q = none) ∧ (∀ q, q ∉ spansOf s slot → getSpan t q = getSpan s q) ∧
         (∀ q ∈ spansOf s slot, ∀ r ∈ regionRanks (getSpan s q), (getClus s r).span = some q →
           (getClus t r).span = none ∧ (getClus t r).resid = none ∧ ∀ i < 16, tileCleared (getTile t (16 * r + i))) ∧
         (∀ r, (∀ q ∈ spansOf s slot, (getClus s r).span ≠ some q) → (getClus t r).span = (getClus s r).span ∧ (getClus t r).resid = (getClus s r).resid ∧
           ∀ i < 16, getTile t (16 * r + i) = getTile s (16 * r + i)) ∧
         fieldOf (tw t n 7) 7 0 = fieldOf (tw s n 7) 7 0 - 1 ∧ t.ctl.entries = s.ctl.entries ∧
         (∀ a ∈ t.net.acc, portSpan s a.port ∈ spansOf s slot → ∃ m, a.port = .device m) ∧
         ((∀ a ∈ s.net.acc, ofIt a → a.stat ≠ .dispatched) → roomForRecord s n →
           recordPosted s t n (recordHead 0x11 n l.entry l.kill.2.1 (l.img.toNat / 2 ^ 54 % 2 ^ 6)) l.kill.1.toNat (l.img.toNat / 2 ^ 384 % 2 ^ 64)
             l.kill.2.2.toNat 0 (l.img.toNat / 2 ^ 384 % 2 ^ 64))))

/-- R122, R124, R419, R420, R422: WATCHDOG_EXPIRE at 2^WDLG cycles makes WST QUIESCE and quiesces the spans of the queue's launches;
WATCHDOG_GRACE_EXPIRE after 2^WGLG makes it KILL and kills them, and takes for the reset the clusters they hold, and of a saved span those
that no span holds and its tenant owns; WATCHDOG_RESET_DONE, after their KILL_DONE and the clears, makes it TRIPPED and
tells the owner and tenant 0, each with a record in its own queue; OWNER_CLEAR_DONE ends the clears of a change of owner.

It concludes that exec answers a next state with this effect, on conditions on the state and the operands alone, for
watchdogExpire, watchdogGraceExpire, watchdogResetDone, ownerClearDone. -/
def Obligations.WatchdogAndOwnerClears : Prop :=
  (∀ (s : State) (q : Nat),
    let w := qword s q
    let d := tget s.ctl.dogs q {}
    let mine (k : Nat) : Prop := ∃ l, (k, l) ∈ s.ctl.launches ∧ l.v = true ∧ l.sst ≠ .killing ∧ l.img.toNat / 2 ^ 54 % 2 ^ 6 = q
    let wst (t : State) (v : Nat) : Prop := qword t q = BitVec.ofNat 64 (w.toNat / 2 ^ 44 * 2 ^ 44 + v * 2 ^ 41 + w.toNat % 2 ^ 41) ∧ ∀ p, p ≠ q → qword t p = qword s p
    (fieldOf w 55 55 = 0 ∨ fieldOf w 43 41 ≠ 0 ∨ d.timer < 2 ^ fieldOf w 54 49 → exec (.watchdogExpire q) s = .next s) ∧
    (fieldOf w 55 55 = 1 → fieldOf w 43 41 = 0 → 2 ^ fieldOf w 54 49 ≤ d.timer →
      ∃ t, exec (.watchdogExpire q) s = .next t ∧ wst t 1 ∧ t.mem = s.mem ∧ t.ctl.entries = s.ctl.entries ∧ t.clusters = s.clusters ∧
        (tget t.ctl.dogs q {}).since = now s ∧
        (∀ k, mine k → ∀ sp ∈ spansOf s k, (getSpan s sp).saved = false → (getSpan t sp).quiesced = true) ∧
        (∀ sp, (∀ k, mine k → sp ∉ spansOf s k) → getSpan t sp = getSpan s sp) ∧ ∀ a j k, rdReg t a j k = rdReg s a j k) ∧
    (fieldOf w 43 41 ≠ 1 ∨ now s < d.since + 2 ^ fieldOf w 48 44 → exec (.watchdogGraceExpire q) s = .next s) ∧
    (fieldOf w 43 41 = 1 → d.since + 2 ^ fieldOf w 48 44 ≤ now s → (s.ctl.launches.map (·.1)).Nodup →
      ∃ t, exec (.watchdogGraceExpire q) s = .next t ∧ wst t 2 ∧ t.mem = s.mem ∧ t.tiles = s.tiles ∧
        (∀ k, mine k → (getL t k).sst = .killing ∧ entryW t (getL s k).entry 7 = BitVec.ofNat 64 (6 * 2 ^ 60 + 0x0F * 2 ^ 52)) ∧
        (∀ k, ¬ mine k → getL t k = getL s k) ∧
        (∀ k, mine k ↔ k ∈ (tget t.ctl.dogs q {}).slots) ∧
        ∀ r, r ∈ (tget t.ctl.dogs q {}).clusters ↔ ∃ k, mine k ∧ ∃ sp ∈ spansOf s k, r ∈ regionRanks (getSpan s sp) ∧
          ((getClus s r).span = some sp ∨ ((getSpan s sp).saved = true ∧ (getClus s r).span = none ∧ clusOwner s r = (getSpan s sp).tenant.toNat))) ∧
    (fieldOf w 43 41 ≠ 2 ∨ d.slots ≠ [] → exec (.watchdogResetDone q) s = .next s) ∧
    (fieldOf w 43 41 = 2 → d.slots = [] → (d.clusters = [] ∨ d.since + 65536 ≤ now s) →
      ∃ t, exec (.watchdogResetDone q) s = .next t ∧ wst t 3 ∧ (tget t.ctl.dogs q {}).clusters = [] ∧ t.spans = s.spans ∧ t.ctl.entries = s.ctl.entries ∧
        (∀ r ∈ d.clusters, (getClus t r).tags = [] ∧ (getClus t r).span = (getClus s r).span) ∧ (∀ r, r ∉ d.clusters → getClus t r = getClus s r) ∧
        (fieldOf w 63 60 = 0 → roomForRecord s 0 → d.clusters = [] → recordPosted s t 0 (recordHead 0x0F 0 0 0 q) 0x0F q 0 0 0) ∧
        (∀ r ∈ d.clusters, ∀ a, regionByte [r] a → byteAt t a = 0) ∧
        (let own := fieldOf w 63 60
         let tail (n : Nat) : Nat := (tw s n 2).toNat / 2 ^ 32
         let place (n : Nat) : Nat := (tw s n 1).toNat / 2 ^ 12 % 2 ^ 40 * 4096 + 64 * (tail n % 2 ^ ((tw s n 1).toNat % 2 ^ 6))
         roomForRecord s own → roomForRecord s 0 → (own = 0 ∨ place own + 64 ≤ place 0 ∨ place 0 + 64 ≤ place own) →
          (∀ n, n = own ∨ n = 0 → (tw t n 2).toNat = (tail n + 1) % 2 ^ 32 * 2 ^ 32 + (tw s n 2).toNat % 2 ^ 32 ∧
            ∀ i < 64, (byteAt t (place n + i)).toNat =
              ([recordHead 0x0F own 0 0 q, 0x0F, q, 0, 0, 0, tail n * 2 ^ 32, now s].getD (i / 8) 0) / 2 ^ (8 * (i % 8)) % 2 ^ 8) ∧
          ∀ a, (∀ r ∈ d.clusters, ¬ regionByte [r] a) → (∀ n, n = own ∨ n = 0 → a < place n ∨ place n + 64 ≤ a) → byteAt t a = byteAt s a))) ∧
  ∀ (s : State) (r : Nat),
    let o := tget s.ctl.owners r 0
    (fieldOf o 63 63 = 0 ∨ now s < (getClus s r).clearDue → exec (.ownerClearDone r) s = .next s) ∧
    (fieldOf o 63 63 = 1 → (getClus s r).clearDue ≤ now s →
      ∃ t, exec (.ownerClearDone r) s = .next t ∧ tget t.ctl.owners r 0 = BitVec.ofNat 64 (o.toNat % 2 ^ 63) ∧ (getClus t r).tags = [] ∧
        (∀ i < 16, tileCleared (getTile t (16 * r + i))) ∧ (∀ a, regionByte [r] a → byteAt t a = 0) ∧
        (∀ a, ¬ regionByte [r] a → byteAt t a = byteAt s a) ∧ t.spans = s.spans ∧ (∀ x, x ≠ r → getClus t x = getClus s x) ∧
        ∀ x, x ≠ r → tget t.ctl.owners x 0 = tget s.ctl.owners x 0)

/-! ## The module's outside (R246, R430 to R438) -/

namespace Sys2Proof.Machine

/-- Stores of tenant m to the words of a range of CONTROL space in order, from s to u (R446): each with the bytes that fall to it; `ok` tells
that none faulted, and the first that does ends them. -/
def storesWords (m : Nat) : List (Nat × Nat) → List Byte → State → State → Bool → Prop
  | [], _, s, u, ok => u = s ∧ ok = true
  | (o, k) :: ps, bs, s, u, ok =>
    match (if ctlMapped o then ctlStore s m (o / 8 * 8) (o % 8) k (fun _ => ofBytes (bs.take k)) true else none) with
    | some v => storesWords m ps (bs.drop k) v u ok
    | none => u = s ∧ ok = false

end Sys2Proof.Machine

/-- R430, R432, R433, R446: a peer's request of 1 to 256 bytes within one aligned block, wholly within one valid HBM window, is served at its home;
any other gets an error completion and touches no byte; an atomic is aligned, and an fp32 add has 4 bytes. A request to the control aperture
acts, word by word, as a CONTROL access of the tenant whose block names the node, and has an error completion where no tenant does or
where that access would fault. The model's choice (log 77, DEDUCED): a request that the attachment does not support, as R432 says of one
outside the window, has an error completion and changes nothing.

It concludes that exec answers a next state with this effect, on conditions on the state and the operands alone, for
inboundAccess, apertureAccess. -/
def Obligations.PeersAreServed : Prop :=
  ∀ (s : State) (node pa : Nat) (r : PeerReq),
    let n := match r with | .read n => n | .write bs => bs.length | .amo _ dbl .. => if dbl then 8 else 4
    let asked : Prop := 1 ≤ n ∧ pa % 2 ^ 8 + n ≤ 2 ^ 8 ∧ (∀ fn dbl b e, r = .amo fn dbl b e → pa % n = 0 ∧ ¬ (dbl = true ∧ fn = .fadd))
    let inside : Prop := ∃ p ∈ s.ctl.windows, (window p.2).v = true ∧ (window p.2).sram = false ∧ (window p.2).base * 2 ^ 16 ≤ pa ∧
      pa + n ≤ ((window p.2).base + (window p.2).size) * 2 ^ 16
    let answers (t : State) (d : Option (List Byte)) : Prop := t.net.replies = (node, d) :: s.net.replies ∧ t.spans = s.spans ∧ t.ctl = s.ctl ∧ t.tiles = s.tiles
    let held (k : Nat) : List Byte := (List.range k).map fun i => byteAt s (pa + i)
    (¬ (asked ∧ inside) → ∃ t, exec (.inboundAccess node pa r) s = .next t ∧ answers t none ∧ t.mem = s.mem ∧ t.poison = s.poison) ∧
    (asked → inside → isPoison s pa n = false →
      ∃ t, exec (.inboundAccess node pa r) s = .next t ∧ sameMemoryBut s t pa n ∧ match r with
        | .read _ => answers t (some (held n)) ∧ t.mem = s.mem
        | .write bs => answers t (some []) ∧ ∀ i (h : i < bs.length), byteAt t (pa + i) = bs[i]
        | .amo fn dbl b e => answers t (some (held n)) ∧
          (dbl = true → valueAt t 64 pa 8 = atomicGives fn (valueAt s 64 pa 8) b e) ∧
          (dbl = false → valueAt t 32 pa 4 = atomicGives fn (valueAt s 32 pa 4) (BitVec.ofNat 32 b.toNat) (BitVec.ofNat 32 e.toNat))) ∧
    (asked → inside → isPoison s pa n = true → (∀ bs, r ≠ .write bs) →
      ∃ t, exec (.inboundAccess node pa r) s = .next t ∧ answers t none ∧ t.mem = s.mem) ∧
    let names (m : Nat) : Prop := m < 16 ∧ fieldOf (tw s m 4) 63 63 = 1 ∧ fieldOf (tw s m 4) 9 0 = node
    let error : Prop := ∃ t, exec (.apertureAccess node pa r) s = .next t ∧ answers t none ∧ t.mem = s.mem
    ((∀ m, ¬ names m) → error) ∧ (¬ asked → error) ∧
    (asked → 2 ^ 24 < pa + n → error) ∧
    ∀ m, names m → (∀ k < m, ¬ names k) → asked → pa + n ≤ 2 ^ 24 →
      let old : List Byte := (List.range n).map fun i => BitVec.ofNat 8 ((ctlWord s ((pa + i) / 8 * 8)).toNat / 2 ^ (8 * ((pa + i) % 8)))
      let may : Prop := ∀ i < n, ctlMapped (pa + i) = true ∧ ctlReadOk s m (pa + i) = true
      match r with
        | .read _ => (¬ may → error) ∧ (may → ∃ t, exec (.apertureAccess node pa r) s = .next t ∧ answers t (some old) ∧ t.mem = s.mem)
        | .write bs => ∃ (u t : State) (ok : Bool), storesWords m (ctlParts pa n) bs s u ok ∧ exec (.apertureAccess node pa r) s = .next t ∧
            { t with net := u.net } = u ∧ t.net.replies = (node, if ok then some [] else none) :: u.net.replies
        | .amo fn _ b e => match (if ctlMapped pa then ctlStore s m (pa / 8 * 8) (pa % 8) n (fun x => amoNew fn n x b.toNat e.toNat) false else none) with
          | none => error
          | some u => ∃ t, exec (.apertureAccess node pa r) s = .next t ∧ { t with net := u.net } = u ∧ t.net.replies = (node, some old) :: u.net.replies

/-- R116, R246, R421, R422, R434 to R438: POWER_ON starts a module whose every object is zero, whose clusters belong to tenant 0, whose
dispatchers are seeded and whose tenant 0 answers to its host node; power that is removed, by itself or at the critical limit, leaves
nothing but the firmware's storage; idle cycles change the clock and the ages and timers of launch control alone; the root reports its measurements under its
signature, and refuses an image without a valid signature or below the rollback counter; an uncorrectable error poisons a whole line of any
storage. The model's choices: a byte of HBM or base SRAM reads 0 after power on (log 2, DESIGN CHOICE), and the bytes of peers stay as they
were; in the idle cycles the fabric's timers stand still (log 21, DEDUCED); at the critical limit power is removed in the same step (log 22,
DEDUCED); an image is refused when it is offered, and the rollback counter stands (log 72, DEDUCED); firmware, versions and node ids survive
the loss of power (log 73, DEDUCED); a module whose images the root refuses at boot does not start (log 130, DESIGN CHOICE).

It concludes that exec answers a next state with this effect, on conditions on the state and the operands alone, for powerOn,
thermalThrottle, thermalCritical, powerRemove, attestationRequest, firmwareUpdate, nodeIdSet, uncorrectableError. -/
def Obligations.ModulePowerAndRoot : Prop :=
  ∀ s : State,
    let ours (a : Nat) : Prop := a < 2 ^ 64 ∨ 2 ^ 80 ≤ a
    let boots : Prop := s.firm.rootSigned = true ∧ s.firm.svcSigned = true ∧ s.firm.rollback.toNat ≤ s.firm.rootVer.toNat ∧
      s.firm.rollback.toNat ≤ s.firm.svcVer.toNat
    let wiped (t : State) : Prop := ∀ a, byteAt t a = if ours a then 0 else byteAt s a
    (s.power = false → ¬ boots → exec .powerOn s = .next s) ∧
    (s.power = false → boots →
      ∃ t, exec .powerOn s = .next t ∧ t.power = true ∧ t.spans = [] ∧ wiped t ∧ (∀ g, getTile t g = {}) ∧ t.net = {} ∧
        (∀ k m, m < 8 → entryW t k m = 0) ∧ (∀ q, qword t q = 0) ∧ (∀ r, clusOwner t r = 0 ∧ clusBusy t r = false) ∧ (∀ m, (getL t m).v = false) ∧
        (∀ d < 4, (tget t.ctl.disp d {}).x = 0x9E3779B9 ^^^ BitVec.ofNat 32 d ∧ (tget t.ctl.disp d {}).rot = 63) ∧
        (∀ n i, i < 8 → tw t n i = if n = 0 ∧ i = 4 then BitVec.ofNat 64 (2 ^ 63 + s.firm.host.toNat) else 0) ∧
        t.firm = { s.firm with mroot := Config.measure s.firm.rootImg, msvc := Config.measure s.firm.svcImg }) ∧
    (s.power = true → exec .powerOn s = .next s) ∧
    (let gone (i : Instr) : Prop := ∃ t, exec i s = .next t ∧ t.power = false ∧ t.spans = [] ∧ wiped t ∧ t.ctl = {} ∧ t.net = {} ∧ t.tiles = [] ∧
        t.firm = { s.firm with mroot := 0, msvc := 0 }
     gone .powerRemove ∧ gone .thermalCritical) ∧
    (∀ n : Nat, ∃ t, exec (.thermalThrottle n) s = .next t ∧ t.cycle = s.cycle + BitVec.ofNat 64 n ∧
      { t with cycle := s.cycle, ctl := { t.ctl with disp := s.ctl.disp, dogs := s.ctl.dogs } } = s) ∧
    (∀ nonce : BitVec 256, ∃ (rep : BitVec 2432) (t : State), exec (.attestationRequest nonce) s = .next t ∧
      { t with firm := s.firm } = s ∧ t.firm = { s.firm with reports := rep :: s.firm.reports } ∧
      rep.extractLsb' 0 256 = nonce ∧ rep.extractLsb' 256 512 = s.firm.mroot ∧ rep.extractLsb' 768 512 = s.firm.msvc ∧
      rep.extractLsb' 1520 912 = Config.sign (rep.extractLsb' 0 1520)) ∧
    (∀ (service signed : Bool) (version : BitVec 64) (image : Nat),
      (signed = false ∨ version.toNat < s.firm.rollback.toNat → exec (.firmwareUpdate service version image signed) s = .next s) ∧
      (signed = true → s.firm.rollback.toNat ≤ version.toNat →
        ∃ t, exec (.firmwareUpdate service version image signed) s = .next t ∧ { t with firm := s.firm } = s ∧
          t.firm = if service then { s.firm with svcVer := version, svcImg := image, svcSigned := true }
            else { s.firm with rootVer := version, rootImg := image, rootSigned := true })) ∧
    (∀ (w : NodeId) (v : BitVec 10), ∃ t, exec (.nodeIdSet w v) s = .next t ∧ { t with firm := s.firm } = s ∧ t.firm = match w with
      | .own => { s.firm with node := v } | .service => { s.firm with service := v } | .host => { s.firm with host := v }) ∧
    ∀ line : Nat,
      let a := 64 * line
      let exists_ : Prop := hbmExists a 64 = true ∨ (2 ^ 48 ≤ a ∧ a < 2 ^ 48 + 2 ^ 30) ∨ (2 ^ 49 ≤ a ∧ a < 2 ^ 49 + 2 ^ 30) ∨ (2 ^ 50 ≤ a ∧ a < 2 ^ 50 + 12 * 2 ^ 25) ∨
        (2 ^ 51 ≤ a ∧ a < 2 ^ 51 + 4096 * 2 ^ 17)
      (exists_ → ∃ t, exec (.uncorrectableError line) s = .next t ∧ { t with poison := s.poison } = s ∧ ∀ l, l ∈ t.poison ↔ l = line ∨ l ∈ s.poison) ∧
      (¬ exists_ → exec (.uncorrectableError line) s = .next s)

/-! ## The whole machine -/

/-- R80, R83, R86 to R91: every control word that is well-formed has an encoding that decodes to it with every operand, and every word
that decodes is the encoding of what it decodes to, so that no two words mean one instruction. -/
def Obligations.EncodingAndDecodingAgree : Prop :=
  (∀ i : Instr, i.isWord = true → i.wf = true → ∃ w, encode i = some w ∧ decode w = some i) ∧
  ∀ (w : Word) (i : Instr), decode w = some i → i.isWord = true ∧ i.wf = true ∧ encode i = some w

/-- The words the spec writes out (R80 to R92 and the entries of the words) decode to what it says they are; words with a reserved form
of NX, an unassigned opcode or a reserved field do not decode. -/
def Obligations.WrittenWordsDecode : Prop :=
  decode 0x0000060831000070 = some (.div .next { sd := 2, sa := 3, sb := 4, fd := 3, fe := true, wd := .w64 }) ∧
  decode 0x0000100C30FFFFFF = some (.addi .next { sd := 3, sa := 3, fd := 0, fe := false, imm := -1 }) ∧
  decode 0x0000190071A00064 = some (.cmpi .next 0 7 0 true .geu 100) ∧
  decode 0x00001714FFFFFFFE = some (.li .next 5 (-2)) ∧
  decode 0x0000222490000040 = some (.paddi .next { sd := 9, sa := 9, fd := 0, fe := false, imm := 64 }) ∧
  decode 0x0000331000000005 = some (.recv .next { sd := 4, ch := 5, part := 0, peek := false, fd := 0, fe := false }) ∧
  decode 0x0000340210000006 = some (.send .next 33 false 6) ∧
  decode 0x0000F11C00000010 = some (.csrr .next 7 0x10) ∧
  decode 0x0000F50040000012 = some (.trap .next 4 0x12) ∧
  decode 0x9000F60000001000 = some (.eret .stop .skip) ∧
  decode 0x4400011861C00000 = some (.add (.loop 1 0) { sd := 6, sa := 6, sb := 7, fd := 0, fe := false, wd := .w64 }) ∧
  decode 0x0000840050000001 = some (.accShape .next 0 5 1) ∧
  decode 0x0000C414A0001000 = some (.depDec .next 5 10 1) ∧
  decode 0x0000730060000002 = some (.cfgLoad .next 6 2) ∧
  decode 0x0000F70CA0001000 = some (.kill .next 3 10 true) ∧
  decode 0xA000F00000000000 = none ∧ decode 0x0000FF0000000000 = none ∧ decode 0x0000F00000000001 = none

/-- R136, R137: of the handlers that are RUNNABLE since an earlier cycle and not masked the core picks one of the highest priority, once in
a cycle, among equals the first after the
one last picked at that priority, in ascending index and wrapping from 15 to 0, with 15 before the first pick; the picked handler issues
one word, and where none can be picked nothing is issued; a word that the program buffer holds is staged to run, and its cycle noted. A handler held by a trap, or of a span
that does not run or whose count has expired, is not among them.

It concludes that exec answers a next state with this effect, on conditions on the state and the operands alone, for handlerIssue. -/
def Obligations.PickedHandlerIsNextInTurn : Prop :=
  (∀ p : Span,
    let prio (h : Nat) : Nat := (tget p.hs h {}).prio.toNat
    let turn (h : Nat) : Nat := if tget p.rot (prio h) 15 < h then h else h + 16
    (∀ h : Nat, pickHandler p = some h ↔ p.picked = false ∧
      h < 16 ∧ canIssue p h = true ∧ ∀ g < 16, canIssue p g = true → prio g < prio h ∨ (prio g = prio h ∧ turn h ≤ turn g)) ∧
    (pickHandler p = none ↔ p.picked = true ∨ ∀ g < 16, canIssue p g = false) ∧
    (p.live = true → p.starting = false → p.saved = false → p.ended = false → p.frozen = false → p.quiesced = false →
      (p.isMatrix = true → p.sys.emitted < p.tcnt) → ∀ h, canIssue p h = true ↔
        h ≤ p.nhnd ∧ (tget p.hs h {}).st = .runnable ∧ (tget p.hs h {}).fresh = false ∧ (tget p.hs h {}).mask = false ∧ (tget p.hs h {}).held = none)) ∧
  ∀ (s : State) (sp : Nat),
    (pickHandler (getSpan s sp) = none → exec (.handlerIssue sp) s = .next s) ∧
    ∀ (h : Nat) (l : List Word) (j : Instr), pickHandler (getSpan s sp) = some h →
      let x := getH s sp h
      let w := nth l (x.pc.toNat % 8) 0
      let u : State := { updSpan s sp fun p => { p with rot := tput p.rot x.prio.toNat h, picked := true } with
        cur := { sp := sp, h := h, pc := x.pc, word := w, latch := none } }
      tfind (getSpan s sp).pbuf (x.pc.toNat / 8) = some l → x.pc.toNat % 8 ∉ tget (getSpan s sp).pbufGaps (x.pc.toNat / 8) [] → decode w = some j → issueCheck u j = none →
      ∃ t, exec (.handlerIssue sp) s = .next t ∧ t.sched.staged = some j ∧ t.cur = u.cur ∧ (getSpan t sp).picked = true ∧
        (∀ k, tget (getSpan t sp).rot k 15 = if k = x.prio.toNat then h else tget (getSpan s sp).rot k 15) ∧
        (∀ q g, getH t q g = if q = sp ∧ g = h then { x with issued := now s } else getH s q g) ∧ t.mem = s.mem

/-- R81, R82, R137, R140, R437, with the schedule of notes/assumptions/1.md: a step of a module with power lets the scheduled cycles
pass and is then the exec of the scheduled step, after which the waiting cwaits of CONTROL space see what it has left and a stopping span withdraws the words that wait (R386, R413); where a handler is picked whose word stands in the program buffer, decodes and passes the
checks made at decode, the step is the exec of that instruction, with the word's place noted; where the buffer lacks the word, or
could not read it, the handler alone waits; a span without a handler to pick issues nothing. A control word happens only when a handler issues it, and without
power nothing happens but POWER_ON. -/
def Obligations.StepRunsTheDecodedInstruction : Prop :=
  ∀ (s : State) (dt : Nat) (i : Instr) (rest : List (Nat × Instr)), s.sched.agenda = (dt, i) :: rest →
    let s0 : State := { s with sched := { s.sched with agenda := rest } }
    let s1 := passCycles dt s0
    (s.power = false → step s = if i = .powerOn then exec .powerOn s0 else .fault .noPower) ∧
    (s.power = true →
      (i.isWord = true → step s = .next s1) ∧
      (∀ t, i.isWord = false → exec i s1 = .next t → t.sched.staged = none →
        step s = .next (settleEvent t) ∧ ((∀ a ∈ t.net.acc, ctlWait a = false ∧ a.woken = false) →
          (∀ x ∈ t.spans, x.2.quiesced = true → x.2.saved = true) → settleEvent t = t)) ∧
      ∀ sp, i = .handlerIssue sp →
        (pickHandler (getSpan s1 sp) = none → exec i s1 = .next s1) ∧
        ∀ h, pickHandler (getSpan s1 sp) = some h →
          let x := getH s1 sp h
          let s2 := updH (updSpan s1 sp fun p => { p with rot := tput p.rot x.prio.toNat h, picked := true }) sp h fun x => { x with issued := now s1 }
          let gap : Prop := x.pc.toNat % 8 ∈ tget (getSpan s1 sp).pbufGaps (x.pc.toNat / 8) []
          (tfind (getSpan s1 sp).pbuf (x.pc.toNat / 8) = none ∨ gap →
            ∃ t, exec i s1 = .next t ∧ getH t sp h = { x with miss := true, st := .blocked } ∧
              (∀ q j, (q ≠ sp ∨ j ≠ h) → getH t q j = getH s1 q j) ∧ t.mem = s1.mem ∧ { t with spans := s1.spans } = s1) ∧
          ∀ (l : List Word) (j : Instr), tfind (getSpan s1 sp).pbuf (x.pc.toNat / 8) = some l →
            let w := nth l (x.pc.toNat % 8) 0
            let s3 : State := { s2 with cur := { sp := sp, h := h, pc := x.pc, word := w, latch := none } }
            ¬ gap → decode w = some j → issueCheck s3 j = none →
            exec i s1 = .next { s3 with sched := { s3.sched with staged := some j } } ∧
            step s = wakeOut (exec j { s3 with sched := { s3.sched with staged := none } }))

/-- Every instruction answers a next state in every state, and memory in its canonical form stays so; hence no data ends the run of a
module that has power, and from a state with canonical memory every step leads to one. -/
def Obligations.EveryStepKeepsMemory : Prop :=
  (∀ (i : Instr) (s : State), MemoryKept s → ∃ t, exec i s = .next t ∧ MemoryKept t) ∧
  (∀ s : State, MemoryKept s → Powered s → ∃ t, step s = .next t ∧ MemoryKept t) ∧
  ∀ s t : State, MemoryKept s → step s = .next t → MemoryKept t

/-- R108, R113, R116, R421, R422, R436: after reset the module has power; no cluster holds a span and every cluster is tenant 0's; every
entry is EMPTY and every queue control block zero; the dispatchers are seeded; only tenant 0 exists, with HEN = 1; no access is under way.
That a byte nothing has written reads as zero is the model's choice (notes/assumptions/2.md). -/
def Obligations.ResetLeavesAnEmptyModule : Prop :=
  let s := State.reset
  Powered s ∧ MemoryKept s ∧ (∀ a, byteAt s a = 0) ∧ (∀ sp, (getSpan s sp).live = false) ∧ (∀ r, (getClus s r).span = none) ∧
  (∀ r, clusOwner s r = 0 ∧ clusBusy s r = false) ∧ (∀ k, tget s.ctl.entries k 0 = 0) ∧ (∀ q, qword s q = 0) ∧
  (∀ d < 4, (tget s.ctl.disp d {}).x = 0x9E3779B9 ^^^ BitVec.ofNat 32 d ∧ (tget s.ctl.disp d {}).rot = 63) ∧
  (∀ n i, i < 8 → tw s n i = if n = 0 ∧ i = 4 then BitVec.ofNat 64 (2 ^ 63) else 0) ∧ (∀ n, (getL s n).v = false) ∧
  (∀ g, getTile s g = {}) ∧ s.net = {} ∧ (∀ l, isPoison s l 1 = false)
end

