-- ==== Sys2Proof/Laws/Tab.lean ====
section
/-!
SUPPORT. Laws/Tab.lean: what reading a sparse table gives after each write.
-/
namespace Sys2Proof.Machine

variable {α : Type}

@[simp] theorem tget_nil (k : Nat) (d : α) : tget ([] : Tab α) k d = d := rfl

@[simp] theorem tget_tdel_same (t : Tab α) (k : Nat) (d : α) : tget (tdel t k) k d = d := by
  induction t with
  | nil => rfl
  | cons p t ih =>
    obtain ⟨a, v⟩ := p
    simp only [tdel, List.filter_cons] at *
    by_cases h : a = k <;> simp_all [tget]

theorem tget_tdel_ne (t : Tab α) {k j : Nat} (d : α) (h : j ≠ k) : tget (tdel t k) j d = tget t j d := by
  induction t with
  | nil => rfl
  | cons p t ih =>
    obtain ⟨a, v⟩ := p
    simp only [tdel, List.filter_cons] at *
    by_cases ha : a = k
    · subst ha; simp [tget, ih, Ne.symm h]
    · simp [ha, tget, ih]

theorem tget_tdel (t : Tab α) (k j : Nat) (d : α) : tget (tdel t k) j d = if j = k then d else tget t j d := by
  split
  · next h => subst h; simp
  · next h => exact tget_tdel_ne t d h

theorem tget_tins_ne (t : Tab α) {k j : Nat} (v d : α) (h : j ≠ k) : tget (tins t k v) j d = tget t j d := by
  induction t with
  | nil => simp [tins, tget, Ne.symm h]
  | cons p t ih =>
    obtain ⟨a, w⟩ := p
    simp only [tins]
    split
    · simp [tget, Ne.symm h]
    · simp [tget, ih]

theorem tget_tins_same (t : Tab α) (k : Nat) (v d : α) (h : tget (tdel t k) k v = v) (hk : ∀ p ∈ t, p.1 ≠ k) :
    tget (tins t k v) k d = v := by
  induction t with
  | nil => simp [tins, tget]
  | cons p t ih =>
    obtain ⟨a, w⟩ := p
    have ha : a ≠ k := hk (a, w) (by simp)
    simp only [tins]
    split
    · simp [tget]
    · simp only [tget, ha, if_false]
      exact ih (by simp) fun q hq => hk q (by simp [hq])

theorem tdel_key (t : Tab α) (k : Nat) : ∀ p ∈ tdel t k, p.1 ≠ k := by
  intro p hp
  simp only [tdel, List.mem_filter] at hp
  simpa using hp.2

@[simp] theorem tget_tput_same (t : Tab α) (k : Nat) (v d : α) : tget (tput t k v) k d = v :=
  tget_tins_same _ k v d (by simp) (tdel_key t k)

theorem tget_tput_ne (t : Tab α) {k j : Nat} (v d : α) (h : j ≠ k) : tget (tput t k v) j d = tget t j d := by
  rw [tput, tget_tins_ne _ v d h, tget_tdel_ne _ d h]

theorem tget_tput (t : Tab α) (k j : Nat) (v d : α) : tget (tput t k v) j d = if j = k then v else tget t j d := by
  split
  · next h => subst h; simp
  · next h => exact tget_tput_ne t v d h

theorem tget_tset [DecidableEq α] (t : Tab α) (k j : Nat) (v d : α) :
    tget (tset t k v d) j d = if j = k then v else tget t j d := by
  rw [tset]
  split
  · next h => subst h; exact tget_tdel t k j v
  · exact tget_tput t k j v d

@[simp] theorem tget_tset_same [DecidableEq α] (t : Tab α) (k : Nat) (v d : α) : tget (tset t k v d) k d = v := by
  simp [tget_tset]

theorem tget_tset_ne [DecidableEq α] (t : Tab α) {k j : Nat} (v d : α) (h : j ≠ k) :
    tget (tset t k v d) j d = tget t j d := by
  simp [tget_tset, h]

end Sys2Proof.Machine
end

