-- ==== Sys2Proof/Laws/State.lean ====
section
/-!
SUPPORT. Laws/State.lean: each update of a part of the state leaves the other parts, and reading a part after its update.
-/
namespace Sys2Proof.Machine

@[simp] theorem updSpan_power (s : State) (sp : Nat) (f : Span → Span) : (updSpan s sp f).power = s.power := rfl
@[simp] theorem updSpan_cycle (s : State) (sp : Nat) (f : Span → Span) : (updSpan s sp f).cycle = s.cycle := rfl
@[simp] theorem updSpan_cur (s : State) (sp : Nat) (f : Span → Span) : (updSpan s sp f).cur = s.cur := rfl
@[simp] theorem updSpan_sched (s : State) (sp : Nat) (f : Span → Span) : (updSpan s sp f).sched = s.sched := rfl
@[simp] theorem updSpan_mem (s : State) (sp : Nat) (f : Span → Span) : (updSpan s sp f).mem = s.mem := rfl
@[simp] theorem updSpan_poison (s : State) (sp : Nat) (f : Span → Span) : (updSpan s sp f).poison = s.poison := rfl
@[simp] theorem updSpan_tiles (s : State) (sp : Nat) (f : Span → Span) : (updSpan s sp f).tiles = s.tiles := rfl
@[simp] theorem updSpan_clusters (s : State) (sp : Nat) (f : Span → Span) : (updSpan s sp f).clusters = s.clusters := rfl
@[simp] theorem updSpan_net (s : State) (sp : Nat) (f : Span → Span) : (updSpan s sp f).net = s.net := rfl
@[simp] theorem updSpan_ctl (s : State) (sp : Nat) (f : Span → Span) : (updSpan s sp f).ctl = s.ctl := rfl
@[simp] theorem updSpan_firm (s : State) (sp : Nat) (f : Span → Span) : (updSpan s sp f).firm = s.firm := rfl

@[simp] theorem updH_power (s : State) (sp h : Nat) (f : Handler → Handler) : (updH s sp h f).power = s.power := rfl
@[simp] theorem updH_cycle (s : State) (sp h : Nat) (f : Handler → Handler) : (updH s sp h f).cycle = s.cycle := rfl
@[simp] theorem updH_cur (s : State) (sp h : Nat) (f : Handler → Handler) : (updH s sp h f).cur = s.cur := rfl
@[simp] theorem updH_sched (s : State) (sp h : Nat) (f : Handler → Handler) : (updH s sp h f).sched = s.sched := rfl
@[simp] theorem updH_mem (s : State) (sp h : Nat) (f : Handler → Handler) : (updH s sp h f).mem = s.mem := rfl
@[simp] theorem updH_poison (s : State) (sp h : Nat) (f : Handler → Handler) : (updH s sp h f).poison = s.poison := rfl
@[simp] theorem updH_tiles (s : State) (sp h : Nat) (f : Handler → Handler) : (updH s sp h f).tiles = s.tiles := rfl
@[simp] theorem updH_clusters (s : State) (sp h : Nat) (f : Handler → Handler) : (updH s sp h f).clusters = s.clusters := rfl
@[simp] theorem updH_net (s : State) (sp h : Nat) (f : Handler → Handler) : (updH s sp h f).net = s.net := rfl
@[simp] theorem updH_ctl (s : State) (sp h : Nat) (f : Handler → Handler) : (updH s sp h f).ctl = s.ctl := rfl
@[simp] theorem updH_firm (s : State) (sp h : Nat) (f : Handler → Handler) : (updH s sp h f).firm = s.firm := rfl

@[simp] theorem updStream_power (s : State) (sp sid : Nat) (f : Stream → Stream) : (updStream s sp sid f).power = s.power := rfl
@[simp] theorem updStream_cycle (s : State) (sp sid : Nat) (f : Stream → Stream) : (updStream s sp sid f).cycle = s.cycle := rfl
@[simp] theorem updStream_cur (s : State) (sp sid : Nat) (f : Stream → Stream) : (updStream s sp sid f).cur = s.cur := rfl
@[simp] theorem updStream_sched (s : State) (sp sid : Nat) (f : Stream → Stream) : (updStream s sp sid f).sched = s.sched := rfl
@[simp] theorem updStream_mem (s : State) (sp sid : Nat) (f : Stream → Stream) : (updStream s sp sid f).mem = s.mem := rfl
@[simp] theorem updStream_poison (s : State) (sp sid : Nat) (f : Stream → Stream) : (updStream s sp sid f).poison = s.poison := rfl
@[simp] theorem updStream_tiles (s : State) (sp sid : Nat) (f : Stream → Stream) : (updStream s sp sid f).tiles = s.tiles := rfl
@[simp] theorem updStream_clusters (s : State) (sp sid : Nat) (f : Stream → Stream) : (updStream s sp sid f).clusters = s.clusters := rfl
@[simp] theorem updStream_net (s : State) (sp sid : Nat) (f : Stream → Stream) : (updStream s sp sid f).net = s.net := rfl
@[simp] theorem updStream_ctl (s : State) (sp sid : Nat) (f : Stream → Stream) : (updStream s sp sid f).ctl = s.ctl := rfl
@[simp] theorem updStream_firm (s : State) (sp sid : Nat) (f : Stream → Stream) : (updStream s sp sid f).firm = s.firm := rfl

@[simp] theorem updSys_power (s : State) (sp : Nat) (f : Sys → Sys) : (updSys s sp f).power = s.power := rfl
@[simp] theorem updSys_cycle (s : State) (sp : Nat) (f : Sys → Sys) : (updSys s sp f).cycle = s.cycle := rfl
@[simp] theorem updSys_cur (s : State) (sp : Nat) (f : Sys → Sys) : (updSys s sp f).cur = s.cur := rfl
@[simp] theorem updSys_sched (s : State) (sp : Nat) (f : Sys → Sys) : (updSys s sp f).sched = s.sched := rfl
@[simp] theorem updSys_mem (s : State) (sp : Nat) (f : Sys → Sys) : (updSys s sp f).mem = s.mem := rfl
@[simp] theorem updSys_poison (s : State) (sp : Nat) (f : Sys → Sys) : (updSys s sp f).poison = s.poison := rfl
@[simp] theorem updSys_tiles (s : State) (sp : Nat) (f : Sys → Sys) : (updSys s sp f).tiles = s.tiles := rfl
@[simp] theorem updSys_clusters (s : State) (sp : Nat) (f : Sys → Sys) : (updSys s sp f).clusters = s.clusters := rfl
@[simp] theorem updSys_net (s : State) (sp : Nat) (f : Sys → Sys) : (updSys s sp f).net = s.net := rfl
@[simp] theorem updSys_ctl (s : State) (sp : Nat) (f : Sys → Sys) : (updSys s sp f).ctl = s.ctl := rfl
@[simp] theorem updSys_firm (s : State) (sp : Nat) (f : Sys → Sys) : (updSys s sp f).firm = s.firm := rfl

@[simp] theorem updTile_power (s : State) (t : Nat) (f : Tile → Tile) : (updTile s t f).power = s.power := rfl
@[simp] theorem updTile_cycle (s : State) (t : Nat) (f : Tile → Tile) : (updTile s t f).cycle = s.cycle := rfl
@[simp] theorem updTile_cur (s : State) (t : Nat) (f : Tile → Tile) : (updTile s t f).cur = s.cur := rfl
@[simp] theorem updTile_sched (s : State) (t : Nat) (f : Tile → Tile) : (updTile s t f).sched = s.sched := rfl
@[simp] theorem updTile_mem (s : State) (t : Nat) (f : Tile → Tile) : (updTile s t f).mem = s.mem := rfl
@[simp] theorem updTile_poison (s : State) (t : Nat) (f : Tile → Tile) : (updTile s t f).poison = s.poison := rfl
@[simp] theorem updTile_clusters (s : State) (t : Nat) (f : Tile → Tile) : (updTile s t f).clusters = s.clusters := rfl
@[simp] theorem updTile_spans (s : State) (t : Nat) (f : Tile → Tile) : (updTile s t f).spans = s.spans := rfl
@[simp] theorem updTile_net (s : State) (t : Nat) (f : Tile → Tile) : (updTile s t f).net = s.net := rfl
@[simp] theorem updTile_ctl (s : State) (t : Nat) (f : Tile → Tile) : (updTile s t f).ctl = s.ctl := rfl
@[simp] theorem updTile_firm (s : State) (t : Nat) (f : Tile → Tile) : (updTile s t f).firm = s.firm := rfl

@[simp] theorem updElem_power (s : State) (t e : Nat) (f : Elem → Elem) : (updElem s t e f).power = s.power := rfl
@[simp] theorem updElem_cycle (s : State) (t e : Nat) (f : Elem → Elem) : (updElem s t e f).cycle = s.cycle := rfl
@[simp] theorem updElem_cur (s : State) (t e : Nat) (f : Elem → Elem) : (updElem s t e f).cur = s.cur := rfl
@[simp] theorem updElem_sched (s : State) (t e : Nat) (f : Elem → Elem) : (updElem s t e f).sched = s.sched := rfl
@[simp] theorem updElem_mem (s : State) (t e : Nat) (f : Elem → Elem) : (updElem s t e f).mem = s.mem := rfl
@[simp] theorem updElem_poison (s : State) (t e : Nat) (f : Elem → Elem) : (updElem s t e f).poison = s.poison := rfl
@[simp] theorem updElem_clusters (s : State) (t e : Nat) (f : Elem → Elem) : (updElem s t e f).clusters = s.clusters := rfl
@[simp] theorem updElem_spans (s : State) (t e : Nat) (f : Elem → Elem) : (updElem s t e f).spans = s.spans := rfl
@[simp] theorem updElem_net (s : State) (t e : Nat) (f : Elem → Elem) : (updElem s t e f).net = s.net := rfl
@[simp] theorem updElem_ctl (s : State) (t e : Nat) (f : Elem → Elem) : (updElem s t e f).ctl = s.ctl := rfl
@[simp] theorem updElem_firm (s : State) (t e : Nat) (f : Elem → Elem) : (updElem s t e f).firm = s.firm := rfl

@[simp] theorem updClus_power (s : State) (r : Nat) (f : Cluster → Cluster) : (updClus s r f).power = s.power := rfl
@[simp] theorem updClus_cycle (s : State) (r : Nat) (f : Cluster → Cluster) : (updClus s r f).cycle = s.cycle := rfl
@[simp] theorem updClus_cur (s : State) (r : Nat) (f : Cluster → Cluster) : (updClus s r f).cur = s.cur := rfl
@[simp] theorem updClus_sched (s : State) (r : Nat) (f : Cluster → Cluster) : (updClus s r f).sched = s.sched := rfl
@[simp] theorem updClus_mem (s : State) (r : Nat) (f : Cluster → Cluster) : (updClus s r f).mem = s.mem := rfl
@[simp] theorem updClus_poison (s : State) (r : Nat) (f : Cluster → Cluster) : (updClus s r f).poison = s.poison := rfl
@[simp] theorem updClus_tiles (s : State) (r : Nat) (f : Cluster → Cluster) : (updClus s r f).tiles = s.tiles := rfl
@[simp] theorem updClus_spans (s : State) (r : Nat) (f : Cluster → Cluster) : (updClus s r f).spans = s.spans := rfl
@[simp] theorem updClus_net (s : State) (r : Nat) (f : Cluster → Cluster) : (updClus s r f).net = s.net := rfl
@[simp] theorem updClus_ctl (s : State) (r : Nat) (f : Cluster → Cluster) : (updClus s r f).ctl = s.ctl := rfl
@[simp] theorem updClus_firm (s : State) (r : Nat) (f : Cluster → Cluster) : (updClus s r f).firm = s.firm := rfl

@[simp] theorem updCtl_power (s : State) (f : Control → Control) : (updCtl s f).power = s.power := rfl
@[simp] theorem updCtl_cycle (s : State) (f : Control → Control) : (updCtl s f).cycle = s.cycle := rfl
@[simp] theorem updCtl_cur (s : State) (f : Control → Control) : (updCtl s f).cur = s.cur := rfl
@[simp] theorem updCtl_sched (s : State) (f : Control → Control) : (updCtl s f).sched = s.sched := rfl
@[simp] theorem updCtl_mem (s : State) (f : Control → Control) : (updCtl s f).mem = s.mem := rfl
@[simp] theorem updCtl_poison (s : State) (f : Control → Control) : (updCtl s f).poison = s.poison := rfl
@[simp] theorem updCtl_tiles (s : State) (f : Control → Control) : (updCtl s f).tiles = s.tiles := rfl
@[simp] theorem updCtl_clusters (s : State) (f : Control → Control) : (updCtl s f).clusters = s.clusters := rfl
@[simp] theorem updCtl_spans (s : State) (f : Control → Control) : (updCtl s f).spans = s.spans := rfl
@[simp] theorem updCtl_net (s : State) (f : Control → Control) : (updCtl s f).net = s.net := rfl
@[simp] theorem updCtl_firm (s : State) (f : Control → Control) : (updCtl s f).firm = s.firm := rfl

@[simp] theorem updL_power (s : State) (k : Nat) (f : Launch → Launch) : (updL s k f).power = s.power := rfl
@[simp] theorem updL_cycle (s : State) (k : Nat) (f : Launch → Launch) : (updL s k f).cycle = s.cycle := rfl
@[simp] theorem updL_cur (s : State) (k : Nat) (f : Launch → Launch) : (updL s k f).cur = s.cur := rfl
@[simp] theorem updL_sched (s : State) (k : Nat) (f : Launch → Launch) : (updL s k f).sched = s.sched := rfl
@[simp] theorem updL_mem (s : State) (k : Nat) (f : Launch → Launch) : (updL s k f).mem = s.mem := rfl
@[simp] theorem updL_poison (s : State) (k : Nat) (f : Launch → Launch) : (updL s k f).poison = s.poison := rfl
@[simp] theorem updL_tiles (s : State) (k : Nat) (f : Launch → Launch) : (updL s k f).tiles = s.tiles := rfl
@[simp] theorem updL_clusters (s : State) (k : Nat) (f : Launch → Launch) : (updL s k f).clusters = s.clusters := rfl
@[simp] theorem updL_spans (s : State) (k : Nat) (f : Launch → Launch) : (updL s k f).spans = s.spans := rfl
@[simp] theorem updL_net (s : State) (k : Nat) (f : Launch → Launch) : (updL s k f).net = s.net := rfl
@[simp] theorem updL_firm (s : State) (k : Nat) (f : Launch → Launch) : (updL s k f).firm = s.firm := rfl

@[simp] theorem setTw_power (s : State) (n i : Nat) (v : Word) : (setTw s n i v).power = s.power := rfl
@[simp] theorem setTw_cycle (s : State) (n i : Nat) (v : Word) : (setTw s n i v).cycle = s.cycle := rfl
@[simp] theorem setTw_cur (s : State) (n i : Nat) (v : Word) : (setTw s n i v).cur = s.cur := rfl
@[simp] theorem setTw_sched (s : State) (n i : Nat) (v : Word) : (setTw s n i v).sched = s.sched := rfl
@[simp] theorem setTw_mem (s : State) (n i : Nat) (v : Word) : (setTw s n i v).mem = s.mem := rfl
@[simp] theorem setTw_poison (s : State) (n i : Nat) (v : Word) : (setTw s n i v).poison = s.poison := rfl
@[simp] theorem setTw_tiles (s : State) (n i : Nat) (v : Word) : (setTw s n i v).tiles = s.tiles := rfl
@[simp] theorem setTw_clusters (s : State) (n i : Nat) (v : Word) : (setTw s n i v).clusters = s.clusters := rfl
@[simp] theorem setTw_spans (s : State) (n i : Nat) (v : Word) : (setTw s n i v).spans = s.spans := rfl
@[simp] theorem setTw_net (s : State) (n i : Nat) (v : Word) : (setTw s n i v).net = s.net := rfl
@[simp] theorem setTw_firm (s : State) (n i : Nat) (v : Word) : (setTw s n i v).firm = s.firm := rfl

@[simp] theorem setEntryW_power (s : State) (k i : Nat) (v : Word) : (setEntryW s k i v).power = s.power := rfl
@[simp] theorem setEntryW_cycle (s : State) (k i : Nat) (v : Word) : (setEntryW s k i v).cycle = s.cycle := rfl
@[simp] theorem setEntryW_cur (s : State) (k i : Nat) (v : Word) : (setEntryW s k i v).cur = s.cur := rfl
@[simp] theorem setEntryW_sched (s : State) (k i : Nat) (v : Word) : (setEntryW s k i v).sched = s.sched := rfl
@[simp] theorem setEntryW_mem (s : State) (k i : Nat) (v : Word) : (setEntryW s k i v).mem = s.mem := rfl
@[simp] theorem setEntryW_poison (s : State) (k i : Nat) (v : Word) : (setEntryW s k i v).poison = s.poison := rfl
@[simp] theorem setEntryW_tiles (s : State) (k i : Nat) (v : Word) : (setEntryW s k i v).tiles = s.tiles := rfl
@[simp] theorem setEntryW_clusters (s : State) (k i : Nat) (v : Word) : (setEntryW s k i v).clusters = s.clusters := rfl
@[simp] theorem setEntryW_spans (s : State) (k i : Nat) (v : Word) : (setEntryW s k i v).spans = s.spans := rfl
@[simp] theorem setEntryW_net (s : State) (k i : Nat) (v : Word) : (setEntryW s k i v).net = s.net := rfl
@[simp] theorem setEntryW_firm (s : State) (k i : Nat) (v : Word) : (setEntryW s k i v).firm = s.firm := rfl

@[simp] theorem updNet_power (s : State) (f : Net → Net) : (updNet s f).power = s.power := rfl
@[simp] theorem updNet_cycle (s : State) (f : Net → Net) : (updNet s f).cycle = s.cycle := rfl
@[simp] theorem updNet_cur (s : State) (f : Net → Net) : (updNet s f).cur = s.cur := rfl
@[simp] theorem updNet_sched (s : State) (f : Net → Net) : (updNet s f).sched = s.sched := rfl
@[simp] theorem updNet_mem (s : State) (f : Net → Net) : (updNet s f).mem = s.mem := rfl
@[simp] theorem updNet_poison (s : State) (f : Net → Net) : (updNet s f).poison = s.poison := rfl
@[simp] theorem updNet_tiles (s : State) (f : Net → Net) : (updNet s f).tiles = s.tiles := rfl
@[simp] theorem updNet_clusters (s : State) (f : Net → Net) : (updNet s f).clusters = s.clusters := rfl
@[simp] theorem updNet_spans (s : State) (f : Net → Net) : (updNet s f).spans = s.spans := rfl
@[simp] theorem updNet_ctl (s : State) (f : Net → Net) : (updNet s f).ctl = s.ctl := rfl
@[simp] theorem updNet_firm (s : State) (f : Net → Net) : (updNet s f).firm = s.firm := rfl

@[simp] theorem publish_power (s : State) (p o : Nat) : (publish s p o).power = s.power := rfl
@[simp] theorem publish_cycle (s : State) (p o : Nat) : (publish s p o).cycle = s.cycle := rfl
@[simp] theorem publish_cur (s : State) (p o : Nat) : (publish s p o).cur = s.cur := rfl
@[simp] theorem publish_sched (s : State) (p o : Nat) : (publish s p o).sched = s.sched := rfl
@[simp] theorem publish_mem (s : State) (p o : Nat) : (publish s p o).mem = s.mem := rfl
@[simp] theorem publish_poison (s : State) (p o : Nat) : (publish s p o).poison = s.poison := rfl
@[simp] theorem publish_tiles (s : State) (p o : Nat) : (publish s p o).tiles = s.tiles := rfl
@[simp] theorem publish_clusters (s : State) (p o : Nat) : (publish s p o).clusters = s.clusters := rfl
@[simp] theorem publish_spans (s : State) (p o : Nat) : (publish s p o).spans = s.spans := rfl
@[simp] theorem publish_ctl (s : State) (p o : Nat) : (publish s p o).ctl = s.ctl := rfl
@[simp] theorem publish_firm (s : State) (p o : Nat) : (publish s p o).firm = s.firm := rfl

@[simp] theorem observe_power (s : State) (p o : Nat) : (observe s p o).power = s.power := rfl
@[simp] theorem observe_cycle (s : State) (p o : Nat) : (observe s p o).cycle = s.cycle := rfl
@[simp] theorem observe_cur (s : State) (p o : Nat) : (observe s p o).cur = s.cur := rfl
@[simp] theorem observe_sched (s : State) (p o : Nat) : (observe s p o).sched = s.sched := rfl
@[simp] theorem observe_mem (s : State) (p o : Nat) : (observe s p o).mem = s.mem := rfl
@[simp] theorem observe_poison (s : State) (p o : Nat) : (observe s p o).poison = s.poison := rfl
@[simp] theorem observe_tiles (s : State) (p o : Nat) : (observe s p o).tiles = s.tiles := rfl
@[simp] theorem observe_clusters (s : State) (p o : Nat) : (observe s p o).clusters = s.clusters := rfl
@[simp] theorem observe_spans (s : State) (p o : Nat) : (observe s p o).spans = s.spans := rfl
@[simp] theorem observe_ctl (s : State) (p o : Nat) : (observe s p o).ctl = s.ctl := rfl
@[simp] theorem observe_firm (s : State) (p o : Nat) : (observe s p o).firm = s.firm := rfl

@[simp] theorem orderPorts_power (s : State) (q p : Nat) : (orderPorts s q p).power = s.power := rfl
@[simp] theorem orderPorts_cycle (s : State) (q p : Nat) : (orderPorts s q p).cycle = s.cycle := rfl
@[simp] theorem orderPorts_cur (s : State) (q p : Nat) : (orderPorts s q p).cur = s.cur := rfl
@[simp] theorem orderPorts_sched (s : State) (q p : Nat) : (orderPorts s q p).sched = s.sched := rfl
@[simp] theorem orderPorts_mem (s : State) (q p : Nat) : (orderPorts s q p).mem = s.mem := rfl
@[simp] theorem orderPorts_poison (s : State) (q p : Nat) : (orderPorts s q p).poison = s.poison := rfl
@[simp] theorem orderPorts_tiles (s : State) (q p : Nat) : (orderPorts s q p).tiles = s.tiles := rfl
@[simp] theorem orderPorts_clusters (s : State) (q p : Nat) : (orderPorts s q p).clusters = s.clusters := rfl
@[simp] theorem orderPorts_spans (s : State) (q p : Nat) : (orderPorts s q p).spans = s.spans := rfl
@[simp] theorem orderPorts_ctl (s : State) (q p : Nat) : (orderPorts s q p).ctl = s.ctl := rfl
@[simp] theorem orderPorts_firm (s : State) (q p : Nat) : (orderPorts s q p).firm = s.firm := rfl

@[simp] theorem freshFree_power (s : State) : (freshFree s).2.power = s.power := rfl
@[simp] theorem freshFree_cycle (s : State) : (freshFree s).2.cycle = s.cycle := rfl
@[simp] theorem freshFree_cur (s : State) : (freshFree s).2.cur = s.cur := rfl
@[simp] theorem freshFree_mem (s : State) : (freshFree s).2.mem = s.mem := rfl
@[simp] theorem freshFree_poison (s : State) : (freshFree s).2.poison = s.poison := rfl
@[simp] theorem freshFree_tiles (s : State) : (freshFree s).2.tiles = s.tiles := rfl
@[simp] theorem freshFree_clusters (s : State) : (freshFree s).2.clusters = s.clusters := rfl
@[simp] theorem freshFree_spans (s : State) : (freshFree s).2.spans = s.spans := rfl
@[simp] theorem freshFree_net (s : State) : (freshFree s).2.net = s.net := rfl
@[simp] theorem freshFree_ctl (s : State) : (freshFree s).2.ctl = s.ctl := rfl
@[simp] theorem freshFree_firm (s : State) : (freshFree s).2.firm = s.firm := rfl

@[simp] theorem freshId_power (s : State) : (freshId s).2.power = s.power := rfl
@[simp] theorem freshId_cycle (s : State) : (freshId s).2.cycle = s.cycle := rfl
@[simp] theorem freshId_cur (s : State) : (freshId s).2.cur = s.cur := rfl
@[simp] theorem freshId_mem (s : State) : (freshId s).2.mem = s.mem := rfl
@[simp] theorem freshId_poison (s : State) : (freshId s).2.poison = s.poison := rfl
@[simp] theorem freshId_tiles (s : State) : (freshId s).2.tiles = s.tiles := rfl
@[simp] theorem freshId_clusters (s : State) : (freshId s).2.clusters = s.clusters := rfl
@[simp] theorem freshId_spans (s : State) : (freshId s).2.spans = s.spans := rfl
@[simp] theorem freshId_net (s : State) : (freshId s).2.net = s.net := rfl
@[simp] theorem freshId_ctl (s : State) : (freshId s).2.ctl = s.ctl := rfl
@[simp] theorem freshId_firm (s : State) : (freshId s).2.firm = s.firm := rfl

/-! ## The marks of deterministic mode (R392) change the ordering machine alone -/

@[simp] theorem markAdd_power (s : State) (sp q len behind : Nat) (c : Tab Nat) : (markAdd s sp q len behind c).power = s.power := by unfold markAdd; split <;> rfl
@[simp] theorem markAdd_cycle (s : State) (sp q len behind : Nat) (c : Tab Nat) : (markAdd s sp q len behind c).cycle = s.cycle := by unfold markAdd; split <;> rfl
@[simp] theorem markAdd_cur (s : State) (sp q len behind : Nat) (c : Tab Nat) : (markAdd s sp q len behind c).cur = s.cur := by unfold markAdd; split <;> rfl
@[simp] theorem markAdd_sched (s : State) (sp q len behind : Nat) (c : Tab Nat) : (markAdd s sp q len behind c).sched = s.sched := by unfold markAdd; split <;> rfl
@[simp] theorem markAdd_mem (s : State) (sp q len behind : Nat) (c : Tab Nat) : (markAdd s sp q len behind c).mem = s.mem := by unfold markAdd; split <;> rfl
@[simp] theorem markAdd_poison (s : State) (sp q len behind : Nat) (c : Tab Nat) : (markAdd s sp q len behind c).poison = s.poison := by unfold markAdd; split <;> rfl
@[simp] theorem markAdd_tiles (s : State) (sp q len behind : Nat) (c : Tab Nat) : (markAdd s sp q len behind c).tiles = s.tiles := by unfold markAdd; split <;> rfl
@[simp] theorem markAdd_clusters (s : State) (sp q len behind : Nat) (c : Tab Nat) : (markAdd s sp q len behind c).clusters = s.clusters := by unfold markAdd; split <;> rfl
@[simp] theorem markAdd_spans (s : State) (sp q len behind : Nat) (c : Tab Nat) : (markAdd s sp q len behind c).spans = s.spans := by unfold markAdd; split <;> rfl
@[simp] theorem markAdd_ctl (s : State) (sp q len behind : Nat) (c : Tab Nat) : (markAdd s sp q len behind c).ctl = s.ctl := by unfold markAdd; split <;> rfl
@[simp] theorem markAdd_firm (s : State) (sp q len behind : Nat) (c : Tab Nat) : (markAdd s sp q len behind c).firm = s.firm := by unfold markAdd; split <;> rfl

@[simp] theorem markDrop_power (s : State) (sp q i : Nat) : (markDrop s sp q i).power = s.power := by unfold markDrop; split <;> rfl
@[simp] theorem markDrop_cycle (s : State) (sp q i : Nat) : (markDrop s sp q i).cycle = s.cycle := by unfold markDrop; split <;> rfl
@[simp] theorem markDrop_cur (s : State) (sp q i : Nat) : (markDrop s sp q i).cur = s.cur := by unfold markDrop; split <;> rfl
@[simp] theorem markDrop_sched (s : State) (sp q i : Nat) : (markDrop s sp q i).sched = s.sched := by unfold markDrop; split <;> rfl
@[simp] theorem markDrop_mem (s : State) (sp q i : Nat) : (markDrop s sp q i).mem = s.mem := by unfold markDrop; split <;> rfl
@[simp] theorem markDrop_poison (s : State) (sp q i : Nat) : (markDrop s sp q i).poison = s.poison := by unfold markDrop; split <;> rfl
@[simp] theorem markDrop_tiles (s : State) (sp q i : Nat) : (markDrop s sp q i).tiles = s.tiles := by unfold markDrop; split <;> rfl
@[simp] theorem markDrop_clusters (s : State) (sp q i : Nat) : (markDrop s sp q i).clusters = s.clusters := by unfold markDrop; split <;> rfl
@[simp] theorem markDrop_spans (s : State) (sp q i : Nat) : (markDrop s sp q i).spans = s.spans := by unfold markDrop; split <;> rfl
@[simp] theorem markDrop_ctl (s : State) (sp q i : Nat) : (markDrop s sp q i).ctl = s.ctl := by unfold markDrop; split <;> rfl
@[simp] theorem markDrop_firm (s : State) (sp q i : Nat) : (markDrop s sp q i).firm = s.firm := by unfold markDrop; split <;> rfl

@[simp] theorem markJoin_power (s : State) (sp : Nat) (p : PortId) (q i : Nat) : (markJoin s sp p q i).power = s.power := by unfold markJoin; split <;> rfl
@[simp] theorem markJoin_cycle (s : State) (sp : Nat) (p : PortId) (q i : Nat) : (markJoin s sp p q i).cycle = s.cycle := by unfold markJoin; split <;> rfl
@[simp] theorem markJoin_cur (s : State) (sp : Nat) (p : PortId) (q i : Nat) : (markJoin s sp p q i).cur = s.cur := by unfold markJoin; split <;> rfl
@[simp] theorem markJoin_sched (s : State) (sp : Nat) (p : PortId) (q i : Nat) : (markJoin s sp p q i).sched = s.sched := by unfold markJoin; split <;> rfl
@[simp] theorem markJoin_mem (s : State) (sp : Nat) (p : PortId) (q i : Nat) : (markJoin s sp p q i).mem = s.mem := by unfold markJoin; split <;> rfl
@[simp] theorem markJoin_poison (s : State) (sp : Nat) (p : PortId) (q i : Nat) : (markJoin s sp p q i).poison = s.poison := by unfold markJoin; split <;> rfl
@[simp] theorem markJoin_tiles (s : State) (sp : Nat) (p : PortId) (q i : Nat) : (markJoin s sp p q i).tiles = s.tiles := by unfold markJoin; split <;> rfl
@[simp] theorem markJoin_clusters (s : State) (sp : Nat) (p : PortId) (q i : Nat) : (markJoin s sp p q i).clusters = s.clusters := by unfold markJoin; split <;> rfl
@[simp] theorem markJoin_spans (s : State) (sp : Nat) (p : PortId) (q i : Nat) : (markJoin s sp p q i).spans = s.spans := by unfold markJoin; split <;> rfl
@[simp] theorem markJoin_ctl (s : State) (sp : Nat) (p : PortId) (q i : Nat) : (markJoin s sp p q i).ctl = s.ctl := by unfold markJoin; split <;> rfl
@[simp] theorem markJoin_firm (s : State) (sp : Nat) (p : PortId) (q i : Nat) : (markJoin s sp p q i).firm = s.firm := by unfold markJoin; split <;> rfl

@[simp] theorem markTake_power (s : State) (sp : Nat) (p : PortId) (q : Nat) : (markTake s sp p q).power = s.power := by simp [markTake]
@[simp] theorem markTake_cycle (s : State) (sp : Nat) (p : PortId) (q : Nat) : (markTake s sp p q).cycle = s.cycle := by simp [markTake]
@[simp] theorem markTake_cur (s : State) (sp : Nat) (p : PortId) (q : Nat) : (markTake s sp p q).cur = s.cur := by simp [markTake]
@[simp] theorem markTake_sched (s : State) (sp : Nat) (p : PortId) (q : Nat) : (markTake s sp p q).sched = s.sched := by simp [markTake]
@[simp] theorem markTake_mem (s : State) (sp : Nat) (p : PortId) (q : Nat) : (markTake s sp p q).mem = s.mem := by simp [markTake]
@[simp] theorem markTake_poison (s : State) (sp : Nat) (p : PortId) (q : Nat) : (markTake s sp p q).poison = s.poison := by simp [markTake]
@[simp] theorem markTake_tiles (s : State) (sp : Nat) (p : PortId) (q : Nat) : (markTake s sp p q).tiles = s.tiles := by simp [markTake]
@[simp] theorem markTake_clusters (s : State) (sp : Nat) (p : PortId) (q : Nat) : (markTake s sp p q).clusters = s.clusters := by simp [markTake]
@[simp] theorem markTake_spans (s : State) (sp : Nat) (p : PortId) (q : Nat) : (markTake s sp p q).spans = s.spans := by simp [markTake]
@[simp] theorem markTake_ctl (s : State) (sp : Nat) (p : PortId) (q : Nat) : (markTake s sp p q).ctl = s.ctl := by simp [markTake]
@[simp] theorem markTake_firm (s : State) (sp : Nat) (p : PortId) (q : Nat) : (markTake s sp p q).firm = s.firm := by simp [markTake]

/-! ## What is ordered after what (R378) is kept in the ordering machine alone -/

/-- A fold of steps that change the ordering machine alone changes it alone. -/
theorem foldl_net {α : Type} (f : State → α → State) (hf : ∀ s a, ∃ n, f s a = { s with net := n }) (l : List α) (s : State) :
    ∃ n, l.foldl f s = { s with net := n } := by
  induction l generalizing s with
  | nil => exact ⟨s.net, rfl⟩
  | cons a l ih =>
    obtain ⟨n, hn⟩ := hf s a
    obtain ⟨m, hm⟩ := ih (f s a)
    exact ⟨m, by rw [List.foldl_cons, hm, hn]⟩
theorem release_net (s : State) (p : PortId) (key n : Nat) : ∃ m, release s p key n = { s with net := m } := by
  unfold release
  split
  · exact ⟨s.net, rfl⟩
  · exact foldl_net _ (fun s l => ⟨_, rfl⟩) _ s
theorem acquire_net (s : State) (c key n : Nat) : ∃ m, acquire s c key n = { s with net := m } := by
  obtain ⟨m, hm⟩ := foldl_net (fun s l => observe s c (objLine l)) (fun s l => ⟨_, rfl⟩) (linesOf key n) s
  unfold acquire
  simp only [hm]
  split
  · exact ⟨m, rfl⟩
  · exact ⟨_, rfl⟩
theorem seePhases_net (s : State) (sp c : Nat) (y : Option Nat) : ∃ m, seePhases s sp c y = { s with net := m } := by
  unfold seePhases
  split
  · split
    · exact foldl_net _ (fun s z => by
        show ∃ n, (if z.2 ≤ _ then observe s c (objPhase sp z.1) else s) = _
        split
        · exact ⟨_, rfl⟩
        · exact ⟨s.net, rfl⟩) _ s
    · exact ⟨s.net, rfl⟩
  · exact ⟨s.net, rfl⟩
@[simp] theorem release_power (s : State) (p : PortId) (key n : Nat) : (release s p key n).power = s.power := by obtain ⟨_, h⟩ := release_net s p key n; rw [h]
@[simp] theorem release_cycle (s : State) (p : PortId) (key n : Nat) : (release s p key n).cycle = s.cycle := by obtain ⟨_, h⟩ := release_net s p key n; rw [h]
@[simp] theorem release_cur (s : State) (p : PortId) (key n : Nat) : (release s p key n).cur = s.cur := by obtain ⟨_, h⟩ := release_net s p key n; rw [h]
@[simp] theorem release_sched (s : State) (p : PortId) (key n : Nat) : (release s p key n).sched = s.sched := by obtain ⟨_, h⟩ := release_net s p key n; rw [h]
@[simp] theorem release_mem (s : State) (p : PortId) (key n : Nat) : (release s p key n).mem = s.mem := by obtain ⟨_, h⟩ := release_net s p key n; rw [h]
@[simp] theorem release_poison (s : State) (p : PortId) (key n : Nat) : (release s p key n).poison = s.poison := by obtain ⟨_, h⟩ := release_net s p key n; rw [h]
@[simp] theorem release_tiles (s : State) (p : PortId) (key n : Nat) : (release s p key n).tiles = s.tiles := by obtain ⟨_, h⟩ := release_net s p key n; rw [h]
@[simp] theorem release_clusters (s : State) (p : PortId) (key n : Nat) : (release s p key n).clusters = s.clusters := by obtain ⟨_, h⟩ := release_net s p key n; rw [h]
@[simp] theorem release_spans (s : State) (p : PortId) (key n : Nat) : (release s p key n).spans = s.spans := by obtain ⟨_, h⟩ := release_net s p key n; rw [h]
@[simp] theorem release_ctl (s : State) (p : PortId) (key n : Nat) : (release s p key n).ctl = s.ctl := by obtain ⟨_, h⟩ := release_net s p key n; rw [h]
@[simp] theorem release_firm (s : State) (p : PortId) (key n : Nat) : (release s p key n).firm = s.firm := by obtain ⟨_, h⟩ := release_net s p key n; rw [h]
@[simp] theorem acquire_power (s : State) (c key n : Nat) : (acquire s c key n).power = s.power := by obtain ⟨_, h⟩ := acquire_net s c key n; rw [h]
@[simp] theorem acquire_cycle (s : State) (c key n : Nat) : (acquire s c key n).cycle = s.cycle := by obtain ⟨_, h⟩ := acquire_net s c key n; rw [h]
@[simp] theorem acquire_cur (s : State) (c key n : Nat) : (acquire s c key n).cur = s.cur := by obtain ⟨_, h⟩ := acquire_net s c key n; rw [h]
@[simp] theorem acquire_sched (s : State) (c key n : Nat) : (acquire s c key n).sched = s.sched := by obtain ⟨_, h⟩ := acquire_net s c key n; rw [h]
@[simp] theorem acquire_mem (s : State) (c key n : Nat) : (acquire s c key n).mem = s.mem := by obtain ⟨_, h⟩ := acquire_net s c key n; rw [h]
@[simp] theorem acquire_poison (s : State) (c key n : Nat) : (acquire s c key n).poison = s.poison := by obtain ⟨_, h⟩ := acquire_net s c key n; rw [h]
@[simp] theorem acquire_tiles (s : State) (c key n : Nat) : (acquire s c key n).tiles = s.tiles := by obtain ⟨_, h⟩ := acquire_net s c key n; rw [h]
@[simp] theorem acquire_clusters (s : State) (c key n : Nat) : (acquire s c key n).clusters = s.clusters := by obtain ⟨_, h⟩ := acquire_net s c key n; rw [h]
@[simp] theorem acquire_spans (s : State) (c key n : Nat) : (acquire s c key n).spans = s.spans := by obtain ⟨_, h⟩ := acquire_net s c key n; rw [h]
@[simp] theorem acquire_ctl (s : State) (c key n : Nat) : (acquire s c key n).ctl = s.ctl := by obtain ⟨_, h⟩ := acquire_net s c key n; rw [h]
@[simp] theorem acquire_firm (s : State) (c key n : Nat) : (acquire s c key n).firm = s.firm := by obtain ⟨_, h⟩ := acquire_net s c key n; rw [h]
@[simp] theorem seePhases_power (s : State) (sp c : Nat) (y : Option Nat) : (seePhases s sp c y).power = s.power := by obtain ⟨_, h⟩ := seePhases_net s sp c y; rw [h]
@[simp] theorem seePhases_cycle (s : State) (sp c : Nat) (y : Option Nat) : (seePhases s sp c y).cycle = s.cycle := by obtain ⟨_, h⟩ := seePhases_net s sp c y; rw [h]
@[simp] theorem seePhases_cur (s : State) (sp c : Nat) (y : Option Nat) : (seePhases s sp c y).cur = s.cur := by obtain ⟨_, h⟩ := seePhases_net s sp c y; rw [h]
@[simp] theorem seePhases_sched (s : State) (sp c : Nat) (y : Option Nat) : (seePhases s sp c y).sched = s.sched := by obtain ⟨_, h⟩ := seePhases_net s sp c y; rw [h]
@[simp] theorem seePhases_mem (s : State) (sp c : Nat) (y : Option Nat) : (seePhases s sp c y).mem = s.mem := by obtain ⟨_, h⟩ := seePhases_net s sp c y; rw [h]
@[simp] theorem seePhases_poison (s : State) (sp c : Nat) (y : Option Nat) : (seePhases s sp c y).poison = s.poison := by obtain ⟨_, h⟩ := seePhases_net s sp c y; rw [h]
@[simp] theorem seePhases_tiles (s : State) (sp c : Nat) (y : Option Nat) : (seePhases s sp c y).tiles = s.tiles := by obtain ⟨_, h⟩ := seePhases_net s sp c y; rw [h]
@[simp] theorem seePhases_clusters (s : State) (sp c : Nat) (y : Option Nat) : (seePhases s sp c y).clusters = s.clusters := by obtain ⟨_, h⟩ := seePhases_net s sp c y; rw [h]
@[simp] theorem seePhases_spans (s : State) (sp c : Nat) (y : Option Nat) : (seePhases s sp c y).spans = s.spans := by obtain ⟨_, h⟩ := seePhases_net s sp c y; rw [h]
@[simp] theorem seePhases_ctl (s : State) (sp c : Nat) (y : Option Nat) : (seePhases s sp c y).ctl = s.ctl := by obtain ⟨_, h⟩ := seePhases_net s sp c y; rw [h]
@[simp] theorem seePhases_firm (s : State) (sp c : Nat) (y : Option Nat) : (seePhases s sp c y).firm = s.firm := by obtain ⟨_, h⟩ := seePhases_net s sp c y; rw [h]

/-! ## Reading a part after its update -/

theorem getSpan_updSpan (s : State) (sp q : Nat) (f : Span → Span) :
    getSpan (updSpan s sp f) q = if q = sp then f (getSpan s sp) else getSpan s q := tget_tput s.spans sp q _ _
@[simp] theorem getSpan_updSpan_same (s : State) (sp : Nat) (f : Span → Span) :
    getSpan (updSpan s sp f) sp = f (getSpan s sp) := by simp [getSpan_updSpan]
theorem getSpan_updSpan_ne (s : State) {sp q : Nat} (f : Span → Span) (h : q ≠ sp) :
    getSpan (updSpan s sp f) q = getSpan s q := by simp [getSpan_updSpan, h]

theorem getH_updH (s : State) (sp h q j : Nat) (f : Handler → Handler) :
    getH (updH s sp h f) q j = if q = sp ∧ j = h then f (getH s sp h) else getH s q j := by
  unfold getH updH
  rw [getSpan_updSpan]
  by_cases hq : q = sp <;> by_cases hj : j = h <;> simp_all [tget_tput]
@[simp] theorem getH_updH_same (s : State) (sp h : Nat) (f : Handler → Handler) :
    getH (updH s sp h f) sp h = f (getH s sp h) := by simp [getH_updH]

theorem getTile_updTile (s : State) (t u : Nat) (f : Tile → Tile) :
    getTile (updTile s t f) u = if u = t then f (getTile s t) else getTile s u := tget_tput s.tiles t u _ _
@[simp] theorem getTile_updTile_same (s : State) (t : Nat) (f : Tile → Tile) :
    getTile (updTile s t f) t = f (getTile s t) := by simp [getTile_updTile]

theorem getClus_updClus (s : State) (r q : Nat) (f : Cluster → Cluster) :
    getClus (updClus s r f) q = if q = r then f (getClus s r) else getClus s q := tget_tput s.clusters r q _ _
@[simp] theorem getClus_updClus_same (s : State) (r : Nat) (f : Cluster → Cluster) :
    getClus (updClus s r f) r = f (getClus s r) := by simp [getClus_updClus]

theorem getStream_updStream (s : State) (sp sid q j : Nat) (f : Stream → Stream) :
    getStream (updStream s sp sid f) q j = if q = sp ∧ j = sid then f (getStream s sp sid) else getStream s q j := by
  unfold getStream updStream
  rw [getSpan_updSpan]
  by_cases hq : q = sp <;> by_cases hj : j = sid <;> simp_all [tget_tput]
@[simp] theorem getStream_updStream_same (s : State) (sp sid : Nat) (f : Stream → Stream) :
    getStream (updStream s sp sid f) sp sid = f (getStream s sp sid) := by simp [getStream_updStream]

theorem getL_updL (s : State) (k j : Nat) (f : Launch → Launch) :
    getL (updL s k f) j = if j = k then f (getL s k) else getL s j := tget_tput s.ctl.launches k j _ _
@[simp] theorem getL_updL_same (s : State) (k : Nat) (f : Launch → Launch) : getL (updL s k f) k = f (getL s k) := by
  simp [getL_updL]

@[simp] theorem updCtl_ctl (s : State) (f : Control → Control) : (updCtl s f).ctl = f s.ctl := rfl
@[simp] theorem updNet_net (s : State) (f : Net → Net) : (updNet s f).net = f s.net := rfl

/-- The parts of a span that an update of one handler leaves. -/
theorem getSpan_updH (s : State) (sp h q : Nat) (f : Handler → Handler) :
    getSpan (updH s sp h f) q =
      if q = sp then { getSpan s sp with hs := tput (getSpan s sp).hs h (f (getH s sp h)) } else getSpan s q := by
  rw [updH, getSpan_updSpan]; rfl

end Sys2Proof.Machine
end

