-- ==== Sys2Proof/Laws/Memory.lean ====
section
/-!
SUPPORT. Laws/Memory.lean: what each operation over memory leaves there, and that each keeps the canonical form.
-/
namespace Sys2Proof.Machine

/-! ## Reading after writing -/

theorem read1_write1 (m : List Host.Cell) (a b : Nat) (v : Byte) :
    read1 (write1 m a v) b = if b = a then v else read1 m b := tget_tset m a b v unlisted
@[simp] theorem read1_write1_same (m : List Host.Cell) (a : Nat) (v : Byte) : read1 (write1 m a v) a = v := by
  simp [read1_write1]
theorem read1_write1_ne (m : List Host.Cell) {a b : Nat} (v : Byte) (h : b ≠ a) : read1 (write1 m a v) b = read1 m b := by
  simp [read1_write1, h]

theorem read1_writeN (m : List Host.Cell) (a b : Nat) (l : List Byte) :
    read1 (writeN m a l) b = if a ≤ b ∧ b < a + l.length then nth l (b - a) 0 else read1 m b := by
  induction l generalizing m a with
  | nil => rw [if_neg (fun h => by rw [List.length_nil] at h; omega)]; rfl
  | cons v l ih =>
    simp only [writeN, ih, read1_write1, List.length_cons]
    by_cases h : b = a
    · subst h
      have : ¬(b + 1 ≤ b ∧ b < b + 1 + l.length) := by omega
      have h3 : b ≤ b ∧ b < b + (l.length + 1) := by omega
      rw [if_neg this, if_pos rfl, if_pos h3, Nat.sub_self]; rfl
    · by_cases h1 : a ≤ b ∧ b < a + (l.length + 1)
      · have h2 : a + 1 ≤ b ∧ b < a + 1 + l.length := by omega
        have h3 : b - a = (b - (a + 1)) + 1 := by omega
        simp [h1, h2, nth, h3]
      · have h2 : ¬(a + 1 ≤ b ∧ b < a + 1 + l.length) := by omega
        rw [if_neg h1, if_neg h2, if_neg h]

/-- Writing some of the places of a range. -/
theorem read1_foldl_write1 (m : List Host.Cell) (a b : Nat) (f : Nat → Byte) (l : List Nat) :
    read1 (l.foldl (fun m i => write1 m (a + i) (f i)) m) b = if a ≤ b ∧ b - a ∈ l then f (b - a) else read1 m b := by
  induction l generalizing m with
  | nil => simp
  | cons i l ih =>
    simp only [List.foldl_cons, ih, read1_write1, List.mem_cons]
    by_cases h1 : a ≤ b ∧ b - a ∈ l
    · simp [h1]
    · by_cases h2 : b = a + i
      · subst h2
        have : a + i - a = i := by omega
        simp [this]
      · have h3 : ¬(a ≤ b ∧ (b - a = i ∨ b - a ∈ l)) := by
          rintro ⟨h, h' | h'⟩
          · omega
          · exact h1 ⟨h, h'⟩
        simp [h1, h2, h3]

/-- A byte after a write at a home: the byte written, unless its line is poisoned and not written whole (R246). -/
theorem read1_homeWrite (s : State) (a : Nat) (bs : List Byte) (b : Nat) (hp : s.poison.contains (b / 64) = false) :
    read1 (homeWrite s a bs).1.mem b = if a ≤ b ∧ b < a + bs.length then nth bs (b - a) 0 else read1 s.mem b := by
  simp only [homeWrite, read1_foldl_write1]
  congr 1
  simp only [List.mem_filter, List.mem_range, eq_iff_iff]
  constructor
  · rintro ⟨h, h1, -⟩; omega
  · rintro ⟨h, h1⟩
    refine ⟨h, by omega, ?_⟩
    have : a + (b - a) = b := by omega
    rw [this]
    simp only [Bool.not_eq_eq_eq_not, Bool.not_true, List.contains_eq_mem, decide_eq_false_iff_not, List.mem_filter, not_and]
    intro _
    have := hp
    simp only [List.contains_eq_mem, decide_eq_false_iff_not] at this
    simp [this]

/-- A byte outside a write at a home reads as before. -/
theorem read1_homeWrite_out (s : State) (a : Nat) (bs : List Byte) (b : Nat) (h : b < a ∨ a + bs.length ≤ b) :
    read1 (homeWrite s a bs).1.mem b = read1 s.mem b := by
  simp only [homeWrite, read1_foldl_write1]
  rw [if_neg]
  rintro ⟨h1, h2⟩
  simp only [List.mem_filter, List.mem_range] at h2
  omega

theorem tget_filter_key {α : Type} (q : Nat → Bool) (t : Tab α) (k : Nat) (d : α) :
    tget (t.filter fun c => q c.1) k d = if q k then tget t k d else d := by
  induction t with
  | nil => simp
  | cons p t ih =>
    obtain ⟨a, v⟩ := p
    simp only [List.filter_cons]
    by_cases ha : q a = true
    · simp only [ha, if_true, tget, ih]
      by_cases hk : a = k
      · subst hk; simp [ha]
      · simp [hk]
    · have ha' : q a = false := by simpa using ha
      simp only [ha', Bool.false_eq_true, if_false, tget, ih]
      by_cases hk : a = k
      · subst hk; simp [ha']
      · simp [hk]

/-- A byte after a range is zeroed. -/
theorem read1_homeZero (s : State) (a n b : Nat) :
    read1 (homeZero s a n).mem b = if a ≤ b ∧ b < a + n then unlisted else read1 s.mem b := by
  have := tget_filter_key (fun c => !(decide (a ≤ c) && decide (c < a + n))) s.mem b unlisted
  simp only [read1, homeZero] at *
  rw [this]
  by_cases h : a ≤ b ∧ b < a + n
  · simp [h]
  · have h' : (!(decide (a ≤ b) && decide (b < a + n))) = true := by
      simp only [Bool.not_eq_true', Bool.and_eq_false_iff, decide_eq_false_iff_not]; omega
    simp only [h', if_true, h, if_false]

/-! ## The canonical form -/

/-- The canonical form, place by place. -/
theorem wf_cons (c : Host.Cell) (m : List Host.Cell) :
    Memory.wf (c :: m) = true ↔ c.2 ≠ unlisted ∧ (∀ d ∈ m, c.1 < d.1) ∧ Memory.wf m = true := by
  induction m generalizing c with
  | nil => simp [Memory.wf]
  | cons d m ih =>
    simp only [Memory.wf, Bool.and_eq_true, bne_iff_ne, decide_eq_true_eq]
    constructor
    · rintro ⟨⟨h1, h2⟩, h3⟩
      refine ⟨h1, ?_, h3⟩
      intro e he
      rcases List.mem_cons.1 he with rfl | he
      · exact h2
      · exact Nat.lt_trans h2 (((ih d).1 h3).2.1 e he)
    · rintro ⟨h1, h2, h3⟩
      exact ⟨⟨h1, h2 d (by simp)⟩, h3⟩

@[simp] theorem wf_nil : Memory.wf [] = true := rfl

theorem wf_filter (m : List Host.Cell) (q : Host.Cell → Bool) (h : Memory.wf m = true) : Memory.wf (m.filter q) = true := by
  induction m with
  | nil => rfl
  | cons c m ih =>
    obtain ⟨h1, h2, h3⟩ := (wf_cons c m).1 h
    simp only [List.filter_cons]
    split
    · exact (wf_cons _ _).2 ⟨h1, fun d hd => h2 d (List.mem_filter.1 hd).1, ih h3⟩
    · exact ih h3

theorem wf_tins (m : List Host.Cell) (a : Nat) (v : Byte) (h : Memory.wf m = true) (hv : v ≠ unlisted)
    (hk : ∀ p ∈ m, p.1 ≠ a) : Memory.wf (tins m a v) = true ∧ ∀ d ∈ tins m a v, d = (a, v) ∨ d ∈ m := by
  induction m with
  | nil => simp [tins, Memory.wf, hv]
  | cons c m ih =>
    obtain ⟨b, w⟩ := c
    obtain ⟨h1, h2, h3⟩ := (wf_cons _ _).1 h
    have hb : b ≠ a := hk (b, w) (by simp)
    simp only [tins]
    split
    · next hlt =>
      refine ⟨(wf_cons _ _).2 ⟨hv, ?_, h⟩, by simp⟩
      intro d hd
      rcases List.mem_cons.1 hd with rfl | hd
      · exact hlt
      · exact Nat.lt_trans hlt (h2 d hd)
    · next hlt =>
      obtain ⟨i1, i2⟩ := ih h3 fun p hp => hk p (by simp [hp])
      refine ⟨(wf_cons _ _).2 ⟨h1, ?_, i1⟩, ?_⟩
      · intro d hd
        rcases i2 d hd with rfl | hd
        · show b < a; omega
        · exact h2 d hd
      · intro d hd
        rcases List.mem_cons.1 hd with rfl | hd
        · simp
        · rcases i2 d hd with rfl | hd <;> simp_all

/-- One byte written keeps the canonical form. -/
theorem wf_write1 (m : List Host.Cell) (a : Nat) (v : Byte) (h : Memory.wf m = true) : Memory.wf (write1 m a v) = true := by
  simp only [write1, tset]
  split
  · exact wf_filter _ _ h
  · next hv => exact (wf_tins _ a v (wf_filter _ _ h) hv (tdel_key m a)).1

theorem wf_foldl {β : Type} (f : List Host.Cell → β → List Host.Cell) (l : List β) (m : List Host.Cell)
    (hf : ∀ m b, Memory.wf m = true → Memory.wf (f m b) = true) (h : Memory.wf m = true) : Memory.wf (l.foldl f m) = true := by
  induction l generalizing m with
  | nil => exact h
  | cons b l ih => exact ih _ (hf m b h)

theorem wf_writeN (m : List Host.Cell) (a : Nat) (bs : List Byte) (h : Memory.wf m = true) : Memory.wf (writeN m a bs) = true := by
  induction bs generalizing m a with
  | nil => exact h
  | cons v l ih => exact ih _ _ (wf_write1 m a v h)

theorem wf_putCells (m cells : List Host.Cell) (h : Memory.wf m = true) : Memory.wf (putCells m cells) = true :=
  wf_foldl _ _ _ (fun m c h => wf_write1 m c.1 c.2 h) h

theorem wf_homeWrite (s : State) (a : Nat) (bs : List Byte) (h : Memory.wf s.mem = true) :
    Memory.wf (homeWrite s a bs).1.mem = true :=
  wf_foldl _ _ _ (fun m i h => wf_write1 m (a + i) _ h) h

theorem wf_homeZero (s : State) (a n : Nat) (h : Memory.wf s.mem = true) : Memory.wf (homeZero s a n).mem = true :=
  wf_filter _ _ h

/-- Memory after reset is in its canonical form. -/
theorem wf_reset : Memory.wf State.reset.mem = true := rfl

end Sys2Proof.Machine
end

