-- ==== Sys2Proof/Laws/Net.lean ====
section
/-!
SUPPORT. Laws/Net.lean: what the operations of the ordering machine and the reads of words change: the ordering machine alone, or
that and the counter of numbers, or that and what the current word has read.
-/
namespace Sys2Proof.Machine

/-- Nothing but the ordering machine has changed. -/
def onlyNet (s t : State) : Prop := t = { s with net := t.net }

theorem onlyNet_refl (s : State) : onlyNet s s := rfl
theorem onlyNet_trans {s t u : State} (h : onlyNet s t) (k : onlyNet t u) : onlyNet s u := by
  unfold onlyNet at *
  rw [k, h]
@[simp] theorem onlyNet_updNet (s : State) (f : Net → Net) : onlyNet s (updNet s f) := rfl
theorem onlyNet_foldl {α : Type} (f : State → α → State) (l : List α) (h : ∀ s a, onlyNet s (f s a)) (s : State) :
    onlyNet s (l.foldl f s) := by
  induction l generalizing s with
  | nil => rfl
  | cons a l ih => exact onlyNet_trans (h s a) (ih _)

theorem onlyNet_mem {s t : State} (h : onlyNet s t) : t.mem = s.mem := by rw [h]
theorem onlyNet_poison {s t : State} (h : onlyNet s t) : t.poison = s.poison := by rw [h]
theorem onlyNet_tiles {s t : State} (h : onlyNet s t) : t.tiles = s.tiles := by rw [h]
theorem onlyNet_spans {s t : State} (h : onlyNet s t) : t.spans = s.spans := by rw [h]
theorem onlyNet_ctl {s t : State} (h : onlyNet s t) : t.ctl = s.ctl := by rw [h]

/-! ## Order (R378, R391, R392) -/

theorem publish_onlyNet (s : State) (p o : Nat) : onlyNet s (publish s p o) := rfl
theorem observe_onlyNet (s : State) (p o : Nat) : onlyNet s (observe s p o) := rfl
theorem orderPorts_onlyNet (s : State) (q p : Nat) : onlyNet s (orderPorts s q p) := rfl
theorem markAdd_onlyNet (s : State) (sp q n k : Nat) (c : Tab Nat) : onlyNet s (markAdd s sp q n k c) := by
  unfold markAdd; split <;> rfl
theorem markDrop_onlyNet (s : State) (sp q i : Nat) : onlyNet s (markDrop s sp q i) := by unfold markDrop; split <;> rfl
theorem markJoin_onlyNet (s : State) (sp : Nat) (p : PortId) (q i : Nat) : onlyNet s (markJoin s sp p q i) := by
  unfold markJoin; split <;> rfl
theorem markTake_onlyNet (s : State) (sp : Nat) (p : PortId) (q : Nat) : onlyNet s (markTake s sp p q) :=
  onlyNet_trans (markJoin_onlyNet s sp p q 0) (markDrop_onlyNet _ sp q 0)
theorem release_onlyNet (s : State) (p : PortId) (k n : Nat) : onlyNet s (release s p k n) := by
  obtain ⟨m, h⟩ := release_net s p k n
  rw [onlyNet, h]
theorem acquire_onlyNet (s : State) (c k n : Nat) : onlyNet s (acquire s c k n) := by
  obtain ⟨m, h⟩ := acquire_net s c k n
  rw [onlyNet, h]
theorem seePhases_onlyNet (s : State) (sp c : Nat) (y : Option Nat) : onlyNet s (seePhases s sp c y) := by
  obtain ⟨m, h⟩ := seePhases_net s sp c y
  rw [onlyNet, h]

theorem accObserve_onlyNet (s : State) (a : Access) (k : Nat) : onlyNet s (accObserve s a k) := by
  unfold accObserve
  split
  · exact acquire_onlyNet s _ _ _
  · rfl
theorem accPublish_onlyNet (s : State) (a : Access) (k : Nat) : onlyNet s (accPublish s a k) := by
  have hw (b : Bool) : onlyNet s (if (isRel a || b) = true then release s a.port k a.n else s) := by
    split
    · exact release_onlyNet s _ _ _
    · rfl
  exact hw _

/-- Outside deterministic mode an access is neither judged nor recorded. -/
theorem detStep_off {s : State} {p : PortId} (h : (getSpan s (portSpan s p)).det = false) (k n : Nat) (w : Bool) (c : Option Nat) :
    detStep s p k n w c = some s := by simp [detStep, detStepAs, detOn, h]
/-- An access that meets no conflict is recorded, and nothing else changes. -/
theorem detStepAs_onlyNet {s t : State} {p : PortId} {x k n : Nat} {w : Bool} {c : Option Nat} (h : detStepAs s p x k n w c = some t) :
    onlyNet s t := by
  unfold detStepAs at h
  split at h
  · cases h; rfl
  · split at h
    · cases h
    · cases h; rfl
theorem detStep_onlyNet {s t : State} {p : PortId} {k n : Nat} {w : Bool} {c : Option Nat} (h : detStep s p k n w c = some t) :
    onlyNet s t := detStepAs_onlyNet h
/-- An access that is judged and recorded without a conflict changes nothing else. -/
theorem accJudge_onlyNet {s t : State} {a : Access} {k : Nat} {w : Bool} (h : accJudge s a k w = some t) : onlyNet s t := by
  unfold accJudge at h
  simp only at h
  split at h
  · cases h
  · simp only [Option.some.injEq] at h
    subst h
    refine onlyNet_trans (seePhases_onlyNet s (portSpan s a.port) (accComp a) a.phase) (onlyNet_trans (accObserve_onlyNet _ a k) ?_)
    split <;> rfl
theorem cwJudge_onlyNet {s t : State} {a : Access} {k : Nat} (h : cwJudge s a k = some t) : onlyNet s t :=
  onlyNet_trans (accObserve_onlyNet s a k) (detStepAs_onlyNet h)

/-! ## Reads that a word makes within its step -/

theorem acqLine_onlyNet {s t : State} {q : PortId} {p : Word} {k n : Nat} {b : List Byte} (h : acqLine s q p k n = .ok (b, t)) :
    onlyNet s t := by
  unfold acqLine at h
  split at h
  · cases h; rfl
  · split at h
    · cases h
    · split at h
      · cases h
      · rename_i s1 hd
        cases h
        exact onlyNet_trans (detStep_onlyNet hd) (acquire_onlyNet _ _ _ _)
theorem acqPieces_onlyNet {q : PortId} {p : Word} {l : List (Nat × Nat × Nat)} {s t : State} {b : List Byte}
    (h : acqPieces q p l s = .ok (b, t)) : onlyNet s t := by
  induction l generalizing s b t with
  | nil => cases h; rfl
  | cons x l ih =>
    simp only [acqPieces] at h
    split at h
    · cases h
    · rename_i h1
      split at h
      · cases h
      · rename_i h2
        cases h
        exact onlyNet_trans (acqLine_onlyNet h1) (ih h2)
/-- A read line by line changes the ordering machine alone. -/
theorem acqReadAt_onlyNet {s t : State} {q : PortId} {p : Word} {n al : Nat} {b : List Byte} (h : acqReadAt s q p n al = .ok (b, t)) :
    onlyNet s t := by
  unfold acqReadAt at h
  split at h
  · cases h; rfl
  · split at h
    · cases h
    · exact acqPieces_onlyNet h

/-- The parts of a plain read, one after another. -/
theorem foldlM_onlyNet {α ε : Type} {f : List Byte × State → α → Except ε (List Byte × State)}
    (hf : ∀ x a y, f x a = .ok y → onlyNet x.2 y.2) {l : List α} {x y : List Byte × State} (h : l.foldlM f x = .ok y) : onlyNet x.2 y.2 := by
  induction l generalizing x with
  | nil => cases h; rfl
  | cons a l ih =>
    simp only [List.foldlM_cons, bind, Except.bind] at h
    split at h
    · cases h
    · rename_i z hz
      exact onlyNet_trans (hf _ _ _ hz) (ih h)
/-- A plain read changes the ordering machine alone. -/
theorem rdMem_onlyNet {s t : State} {q : PortId} {tn : Nat} {p : Word} {n al : Nat} {b : List Byte} (h : rdMem s q tn p n al = .ok (b, t)) :
    onlyNet s t := by
  unfold rdMem at h
  split at h
  · cases h; rfl
  · simp only [bind, Except.bind] at h
    split at h
    · cases h
    · refine foldlM_onlyNet (x := ([], s)) (y := (b, t)) (fun x a y hy => ?_) h
      simp only [pure, Except.pure, throw, throwThe, MonadExceptOf.throw] at hy
      split at hy
      · cases hy; rfl
      · split at hy
        · cases hy
        · split at hy
          · cases hy
          · rename_i hd
            cases hy
            exact detStep_onlyNet hd
/-- A load that a word makes within its step changes the ordering machine and what the word has read. -/
theorem hRead_frame {s t : State} {p : Word} {n al : Nat} {b : List Byte} (h : hRead s p n al = .ok (b, t)) :
    t = { s with net := t.net, cur := { s.cur with reads := s.cur.reads ++ [(p, b)] } } := by
  unfold hRead at h
  cases hr : rdMem s (curPort s) (curTenant s) p n al with
  | error e => rw [hr] at h; cases h
  | ok r =>
    rw [hr] at h
    cases h
    have := rdMem_onlyNet (b := r.1) (t := r.2) hr
    simp only
    rw [this]
theorem acqRead_frame {s t : State} {p : Word} {n al : Nat} {b : List Byte} (h : acqRead s p n al = .ok (b, t)) :
    t = { s with net := t.net, cur := { s.cur with reads := s.cur.reads ++ [(p, b)] } } := by
  unfold acqRead at h
  cases hr : acqReadAt s (curPort s) p n al with
  | error e => rw [hr] at h; cases h
  | ok r =>
    rw [hr] at h
    cases h
    have := acqReadAt_onlyNet (b := r.1) (t := r.2) hr
    simp only
    rw [this]

/-! ## Requests (R251, R369, R377) -/

/-- Nothing but the ordering machine and the counter of numbers has changed. -/
def onlyAsked (s t : State) : Prop := t = { s with net := t.net, sched := { s.sched with nextId := t.sched.nextId } }
theorem onlyAsked_refl (s : State) : onlyAsked s s := rfl
theorem onlyAsked_trans {s t u : State} (h : onlyAsked s t) (k : onlyAsked t u) : onlyAsked s u := by
  unfold onlyAsked at *
  rw [k, h]
theorem issueParts_onlyAsked (s : State) (proto : Access) (p : Word) (l : List (Nat × Nat)) (f : Word → Nat → Option Nat) :
    onlyAsked s (issueParts s proto p l f) := by
  unfold issueParts
  generalize s.sched.nextId = g
  generalize now s = c
  suffices ∀ u, onlyAsked s u → onlyAsked s (l.foldl _ u) from this s rfl
  induction l with
  | nil => exact fun u h => h
  | cons a l ih => exact fun u h => ih _ (onlyAsked_trans h rfl)
theorem issueAcc_onlyAsked (s : State) (proto : Access) (p : Word) (n : Nat) : onlyAsked s (issueAcc s proto p n) :=
  issueParts_onlyAsked s proto p _ _
theorem askXlat_onlyAsked (s : State) (q : PortId) (p : Word) (w : Bool) : onlyAsked s (askXlat s q p w) := by
  unfold askXlat; split <;> rfl
theorem askPeer_onlyAsked (s : State) (q : PortId) (p : Word) (n : Nat) : onlyAsked s (askPeer s q p n) := by
  unfold askPeer
  split
  · rfl
  · exact issueAcc_onlyAsked s _ p n
/-- What an access that cannot go on asks for. -/
theorem askFor_onlyAsked (s : State) (q : PortId) (n : Stop) : onlyAsked s (askFor s q n) := by
  cases n with
  | trap t net => rfl
  | order => rfl
  | xlat p w => exact askXlat_onlyAsked s q p w
  | peer p n got net => exact onlyAsked_trans (t := { s with net := net }) rfl (askPeer_onlyAsked _ q p n)

end Sys2Proof.Machine
end

