-- ==== Sys2Proof/Laws/Registers.lean ====
section
/-!
SUPPORT. Laws/Registers.lean: what writing a register, ending a word and evaluating its next address do to registers, flags
and the rest of the state.
-/
namespace Sys2Proof.Machine

/-! ## Registers -/

@[simp] theorem rdReg_zero (s : State) (sp h : Nat) : rdReg s sp h 0 = 0 := by simp [rdReg]

/-- An update of a handler that leaves its registers leaves every register. -/
theorem rdReg_updH (s : State) (sp h : Nat) (f : Handler → Handler) (hf : ∀ x, (f x).regs = x.regs) (q j : Nat) (r : Reg) :
    rdReg (updH s sp h f) q j r = rdReg s q j r := by
  have h1 : (getH (updH s sp h f) q j).regs = (getH s q j).regs := by
    rw [getH_updH]; split
    · next c => obtain ⟨rfl, rfl⟩ := c; exact hf _
    · rfl
  have h2 : (getSpan (updH s sp h f) q).shared = (getSpan s q).shared := by
    rw [getSpan_updH]; split
    · next c => subst c; rfl
    · rfl
  simp only [rdReg, h1, h2]

/-- A register after a register is written: s0 to s31 are the handler's own, s32 to s63 the span's (R139). -/
theorem rdReg_wrReg (s : State) (sp h q j : Nat) (r k : Reg) (v : Word) :
    rdReg (wrReg s sp h r v) q j k =
      if k = r ∧ k ≠ 0 ∧ q = sp ∧ (j = h ∨ 32 ≤ k.toNat) then v else rdReg s q j k := by
  unfold wrReg
  by_cases h0 : r = 0
  · subst h0; simp only [if_true]; split
    · next c => exact absurd c.1 c.2.1
    · rfl
  · simp only [h0, if_false]
    have hn : ∀ a b : Reg, a.toNat = b.toNat ↔ a = b := fun a b => BitVec.toNat_inj
    by_cases hr : r.toNat < 32
    · simp only [hr, if_true]
      by_cases hk : k.toNat < 32
      · simp only [rdReg, hk, if_true, getH_updH]
        by_cases hk0 : k = 0
        · simp [hk0]
        · simp only [hk0, if_false]
          by_cases hq : q = sp ∧ j = h
          · obtain ⟨rfl, rfl⟩ := hq
            simp only [and_self, if_true, tget_tset, hn]
            by_cases hkr : k = r
            · subst hkr; simp; exact fun c => absurd c hk0
            · simp [hkr]
          · simp only [hq, if_false]
            rw [if_neg]
            rintro ⟨-, -, h1, h2 | h2⟩
            · exact hq ⟨h1, h2⟩
            · omega
      · have hkr : k ≠ r := fun c => hk (c ▸ hr)
        simp only [hkr, false_and, if_false, rdReg, hk]
        have : (getSpan (updH s sp h fun x => { x with regs := tset x.regs r.toNat v 0 }) q).shared = (getSpan s q).shared := by
          rw [getSpan_updH]; split
          · next c => subst c; rfl
          · rfl
        rw [this]
    · simp only [hr, if_false]
      by_cases hk : k.toNat < 32
      · have hkr : k ≠ r := fun c => hr (c ▸ hk)
        simp only [hkr, false_and, if_false, rdReg, hk, if_true]
        have : (getH (updSpan s sp fun p => { p with shared := tset p.shared r.toNat v 0 }) q j).regs = (getH s q j).regs := by
          unfold getH; rw [getSpan_updSpan]; split
          · next c => subst c; rfl
          · rfl
        rw [this]
      · simp only [rdReg, hk, if_false, getSpan_updSpan]
        by_cases hk0 : k = 0
        · simp [hk0]
        · simp only [hk0, if_false]
          by_cases hq : q = sp
          · subst hq
            simp only [if_true, tget_tset, hn]
            have : 32 ≤ k.toNat := by omega
            by_cases hkr : k = r
            · subst hkr; simp [this]; exact fun c => absurd c hk0
            · simp [hkr]
          · simp [hq]

/-- Writing a register leaves the rest of every handler. -/
theorem getH_wrReg (s : State) (sp h q j : Nat) (r : Reg) (v : Word) :
    { getH (wrReg s sp h r v) q j with regs := (getH s q j).regs } = getH s q j := by
  unfold wrReg
  split
  · rfl
  · split
    · rw [getH_updH]; split
      · next c => obtain ⟨rfl, rfl⟩ := c; rfl
      · rfl
    · unfold getH; rw [getSpan_updSpan]; split
      · next c => subst c; rfl
      · rfl

@[simp] theorem wrReg_power (s : State) (sp h : Nat) (r : Reg) (v : Word) : (wrReg s sp h r v).power = s.power := by
  unfold wrReg; repeat' split
  all_goals rfl
@[simp] theorem wrReg_cycle (s : State) (sp h : Nat) (r : Reg) (v : Word) : (wrReg s sp h r v).cycle = s.cycle := by
  unfold wrReg; repeat' split
  all_goals rfl
@[simp] theorem wrReg_cur (s : State) (sp h : Nat) (r : Reg) (v : Word) : (wrReg s sp h r v).cur = s.cur := by
  unfold wrReg; repeat' split
  all_goals rfl
@[simp] theorem wrReg_sched (s : State) (sp h : Nat) (r : Reg) (v : Word) : (wrReg s sp h r v).sched = s.sched := by
  unfold wrReg; repeat' split
  all_goals rfl
@[simp] theorem wrReg_mem (s : State) (sp h : Nat) (r : Reg) (v : Word) : (wrReg s sp h r v).mem = s.mem := by
  unfold wrReg; repeat' split
  all_goals rfl
@[simp] theorem wrReg_poison (s : State) (sp h : Nat) (r : Reg) (v : Word) : (wrReg s sp h r v).poison = s.poison := by
  unfold wrReg; repeat' split
  all_goals rfl
@[simp] theorem wrReg_tiles (s : State) (sp h : Nat) (r : Reg) (v : Word) : (wrReg s sp h r v).tiles = s.tiles := by
  unfold wrReg; repeat' split
  all_goals rfl
@[simp] theorem wrReg_clusters (s : State) (sp h : Nat) (r : Reg) (v : Word) : (wrReg s sp h r v).clusters = s.clusters := by
  unfold wrReg; repeat' split
  all_goals rfl
@[simp] theorem wrReg_net (s : State) (sp h : Nat) (r : Reg) (v : Word) : (wrReg s sp h r v).net = s.net := by
  unfold wrReg; repeat' split
  all_goals rfl
@[simp] theorem wrReg_ctl (s : State) (sp h : Nat) (r : Reg) (v : Word) : (wrReg s sp h r v).ctl = s.ctl := by
  unfold wrReg; repeat' split
  all_goals rfl
@[simp] theorem wrReg_firm (s : State) (sp h : Nat) (r : Reg) (v : Word) : (wrReg s sp h r v).firm = s.firm := by
  unfold wrReg; repeat' split
  all_goals rfl

/-! ## Notes on writes, and the next address -/

@[simp] theorem noteWrites_power (s : State) (sp h c : Nat) (w : Writes) : (noteWrites s sp h c w).power = s.power := by
  unfold noteWrites; dsimp only; split <;> rfl
@[simp] theorem noteWrites_cycle (s : State) (sp h c : Nat) (w : Writes) : (noteWrites s sp h c w).cycle = s.cycle := by
  unfold noteWrites; dsimp only; split <;> rfl
@[simp] theorem noteWrites_cur (s : State) (sp h c : Nat) (w : Writes) : (noteWrites s sp h c w).cur = s.cur := by
  unfold noteWrites; dsimp only; split <;> rfl
@[simp] theorem noteWrites_sched (s : State) (sp h c : Nat) (w : Writes) : (noteWrites s sp h c w).sched = s.sched := by
  unfold noteWrites; dsimp only; split <;> rfl
@[simp] theorem noteWrites_mem (s : State) (sp h c : Nat) (w : Writes) : (noteWrites s sp h c w).mem = s.mem := by
  unfold noteWrites; dsimp only; split <;> rfl
@[simp] theorem noteWrites_poison (s : State) (sp h c : Nat) (w : Writes) : (noteWrites s sp h c w).poison = s.poison := by
  unfold noteWrites; dsimp only; split <;> rfl
@[simp] theorem noteWrites_tiles (s : State) (sp h c : Nat) (w : Writes) : (noteWrites s sp h c w).tiles = s.tiles := by
  unfold noteWrites; dsimp only; split <;> rfl
@[simp] theorem noteWrites_clusters (s : State) (sp h c : Nat) (w : Writes) : (noteWrites s sp h c w).clusters = s.clusters := by
  unfold noteWrites; dsimp only; split <;> rfl
@[simp] theorem noteWrites_net (s : State) (sp h c : Nat) (w : Writes) : (noteWrites s sp h c w).net = s.net := by
  unfold noteWrites; dsimp only; split <;> rfl
@[simp] theorem noteWrites_ctl (s : State) (sp h c : Nat) (w : Writes) : (noteWrites s sp h c w).ctl = s.ctl := by
  unfold noteWrites; dsimp only; split <;> rfl
@[simp] theorem noteWrites_firm (s : State) (sp h c : Nat) (w : Writes) : (noteWrites s sp h c w).firm = s.firm := by
  unfold noteWrites; dsimp only; split <;> rfl
/-- A note changes nothing of a span but what it notes. -/
theorem getSpan_noteWrites (s : State) (sp h c q : Nat) (w : Writes) :
    { getSpan (noteWrites s sp h c w) q with sharedAt := (getSpan s q).sharedAt } = getSpan s q := by
  unfold noteWrites; dsimp only; split
  · rfl
  · rw [getSpan_updSpan]; split
    · next c => subst c; rfl
    · rfl
@[simp] theorem getH_noteWrites (s : State) (sp h c q j : Nat) (w : Writes) : getH (noteWrites s sp h c w) q j = getH s q j := by
  have k := congrArg (fun p : Span => tget p.hs j {}) (getSpan_noteWrites s sp h c q w); exact k
@[simp] theorem rdReg_noteWrites (s : State) (sp h c q j : Nat) (w : Writes) (r : Reg) :
    rdReg (noteWrites s sp h c w) q j r = rdReg s q j r := by
  have k := congrArg Span.shared (getSpan_noteWrites s sp h c q w)
  simp only [rdReg, getH_noteWrites]; rw [show (getSpan (noteWrites s sp h c w) q).shared = (getSpan s q).shared from k]

/-! ## Writes and the next address -/

@[simp] theorem applyWrites_power (s : State) (sp h : Nat) (w : Writes) : (applyWrites s sp h w).power = s.power := by
  have : ∀ (l : List (Reg × Word)) (s : State), (l.foldl (fun s p => wrReg s sp h p.1 p.2) s).power = s.power := by
    intro l; induction l with
    | nil => intro s; rfl
    | cons p l ih => intro s; rw [List.foldl_cons, ih, wrReg_power]
  unfold applyWrites; split <;> simp [this]
@[simp] theorem evalNx_power (s : State) (sp h : Nat) (pc : BitVec 24) (nx : Nx) : (evalNx s sp h pc nx).power = s.power := rfl
@[simp] theorem finishWord_power (s : State) (sp h : Nat) (pc : BitVec 24) (w : Writes) (nx : Nx) :
    (finishWord s sp h pc w nx).power = s.power := by simp [finishWord]
@[simp] theorem landWord_power (s : State) (sp h : Nat) (pc : BitVec 24) (c : Nat) (w : Writes) (nx : Nx) :
    (landWord s sp h pc c w nx).power = s.power := by simp only [landWord]; split <;> simp
@[simp] theorem applyWrites_cycle (s : State) (sp h : Nat) (w : Writes) : (applyWrites s sp h w).cycle = s.cycle := by
  have : ∀ (l : List (Reg × Word)) (s : State), (l.foldl (fun s p => wrReg s sp h p.1 p.2) s).cycle = s.cycle := by
    intro l; induction l with
    | nil => intro s; rfl
    | cons p l ih => intro s; rw [List.foldl_cons, ih, wrReg_cycle]
  unfold applyWrites; split <;> simp [this]
@[simp] theorem evalNx_cycle (s : State) (sp h : Nat) (pc : BitVec 24) (nx : Nx) : (evalNx s sp h pc nx).cycle = s.cycle := rfl
@[simp] theorem finishWord_cycle (s : State) (sp h : Nat) (pc : BitVec 24) (w : Writes) (nx : Nx) :
    (finishWord s sp h pc w nx).cycle = s.cycle := by simp [finishWord]
@[simp] theorem landWord_cycle (s : State) (sp h : Nat) (pc : BitVec 24) (c : Nat) (w : Writes) (nx : Nx) :
    (landWord s sp h pc c w nx).cycle = s.cycle := by simp only [landWord]; split <;> simp
@[simp] theorem applyWrites_cur (s : State) (sp h : Nat) (w : Writes) : (applyWrites s sp h w).cur = s.cur := by
  have : ∀ (l : List (Reg × Word)) (s : State), (l.foldl (fun s p => wrReg s sp h p.1 p.2) s).cur = s.cur := by
    intro l; induction l with
    | nil => intro s; rfl
    | cons p l ih => intro s; rw [List.foldl_cons, ih, wrReg_cur]
  unfold applyWrites; split <;> simp [this]
@[simp] theorem evalNx_cur (s : State) (sp h : Nat) (pc : BitVec 24) (nx : Nx) : (evalNx s sp h pc nx).cur = s.cur := rfl
@[simp] theorem finishWord_cur (s : State) (sp h : Nat) (pc : BitVec 24) (w : Writes) (nx : Nx) :
    (finishWord s sp h pc w nx).cur = s.cur := by simp [finishWord]
@[simp] theorem landWord_cur (s : State) (sp h : Nat) (pc : BitVec 24) (c : Nat) (w : Writes) (nx : Nx) :
    (landWord s sp h pc c w nx).cur = s.cur := by simp only [landWord]; split <;> simp
@[simp] theorem applyWrites_sched (s : State) (sp h : Nat) (w : Writes) : (applyWrites s sp h w).sched = s.sched := by
  have : ∀ (l : List (Reg × Word)) (s : State), (l.foldl (fun s p => wrReg s sp h p.1 p.2) s).sched = s.sched := by
    intro l; induction l with
    | nil => intro s; rfl
    | cons p l ih => intro s; rw [List.foldl_cons, ih, wrReg_sched]
  unfold applyWrites; split <;> simp [this]
@[simp] theorem evalNx_sched (s : State) (sp h : Nat) (pc : BitVec 24) (nx : Nx) : (evalNx s sp h pc nx).sched = s.sched := rfl
@[simp] theorem finishWord_sched (s : State) (sp h : Nat) (pc : BitVec 24) (w : Writes) (nx : Nx) :
    (finishWord s sp h pc w nx).sched = s.sched := by simp [finishWord]
@[simp] theorem landWord_sched (s : State) (sp h : Nat) (pc : BitVec 24) (c : Nat) (w : Writes) (nx : Nx) :
    (landWord s sp h pc c w nx).sched = s.sched := by simp only [landWord]; split <;> simp
@[simp] theorem applyWrites_mem (s : State) (sp h : Nat) (w : Writes) : (applyWrites s sp h w).mem = s.mem := by
  have : ∀ (l : List (Reg × Word)) (s : State), (l.foldl (fun s p => wrReg s sp h p.1 p.2) s).mem = s.mem := by
    intro l; induction l with
    | nil => intro s; rfl
    | cons p l ih => intro s; rw [List.foldl_cons, ih, wrReg_mem]
  unfold applyWrites; split <;> simp [this]
@[simp] theorem evalNx_mem (s : State) (sp h : Nat) (pc : BitVec 24) (nx : Nx) : (evalNx s sp h pc nx).mem = s.mem := rfl
@[simp] theorem finishWord_mem (s : State) (sp h : Nat) (pc : BitVec 24) (w : Writes) (nx : Nx) :
    (finishWord s sp h pc w nx).mem = s.mem := by simp [finishWord]
@[simp] theorem landWord_mem (s : State) (sp h : Nat) (pc : BitVec 24) (c : Nat) (w : Writes) (nx : Nx) :
    (landWord s sp h pc c w nx).mem = s.mem := by simp only [landWord]; split <;> simp
@[simp] theorem applyWrites_poison (s : State) (sp h : Nat) (w : Writes) : (applyWrites s sp h w).poison = s.poison := by
  have : ∀ (l : List (Reg × Word)) (s : State), (l.foldl (fun s p => wrReg s sp h p.1 p.2) s).poison = s.poison := by
    intro l; induction l with
    | nil => intro s; rfl
    | cons p l ih => intro s; rw [List.foldl_cons, ih, wrReg_poison]
  unfold applyWrites; split <;> simp [this]
@[simp] theorem evalNx_poison (s : State) (sp h : Nat) (pc : BitVec 24) (nx : Nx) : (evalNx s sp h pc nx).poison = s.poison := rfl
@[simp] theorem finishWord_poison (s : State) (sp h : Nat) (pc : BitVec 24) (w : Writes) (nx : Nx) :
    (finishWord s sp h pc w nx).poison = s.poison := by simp [finishWord]
@[simp] theorem landWord_poison (s : State) (sp h : Nat) (pc : BitVec 24) (c : Nat) (w : Writes) (nx : Nx) :
    (landWord s sp h pc c w nx).poison = s.poison := by simp only [landWord]; split <;> simp
@[simp] theorem applyWrites_tiles (s : State) (sp h : Nat) (w : Writes) : (applyWrites s sp h w).tiles = s.tiles := by
  have : ∀ (l : List (Reg × Word)) (s : State), (l.foldl (fun s p => wrReg s sp h p.1 p.2) s).tiles = s.tiles := by
    intro l; induction l with
    | nil => intro s; rfl
    | cons p l ih => intro s; rw [List.foldl_cons, ih, wrReg_tiles]
  unfold applyWrites; split <;> simp [this]
@[simp] theorem evalNx_tiles (s : State) (sp h : Nat) (pc : BitVec 24) (nx : Nx) : (evalNx s sp h pc nx).tiles = s.tiles := rfl
@[simp] theorem finishWord_tiles (s : State) (sp h : Nat) (pc : BitVec 24) (w : Writes) (nx : Nx) :
    (finishWord s sp h pc w nx).tiles = s.tiles := by simp [finishWord]
@[simp] theorem landWord_tiles (s : State) (sp h : Nat) (pc : BitVec 24) (c : Nat) (w : Writes) (nx : Nx) :
    (landWord s sp h pc c w nx).tiles = s.tiles := by simp only [landWord]; split <;> simp
@[simp] theorem applyWrites_clusters (s : State) (sp h : Nat) (w : Writes) : (applyWrites s sp h w).clusters = s.clusters := by
  have : ∀ (l : List (Reg × Word)) (s : State), (l.foldl (fun s p => wrReg s sp h p.1 p.2) s).clusters = s.clusters := by
    intro l; induction l with
    | nil => intro s; rfl
    | cons p l ih => intro s; rw [List.foldl_cons, ih, wrReg_clusters]
  unfold applyWrites; split <;> simp [this]
@[simp] theorem evalNx_clusters (s : State) (sp h : Nat) (pc : BitVec 24) (nx : Nx) : (evalNx s sp h pc nx).clusters = s.clusters := rfl
@[simp] theorem finishWord_clusters (s : State) (sp h : Nat) (pc : BitVec 24) (w : Writes) (nx : Nx) :
    (finishWord s sp h pc w nx).clusters = s.clusters := by simp [finishWord]
@[simp] theorem landWord_clusters (s : State) (sp h : Nat) (pc : BitVec 24) (c : Nat) (w : Writes) (nx : Nx) :
    (landWord s sp h pc c w nx).clusters = s.clusters := by simp only [landWord]; split <;> simp
@[simp] theorem applyWrites_net (s : State) (sp h : Nat) (w : Writes) : (applyWrites s sp h w).net = s.net := by
  have : ∀ (l : List (Reg × Word)) (s : State), (l.foldl (fun s p => wrReg s sp h p.1 p.2) s).net = s.net := by
    intro l; induction l with
    | nil => intro s; rfl
    | cons p l ih => intro s; rw [List.foldl_cons, ih, wrReg_net]
  unfold applyWrites; split <;> simp [this]
@[simp] theorem evalNx_net (s : State) (sp h : Nat) (pc : BitVec 24) (nx : Nx) : (evalNx s sp h pc nx).net = s.net := rfl
@[simp] theorem finishWord_net (s : State) (sp h : Nat) (pc : BitVec 24) (w : Writes) (nx : Nx) :
    (finishWord s sp h pc w nx).net = s.net := by simp [finishWord]
@[simp] theorem landWord_net (s : State) (sp h : Nat) (pc : BitVec 24) (c : Nat) (w : Writes) (nx : Nx) :
    (landWord s sp h pc c w nx).net = s.net := by simp only [landWord]; split <;> simp
@[simp] theorem applyWrites_ctl (s : State) (sp h : Nat) (w : Writes) : (applyWrites s sp h w).ctl = s.ctl := by
  have : ∀ (l : List (Reg × Word)) (s : State), (l.foldl (fun s p => wrReg s sp h p.1 p.2) s).ctl = s.ctl := by
    intro l; induction l with
    | nil => intro s; rfl
    | cons p l ih => intro s; rw [List.foldl_cons, ih, wrReg_ctl]
  unfold applyWrites; split <;> simp [this]
@[simp] theorem evalNx_ctl (s : State) (sp h : Nat) (pc : BitVec 24) (nx : Nx) : (evalNx s sp h pc nx).ctl = s.ctl := rfl
@[simp] theorem finishWord_ctl (s : State) (sp h : Nat) (pc : BitVec 24) (w : Writes) (nx : Nx) :
    (finishWord s sp h pc w nx).ctl = s.ctl := by simp [finishWord]
@[simp] theorem landWord_ctl (s : State) (sp h : Nat) (pc : BitVec 24) (c : Nat) (w : Writes) (nx : Nx) :
    (landWord s sp h pc c w nx).ctl = s.ctl := by simp only [landWord]; split <;> simp
@[simp] theorem applyWrites_firm (s : State) (sp h : Nat) (w : Writes) : (applyWrites s sp h w).firm = s.firm := by
  have : ∀ (l : List (Reg × Word)) (s : State), (l.foldl (fun s p => wrReg s sp h p.1 p.2) s).firm = s.firm := by
    intro l; induction l with
    | nil => intro s; rfl
    | cons p l ih => intro s; rw [List.foldl_cons, ih, wrReg_firm]
  unfold applyWrites; split <;> simp [this]
@[simp] theorem evalNx_firm (s : State) (sp h : Nat) (pc : BitVec 24) (nx : Nx) : (evalNx s sp h pc nx).firm = s.firm := rfl
@[simp] theorem finishWord_firm (s : State) (sp h : Nat) (pc : BitVec 24) (w : Writes) (nx : Nx) :
    (finishWord s sp h pc w nx).firm = s.firm := by simp [finishWord]
@[simp] theorem landWord_firm (s : State) (sp h : Nat) (pc : BitVec 24) (c : Nat) (w : Writes) (nx : Nx) :
    (landWord s sp h pc c w nx).firm = s.firm := by simp only [landWord]; split <;> simp

/-- NX leaves registers and flags. -/
@[simp] theorem nextAddr_regs (nx : Nx) (pc : BitVec 24) (ch : BitVec 6 → Bool) (f : Reg → Word) (x : Handler) :
    (nextAddr nx pc ch f x).regs = x.regs := by
  cases nx <;> simp only [nextAddr, stopH, setK] <;> (repeat (split)) <;> rfl
@[simp] theorem nextAddr_flags (nx : Nx) (pc : BitVec 24) (ch : BitVec 6 → Bool) (f : Reg → Word) (x : Handler) :
    (nextAddr nx pc ch f x).flags = x.flags := by
  cases nx <;> simp only [nextAddr, stopH, setK] <;> (repeat (split)) <;> rfl

@[simp] theorem rdReg_evalNx (s : State) (sp h : Nat) (pc : BitVec 24) (nx : Nx) (q j : Nat) (r : Reg) :
    rdReg (evalNx s sp h pc nx) q j r = rdReg s q j r := rdReg_updH s sp h _ (fun _ => nextAddr_regs ..) q j r

/-- A register after the writes of a word of one result. -/
theorem rdReg_applyWrites (s : State) (sp h : Nat) (d : Reg) (v : Word) (fl : Option (BitVec 3 × Bool)) (q j : Nat) (k : Reg) :
    rdReg (applyWrites s sp h { regs := [(d, v)], flag := fl }) q j k =
      if k = d ∧ k ≠ 0 ∧ q = sp ∧ (j = h ∨ 32 ≤ k.toNat) then v else rdReg s q j k := by
  unfold applyWrites
  cases fl with
  | none => exact rdReg_wrReg ..
  | some p =>
    dsimp only
    rw [rdReg_updH]
    · exact rdReg_wrReg ..
    · intro x; rfl
/-- A register after a word of one result ends. -/
theorem rdReg_finishWord (s : State) (sp h : Nat) (pc : BitVec 24) (d : Reg) (v : Word) (fl : Option (BitVec 3 × Bool)) (nx : Nx)
    (q j : Nat) (k : Reg) :
    rdReg (finishWord s sp h pc { regs := [(d, v)], flag := fl } nx) q j k =
      if k = d ∧ k ≠ 0 ∧ q = sp ∧ (j = h ∨ 32 ≤ k.toNat) then v else rdReg s q j k := by
  rw [finishWord, rdReg_evalNx, rdReg_noteWrites]; exact rdReg_applyWrites ..
/-- A register after a word without a result ends. -/
@[simp] theorem rdReg_finishWord_nil (s : State) (sp h : Nat) (pc : BitVec 24) (nx : Nx) (q j : Nat) (k : Reg) :
    rdReg (finishWord s sp h pc {} nx) q j k = rdReg s q j k := by
  rw [finishWord, rdReg_evalNx, rdReg_noteWrites]; rfl

theorem getH_evalNx (s : State) (sp h : Nat) (pc : BitVec 24) (nx : Nx) (q j : Nat) :
    getH (evalNx s sp h pc nx) q j =
      if q = sp ∧ j = h then nextAddr nx pc (fun c => !(tget (getSpan s sp).ch c.toNat []).isEmpty) (rdReg s sp h) (getH s sp h)
      else getH s q j := getH_updH ..

/-- The flags of a handler after the writes of a word of one result, however they are noted, and its NX. -/
theorem flags_ending (s : State) (sp h c : Nat) (pc : BitVec 24) (d : Reg) (v : Word) (fl : Option (BitVec 3 × Bool)) (w : Writes)
    (nx : Nx) (q j : Nat) :
    (getH (evalNx (noteWrites (applyWrites s sp h { regs := [(d, v)], flag := fl }) sp h c w) sp h pc nx) q j).flags =
      match fl with
      | some (n, b) => if q = sp ∧ j = h then setFlag (getH s sp h).flags n b else (getH s q j).flags
      | none => (getH s q j).flags := by
  have hw : ∀ a b, (getH (wrReg s sp h d v) a b).flags = (getH s a b).flags := fun a b => by
    have := congrArg Handler.flags (getH_wrReg s sp h a b d v); exact this
  rw [getH_evalNx, getH_noteWrites, getH_noteWrites, applyWrites]
  cases fl with
  | none =>
    by_cases c : q = sp ∧ j = h
    · obtain ⟨rfl, rfl⟩ := c; simp [hw]
    · simp [c, hw]
  | some p =>
    by_cases c : q = sp ∧ j = h
    · obtain ⟨rfl, rfl⟩ := c; simp [hw]
    · simp only [c, if_false, List.foldl_cons, List.foldl_nil]
      rw [getH_updH, if_neg c, hw]

/-! ## Flags bits -/

theorem flagBit_setFlag (f : BitVec 8) (n m : BitVec 3) (v : Bool) :
    flagBit (setFlag f n v) m = if m = n then v else flagBit f m := by
  have hn : n.toNat < 8 := n.isLt
  have hm : m.toNat < 8 := m.isLt
  have e : (m = n) ↔ m.toNat = n.toNat := BitVec.toNat_inj.symm
  simp only [flagBit, setFlag, putBits, e]
  generalize n.toNat = a at *
  generalize m.toNat = b at *
  have ha : a = 0 ∨ a = 1 ∨ a = 2 ∨ a = 3 ∨ a = 4 ∨ a = 5 ∨ a = 6 ∨ a = 7 := by omega
  have hb : b = 0 ∨ b = 1 ∨ b = 2 ∨ b = 3 ∨ b = 4 ∨ b = 5 ∨ b = 6 ∨ b = 7 := by omega
  rcases ha with rfl | rfl | rfl | rfl | rfl | rfl | rfl | rfl <;>
  rcases hb with rfl | rfl | rfl | rfl | rfl | rfl | rfl | rfl <;> cases v <;> simp

end Sys2Proof.Machine
end

