-- ==== Sys2Proof/Laws/Words.lean ====
section
/-!
SUPPORT. Laws/Words.lean: everything the shared endings of a control word do (R82): a word that ends, a word that stays in
its operation stage.
-/
namespace Sys2Proof.Machine

theorem getK_setK (x : Handler) (c d : BitVec 2) (v : W32) : getK (setK x c v) d = if d = c then v else getK x d := by
  have four : ∀ a : BitVec 2, a = 0 ∨ a = 1 ∨ a = 2 ∨ a = 3 := by decide
  have hc := four c
  have hd := four d
  rcases hc with rfl | rfl | rfl | rfl <;> rcases hd with rfl | rfl | rfl | rfl <;> simp [getK, setK]

/-- What NX leaves in the handler. -/
theorem nextAddr_pc (nx : Nx) (pc : BitVec 24) (has : BitVec 6 → Bool) (r : Reg → Word) (x : Handler) :
    (nextAddr nx pc has r x).pc = pcAfter nx pc x.entry (flagBit x.flags) (getK x) x.rstack r := by
  cases nx <;> simp [nextAddr, pcAfter, stopH] <;> rfl
theorem nextAddr_k (nx : Nx) (pc : BitVec 24) (has : BitVec 6 → Bool) (r : Reg → Word) (x : Handler) (c : BitVec 2) :
    getK (nextAddr nx pc has r x) c = counterAfter nx (getK x) c := by
  cases nx <;> simp only [nextAddr, counterAfter, stopH] <;> try rfl
  next k d =>
    show getK (setK _ k _) c = _
    rw [getK_setK]
    by_cases h : c = k
    · subst h; simp; rfl
    · simp [h]; rfl
theorem setK_rstack (x : Handler) (c : BitVec 2) (v : W32) : (setK x c v).rstack = x.rstack := by
  unfold setK; split <;> rfl
theorem setK_st (x : Handler) (c : BitVec 2) (v : W32) : (setK x c v).st = x.st := by unfold setK; split <;> rfl
theorem setK_op (x : Handler) (c : BitVec 2) (v : W32) : (setK x c v).op = x.op := by unfold setK; split <;> rfl
theorem setK_mask (x : Handler) (c : BitVec 2) (v : W32) : (setK x c v).mask = x.mask := by unfold setK; split <;> rfl
theorem setK_prio (x : Handler) (c : BitVec 2) (v : W32) : (setK x c v).prio = x.prio := by unfold setK; split <;> rfl
theorem setK_entry (x : Handler) (c : BitVec 2) (v : W32) : (setK x c v).entry = x.entry := by unfold setK; split <;> rfl
theorem setK_held (x : Handler) (c : BitVec 2) (v : W32) : (setK x c v).held = x.held := by unfold setK; split <;> rfl
theorem nextAddr_rstack (nx : Nx) (pc : BitVec 24) (has : BitVec 6 → Bool) (r : Reg → Word) (x : Handler) :
    (nextAddr nx pc has r x).rstack = stackAfter nx pc x.rstack := by
  cases nx <;> simp [nextAddr, stackAfter, stopH, setK_rstack]
theorem nextAddr_st (nx : Nx) (pc : BitVec 24) (has : BitVec 6 → Bool) (r : Reg → Word) (x : Handler) :
    (nextAddr nx pc has r x).st = stateAfter nx (x.pend || x.trapWait) has := by
  cases nx <;> simp [nextAddr, stateAfter, stopH, setK_st]
theorem nextAddr_op (nx : Nx) (pc : BitVec 24) (has : BitVec 6 → Bool) (r : Reg → Word) (x : Handler) :
    (nextAddr nx pc has r x).op = none := by
  cases nx <;> simp [nextAddr, stopH, setK_op]
theorem nextAddr_own (nx : Nx) (pc : BitVec 24) (has : BitVec 6 → Bool) (r : Reg → Word) (x : Handler) :
    (nextAddr nx pc has r x).mask = x.mask ∧ (nextAddr nx pc has r x).prio = x.prio ∧
    (nextAddr nx pc has r x).entry = x.entry ∧ (nextAddr nx pc has r x).held = x.held := by
  cases nx <;> simp [nextAddr, stopH, setK_mask, setK_prio, setK_entry, setK_held]

theorem onlyHandlers_updH (s : State) (sp h : Nat) (f : Handler → Handler) : onlyHandlers s (updH s sp h f) := by
  refine ⟨rfl, fun q => ?_⟩
  rw [getSpan_updH]; split
  · next c => subst c; rfl
  · rfl
theorem onlyHandlers_trans {s t u : State} (h : onlyHandlers s t) (k : onlyHandlers t u) : onlyHandlers s u := by
  obtain ⟨h1, h2⟩ := h
  obtain ⟨k1, k2⟩ := k
  refine ⟨?_, fun q => ?_⟩
  · rw [← h1, ← k1]
  · rw [← h2 q, ← k2 q]
theorem onlyHandlers_refl (s : State) : onlyHandlers s s := ⟨rfl, fun _ => rfl⟩
theorem onlyHandlers_wrReg (s : State) (sp h : Nat) (r : Reg) (v : Word) : onlyHandlers s (wrReg s sp h r v) := by
  unfold wrReg
  split
  · exact onlyHandlers_refl s
  · split
    · exact onlyHandlers_updH ..
    · refine ⟨rfl, fun q => ?_⟩
      rw [getSpan_updSpan]; split
      · next c => subst c; rfl
      · rfl
theorem onlyHandlers_applyWrites (s : State) (sp h : Nat) (w : Writes) : onlyHandlers s (applyWrites s sp h w) := by
  have H : ∀ (l : List (Reg × Word)) (s : State), onlyHandlers s (l.foldl (fun s p => wrReg s sp h p.1 p.2) s) := by
    intro l; induction l with
    | nil => exact onlyHandlers_refl
    | cons p l ih => exact fun s => onlyHandlers_trans (onlyHandlers_wrReg s sp h p.1 p.2) (ih _)
  unfold applyWrites
  split
  · exact H _ _
  · exact onlyHandlers_trans (H _ _) (onlyHandlers_updH ..)
theorem onlyHandlers_noteWrites (s : State) (sp h c : Nat) (w : Writes) : onlyHandlers s (noteWrites s sp h c w) := by
  unfold noteWrites; dsimp only; split
  · exact onlyHandlers_refl s
  · refine ⟨rfl, fun q => ?_⟩
    rw [getSpan_updSpan]; split
    · next c => subst c; rfl
    · rfl
/-- Writes, however they are noted, and an NX. -/
theorem onlyHandlers_ending (s : State) (sp h c : Nat) (pc : BitVec 24) (w v : Writes) (nx : Nx) :
    onlyHandlers s (evalNx (noteWrites (applyWrites s sp h w) sp h c v) sp h pc nx) :=
  onlyHandlers_trans (onlyHandlers_applyWrites s sp h w) (onlyHandlers_trans (onlyHandlers_noteWrites ..) (onlyHandlers_updH ..))
theorem onlyHandlers_finishWord (s : State) (sp h : Nat) (pc : BitVec 24) (w : Writes) (nx : Nx) :
    onlyHandlers s (finishWord s sp h pc w nx) := onlyHandlers_ending ..
theorem onlyHandlers_landWord (s : State) (sp h : Nat) (pc : BitVec 24) (c : Nat) (w : Writes) (nx : Nx) :
    onlyHandlers s (landWord s sp h pc c w nx) := by
  simp only [landWord]
  split
  · exact onlyHandlers_trans (onlyHandlers_ending ..) (onlyHandlers_updH ..)
  · exact onlyHandlers_ending ..

/-- A handler other than the word's own is as before. -/
theorem getH_wrReg_ne (s : State) (sp h q j : Nat) (r : Reg) (v : Word) (n : q ≠ sp ∨ j ≠ h) :
    getH (wrReg s sp h r v) q j = getH s q j := by
  unfold wrReg
  split
  · rfl
  · split
    · rw [getH_updH, if_neg]; omega
    · unfold getH; rw [getSpan_updSpan]; split
      · next c => subst c; rfl
      · rfl

/-- Everything an ending word of one result does, however its writes are noted. -/
theorem ending_ends (s : State) (sp h c : Nat) (pc : BitVec 24) (d : Reg) (v : Word) (fl : Option (BitVec 3 × Bool)) (w : Writes)
    (nx : Nx) :
    WordEnds s (evalNx (noteWrites (applyWrites s sp h { regs := [(d, v)], flag := fl }) sp h c w) sp h pc nx) sp h pc nx d v fl := by
  have hw := getH_wrReg s sp h sp h d v
  -- the handler as the writes leave it
  have ha : getH (applyWrites s sp h { regs := [(d, v)], flag := fl }) sp h =
      { getH s sp h with
        regs := (getH (wrReg s sp h d v) sp h).regs
        flags := match fl with | some (n, b) => setFlag (getH s sp h).flags n b | none => (getH s sp h).flags } := by
    rw [← hw]
    cases fl with
    | none => simp only [applyWrites, List.foldl_cons, List.foldl_nil]
    | some p => simp only [applyWrites, List.foldl_cons, List.foldl_nil, getH_updH_same]
  have hc : (getSpan (noteWrites (applyWrites s sp h { regs := [(d, v)], flag := fl }) sp h c w) sp).ch = (getSpan s sp).ch := by
    have k := congrArg Span.ch ((onlyHandlers_trans (onlyHandlers_applyWrites s sp h { regs := [(d, v)], flag := fl })
      (onlyHandlers_noteWrites _ sp h c w)).2 sp)
    exact k
  have hf : ∀ n, flagOf (evalNx (noteWrites (applyWrites s sp h { regs := [(d, v)], flag := fl }) sp h c w) sp h pc nx) sp h n =
      match (generalizing := false) fl with
      | some (m, b) => if n = m then b else flagOf s sp h n
      | none => flagOf s sp h n := by
    intro n
    unfold flagOf
    rw [flags_ending]
    cases fl with
    | none => rfl
    | some p => simp [flagBit_setFlag]
  have hh : getH (evalNx (noteWrites (applyWrites s sp h { regs := [(d, v)], flag := fl }) sp h c w) sp h pc nx) sp h =
      nextAddr nx pc (fun c => !(tget (getSpan s sp).ch c.toNat []).isEmpty)
        (rdReg (applyWrites s sp h { regs := [(d, v)], flag := fl }) sp h)
        (getH (applyWrites s sp h { regs := [(d, v)], flag := fl }) sp h) := by
    rw [getH_evalNx, hc]; simp only [and_self, if_true, getH_noteWrites]; congr 1; funext k; exact rdReg_noteWrites ..
  have hr : rdReg (evalNx (noteWrites (applyWrites s sp h { regs := [(d, v)], flag := fl }) sp h c w) sp h pc nx) sp h =
      rdReg (applyWrites s sp h { regs := [(d, v)], flag := fl }) sp h := by
    funext k; rw [rdReg_evalNx, rdReg_noteWrites]
  refine ⟨fun q j k => ?_, hf, ?_, ?_, ?_, ?_, ?_, ?_, ?_, onlyHandlers_ending ..⟩
  · rw [rdReg_evalNx, rdReg_noteWrites]; exact rdReg_applyWrites ..
  · rw [hr]
    have : flagOf (evalNx (noteWrites (applyWrites s sp h { regs := [(d, v)], flag := fl }) sp h c w) sp h pc nx) sp h =
        flagBit (getH (applyWrites s sp h { regs := [(d, v)], flag := fl }) sp h).flags := by
      funext n; unfold flagOf; rw [hh, nextAddr_flags]
    rw [this, hh, nextAddr_pc, ha]; rfl
  · intro c; rw [hh, nextAddr_k, ha]; rfl
  · rw [hh, nextAddr_rstack, ha]
  · rw [hh, nextAddr_st, ha]
  · rw [hh, nextAddr_op]
  · rw [hh, ha]; exact nextAddr_own ..
  · intro q j n
    rw [getH_evalNx, if_neg (by omega), getH_noteWrites]
    unfold applyWrites
    cases fl with
    | none => exact getH_wrReg_ne s sp h q j d v n
    | some p =>
      simp only [List.foldl_cons, List.foldl_nil]
      rw [getH_updH, if_neg (by omega)]
      exact getH_wrReg_ne s sp h q j d v n

/-- When its handler may issue again is no part of what a word leaves. -/
theorem wordEnds_fresh {s t : State} {sp h : Nat} {pc : BitVec 24} {nx : Nx} {d : Reg} {v : Word} {fl : Option (BitVec 3 × Bool)} {b : Bool}
    (e : WordEnds s t sp h pc nx d v fl) : WordEnds s (updH t sp h fun x => { x with fresh := b }) sp h pc nx d v fl := by
  have hr (q j : Nat) (k : Reg) : rdReg (updH t sp h fun x => { x with fresh := b }) q j k = rdReg t q j k := by
    rw [rdReg_updH]; intro x; rfl
  have hf : flagOf (updH t sp h fun x => { x with fresh := b }) sp h = flagOf t sp h := by funext n; simp [flagOf]
  refine ⟨fun q j k => by rw [hr]; exact e.regs q j k, fun n => by rw [hf]; exact e.flags n, ?_, ?_, ?_, ?_, ?_, ?_, ?_, ?_⟩
  · rw [hf, getH_updH_same]
    show (getH t sp h).pc = _
    rw [e.goes]; congr 1; funext k; exact (hr sp h k).symm
  · intro c; rw [getH_updH_same]; exact e.counters c
  · rw [getH_updH_same]; exact e.stack
  · rw [getH_updH_same]; exact e.state
  · rw [getH_updH_same]; exact e.idle
  · rw [getH_updH_same]; exact e.own
  · intro q j n; rw [getH_updH, if_neg (by omega)]; exact e.others q j n
  · exact onlyHandlers_trans e.rest (onlyHandlers_updH ..)

/-- A word of one result that ends in its issue cycle. -/
theorem finishWord_ends (s : State) (sp h : Nat) (pc : BitVec 24) (d : Reg) (v : Word) (fl : Option (BitVec 3 × Bool)) (nx : Nx) :
    WordEnds s (finishWord s sp h pc { regs := [(d, v)], flag := fl } nx) sp h pc nx d v fl := ending_ends ..
/-- A word without a result ends as one whose result is for s0. -/
theorem applyWrites_nil (s : State) (sp h : Nat) (v : Word) (fl : Option (BitVec 3 × Bool)) :
    applyWrites s sp h { regs := [], flag := fl } = applyWrites s sp h { regs := [(0, v)], flag := fl } := by
  simp [applyWrites, wrReg]
theorem finishWord_ends_nil (s : State) (sp h : Nat) (pc : BitVec 24) (v : Word) (nx : Nx) :
    WordEnds s (finishWord s sp h pc {} nx) sp h pc nx 0 v none := by
  rw [finishWord, show applyWrites s sp h {} = applyWrites s sp h { regs := [(0, v)], flag := none } from applyWrites_nil ..]
  exact ending_ends ..
/-- A word of one result that ends with cycle c after its issue cycle. -/
theorem landWord_ends (s : State) (sp h : Nat) (pc : BitVec 24) (c : Nat) (d : Reg) (v : Word) (fl : Option (BitVec 3 × Bool)) (nx : Nx) :
    WordEnds s (landWord s sp h pc c { regs := [(d, v)], flag := fl } nx) sp h pc nx (reaches s sp h c d) v fl := by
  have e : WordEnds s (evalNx (noteWrites (applyWrites s sp h (standing s sp h c { regs := [(d, v)], flag := fl })) sp h c
      (standing s sp h c { regs := [(d, v)], flag := fl })) sp h pc nx) sp h pc nx (reaches s sp h c d) v fl := by
    unfold standing reaches
    by_cases o : overtaken (getSpan s sp).sharedAt c (getH s sp h).issued d.toNat
    · simp only [List.filter_cons, o, List.filter_nil, Bool.not_true, Bool.false_eq_true, if_false, if_true]
      rw [applyWrites_nil s sp h v]; exact ending_ends ..
    · simp only [List.filter_cons, o, List.filter_nil, if_false, Bool.false_eq_true, Bool.not_false, if_true]
      exact ending_ends ..
  simp only [landWord]
  split
  · exact wordEnds_fresh e
  · exact e
theorem landWord_ends_nil (s : State) (sp h : Nat) (pc : BitVec 24) (c : Nat) (v : Word) (nx : Nx) :
    WordEnds s (landWord s sp h pc c {} nx) sp h pc nx 0 v none := by
  have e : WordEnds s (evalNx (noteWrites (applyWrites s sp h {}) sp h c {}) sp h pc nx) sp h pc nx 0 v none := by
    rw [show applyWrites s sp h {} = applyWrites s sp h { regs := [(0, v)], flag := none } from applyWrites_nil ..]
    exact ending_ends ..
  simp only [landWord, show standing s sp h c {} = {} from rfl]
  split
  · exact wordEnds_fresh e
  · exact e

/-- A word that completes in its issue cycle with one result. -/
theorem pureWord_ends (s : State) (nx : Nx) (d : Reg) (v : Word) (fd : BitVec 3) (fe fl : Bool) :
    ∃ t, pureWord nx (wrF d v fd fe fl) s = .next t ∧ Ends s t nx d v (flagIf fe fd fl) :=
  ⟨_, rfl, finishWord_ends ..⟩
theorem pureWord_ends1 (s : State) (nx : Nx) (d : Reg) (v : Word) :
    ∃ t, pureWord nx (wr1 d v) s = .next t ∧ Ends s t nx d v none := ⟨_, rfl, finishWord_ends ..⟩

/-- A word that stays in its operation stage. -/
theorem stays_updH (s : State) (op : Op) :
    Stays s (updH s s.cur.sp s.cur.h fun x => { x with op := some op, st := .blocked }) op := by
  refine ⟨by simp, fun q j k => ?_, fun q j n => ?_, onlyHandlers_updH ..⟩
  · rw [rdReg_updH]; intro x; rfl
  · rw [getH_updH, if_neg (by omega)]
theorem lateWord_stays (s : State) (n : Nat) (nx : Nx) (w : Writes) :
    ∃ t, lateWord n nx w s = .next t ∧ Stays s t (.late (now s + n) w nx) := ⟨_, rfl, stays_updH ..⟩

end Sys2Proof.Machine
end

