-- ==== Sys2Proof/Tests/Slice0.lean ====
section
/-!
SUPPORT. Tests/Slice0.lean: words written out from the encodings of the spec, ill-formed terms, the spec's worked examples, and for each
statement states and operands that meet its hypotheses.
-/
namespace Sys2Proof.Tests
open Sys2Proof Sys2Proof.Machine

set_option Elab.async false

/-! ## Decoding -/

/-- The ten forms of NX on `nop`, with displacements at the ends of their ranges (R83). -/
theorem test_decode_next_forms :
    decode 0x0000F00000000000 = some (.nop .next) ∧ decode 0x1800F00000000000 = some (.nop (.go 0x800)) ∧
    decode 0x2F00F00000000000 = some (.nop (.ift 7 0x100)) ∧ decode 0x32FFF00000000000 = some (.nop (.iff 1 0xFF)) ∧
    decode 0x4FFFF00000000000 = some (.nop (.loop 3 0x3FF)) ∧ decode 0x57FFF00000000000 = some (.nop (.call 0x7FF)) ∧
    decode 0x6000F00000000000 = some (.nop .ret) ∧ decode 0x703FF00000000000 = some (.nop (.wait 63)) ∧
    decode 0x80FFF00000000000 = some (.nop (.case 3 63)) ∧ decode 0x9000F00000000000 = some (.nop .stop) := by decide
/-- Words that encode no instruction (R92): NX 10, a reserved NT bit, an unassigned opcode, cleared memory, a reserved field, WD 3, an FN that
is not assigned, plain with a scope, acquire on a store, SC at POD. -/
theorem test_decode_refuses :
    decode 0xA000F00000000000 = none ∧ decode 0x0001F00000000000 = none ∧ decode 0x0000D00000000000 = none ∧ decode 0 = none ∧
    decode 0x0000010C41400001 = none ∧ decode 0x0000010C4140000C = none ∧ decode 0x00001F1870000600 = none ∧
    decode 0x0000300896080010 = none ∧ decode 0x0000310C86280000 = none ∧ decode 0x0000300896740010 = none := by decide
/-- `ld.d.acq.cluster s2, #16(s9)`; `recv s4, #5`; `send s33, #6`; `st.d.rel.pod s3, #0(s8)`; `lds.n4.acq.span s40, #0(s9)`, by the words the spec writes out. -/
theorem test_decode_memory_and_channels :
    decode 0x0000300896280010 = some (.ld .next { sd := 2, sa := 9, sz := 3, sgn := false, ord := .acq, scope := .cluster, disp := 16 }) ∧
    decode 0x0000331000000005 = some (.recv .next { sd := 4, ch := 5, part := 0, peek := false, fd := 0, fe := false }) ∧
    decode 0x0000340210000006 = some (.send .next 33 false 6) ∧
    decode 0x0000310C86540000 = some (.st .next { sd := 3, sa := 8, sz := 3, sgn := false, ord := .rel, scope := .pod, disp := 0 }) ∧
    decode 0x000032A096240000 = some (.lds .next { sd := 40, sa := 9, n1 := 3, ord := .acq, scope := .span, disp := 0 }) := by decide
/-- `add s3, s4, s5`; `div.f3 s2, s3, s4`; `addi s3, s3, #-1`; `cmp.lt.f2 s1, s3, s4`; `cmpi.geu.f0 s0, s7, #100`; `li s5, #-2`; `again: add s6,s6,s7 -> loop k1, again`, by the words the spec writes out. -/
theorem test_decode_arithmetic :
    decode 0x0000010C41400000 = some (.add .next { sd := 3, sa := 4, sb := 5, fd := 0, fe := false, wd := .w64 }) ∧
    decode 0x0000060831000070 = some (.div .next { sd := 2, sa := 3, sb := 4, fd := 3, fe := true, wd := .w64 }) ∧
    decode 0x0000100C30FFFFFF = some (.addi .next { sd := 3, sa := 3, fd := 0, fe := false, imm := 16777215 }) ∧
    decode 0x0000180431000250 = some (.cmp .next { sd := 1, sa := 3, sb := 4, fd := 2, fe := true, wd := .w64 } .lt) ∧
    decode 0x0000190071A00064 = some (.cmpi .next 0 7 0 true .geu 100) ∧
    decode 0x00001714FFFFFFFE = some (.li .next 5 4294967294) ∧
    decode 0x4400011861C00000 = some (.add (.loop 1 0) { sd := 6, sa := 6, sb := 7, fd := 0, fe := false, wd := .w64 }) := by decide
/-- `dep.dec s5, s10, #1`; `arm s4, s10, s11`; `lookup.f1 s6, s7, #0`; `tag.set s2, s3, s4, #0`; `tag.inv.all s3, #0`, by the words the spec writes out. -/
theorem test_decode_tags_and_launches :
    decode 0x0000C414A0001000 = some (.depDec .next 5 10 1) ∧
    decode 0x0000C610A2C00000 = some (.arm .next 4 10 11) ∧
    decode 0x0000C01870009000 = some (.lookup .next 6 7 0 1 true) ∧
    decode 0x0000C10831000000 = some (.tagSet .next 2 3 4 0) ∧
    decode 0x0000C20C00001000 = some (.tagInv .next 3 0 0 true) := by decide
/-- `cfg.load s6, #2`; `clear.acc s0`; `step s0, #1, #2`; `grp.open.ovl3 s0, #4`; `grp.close`, by the words the spec writes out. -/
theorem test_decode_trees_and_configuration :
    decode 0x0000730060000002 = some (.cfgLoad .next 6 2) ∧
    decode 0x0000750000002000 = some (.clear .next 0 2) ∧
    decode 0x0000700000002001 = some (.step .next 0 1 2) ∧
    decode 0x0000710000009004 = some (.grpOpen .next 0 (.overlap 2) 4) ∧
    decode 0x0000720000000000 = some (.grpClose .next) := by decide
/-- `paddi s9, s9, #64`, by the words the spec writes out. -/
theorem test_decode_pointers :
    decode 0x0000222490000040 = some (.paddi .next { sd := 9, sa := 9, fd := 0, fe := false, imm := 64 }) := by decide
/-- `csrr s7, PSEED0`; `hmask.set s0, s6`; `hwake s2, s3`; `trap s4, #0x12`; `eret.retry`; `eret.skip -> stop`; `kill s3, s10`; `kill.wait s3, s10`; `nop`, by the words the spec writes out. -/
theorem test_decode_system :
    decode 0x0000F11C00000010 = some (.csrr .next 7 16) ∧
    decode 0x0000F80060001000 = some (.hmask .next 0 6 .set) ∧
    decode 0x0000F90830000000 = some (.hwake .next 2 3) ∧
    decode 0x0000F50040000012 = some (.trap .next 4 18) ∧
    decode 0x0000F60000000000 = some (.eret .next .retry) ∧
    decode 0x9000F60000001000 = some (.eret .stop .skip) ∧
    decode 0x0000F70CA0000000 = some (.kill .next 3 10 false) ∧
    decode 0x0000F70CA0001000 = some (.kill .next 3 10 true) ∧
    decode 0x0000F00000000000 = some (.nop .next) := by decide
/-- `cpl.set.kp s3, s10, s11`; `cpl.get.ctick s5, s10`; `pseed s0, s4, s5`; `pmemb.inc s0`; `ptau s0, s6`; `rnd.gauss s7, s8`; `dig.on.rst s5`; `dig.read.lo s6`; `dig.read.hi s6`, by the words the spec writes out. -/
theorem test_decode_noise_couplers_digests :
    decode 0x0000B40CA2C01000 = some (.cplSet .next 3 10 11 .kp) ∧
    decode 0x0000B514A0004000 = some (.cplGet .next 5 10 .ctick) ∧
    decode 0x0000B00041400000 = some (.pseed .next 0 4 5) ∧
    decode 0x0000B10000001000 = some (.pmembInc .next 0) ∧
    decode 0x0000B20060000000 = some (.ptau .next 0 6) ∧
    decode 0x0000B31C80003000 = some (.rnd .next 7 8 .gauss) ∧
    decode 0x0000B61400001000 = some (.digOn .next 5 true) ∧
    decode 0x0000B71800000000 = some (.digRead .next 6 false) ∧
    decode 0x0000B71800001000 = some (.digRead .next 6 true) := by decide
/-- `sbind.port s5, s12, #3, fi7, #2, bf16`; `sgather s4, s13, #9`; `sscatter.tok s4, s13, #9`; `sresp.p1 s7, #4`; `sstat.bmp s10, #9`; `scancel s9, #3`; `shape s2, s14, #5, #7`; `sdepth s0, s8, #2`, by the words the spec writes out. -/
theorem test_decode_streams :
    decode 0x00006014C18E1440 = some (.sbind .next { sd := 5, sa := 12, sid := 3, kind := .port, out := false, port := 7, shp := 2, fmt := 34, tok := false }) ∧
    decode 0x00006110D4800000 = some (.sgather .next 4 13 9 false) ∧
    decode 0x00006210D4800001 = some (.sscatter .next 4 13 9 true) ∧
    decode 0x0000631C02000001 = some (.sresp .next 7 4 1 false false) ∧
    decode 0x0000652804800001 = some (.sstat .next 10 9 .bmp) ∧
    decode 0x0000642401800000 = some (.scancel .next 9 3) ∧
    decode 0x00006608E2803800 = some (.shape .next 2 14 5 7) ∧
    decode 0x0000670081000000 = some (.sdepth .next 0 8 2) := by decide
/-- `sysmode.on.n8 s0, s0`; `sysmode.off s0`; `wpre s10, s11`; `wpre.keep s10, s11`; `mma.last #64`; `mma.last.keepa #64`; `epi s12, #2, #3`; `acc.shape s0, ac1, s5`; `acc.drop s0, ac0`; `acc.drop.all s0`, by the words the spec writes out. -/
theorem test_decode_matrix :
    decode 0x0000800000107000 = some (.sysmodeOn .next 0 0 0 false 7 0) ∧
    decode 0x0000800000000000 = some (.sysmodeOff .next 0) ∧
    decode 0x00008100A2C00000 = some (.wpre .next 10 11 false .cfg) ∧
    decode 0x00008100A2C08000 = some (.wpre .next 10 11 true .cfg) ∧
    decode 0x000082000023F000 = some (.mma .next true false 63) ∧
    decode 0x000082000033F000 = some (.mma .next true true 63) ∧
    decode 0x00008300C0002002 = some (.epi .next 12 2 2) ∧
    decode 0x0000840050000001 = some (.accShape .next 0 5 1) ∧
    decode 0x0000850000000000 = some (.accDrop .next 0 false 0) ∧
    decode 0x0000850000001000 = some (.accDrop .next 0 true 0) := by decide
/-- `cbk s0, s4, s5, #1, #0xFFF`; `att.q s0, s8, s9, #1, #0x0F0`; `att.run s5, s12, s13`; `att.merge.bf16 s6, s12, s14`, by the words the spec writes out. -/
theorem test_decode_base_dies :
    decode 0x0000900041401FFF = some (.cbk .next 0 4 5 1 4095) ∧
    decode 0x00009100824010F0 = some (.attQ .next 0 8 9 1 240) ∧
    decode 0x00009214C3400000 = some (.attRun .next 5 12 13) ∧
    decode 0x00009318C3801000 = some (.attMerge .next 6 12 14 true) := by decide
/-- `tk.text tk1, s4, s5`; `tk.mix tk2, s6, s5, #3`; `tk.hid.fp32 tk3, s8, s9`; `tk.emb tk2, s10, s11`; `tk.col.topp.mask tk5, tk4, s12, s13, #8`; `tk.mask.open s14, #9`; `tk.log tk5, s16, s2`; `tk.log.chk tk5, s16, s2`; `tk.dig.pos tk5, s4`; `tk.match s18, s20`; `tk.mov tk6, tk5`; `tk.mov.empty tk6, s7`, by the words the spec writes out. -/
theorem test_decode_soft_tokens :
    decode 0x0000A01010500000 = some (.tkText .next 1 4 5) ∧
    decode 0x0000A12018500003 = some (.tkMix .next 2 6 5 3) ∧
    decode 0x0000A23020901000 = some (.tkHid .next 3 8 9 true) ∧
    decode 0x0000A30228B00000 = some (.tkEmb .next 2 10 11 false) ∧
    decode 0x0000A45430D12008 = some (.tkCol .next { td := 5, ta := 4, sa := 12, sb := 13, msk := true, gate := false, mode := .topp 8 }) ∧
    decode 0x0000A50038001009 = some (.tkMask .next 14 .open_ 9) ∧
    decode 0x0000A60540200000 = some (.tkLog .next 5 16 2) ∧
    decode 0x0000A60540201000 = some (.tkLogChk .next 5 16 2) ∧
    decode 0x0000A70510000000 = some (.tkDig .next 5 4 false) ∧
    decode 0x0000A80049400000 = some (.tkMatch .next 18 20) ∧
    decode 0x0000A96500000000 = some (.tkMov .next 6 5) ∧
    decode 0x0000A9601C001000 = some (.tkMovEmpty .next 6 7) := by decide
/-- `tk.ld tk7, s22`; `tk.st tk7, s22`, by the words the spec writes out. -/
theorem test_decode_soft_tokens_2 :
    decode 0x0000AA7058000000 = some (.tkLd .next 7 22) ∧
    decode 0x0000AB0758000000 = some (.tkSt .next 7 22) := by decide
/-- `amo.add.d.rel.module s5, s6, s7`; `amo.cas.w.acq.cluster.f2 s3, s4, s5, s6`; `fence.sc.module`; `fence.rel.pod`; `sfence.die s3, #4`; `bar.init s0, s10, s11`; `bar.arrive.cluster.f1 s4, s10, s11`; `bar.wait.cluster s5, s10, s4`; `cwait.geu.d.module s5, s6, s7`; `signal.module s7, #12`; `drain.module`, by the words the spec writes out. -/
theorem test_decode_atomics_and_fences :
    decode 0x0000401461C05300 = some (.amoAdd .next { sd := 5, sa := 6, sb := 7, ord := .rel, scope := .module, dbl := true }) ∧
    decode 0x0000490C41462A50 = some (.amoCas .next { sd := 3, sa := 4, sb := 5, ord := .acq, scope := .cluster, dbl := false } 6 2 true) ∧
    decode 0x0000500000003004 = some (.fence .next .sc .module) ∧
    decode 0x0000500000002005 = some (.fence .next .rel .pod) ∧
    decode 0x0000510C02000003 = some (.sfence .next 3 4 .die) ∧
    decode 0x00005200A2C00000 = some (.barInit .next 0 10 11) ∧
    decode 0x00005310A2C00830 = some (.barArrive .next 4 10 11 .cluster 1 true) ∧
    decode 0x00005414A1000800 = some (.barWait .next 5 10 4 .cluster) ∧
    decode 0x0000551461C1A004 = some (.cwait .next 5 6 7 true .geu .module) ∧
    decode 0x000056007000C004 = some (.signal .next 7 12 .module) ∧
    decode 0x0000570000000004 = some (.drain .next .module) := by decide
/-- `sub.f0 s10, s33, s63`; `mul.w32.f3 s11, s34, s62`; `mulh.w32z.f6 s12, s35, s61`; `mulhu.f1 s13, s36, s60`; `divu.w32.f4 s14, s37, s59`; `rem.w32z.f7 s15, s38, s58`; `remu.f2 s16, s39, s57`; `and.w32.f5 s17, s40, s56`; `or.w32z.f0 s18, s41, s55`; `xor.f3 s19, s42, s54`; `sll.w32.f6 s20, s43, s53`; `srl.w32z.f1 s21, s44, s52`; `sra.f4 s22, s45, s51`; `min.w32.f7 s23, s46, s50`; `max.w32z.f2 s24, s47, s49`; `minu.f5 s25, s48, s48`; `maxu.w32.f0 s26, s49, s47`, assembled by hand from the formats of R86 to R90 and the map of R91. -/
theorem test_decode_register_words :
    decode 0x0000022A1FC00010 = some (.sub .next { sd := 10, sa := 33, sb := 63, fd := 0, fe := true, wd := .w64 }) ∧
    decode 0x0000032E2F800074 = some (.mul .next { sd := 11, sa := 34, sb := 62, fd := 3, fe := true, wd := .w32s }) ∧
    decode 0x000004323F4000D8 = some (.mulh .next { sd := 12, sa := 35, sb := 61, fd := 6, fe := true, wd := .w32z }) ∧
    decode 0x000005364F000030 = some (.mulhu .next { sd := 13, sa := 36, sb := 60, fd := 1, fe := true, wd := .w64 }) ∧
    decode 0x0000073A5EC00094 = some (.divu .next { sd := 14, sa := 37, sb := 59, fd := 4, fe := true, wd := .w32s }) ∧
    decode 0x0000083E6E8000F8 = some (.rem .next { sd := 15, sa := 38, sb := 58, fd := 7, fe := true, wd := .w32z }) ∧
    decode 0x000009427E400050 = some (.remu .next { sd := 16, sa := 39, sb := 57, fd := 2, fe := true, wd := .w64 }) ∧
    decode 0x00000A468E0000B4 = some (.and .next { sd := 17, sa := 40, sb := 56, fd := 5, fe := true, wd := .w32s }) ∧
    decode 0x00000B4A9DC00018 = some (.or .next { sd := 18, sa := 41, sb := 55, fd := 0, fe := true, wd := .w32z }) ∧
    decode 0x00000C4EAD800070 = some (.xor .next { sd := 19, sa := 42, sb := 54, fd := 3, fe := true, wd := .w64 }) ∧
    decode 0x00000D52BD4000D4 = some (.sll .next { sd := 20, sa := 43, sb := 53, fd := 6, fe := true, wd := .w32s }) ∧
    decode 0x00000E56CD000038 = some (.srl .next { sd := 21, sa := 44, sb := 52, fd := 1, fe := true, wd := .w32z }) ∧
    decode 0x00000F5ADCC00090 = some (.sra .next { sd := 22, sa := 45, sb := 51, fd := 4, fe := true, wd := .w64 }) ∧
    decode 0x00001A5EEC8000F4 = some (.min .next { sd := 23, sa := 46, sb := 50, fd := 7, fe := true, wd := .w32s }) ∧
    decode 0x00001B62FC400058 = some (.max .next { sd := 24, sa := 47, sb := 49, fd := 2, fe := true, wd := .w32z }) ∧
    decode 0x00001C670C0000B0 = some (.minu .next { sd := 25, sa := 48, sb := 48, fd := 5, fe := true, wd := .w64 }) ∧
    decode 0x00001D6B1BC00014 = some (.maxu .next { sd := 26, sa := 49, sb := 47, fd := 0, fe := true, wd := .w32s }) := by decide
/-- `andi.f6 s7, s62, #0x7FFFFF`; `ori.f6 s7, s62, #0x800000`; `xori.f6 s7, s62, #-1`; `slli s7, s62, #63`; `srli s7, s62, #1`; `srai s7, s62, #32`; `li.hi s5, #0x20940000`; `sel.f5 s8, s9, s10`; `bits.ext s6, s7, s8, s9`; `bits.rev.w32z.f1 s6, s7`, assembled by hand from the formats of R86 to R90 and the map of R91. -/
theorem test_decode_immediate_words :
    decode 0x0000111FED7FFFFF = some (.andi .next { sd := 7, sa := 62, fd := 6, fe := true, imm := 0x7FFFFF }) ∧
    decode 0x0000121FED800000 = some (.ori .next { sd := 7, sa := 62, fd := 6, fe := true, imm := 0x800000 }) ∧
    decode 0x0000131FEDFFFFFF = some (.xori .next { sd := 7, sa := 62, fd := 6, fe := true, imm := -1 }) ∧
    decode 0x0000141FE000003F = some (.slli .next { sd := 7, sa := 62, fd := 0, fe := false, sh := 63 }) ∧
    decode 0x0000151FE0000001 = some (.srli .next { sd := 7, sa := 62, fd := 0, fe := false, sh := 1 }) ∧
    decode 0x0000161FE0000020 = some (.srai .next { sd := 7, sa := 62, fd := 0, fe := false, sh := 32 }) ∧
    decode 0x0000171620940000 = some (.liHi .next 5 0x20940000) ∧
    decode 0x00001E2092800500 = some (.sel .next 8 9 10 5) ∧
    decode 0x00001F1872090300 = some (.bits .next { sd := 6, sa := 7, sb := 8, fd := 0, fe := false, wd := .w64 } 9 .ext) ∧
    decode 0x00001F1870000538 = some (.bits .next { sd := 6, sa := 7, sb := 0, fd := 1, fe := true, wd := .w32z } 0 .rev) := by decide
/-- `pmk.tile s1, s2, s3`; `padd.f7 s1, s2, s3`; `pdiff s1, s2, s3`; `pget.rank.f2 s1, s2`; `pset.off s1, s2, s3`; `pchk.wr s1, s2, s3`; `pcmp.ge.f4 s1, s2, s3`, assembled by hand from the formats of R86 to R90 and the map of R91. -/
theorem test_decode_pointer_words :
    decode 0x0000200420C00200 = some (.pmk .next { sd := 1, sa := 2, sb := 3, fd := 0, fe := false } 2) ∧
    decode 0x0000210420C000F0 = some (.padd .next { sd := 1, sa := 2, sb := 3, fd := 7, fe := true }) ∧
    decode 0x0000230420C00000 = some (.pdiff .next { sd := 1, sa := 2, sb := 3, fd := 0, fe := false }) ∧
    decode 0x0000240420000150 = some (.pget .next 1 2 2 true .rank) ∧
    decode 0x0000250420C00200 = some (.pset .next { sd := 1, sa := 2, sb := 3, fd := 0, fe := false } .off) ∧
    decode 0x0000260420C00100 = some (.pchk .next { sd := 1, sa := 2, sb := 3, fd := 0, fe := false } true) ∧
    decode 0x0000270420C00390 = some (.pcmp .next { sd := 1, sa := 2, sb := 3, fd := 4, fe := true } .ge) := by decide
/-- `amo.and.d.acq.tile s40, s50, s1`; `amo.or.w.rel.pod s41, s49, s2`; `amo.xor.d.sc.module s42, s48, s3`; `amo.min.w s43, s47, s4`; `amo.max.d.acq.span s44, s46, s5`; `amo.minu.w.rel.cluster s45, s45, s6`; `amo.maxu.d.sc.die s46, s44, s7`; `amo.swap.d.sc.tile s47, s43, s8`; `amo.fadd.w.acq.pod s48, s42, s9`, assembled by hand from the formats of R86 to R90 and the map of R91. -/
theorem test_decode_atomic_words :
    decode 0x000041A320402300 = some (.amoAnd .next { sd := 40, sa := 50, sb := 1, ord := .acq, scope := .tile, dbl := true }) ∧
    decode 0x000042A710805600 = some (.amoOr .next { sd := 41, sa := 49, sb := 2, ord := .rel, scope := .pod, dbl := false }) ∧
    decode 0x000043AB00C07300 = some (.amoXor .next { sd := 42, sa := 48, sb := 3, ord := .sc, scope := .module, dbl := true }) ∧
    decode 0x000044AEF1000200 = some (.amoMin .next { sd := 43, sa := 47, sb := 4, ord := .plain, scope := .tile, dbl := false }) ∧
    decode 0x000045B2E1402700 = some (.amoMax .next { sd := 44, sa := 46, sb := 5, ord := .acq, scope := .span, dbl := true }) ∧
    decode 0x000046B6D1804A00 = some (.amoMinu .next { sd := 45, sa := 45, sb := 6, ord := .rel, scope := .cluster, dbl := false }) ∧
    decode 0x000047BAC1C06F00 = some (.amoMaxu .next { sd := 46, sa := 44, sb := 7, ord := .sc, scope := .die, dbl := true }) ∧
    decode 0x000048BEB2006300 = some (.amoSwap .next { sd := 47, sa := 43, sb := 8, ord := .sc, scope := .tile, dbl := true }) ∧
    decode 0x00004AC2A2403600 = some (.amoFadd .next { sd := 48, sa := 42, sb := 9, ord := .acq, scope := .pod, dbl := false }) := by decide
/-- `step.keep s1, #2`; `cfg.part s6, #2`; `pmemb s2, s3`; `tk.mask.off`; `dep.set s4, s10, s11`; `dep.read s3, s10, #7`; `csrw s0, K1, s9`; `csrs s1, FLAGS, s9`; `csrc s63, CBMP, s9`, assembled by hand from the formats of R86 to R90 and the map of R91. -/
theorem test_decode_other_words :
    decode 0x0000700010042000 = some (.stepKeep .next 1 2) ∧
    decode 0x0000740060000002 = some (.cfgPart .next 6 2) ∧
    decode 0x0000B10830000000 = some (.pmemb .next 2 3) ∧
    decode 0x0000A50000004000 = some (.tkMaskOff .next) ∧
    decode 0x0000C310A2C00000 = some (.depSet .next 4 10 11) ∧
    decode 0x0000C50CA0000007 = some (.depRead .next 3 10 7) ∧
    decode 0x0000F2009000000D = some (.csrw .next 0 9 0xD) ∧
    decode 0x0000F3049000000A = some (.csrs .next 1 9 0xA) ∧
    decode 0x0000F4FC90000024 = some (.csrc .next 63 9 0x24) := by decide

/-- The table's numbering of an instruction's bits gives the same decoder. -/
theorem test_table_word : decodeTableWord 64 0x0000010C41400000 = some (.add .next { sd := 3, sa := 4, sb := 5, fd := 0, fe := false, wd := .w64 }) := by
  decide

/-! ## Ill-formed terms, one for each check of `Instr.wf` -/

def plainMem : MemOp := { sd := 1, sa := 2, sz := 3, sgn := false, ord := .plain, scope := .tile, disp := 0 }
def plainLds : LdsOp := { sd := 1, sa := 2, n1 := 0, ord := .plain, scope := .tile, disp := 0 }
def plainAmo : AmoOp := { sd := 1, sa := 2, sb := 3, ord := .plain, scope := .tile, dbl := true }
def plainBind : SbindOp := { sd := 1, sa := 2, sid := 0, kind := .port, out := false, port := 0, shp := 0, fmt := 0x22, tok := false }

theorem test_wf_memory :
    (Instr.ld .next { plainMem with ord := .rel }).wf = false ∧ (Instr.ld .next { plainMem with scope := .die }).wf = false ∧
    (Instr.st .next { plainMem with ord := .acq }).wf = false ∧ (Instr.st .next { plainMem with sgn := true }).wf = false ∧
    (Instr.st .next { plainMem with ord := .sc, scope := .pod }).wf = false ∧ (Instr.lds .next { plainLds with sd := 0 }).wf = false ∧
    (Instr.lds .next { plainLds with sd := 63, n1 := 1 }).wf = false ∧ (Instr.lds .next { plainLds with ord := .sc }).wf = false ∧
    (Instr.lds .next { plainLds with scope := .pod }).wf = false ∧
    (∀ c ∈ [Instr.amoAdd, .amoAnd, .amoOr, .amoXor, .amoMin, .amoMax, .amoMinu, .amoMaxu, .amoSwap],
      (c .next { plainAmo with scope := .span }).wf = false) ∧
    (Instr.amoCas .next { plainAmo with ord := .sc, scope := .pod } 0 0 false).wf = false ∧ (Instr.amoFadd .next plainAmo).wf = false ∧
    (Instr.amoFadd .next { plainAmo with dbl := false, scope := .die }).wf = false ∧ (Instr.fence .next .sc .pod).wf = false := by decide
theorem test_wf_streams :
    (Instr.sbind .next { plainBind with shp := 63 }).wf = false ∧ (Instr.sbind .next { plainBind with fmt := 0x27 }).wf = false ∧
    (Instr.sbind .next { plainBind with kind := .ring }).wf = false ∧ (Instr.sbind .next { plainBind with kind := .ring, fmt := 0, port := 1 }).wf = false ∧
    (Instr.sbind .next { plainBind with kind := .core, out := true }).wf = false ∧
    (Instr.sbind .next { plainBind with kind := .core, port := 1 }).wf = false ∧ (Instr.sbind .next { plainBind with kind := .core, fmt := 0x3F }).wf = false ∧
    (Instr.sresp .next 1 0 1 false true).wf = false ∧ (Instr.sresp .next 1 0 0 true true).wf = false ∧ (Instr.shape .next 1 2 0 63).wf = false ∧
    (Instr.sdepth .next 1 2 16).wf = false := by decide
theorem test_wf_others :
    (Instr.pmk .next { sd := 1, sa := 2, sb := 3, fd := 0, fe := false } 6).wf = false ∧ (Instr.send .next 1 true 0).wf = false ∧
    (Instr.bits .next { sd := 1, sa := 2, sb := 3, fd := 0, fe := false, wd := .w64 } 0 .cnt).wf = false ∧
    (Instr.bits .next { sd := 1, sa := 2, sb := 0, fd := 0, fe := false, wd := .w64 } 4 .rev).wf = false ∧
    (Instr.grpOpen .next 0 (.overlap 0) 0).wf = false ∧ (Instr.clear .next 0 0).wf = false ∧ (Instr.sysmodeOn .next 0 0 1 false 0 0).wf = false ∧
    (Instr.sysmodeOn .next 0 0 0 false 0 1).wf = false ∧ (Instr.sysmodeOn .next 0 0 0 true 0 0).wf = false ∧ (Instr.epi .next 0 2 3).wf = false ∧
    (Instr.accDrop .next 0 true 1).wf = false ∧ (Instr.cplSet .next 0 1 2 .irst).wf = false ∧ (Instr.cbk .next 0 1 2 0 1).wf = false ∧
    (Instr.cbk .next 0 1 2 7 1).wf = false ∧ (Instr.attQ .next 0 1 2 1 0).wf = false ∧ (Instr.tkMix .next 0 1 2 0).wf = false ∧
    (Instr.tkMix .next 0 1 2 9).wf = false ∧
    (Instr.tkCol .next { td := 0, ta := 0, sa := 1, sb := 2, msk := false, gate := false, mode := .topp 0 }).wf = false ∧
    (Instr.tkCol .next { td := 0, ta := 0, sa := 1, sb := 2, msk := false, gate := false, mode := .topk 257 }).wf = false ∧
    (Instr.tkLog .next 0 1 3).wf = false ∧ (Instr.tkLogChk .next 0 1 0).wf = false ∧ (Instr.tkDig .next 0 5 false).wf = false ∧
    (Instr.tagInv .next 0 1 0 true).wf = false ∧ (Instr.depDec .next 0 1 0).wf = false ∧ (Instr.csrr .next 0 0x01C).wf = false ∧
    (Instr.csrr .next 0 0x02A).wf = false ∧ (Instr.csrw .next 0 1 0x006).wf = false ∧ (Instr.csrs .next 0 1 0x00B).wf = false ∧
    (Instr.csrc .next 0 1 0x028).wf = false := by decide

/-! ## Worked examples of the spec, each one step -/

/-- The machine of the tests: one live span of one cluster with handler 0 at word 8 holding `l`, and a stopped trap handler 1. -/
def span (l : List (Nat × Word)) : Span :=
  { live := true, ten := true, thnd := 1, nhnd := 1, pbuf := [(1, [])]
    hs := [(0, { st := .runnable, pc := 8, regs := l }), (1, { entry := 64, pc := 64 })] }
def withSpan (p : Span) : State :=
  { State.reset with
    spans := [(0, p)], cur := { sp := 0, h := 0, pc := 8 }
    ctl := { State.reset.ctl with launches := [(0, { v := true, checked := true, entry := 5 })] } }
def withRegs (l : List (Nat × Word)) : State := withSpan (span l)
/-- The next state, or the reset state where there is none. -/
def after (o : Host.Outcome State Fault Refusal) : State := match o with | .next t => t | _ => State.reset
/-- Register r of the handler after one instruction. -/
def gives (i : Instr) (s : State) (r : Reg) : Word := rdReg (after (exec i s)) 0 0 r
def flagAfter (i : Instr) (s : State) (n : BitVec 3) : Bool := flagBit (getH (after (exec i s)) 0 0).flags n

/-- R147: `add.w32.f1 s3, s4, s5` with 0x7FFF_FFFF and 1. -/
theorem test_add_w32 :
    let s := withRegs [(4, 0x7FFFFFFF), (5, 1)]
    let i : Instr := .add .next { sd := 3, sa := 4, sb := 5, fd := 1, fe := true, wd := .w32s }
    gives i s 3 = 0xFFFFFFFF80000000 ∧ flagAfter i s 1 = true := by decide
/-- R152: `bits.ext s6, s7, s8, s9` with 0xABCD, 4 and 8. -/
theorem test_bits_ext :
    gives (.bits .next { sd := 6, sa := 7, sb := 8, fd := 0, fe := false, wd := .w64 } 9 .ext) (withRegs [(7, 0xABCD), (8, 4), (9, 8)]) 6 = 0xBC := by
  decide
/-- R154: `paddi s9, s9, #64` on ptr(TILE, 37, 0x3_FFF0) gives ptr(TILE, 37, 0x4_0030). -/
theorem test_paddi_tile :
    gives (.paddi .next { sd := 9, sa := 9, fd := 0, fe := false, imm := 64 }) (withRegs [(9, 0x209400000003FFF0)]) 9 = 0x2094000000040030 := by decide
/-- R148: a division by zero stays in its stage for 36 cycles and then writes all ones and the flag; its handler is blocked until then. -/
theorem test_div_zero :
    let t := after (exec (.div .next { sd := 2, sa := 3, sb := 4, fd := 3, fe := true, wd := .w64 }) (withRegs [(3, 7)]))
    let u := after (exec (.operationStageEnd 0 0) { t with cycle := 36 })
    (getH t 0 0).st = .blocked ∧ rdReg t 0 0 2 = 0 ∧ rdReg u 0 0 2 = 0xFFFFFFFFFFFFFFFF ∧ flagBit (getH u 0 0).flags 3 = true := by decide
/-- R153: two words form any value. -/
theorem test_li_hi : gives (.liHi .next 5 0x20940000) (withRegs [(5, 0xFFFFFFFFFFFFFFFE)]) 5 = 0x20940000FFFFFFFE := by decide
/-- R79: a result for s0 is discarded, its flag is not. -/
theorem test_cmpi_s0 :
    gives (.cmpi .next 0 7 0 true .geu 100) (withRegs [(7, 100)]) 0 = 0 ∧ flagAfter (.cmpi .next 0 7 0 true .geu 100) (withRegs [(7, 100)]) 0 = true := by
  decide
/-- R84: a loop counter that holds 1 ends the loop, one that holds zero wraps and jumps. -/
theorem test_loop_counter :
    let s := withRegs []
    let z (k : W32) : State := withSpan { span [] with hs := [(0, { st := .runnable, pc := 8, k1 := k })] }
    (getH (after (exec (.nop (.loop 1 0)) (z 1))) 0 0).pc = 9 ∧ (getH (after (exec (.nop (.loop 1 0)) s)) 0 0).pc = 8 ∧
    (getH (after (exec (.nop (.loop 1 0)) s)) 0 0).k1 = 0xFFFFFFFF := by decide
/-- R411: `trap s4, #0x12` starts the trap handler, with TCAUSE, TVAL and TPC written. -/
theorem test_trap_software :
    let t := after (exec (.trap .next 4 0x12) (withRegs [(4, 77)]))
    tget (getSpan t 0).csr 0x20 0 = 0x120012 ∧ tget (getSpan t 0).csr 0x21 0 = 77 ∧ tget (getSpan t 0).csr 0x22 0 = 8 ∧
    (getH t 0 1).st = .runnable ∧ (getH t 0 1).pc = 64 ∧ (getH t 0 0).st = .blocked := by decide
/-- R116: the first draw of die 0's dispatcher with x = 1 gives 0x0004_2021; R174: the selector's next draw gives 0x0408_0601. -/
theorem test_draws : xorshift 1 = 0x00042021 ∧ xorshift 0x00042021 = 0x04080601 := by decide
/-- R46: the example ptr(TILE, 37, 0x14_0100) names byte 0x0100 of the memory node of tile 5 of cluster 37. -/
theorem test_pointer_home : keyOf 0x2094000000140100 = some (2 ^ 48 + (37 * 16 + 5) * 2 ^ 18 + 0x100) := by decide

/-! ## Witnesses: states and operands that meet the hypotheses of the statements, clause by clause -/

/-- `span` with another handler 0. -/
def spanH (f : Handler → Handler) : Span := { span [] with hs := [(0, f { st := .runnable, pc := 8 }), (1, { entry := 64, pc := 64 })] }
def withOp (o : Op) (c : Nat) : State := { withSpan (spanH fun x => { x with op := some o, st := .blocked }) with cycle := BitVec.ofNat 64 c }

theorem witness_ProductsAndQuotientsCompute (w : Writes) (nx : Nx) :
    productRules ≠ [] ∧ divisionRules ≠ [] ∧ (getH (withOp (.late 4 w nx) 4) 0 0).op = some (.late 4 w nx) ∧ 4 ≤ now (withOp (.late 4 w nx) 4) ∧
    (getH (withOp (.late 4 w nx) 3) 0 0).op = some (.late 4 w nx) ∧ now (withOp (.late 4 w nx) 3) < 4 :=
  ⟨List.cons_ne_nil _ _, List.cons_ne_nil _ _, rfl, Nat.le_refl 4, rfl, Nat.lt_succ_self 3⟩
theorem witness_RegisterAndImmediateWordsCompute : cycleRules ≠ [] := List.cons_ne_nil _ _

/-- A pointer into SCRATCH of cluster 0, whose owner is tenant 0; one with a rank that does not exist; one that tenant 1 may not use. -/
def scratch (off : Nat) : Word := BitVec.ofNat 64 (2 ^ 60 + off)
theorem witness_PointerWordsComputeAndCheck :
    let s := withRegs [(1, scratch 0), (2, 2 ^ 22), (3, 2 ^ 22 + 1)]
    let s1 := withSpan { span [(1, scratch 0), (2, 1)] with tenant := 1 }
    (reg s 0).toNat = 0 ∧ (reg s 3).toNat ≠ 0 ∧ ptrOk (reg s 1) (reg s 3).toNat = false ∧
    (reg s 2).toNat ≠ 0 ∧ ptrOk (reg s 1) (reg s 2).toNat = true ∧ ownsOk s (curTenant s) (reg s 1) (reg s 2).toNat true = true ∧
    (reg s1 2).toNat ≠ 0 ∧ ptrOk (reg s1 1) (reg s1 2).toNat = true ∧ ownsOk s1 (curTenant s1) (reg s1 1) (reg s1 2).toNat false = false := by decide

theorem witness_CsrAndHandlerWordsAct : (0x00A, 8) ∈ writableCsrs ∧ (0x024, 64) ∈ writableCsrs ∧
    (let s := withRegs []
     0 ≤ (getSpan s s.cur.sp).nhnd ∧ (getSpan s s.cur.sp).nhnd < 2 ∧ (getH s 0 1).st = .stopped ∧ (getH s 0 0).st ≠ .stopped) := by decide

/-- A span with channel 0 bound to handler 0, channel 63 to handler 1; c stands in channel 0. -/
def spanCh (c : List Token) : Span := { span [] with chmap := [(0, 0), (63, 1)], ch := [(0, c)] }
theorem witness_recv :
    let s := withSpan (spanCh [.word 7, .empty])
    let z := withSpan (spanCh [])
    let o : RecvOp := { sd := 1, ch := 0, part := 0, peek := false, fd := 0, fe := false }
    boundTo (curSpan s) o.ch.toNat s.cur.h = true ∧ tget (curSpan s).ch o.ch.toNat [] = .word 7 :: [.empty] ∧
    z.cur.latch = none ∧ boundTo (curSpan z) o.ch.toNat z.cur.h = true ∧ tget (curSpan z).ch o.ch.toNat [] = [] ∧
    isBound (curSpan z) (63 : BitVec 6).toNat = true ∧ chanRoom z 0 (63 : BitVec 6).toNat = true ∧ relWaits z .module = false ∧
    (curH z).podFault = none ∧ chanRoom (withSpan (spanCh (List.replicate 8 .empty))) 0 (0 : BitVec 6).toNat = false := by decide +kernel
/-- Seven entries are the most a channel of 8 may hold; the handler it wakes is STOPPED, WAITING on it or on another, RUNNABLE, or BLOCKED
in a recv of it, in one of another channel or in another word. -/
theorem witness_channelArrival :
    let s (x : HState) : State := withSpan { spanCh (List.replicate 7 .empty) with
      toks := [(true, 0, 1), (false, 0, 9)], hs := [(0, { st := x, pc := 8 }), (1, {})] }
    ∀ x ∈ [HState.stopped, .waiting 0, .waiting 63, .runnable],
      (getSpan (s x) 0).live = true ∧ (getSpan (s x) 0).saved = false ∧ chanRoom (s x) 0 0 = true ∧
      (getSpan (s x) 0).toks[1]? = some (false, 0, 9) ∧ tfind (getSpan (s x) 0).chmap 0 = some 0 ∧ (getH (s x) 0 0).st = x ∧
      (s x).net.bars = [] := by decide
theorem witness_waitingRecv (nx : Nx) :
    let o (c : BitVec 6) : RecvOp := { sd := 1, ch := c, part := 0, peek := false, fd := 0, fe := false }
    let s (i : Instr) : State := withSpan { spanCh [] with hs := [(0, { st := .blocked, op := some (.wait i 0 0 0 0), pc := 8 }), (1, {})] }
    waitingRecv (s (.recv nx (o 0))) 0 0 = some (0, nx, o 0) ∧ waitingRecv (s (.recv nx (o 63))) 0 0 = none ∧ waitingRecv (s (.nop nx)) 0 0 = none :=
  ⟨rfl, rfl, rfl⟩

/-- No handler of a small span is held. -/
theorem held_none (l : Tab Handler) (h : ∀ x ∈ l, x.2.held = none) (g : Nat) : (tget l g {}).held = none := by
  induction l with
  | nil => rfl
  | cons a l ih =>
    rw [tget]
    split
    · exact h a (List.mem_cons_self ..)
    · exact ih fun x hx => h x (List.mem_cons_of_mem _ hx)
theorem noTrap_of (s : State) (sp : Nat) (h1 : (getSpan s sp).trap = none) (h2 : (getSpan s sp).fabric = none)
    (h3 : ∀ x ∈ (getSpan s sp).hs, x.2.held = none) : noTrap s sp := ⟨h1, h2, held_none _ h3⟩
theorem witness_SoftwareTrapIsDelivered :
    let s := withRegs [(4, 77)]
    noTrap s s.cur.sp ∧ (getSpan s s.cur.sp).ten = true ∧ s.cur.h < 16 ∧ s.cur.h ≠ (getSpan s s.cur.sp).thnd ∧
    (getH s s.cur.sp (getSpan s s.cur.sp).thnd).st = .stopped :=
  ⟨noTrap_of _ _ rfl rfl (by decide), rfl, by decide, by decide, rfl⟩
theorem witness_UndefinedWordsTrapOrFreeze :
    (let s := withSpan { span [] with pbuf := [(1, [0xD00000000000])] }
     noTrap s 0 ∧ (getSpan s 0).ten = true ∧ pickHandler (getSpan s 0) = some 0 ∧ 0 ≠ (getSpan s 0).thnd ∧ (getH s 0 (getSpan s 0).thnd).st = .stopped ∧
     tfind (getSpan s 0).pbuf ((getH s 0 0).pc.toNat / 8) = some [0xD00000000000] ∧
     (tget (getSpan s 0).pbufGaps ((getH s 0 0).pc.toNat / 8) []).contains ((getH s 0 0).pc.toNat % 8) = false ∧
     decode (nth [0xD00000000000] ((getH s 0 0).pc.toNat % 8) 0) = none) ∧
    (let s := withSpan { span [] with ten := false }
     noTrap s 0 ∧ (getSpan s 0).ten = false ∧ s.cur.h < 16 ∧ (getL s (getSpan s 0).slot).sst = .running) :=
  ⟨⟨noTrap_of _ _ rfl rfl (by decide), rfl, by decide, by decide, rfl, rfl, rfl, by decide⟩, noTrap_of _ _ rfl rfl (by decide), rfl, by decide, rfl⟩
theorem witness_EretReturnsFromTrap :
    (let tr : Trap := { h := 0, pc := 8 }
     let s := { withSpan { span [] with trap := some tr, hs := [(0, { held := some tr, st := .blocked, pc := 8 }), (1, { st := .runnable })] } with
       cur := { h := 1 } }
     let p := getSpan s s.cur.sp
     p.trap = some tr ∧ p.ten = true ∧ p.toSys = false ∧ s.cur.h = p.thnd ∧ p.fabric = none ∧ (∀ g, g ≠ tr.h → (getH s s.cur.sp g).held = none) ∧
     tr.agent = 0 ∧ (tget p.csr 0x20 0).getLsbD 63 = false ∧ tr.h ≠ p.thnd) ∧
    (let tr : Trap := { agent := 1 }
     let s := { withSpan { span [] with trap := some tr, frozen := true, csr := [(0x20, 2 ^ 63)], streams := [(3, { st := .faulted, fault := some (.ue, 0) })] } with
       cur := { h := 1 } }
     let p := getSpan s s.cur.sp
     p.trap = some tr ∧ p.ten = true ∧ p.toSys = false ∧ s.cur.h = p.thnd ∧ p.fabric = none ∧ (∀ g, (getH s s.cur.sp g).held = none) ∧
     tr.agent ≠ 0 ∧ (tget p.csr 0x20 0).getLsbD 63 = true ∧ (getStream s s.cur.sp 3).st = .faulted) := by
  refine ⟨⟨rfl, rfl, rfl, rfl, rfl, ?_, rfl, by decide, by decide⟩, rfl, rfl, rfl, rfl, rfl, ?_, by decide, by decide +kernel, rfl⟩
  · intro g hg
    rcases g with _ | _ | g
    · exact absurd rfl hg
    · rfl
    · rfl
  · exact held_none _ (by decide)

/-- One access of handler 0 to SCRATCH of cluster 0, and the machine that holds only it. -/
def access (k : AKind) (n : Nat) (st : AStat) : Access :=
  { id := 1, grp := 1, kind := k, ptr := scratch 0, n := n, stat := st, key := some (2 ^ 49) }
def withAcc (s : State) (l : List Access) : State := { s with net := { s.net with acc := l }, sched := { s.sched with nextId := 9 } }

theorem witness_MemoryWordsIssueTheirAccess :
    let s := withRegs [(1, scratch 8), (2, 0x5000000000000000), (3, scratch (2 ^ 22 - 8))]
    inRange (reg s 1) (-8) ∧ reachable s (displaced (reg s 1) (-8)) 8 false 8 ∧ reachable s (displaced (reg s 1) (-8)) 1 true 1 ∧
    inRange (reg s 2) 0 ∧ reachable s (displaced (reg s 2) 0) 8 true 8 ∧ pSpace (displaced (reg s 2) 0) = 5 ∧
    inRange (reg s 3) 0 ∧ reachable s (displaced (reg s 3) 0) 8 false 8 ∧ reachable s (displaced (reg s 1) 0) 64 false 8 ∧
    reachable s (reg s 3) 8 true 8 ∧ reachable s (reg s 1) 4 false 4 ∧ faultDue s true .sc .pod = none ∧
    entryHome (curH s).xlat (reg s 2) 8 = none ∧ entryHome (some { pod := true, size := 2 ^ 16, wr := true }) (reg s 2) 8 = some (2 ^ 64) := by
  unfold inRange reachable; decide +kernel
theorem witness_MemoryWordsTrapBeforeAccess :
    let s := withRegs [(1, scratch 4), (2, 0x1000000000400000), (3, 0x5000000000000000)]
    let s1 := withSpan { span [(1, scratch 8)] with tenant := 1 }
    noTrap s s.cur.sp ∧ (getSpan s s.cur.sp).ten = true ∧ s.cur.h < 16 ∧ s.cur.h ≠ (getSpan s s.cur.sp).thnd ∧
    (getH s s.cur.sp (getSpan s s.cur.sp).thnd).st = .stopped ∧
    ¬ inRange (reg s 3) (-1) ∧ ptrOk (reg s 2) 1 = false ∧ ptrOk (reg s 1) 8 = true ∧ pOff (reg s 1) % 8 ≠ 0 ∧
    noTrap s1 s1.cur.sp ∧ ptrOk (reg s1 1) 8 = true ∧ pOff (reg s1 1) % 8 = 0 ∧ pSpace (reg s1 1) ≠ 4 ∧
    ownsOk s1 (curTenant s1) (reg s1 1) 8 true = false ∧
    (let s2 := withRegs [(1, scratch 8)]
     let f := updH s2 0 0 fun x => { x with podFault := some (.podTimeout, 5, true) }
     noTrap f f.cur.sp ∧ reachable f (reg f 1) 8 true 8 ∧ faultDue f true .rel .pod = some (.podTimeout, 5) ∧
     faultDue f false .sc .module = some (.podTimeout, 5)) := by
  refine ⟨noTrap_of _ _ rfl rfl (by decide), rfl, by decide, by decide, rfl, by unfold inRange; decide, by decide, by decide, by decide,
    noTrap_of _ _ rfl rfl (by decide), by decide, by decide, by decide, by decide,
    noTrap_of _ _ rfl rfl (by decide), by unfold reachable; decide, by decide, by decide⟩

theorem mayPerform_of (k : AKind) (n : Nat) (m : List Host.Cell) (h : isPoison (withRegs []) (2 ^ 49) n = false)
    (h1 : isSc (access k n .dispatched) = false) :
    MayPerform { withAcc (withRegs []) [access k n .dispatched] with mem := m } 1 (access k n .dispatched) (2 ^ 49) :=
  { here := rfl, dispatched := rfl
    turn := fun e he => by simp [aheadOf, withAcc, withRegs, withSpan, access] at he
    sc := fun h => by rw [h1] at h; cases h
    home := rfl, memory_ := .inl (by decide), sound := h, free := rfl }
/-- A read, a write, an atomic of each size, a counted wait that holds and one that does not. -/
theorem witness_AccessesPerformAtTheirHome :
    (∃ s a k, MayPerform s 1 a k ∧ a.kind = .read) ∧ (∃ s a k bs, MayPerform s 1 a k ∧ a.kind = .write bs ∧ bs.length = a.n) ∧
    (∃ s a k, MayPerform s 1 a k ∧ a.kind = .amo .add true 1 0 ∧ a.n = 8) ∧ (∃ s a k, MayPerform s 1 a k ∧ a.kind = .amo .cas false 1 0 ∧ a.n = 4) ∧
    (∃ s a k, MayPerform s 1 a k ∧ a.kind = .cwait .eq 0 ∧ a.n = 8 ∧ countHolds .eq (valueAt s 64 k 8) 0 = true) ∧
    (∃ s a k, MayPerform s 1 a k ∧ a.kind = .cwait .ne 0 ∧ a.n = 4 ∧ countHolds .ne (valueAt s 32 k 4) 0 = false) :=
  ⟨⟨_, access .read 8 .dispatched, _, mayPerform_of _ _ [] rfl rfl, rfl⟩,
   ⟨_, access (.write [1, 2]) 2 .dispatched, _, _, mayPerform_of _ _ [] rfl rfl, rfl, rfl⟩,
   ⟨_, access (.amo .add true 1 0) 8 .dispatched, _, mayPerform_of _ _ [(2 ^ 49, 255)] rfl rfl, rfl, rfl⟩,
   ⟨_, access (.amo .cas false 1 0) 4 .dispatched, _, mayPerform_of _ _ [] rfl rfl, rfl, rfl⟩,
   ⟨_, access (.cwait .eq 0) 8 .dispatched, _, mayPerform_of _ _ [] rfl rfl, rfl, rfl, rfl⟩,
   ⟨_, access (.cwait .ne 0) 4 .dispatched, _, mayPerform_of _ _ [] rfl rfl, rfl, rfl, rfl⟩⟩

/-- Handler 0 waits for access 1, which has performed with the data bs. -/
def served (i : Instr) (k : AKind) (bs : List Byte) : State :=
  withAcc (withSpan (spanH fun x => { x with op := some (.mem i 1), st := .blocked })) [{ access k bs.length .performed with data := bs }]
theorem wordServed_of (i : Instr) (k : AKind) (bs : List Byte) :
    WordServed (served i k bs) 0 0 i { access k bs.length .performed with data := bs } :=
  ⟨rfl, rfl, rfl, ⟨rfl, rfl, rfl, nofun⟩, rfl, ⟨rfl, nofun⟩⟩
theorem witness_CompletedAccessEndsItsWord (nx : Nx) (sc : Scope) :
    (∃ s a, WordServed s 0 0 (.ld nx plainMem) a ∧ a.kind = .read ∧ a.data.length = 2 ^ plainMem.sz.toNat) ∧
    (∃ s a bs, WordServed s 0 0 (.st nx plainMem) a ∧ a.kind = .write bs) ∧
    (∃ s a, WordServed s 0 0 (.fence nx .acq sc) a ∧ a.kind = .fence .acq) ∧
    (∃ s a, WordServed s 0 0 (.lds nx { plainLds with sd := 62, n1 := 1 }) a ∧ a.kind = .read ∧ a.data.length = 16) ∧
    (∃ s a, WordServed s 0 0 (.amoAdd nx plainAmo) a ∧ a.kind = .amo .add true 1 0 ∧ a.data.length = 8) ∧
    (∃ s a, WordServed s 0 0 (.amoCas nx { plainAmo with dbl := false } 4 2 true) a ∧ a.kind = .amo .cas false 1 0 ∧ a.data.length = 4) ∧
    (∃ s a, WordServed s 0 0 (.cwait nx 1 2 3 true .eq sc) a ∧ a.kind = .cwait .eq 0 ∧ (getSpan s 0).det = false) :=
  ⟨⟨_, _, wordServed_of _ .read (List.replicate 8 0), rfl, rfl⟩, ⟨_, _, _, wordServed_of _ (.write []) [], rfl⟩,
   ⟨_, _, wordServed_of _ (.fence .acq) [], rfl⟩, ⟨_, _, wordServed_of _ .read (List.replicate 16 1), rfl, rfl⟩,
   ⟨_, _, wordServed_of _ (.amo .add true 1 0) (List.replicate 8 0), rfl, rfl⟩,
   ⟨_, _, wordServed_of _ (.amo .cas false 1 0) (List.replicate 4 0), rfl, rfl⟩,
   ⟨_, _, wordServed_of _ (.cwait .eq 0) (List.replicate 8 0), rfl, rfl⟩⟩

theorem witness_dispatch :
    (let a := access .read 8 .queued
     let s := withAcc (withRegs []) [a]
     findAcc s 1 = some a ∧ a.phase = none ∧ a.posted = false ∧ isFence a.kind = false ∧ a.n ≠ 0 ∧ pSpace a.ptr ≠ 5 ∧ aheadOf s a = [] ∧
     s.net.acc.filter (fun b => b.grp == a.grp && b.port == a.port) = [a]) ∧
    (let a := { access (.fence .sc) 0 .queued with key := none, scope := .module }
     let s := withAcc (withRegs []) [a]
     findAcc s 1 = some a ∧ isFence a.kind = true ∧ aheadOf s a = [] ∧ s.net.acc.filter (fun b => b.grp == a.grp && b.port == a.port) = [a]) ∧
    (let e := { access .read 8 .dispatched with id := 0, grp := 0 }
     let a := { access (.write []) 0 .queued with ord := .rel, scope := .tile }
     let s := withAcc (withRegs []) [e, a]
     findAcc s 1 = some a ∧ e ∈ aheadOf s a ∧ e.grp ≠ a.grp ∧ isRel a = true ∧ isRead e.kind = true ∧ a.key ≠ none) := by decide +kernel
/-- A read of the last two bytes of an outstanding write of eight. -/
theorem witness_forward :
    let w := { access (.write [1, 2, 3, 4, 5, 6, 7, 8]) 8 .dispatched with id := 0, grp := 0 }
    let a := { access .read 2 .queued with ptr := scratch 6, key := some (2 ^ 49 + 6) }
    let s := withAcc (withRegs []) [w, a]
    findAcc s 1 = some a ∧ a.posted = false ∧ a.ord = .plain ∧ a.n ≠ 0 ∧ pSpace a.ptr ≠ 5 ∧ aheadOf s a = [w] ∧
    s.net.acc.filter (fun b => b.grp == a.grp && b.port == a.port) = [a] ∧ w.fault = none ∧ w.n = 8 ∧ w.ord ≠ .sc ∧ 2 ^ 49 ≤ 2 ^ 49 + 6 ∧
    2 ^ 49 + 6 + a.n ≤ 2 ^ 49 + w.n := by decide +kernel

theorem witness_fences :
    let f (k : FenceKind) (sc : Scope) : Access := { access (.fence k) 0 .dispatched with key := none, scope := sc }
    (curH (withRegs [])).podFault = none ∧
    (let a := f .ar .tile
     let s := withAcc (withRegs []) [a]
     findAcc s 1 = some a ∧ (∀ e ∈ aheadOf s a, overlap e a = false) ∧ isSc a = false) ∧
    (let a := f .sc .module
     let s := withAcc (withRegs []) [a]
     findAcc s 1 = some a ∧ (∀ e ∈ aheadOf s a, overlap e a = false) ∧ isSc a = true ∧ a.scope = .module ∧ s.net.scNode = 4 * portDie s a.port ∧ s.net.scGrants < 8 ∧
     a ∈ s.net.acc ∧ scNodeOf s a.port a.key = s.net.scNode ∧ { s with net := { s.net with scNode := 15 } }.net.scNode ≠ 4 * portDie s a.port) ∧
    (let s := { withRegs [] with net := { scGrants := 8, scNode := 15 } }
     8 ≤ s.net.scGrants) ∧
    (let a := f .sc .die
     let s := withAcc (withRegs []) [a]
     let z : State := { s with net := { s.net with serial := [(0, 9)] } }
     findAcc s 1 = some a ∧ isSc a = true ∧ a.scope ≠ .module ∧ a.scope ≠ .pod ∧ tget s.net.serial (portDie s a.port) 0 = 0 ∧
     findAcc z 1 = some a ∧ tget z.net.serial (portDie z a.port) 0 ≠ 0 ∧ tget z.net.serial (portDie z a.port) 0 ≠ a.id + 1) := by decide +kernel
/-- A span with nothing outstanding, and one with a read of SCRATCH under way. -/
theorem witness_drain :
    (let s := withRegs []
     (curH s).podFault = none ∧ ¬ drainHeld s s.cur.sp .module ((latchMark s).getD s.sched.nextId)) ∧
    (let s := withAcc (withRegs []) [access .read 8 .dispatched]
     drainHeld s s.cur.sp .module ((latchMark s).getD s.sched.nextId)) := by
  refine ⟨⟨rfl, ?_⟩, .inl ⟨_, List.mem_cons_self .., rfl, nofun, by decide, rfl, .inl rfl⟩⟩
  rintro (⟨a, ha, -⟩ | ⟨x, hx, -⟩)
  · exact absurd (show a ∈ ([] : List Access) from ha) (List.not_mem_nil)
  · exact absurd (show x ∈ ([] : List (Nat × Stream)) from hx) (List.not_mem_nil)
/-- Barrier words: the last arrival of a phase, an arrival that would be one too many, DUE at its ends, PH for and against. -/
theorem witness_barriers :
    let s (m : List Host.Cell) : State := { withRegs [(1, scratch 0), (2, 1), (3, 2047), (4, BitVec.ofInt 64 (1 - 2 ^ 40)), (5, 0xFFFFFFFFFF), (6, 0x8000000000000000)] with mem := m }
    let k : Nat := 2 ^ 49
    namesBarrier (s []) (reg (s []) 1) k ∧ (getSpan (s []) 0).det = false ∧ relWaits (withAcc (s []) [access .read 8 .dispatched]) .cluster = true ∧
    1 ≤ (reg (s []) 2).toNat ∧ (reg (s []) 3).toNat ≤ 2047 ∧ -((2 ^ 40 : Nat) : Int) < (reg (s []) 4).toInt ∧
    (reg (s []) 5).toInt < ((2 ^ 40 : Nat) : Int) ∧ relWaits (s []) .cluster = false ∧ (curH (s [])).podFault = none ∧
    barrierAfter (valueAt (s [(k + 6, 8)]) 64 k 8) 1 0 = (0x8008000000000000, true) ∧ (barrierAfter (valueAt (s []) 64 k 8) 1 0).1 = 0x4000000000000000 ∧
    (valueAt (s []) 64 k 8).getLsbD 63 ≠ (reg (s []) 6).getLsbD 63 ∧ (valueAt (s []) 64 k 8).getLsbD 63 = (reg (s []) 2).getLsbD 63 ∧
    (∀ m ∈ [0, 1], ({ s [] with cur := { (s []).cur with latch := some (scratch 0, 0, 0, m) } } : State).cur.latch = some (scratch 0, 0, 0, m)) := by
  unfold namesBarrier; decide +kernel
theorem witness_barrierUpdate :
    let b : BarUpd := { id := 4, ptr := scratch 0, delta := -8, arrive := true }
    let s := { withRegs [] with net := { bars := [{ b with id := 3, sp := 7 }, b] } }
    s.net.bars.find? (fun c => c.id == b.id) = some b ∧ (∀ c ∈ s.net.bars.takeWhile (fun c => c.id != b.id), ¬ (c.sp = b.sp ∧ c.sid = b.sid)) ∧
    (getSpan s b.sp).det = false ∧ barKey b.ptr (regionRanks (getSpan s b.sp)) = some (2 ^ 49) ∧ isPoison s (2 ^ 49) 8 = false := by decide +kernel

/-- Page tables of tenant 0: root at 0x4000, tables at 0x10000, 0x20000 and 0x30000, virtual page 0 at 0x40000. `top` is the last byte of the
entries of the levels 2, 1 and 0: 0x80 leads on, 0xE0 is a leaf with WR, 0xC0 one without, 0 is absent. -/
def paged (t2 t1 t0 : Byte) : State :=
  { withRegs [] with
    mem := [(0x4002, 1), (0x4007, 0x80), (0x10002, 2), (0x10007, t2), (0x20002, 3), (0x20007, t1), (0x30002, 4), (0x30007, t0)].filter (·.2 != 0)
    ctl := { (withRegs []).ctl with tenants := [(0, (1 : Wide) <<< 319 + 0x4000)], windows := [(0, BitVec.ofNat 128 (2 ^ 59 + 2 ^ 96 * 2 ^ 16))] } }
theorem witness_walk :
    let s := paged 0x80 0x80 0xE0
    (tableOwn s 0 0x4000 3 ∧ tableOwn s 0 0x10000 2 ∧ tableOwn s 0 0x20000 1 ∧ tableOwn s 0 0x30000 0) ∧
    ¬ tableOwn { s with ctl := { s.ctl with windows := [] } } 0 0x4000 3 ∧
    (tw s 0 0).toNat / 2 ^ 14 % 2 ^ 38 * 16384 = 0x4000 ∧ readable s 0x4000 0 3 ∧ leadsTo (pteAt s 0x4000 0 3) 4096 ∧ readable s 0x10000 0 2 ∧
    leadsTo (pteAt s 0x10000 0 2) 4096 ∧ readable s 0x20000 0 1 ∧ leadsTo (pteAt s 0x20000 0 1) 256 ∧ readable s 0x30000 0 0 ∧
    mapsPage s 0 (pteAt s 0x30000 0 0) (2 ^ 16) ∧ walk s 0 0 true = .page 0x40000 (2 ^ 16) true ∧
    pteAt s 0x4000 (2 ^ 39) 3 / 2 ^ 63 % 2 = 0 ∧ pteAt s 0x10000 (2 ^ 30) 2 / 2 ^ 63 % 2 = 0 ∧ pteAt s 0x20000 (2 ^ 21) 1 / 2 ^ 63 % 2 = 0 ∧
    pteAt s 0x30000 (2 ^ 16) 0 / 2 ^ 63 % 2 = 0 ∧
    mapsPage { s with mem := [(0x4002, 1), (0x4007, 0x80), (0x10007, 0xC0)] } 0 (pteAt { s with mem := [(0x10007, 0xC0)] } 0x10000 0 2) (2 ^ 30) ∧
    mapsPage s 0 (pteAt { s with mem := [(0x20002, 0x20), (0x20007, 0xE0)] } 0x20000 0 1) (2 ^ 21) := by
  unfold tableOwn readable leadsTo mapsPage; decide +kernel
theorem witness_pageWalks :
    let a := { access (.write [7]) 1 .walk with ptr := 0xFFFF, key := none }
    let b := { a with stat := .walking }
    let s := paged 0x80 0x80 0xE0
    (let u := { withAcc s [a] with net := { (withAcc s [a]).net with walkQ := [1] } }
     walksOf u 0 < 128 ∧ walkQueue u 0 = [a] ∧ portTenant u a.port < 16) ∧
    128 ≤ walksOf (withAcc s (List.replicate 128 b)) 0 ∧ a.tag ≠ .probe ∧ a.posted = false ∧
    (let u := withAcc s [b]
     findAcc u 1 = some b ∧ findAcc (withAcc s [{ b with tag := .probe }]) 1 = some { b with tag := .probe } ∧ (getSpan u 0).live = true ∧ (getL u (getSpan u 0).slot).sst ≠ .killing ∧
     walk u (getSpan u 0).tenant.toNat (pOff b.ptr) (isWrite b.kind) = .page 0x40000 (2 ^ 16) true ∧
     pOff b.ptr + b.n ≤ pOff b.ptr / 2 ^ 16 * 2 ^ 16 + 2 ^ 16) ∧
    walk (withAcc (paged 0x80 0x80 0xC0) [b]) 0 (pOff b.ptr) (isWrite b.kind) = .fail ∧
    walk (withAcc (paged 0x80 0x80 0) [b]) 0 (pOff b.ptr) (isWrite b.kind) = .absent ∧
    walk { withAcc s [b] with poison := [0x20000 / 64] } 0 (pOff b.ptr) (isWrite b.kind) = .poison := by decide +kernel
/-- INVAL of tenant 0 is BUSY over the page at 0x10000; an access to it is under way, or one that ends just before it. -/
theorem witness_invalidation :
    let s := { withRegs [] with ctl := { (withRegs []).ctl with tenants := [(0, ((2 ^ 63 + 0x10000 : Nat) : Wide) <<< 384)] } }
    let size := 2 ^ ((tw s 0 6).toNat % 2 ^ 6) * 65536
    let va := (tw s 0 6).toNat / 2 ^ 16 % 2 ^ 34 * 65536 / size * size
    let a := { access .read 8 .dispatched with ptr := 0x10000 }
    let b := { access .read 8 .dispatched with ptr := 0xFFF8 }
    (tw s 0 6).getLsbD 63 = true ∧ size = 65536 ∧ va = 65536 ∧
    (a ∈ (withAcc s [a]).net.acc ∧ portTenant s a.port = 0 ∧ pSpace a.ptr = 0 ∧ pOff a.ptr < va + size ∧ va < pOff a.ptr + a.n) ∧
    (∀ x ∈ (withAcc s [b]).net.acc, portTenant s x.port = 0 → pSpace x.ptr = 0 → x.stat = .translated ∨ x.stat = .dispatched ∨ x.stat = .walking →
      pOff x.ptr + x.n ≤ va ∨ va + size ≤ pOff x.ptr) ∧ (∀ p ∈ s.spans, ∀ x ∈ p.2.hs, x.2.attHeld = []) := by decide +kernel
/-- A peer access that is translated, that has no answer, that is a counted wait. -/
theorem witness_peers (i : Instr) :
    let a := { access .read 8 .walking with ptr := 0x5000000000000000, key := none }
    let d := { access .read 8 .dispatched with ptr := 0x5000000000000000, key := some (2 ^ 64) }
    let c := { d with kind := .cwait .eq 0, tries := 1 }
    (let s := withAcc (withRegs []) [a]
     findAcc s 1 = some a ∧ pSpace a.ptr = 5 ∧ isFence a.kind = false ∧ (getSpan s 0).live = true ∧ (getL s (getSpan s 0).slot).sst ≠ .killing ∧
     a.tag ≠ .probe ∧ pOff a.ptr + a.n ≤ pOff a.ptr / 2 ^ 16 * 2 ^ 16 + 2 ^ 16) ∧
    (let s := withAcc { withSpan (spanH fun x => { x with op := some (.mem i 1), st := .blocked }) with cycle := 110000 } [d]
     findAcc s 1 = some d ∧ now s ≥ d.issued + podTo s (getSpan s 0).tenant.toNat ∧
     s.net.acc.filter (fun b => b.grp == d.grp && b.port == d.port) = [d] ∧ (getH s 0 0).op = some (.mem i d.grp) ∧ noTrap s 0 ∧
     (getSpan s 0).ten = true ∧ 0 ≠ (getSpan s 0).thnd ∧ (getH s 0 (getSpan s 0).thnd).st = .stopped) ∧
    (let s := withAcc { withRegs [] with cycle := 1024 } [c]
     findAcc s 1 = some c ∧ c.key = some (2 ^ 64) ∧ c.n = 8 ∧ c.tries ≠ 0 ∧ c.issued + 1024 ≤ now s) := by
  refine ⟨by decide +kernel, ⟨rfl, ?_, rfl, rfl, noTrap_of _ _ rfl rfl ?_, rfl, nofun, rfl⟩, by decide +kernel⟩
  · show 0 + podTo State.reset 0 ≤ 110000
    decide +kernel
  · intro x hx
    simp [withAcc, withSpan, spanH, getSpan, tget] at hx
    rcases hx with rfl | rfl <;> rfl

/-- Bytes of SCRATCH of cluster 0, by offset. -/
def bytesAt (l : List (Nat × Byte)) (s : State) : State := { s with mem := (l.filter (·.2 != 0)).map fun c => (2 ^ 49 + c.1, c.2) }
/-- The read succeeds and what it gives satisfies q. -/
def okAnd {ε α : Type} (r : Except ε α) (q : α → Bool) : Bool := match r with | .ok a => q a | .error _ => false
theorem okAnd_spec {ε α : Type} (r : Except ε α) (q : α → Bool) (h : okAnd r q = true) : ∃ a, r = .ok a ∧ q a = true := by
  cases r with
  | error e => cases h
  | ok a => exact ⟨a, rfl, h⟩

/-- A shape of one dimension with 4 positions, as shape 0 of a table at scratch 0x100, and a descriptor at scratch 0 with BASE scratch 0x1000. -/
def streamState (p : Span) : State :=
  bytesAt [(1, 0x10), (7, 0x10), (8, 2), (0x106, 1), (0x10D, 4)] (withSpan { p with shpt := scratch 0x100 })
theorem witness_sbind :
    let o : SbindOp := { plainBind with sa := 1 }
    let p := span [(1, scratch 0)]
    let z (x : Stream) : State := streamState { p with streams := [(0, x)] }
    (getStream (z { st := .idle, kind := 1 }) 0 o.sid.toNat).st ≠ .free ∧
    (let s := streamState { p with streams := [(7, { st := .done, kind := 0, port := 0 })] }
     (getStream s 0 o.sid.toNat).st = .free ∧ ∃ y ∈ (getSpan s 0).streams, y.2.st ≠ .free ∧ y.2.kind = kindCode o.kind o.out ∧ y.2.port = o.port.toNat) ∧
    (let s := streamState p
     (getStream s 0 o.sid.toNat).st = .free ∧ (getSpan s 0).streams = [] ∧
     okAnd (hRead s (reg s o.sa) 64 8) (fun r => sbindBad (getSpan s 0) o (wordsOf 8 r.1) == none &&
       okAnd (shapeOf r.2 o.shp.toNat) (fun _ => true) &&
       barOk (getSpan s 0) ((nth (wordsOf 8 r.1) 6 0).toNat / 2 ^ 58) (nth (wordsOf 8 r.1) 7 0)) = true) := by decide +kernel
theorem witness_jobWords :
    let s (x : Stream) (bar : Byte) : State :=
      bytesAt [(1, 0x10), (7, 0x10), (9, 0x20), (15, 0x10), (24, 64), (32, 64), (41, bar), (47, bar)] (withSpan { span [(1, scratch 0)] with streams := [(9, x)] })
    let x (z : State) := getStream z 0 9
    (let z := s { st := .idle, kind := 4 } 0
     (x z).st ≠ .free ∧ (x z).kind ≤ 4) ∧ (x (s { st := .faulted, kind := 5 } 0)).st = .faulted ∧
    (let z := s { st := .active, kind := 5, jobs := List.replicate 4 {} } 0
     ¬ (((x z).st ≠ .free ∧ (x z).kind ≤ 4) ∨ (x z).st = .faulted) ∧ 4 ≤ (x z).jobs.length) ∧
    ∀ bar ∈ [(0 : Byte), 0x10], ∀ y ∈ [({} : Stream), { st := .active, kind := 5, jobs := List.replicate 3 {} }],
      let z := s y bar
      ¬ (((x z).st ≠ .free ∧ (x z).kind ≤ 4) ∨ (x z).st = .faulted) ∧ (x z).jobs.length < 4 ∧
      okAnd (hRead z (reg z 1) 64 8) (fun r => jobBad (getSpan z 0) (wordsOf 8 r.1) == none && (nth (wordsOf 8 r.1) 5 0 == 0) == (bar == 0) &&
        barOk (getSpan z 0) ((nth (wordsOf 8 r.1) 4 0).toNat / 2 ^ 58) (nth (wordsOf 8 r.1) 5 0)) = true := by decide +kernel
theorem witness_streamWords :
    let s (x : Stream) : State := streamState { span [(1, scratch 0x4000), (2, 0x21)] with streams := [(3, x)] }
    let x (z : State) := getStream z 0 3
    (let z := s { st := .active, kind := 4, queue := [] }
     (x z).st ≠ .free ∧ (x z).kind = 4 ∧ (x z).queue = []) ∧
    (let z := s { st := .active, kind := 4, queue := [.word 5, .empty] }
     (x z).queue = .word 5 :: [.empty]) ∧
    (let z := withSpan (span [])
     (getStream z 0 3).st = .free) ∧
    (let z := withAcc (s { st := .active, kind := 0, pass := true }) [{ access .read 8 .queued with port := .stream 0 3 }]
     (x z).st ≠ .free ∧ (∀ a ∈ z.net.acc, a.port = .stream z.cur.sp 3 → isQueued a = true ∧ a.tag = .none_) ∧
     (∀ j ∈ (x z).jobs, j.flight = []) ∧ (x z).kind = 0 ∧ (x z).pass = true) ∧
    (let a := { access (.write [1]) 1 .dispatched with port := .stream 0 3 }
     let z := withAcc (s { st := .active, kind := 1, pass := true }) [a]
     z.net.acc = [a] ∧ isWrite a.kind = true ∧ a.fault = none) ∧
    okAnd (shapeOf (s {}) 0) (fun x => x.1.ext == [4]) = true ∧
    (∀ k ∈ [1, 2, 4], ∀ st ∈ [SState.idle, .done, .active, .faulted],
      let z := s { st := st, kind := k }
      (x z).st ≠ .free ∧ (x z).st = st ∧ (x z).kind = k) ∧
    (let z := { s { st := .active, kind := 2 } with tiles := [(0, { cfg := [(9 * 32 + 1, 2 ^ 9)] })] }
     let d := bufDepth (getTile z (ringTile (getSpan z 0) (x z))) (ringBuf (x z))
     d = 2 ∧ (reg z 2).toNat % 16 = 1 ∧ (reg z 2).toNat / 16 = 2 ∧ (reg z 0).toNat = 0) ∧
    (let z := { s { st := .active, kind := 2, dmin := 1, dmax := 4, depth := 2, winN := 3, winLat := 900, winUsed := 8 } with cycle := 1024 }
     flows (getSpan z 0) = true ∧ (x z).winStart + 1024 ≤ now z ∧ (x z).dmax ≠ 0 ∧ (x z).winN ≠ 0) ∧
    (let z := { s { st := .active, kind := 2 } with cycle := 1024 }
     flows (getSpan z 0) = true ∧ (x z).winStart + 1024 ≤ now z ∧ (x z).dmax = 0) := by decide +kernel

/-- A stream in its pass over a shape of four positions, the last of which is masked. -/
def passing (kind : Nat) (x : Stream) : Stream :=
  { x with st := .active, kind := kind, pass := true, fmt := 0x22, shape := { order := [0], ext := [4], pad := [1] }, desc := [scratch 0x1000, 2] }
def withStream (x : Stream) (p : Span → Span) : State := withSpan (p { span [] with streams := [(3, x)] })
theorem witness_portIn :
    let s (kind : Nat) (x : Stream) := withStream (passing kind x) id
    let x (z : State) := getStream z 0 3
    (let z := s 0 {}
     (x z).shape.ext.length ≤ 4 ∧ wordBytes z (getSpan z 0) (x z) ≠ 0 ∧ flows (getSpan z 0) = true ∧ (x z).next < shapeCount (x z).shape ∧
     (x z).next < (x z).doneP + 64 ∧ shapeMasked (x z).shape (x z).next = false ∧ okAnd (posPtr z (getSpan z 0) (x z) (x z).next) (fun _ => true) = true) ∧
    (let z := s 0 { next := 3 }
     (x z).next < shapeCount (x z).shape ∧ shapeMasked (x z).shape (x z).next = true) ∧
    (let z := s 4 { queue := List.replicate 7 .empty }
     tget (x z).resp (x z).doneP none = none ∧ (x z).queue.length + ((x z).next - (x z).doneP) < 8 ∧ (x z).next < shapeCount (x z).shape ∧
     shapeMasked (x z).shape (x z).next = false ∧ okAnd (posPtr z (getSpan z 0) (x z) (x z).next) (fun _ => true) = true) ∧
    (let z := s 4 { next := 3, doneP := 2, resp := [(2, some (.word 9))] }
     tget (x z).resp (x z).doneP none = some (.word 9) ∧ (x z).doneP + 1 ≠ shapeCount (x z).shape) ∧
    (let z := withStream (passing 0 { next := 4, doneP := 3, resp := [(3, some .empty)] }) fun p => { p with fi := [(0, [.word 1])] }
     (tget (getSpan z 0).fi (x z).port []).length < 2 ∧ (getSpan z 0).fiDrain.contains (x z).port = false ∧ (x z).doneP ≠ shapeCount (x z).shape ∧ tget (x z).resp (x z).doneP none = some .empty) ∧
    (let z := s 0 { next := 4, doneP := 4 }
     (x z).doneP = shapeCount (x z).shape ∧ (tget (getSpan z 0).fi (x z).port []).length < 2) := by decide +kernel
theorem witness_portOut :
    let s (x : Stream) (l : List Token) := withStream (passing 1 x) fun p => { p with fo := [(0, l)] }
    let x (z : State) := getStream z 0 3
    (let z := s {} [.word 7, .drain]
     flows (getSpan z 0) = true ∧ (x z).kind = 1 ∧ (x z).pass = true ∧ (x z).st = .active ∧ (x z).resp = [] ∧
     tget (getSpan z 0).fo (x z).port [] = .word 7 :: [.drain] ∧ (x z).next < shapeCount (x z).shape ∧ shapeMasked (x z).shape (x z).next = false ∧
     wordBytes z (getSpan z 0) (x z) ≠ 0 ∧ okAnd (posPtr z (getSpan z 0) (x z) (x z).next) (fun _ => true) = true) ∧
    (let z := s { next := 3 } [.word 7]
     shapeMasked (x z).shape (x z).next = true ∧ (x z).next < shapeCount (x z).shape) ∧
    (let z := s { next := 3, doneP := 3 } [.drain]
     tget (getSpan z 0).fo (x z).port [] = .drain :: [] ∧ ∀ a ∈ z.net.acc, a.port = .stream 0 3 → isFence a.kind = true) := by decide +kernel
/-- A tile whose buffer 0 has two entries of 64 bytes. -/
def ringed (full : Tab Bool) (kind : Nat) (x : Stream) : State :=
  { withStream (passing kind x) id with tiles := [(0, { cfg := [(9 * 32 + 1, 2 ^ 9)], full := full })] }
theorem witness_ring :
    let x (z : State) := { getStream z 0 3 with desc := [scratch 0x1000, 64] }
    (∀ n ∈ [0, 1], ∀ full ∈ [false, true],
      let z := ringed [(n, full)] (if full then 3 else 2) { next := n }
      let g := ringTile (getSpan z 0) (getStream z 0 3)
      let b := ringBuf (getStream z 0 3)
      let d := bufDepth (getTile z g) b
      (getSpan z 0).det = false ∧ d = 2 ∧ (getStream z 0 3).stage = [] ∧ (getStream z 0 3).next + 1 < shapeCount (getStream z 0 3).shape ∧
      (getStream z 0 3).doneP + 1 < shapeCount (getStream z 0 3).shape ∧ (∀ a ∈ z.net.acc, a.port = .stream 0 3 → a.tag ≠ .pos n) ∧
      flows (getSpan z 0) = true ∧ isFull (getTile z g) b (n % d) = full ∧ 0 < ringDepth z (getSpan z 0) (getStream z 0 3) ∧
      isPoison z (keyTile g 0) 64 = false ∧ shapeMasked (getStream z 0 3).shape n = false ∧
      okAnd (posPtr z (getSpan z 0) (x z) n) (fun _ => true) = true) ∧
    (let z := withStream { passing 2 { next := 1 } with shape := { order := [0], ext := [4], pad := [3] } } id
     (getStream z 0 3).next + 1 < shapeCount (getStream z 0 3).shape ∧ shapeMasked (getStream z 0 3).shape (getStream z 0 3).next = true) := by decide +kernel

/-- A gather of two rows of 64 bytes from scratch 0x1000 with stride 128 to scratch 0x2000. -/
def gather (j : Job) : Job := { j with desc := [scratch 0x1000, scratch 0x2000, 0, 128 * 2 ^ 32 + 64, 2] }
def withJob (j : Job) : State := withSpan { span [] with streams := [(9, { st := .active, kind := 5, jobs := [gather j, {}] })] }
theorem witness_jobs :
    (let z := withJob {}
     flows (getSpan z 0) = true ∧ (getStream z 0 9).st = .active ∧ (getStream z 0 9).jobs = gather {} :: [{}] ∧ (gather {}).started = false ∧
     (gather {}).err = none ∧ (getStream z 0 9).cancel = false) ∧
    (let j := gather { started := true, issued := 1, bmp := 1 }
     let z := withJob j
     (getStream z 0 9).jobs = j :: [{}] ∧ j.issued < jN j ∧ j.bmp.getLsbD j.issued = false ∧
     (∀ a ∈ z.net.acc, a.port = .stream 0 9 → isFence a.kind = false) ∧
     okAnd (jobIndex z 0 9 j j.issued) (fun i => i.1 == 1 && okAnd (jobPtrs j j.issued i.1) (fun p => p.1 == scratch 0x1080)) = true) ∧
    (let j := gather { started := true, issued := 1, flight := [(0, 0)], ptrs := [(0, (scratch 0x1000, scratch 0x2000))] }
     let z := withJob j
     j.redo = [] ∧ (getStream z 0 9).reads = [] ∧ z.net.acc = [] ∧ (getSpan z 0).det = false ∧ keyOf (scratch 0x1000) = some (2 ^ 49 + 0x1000) ∧ keyOf (scratch 0x2000) = some (2 ^ 49 + 0x2000) ∧
     pSpace (scratch 0x1000) ≠ 4 ∧ ptrOk (scratch 0x1000) (jRb j) = true ∧ ptrOk (scratch 0x2000) (jRb j) = true ∧
     ownsOk z (getSpan z 0).tenant.toNat (scratch 0x1000) (jRb j) false = true ∧ ownsOk z (getSpan z 0).tenant.toNat (scratch 0x2000) (jRb j) true = true ∧
     isPoison z (2 ^ 49 + 0x1000) (jRb j) = false ∧ isPoison z (2 ^ 49 + 0x2000) (jRb j) = false ∧
     pOff (scratch 0x1000) % jAlign (jRb j) = 0 ∧ pOff (scratch 0x2000) % jAlign (jRb j) = 0 ∧
     (List.range 64).countP (fun i => j.bmp.getLsbD i || decide (i = 0)) ≠ jN j) := by decide +kernel
/-- R266: a write of element 0 faults while element 1 is in flight: the freeze waits for element 1, and the bitmap
then holds its bit. -/
theorem test_job_fault_waits :
    let w (i : Nat) : Access :=
      { access (.write (List.replicate 64 1)) 64 .performed with id := 5 + i, grp := 5 + i, port := .stream 0 9, tag := .job i i, ptr := scratch (0x2000 + 64 * i) }
    let z := withAcc (withJob { started := true, issued := 2, flight := [(0, 0), (1, 1)], ptrs := [(0, (scratch 0x1000, scratch 0x2000)), (1, (scratch 0x1080, scratch 0x2040))] })
      [{ w 0 with fault := some .ue }, w 1]
    let a := after (exec (.accessComplete 5) z)
    let b := after (exec (.jobElementPerform 0 9 0 1) (after (exec (.accessComplete 6) a)))
    (getSpan (freezeDue a 0) 0).frozen = false ∧ (getStream a 0 9).st = .active ∧ (getSpan (freezeDue b 0) 0).frozen = true ∧ (getStream b 0 9).st = .faulted ∧
    ((getStream b 0 9).jobs.map (·.bmp)) = [2, 0] := by decide +kernel
theorem witness_sfence (nx : Nx) :
    let tok : Access := { id := 1, grp := 1, port := .stream 0 4, kind := .fence .ar }
    (curH (withRegs [])).podFault = none ∧ relWaits (withRegs []) .die = false ∧ (getStream (withRegs []) 0 4).st = .free ∧
    relWaits (withAcc (withRegs []) [access .read 8 .dispatched]) .die = true ∧
    (let s := withAcc { withSpan { spanH fun x => { x with op := some (.sfence nx 3 4 1), st := .blocked } with
        streams := [(4, { st := .active, kind := 5, jobs := [gather {}] })] } with cycle := 1 } [tok]
     (getH s 0 0).op = some (.sfence nx 3 4 1) ∧ findAcc s 1 = some tok ∧ (getStream s 0 4).st ≠ .faulted ∧ (getStream s 0 4).st ≠ .free ∧
     (getStream s 0 4).st ≠ .done ∧ (∀ j ∈ (getStream s 0 4).jobs, j.flight = []) ∧
     ∀ e ∈ aheadOf s tok, isRead e.kind = false ∧ writeIn s e tok.scope = false) := by
  refine ⟨rfl, by decide +kernel, rfl, by decide +kernel, rfl, rfl, nofun, nofun, nofun, ?_, ?_⟩
  · intro j hj
    simp [getStream, getSpan, withAcc, withSpan, tget] at hj
    subst hj; rfl
  · intro e he
    simp [aheadOf, withAcc] at he

/-- A span whose tree is t. -/
def withTree (t : Tree) : State := streamState { span [(1, 0x0101), (2, 0x10101)] with tree := t, ncfg := 2 }
def leafAt (x : Nat) (par : Option Nat) : Node := { parent := par, kind := .leaf true 0, rect := { x0 := x, h := 1, w := 1 } }
theorem witness_declare :
    let z := withTree {}
    let t : Tree := { nodes := [{ kind := .overlap 2, rect := { h := 4, w := 4 } }, leafAt 0 (some 0), leafAt 1 (some 0)], opened := [0] }
    let y := withTree t
    let two : Tree := { nodes := [{ kind := .chain, rect := { h := 4, w := 4 } }, { kind := .chain, parent := some 0, rect := { h := 4, w := 4 } }, leafAt 0 (some 1)], opened := [1, 0] }
    z.cur.latch = none ∧ z.cur.h = 0 ∧ rectOf (getSpan z 0) (reg z 1) = some { h := 1, w := 1 } ∧ okAnd (shapeOf z 0) (fun x => shapeCount x.1 == 4) = true ∧
    (1 : BitVec 8).toNat < (getSpan z 0).ncfg ∧ (getSpan z 0).tree.opened = [] ∧ (getSpan z 0).tree.running = false ∧
    (getSpan (withTree { running := true }) 0).tree.running = true ∧ rectOf (getSpan y 0) (reg y 2) = some { x0 := 1, h := 1, w := 1 } ∧ (getSpan y 0).tree.opened ≠ [] ∧
    t.nodes.length < 64 ∧ rectIn { x0 := 1, h := 1, w := 1 } (nodeAt t 0).rect = true ∧ (childrenOf t 0).length < 16 ∧ t.opened.length < 8 ∧
    (getSpan y 0).tree.opened = 0 :: [] ∧ childrenOf t 0 ≠ [] ∧
    (∀ a ∈ childrenOf t 0, ∀ b ∈ childrenOf t 0, a = b ∨ rectDisjoint (nodeAt t a).rect (nodeAt t b).rect = true) ∧
    okAnd (treeWords y 0 (getSpan y 0).tree) (fun ws => !portClash y (getSpan y 0) (getSpan y 0).tree ws) = true ∧
    (getSpan (withTree two) 0).tree.opened = 1 :: [0] ∧ childrenOf two 1 ≠ [] ∧ (nodeAt two 1).kind = .chain := by decide +kernel
def oneLeaf (f : Node → Node) : Tree := { nodes := [f (leafAt 0 none)], running := true }
theorem witness_leafStart : LeafTurn (withTree (oneLeaf id)) 0 0 :=
  ⟨by decide, by decide, by decide +kernel, by decide +kernel, by decide +kernel, by decide, by decide, by decide +kernel,
   .inr (by
    obtain ⟨ws, h, -⟩ := okAnd_spec (treeWords (withTree (oneLeaf id)) 0 (getSpan (withTree (oneLeaf id)) 0).tree) (fun _ => true) (by decide +kernel)
    refine ⟨ws, h, fun j hj _ hc => ?_⟩
    obtain rfl : j = 0 := by change j < 1 at hj; omega
    exact absurd hc (by decide))⟩
theorem witness_sequencer :
    let z : State := { withTree (oneLeaf fun x => { x with running := true, started := 1 }) with tiles := [(0, { leaf := some (0, 0), cfg := [(10 * 32, 2 ^ 11)] })] }
    ∀ q ∈ [0, 1], (getTile z 0).leaf = some (0, 0) ∧ (getSpan z 0).live = true ∧ (getSpan z 0).frozen = false ∧ (getSpan z 0).ended = false ∧
      (getSpan z 0).saved = false ∧ 0 < (getSpan z 0).tree.nodes.length ∧ q ≤ shapeCount (nodeAt (getSpan z 0).tree 0).shape ∧
      cfgb (getTile z 0) 10 0 11 11 = 1 ∧ ∀ k < 4, canEmit z 0 0 (0x38 + k) = true := by decide +kernel
theorem witness_leafEnd :
    let z : State := { withSpan { spanH fun x => { x with op := some (.tree .next), st := .blocked } with
      tree := oneLeaf fun x => { x with running := true, started := 1, seq := [(0, 3)] } } with tiles := [(0, { leaf := some (0, 0) })] }
    let x := nodeAt (getSpan z 0).tree 0
    x.running = true ∧ isLeafNode x = true ∧ (∀ g ∈ rectTiles (getSpan z 0) x.rect, tileDrained z x g = true) ∧ (getSpan z 0).tree.nodes = [x] ∧
    (getSpan z 0).tree.running = true ∧ (getSpan z 0).tree.stopped = false ∧ (getSpan z 0).quiesced = false ∧ (getH z 0 0).op = some (.tree .next) ∧
    (∀ a ∈ z.net.acc, portSpan z a.port = 0 → a.phase ≠ none → isWrite a.kind = false) ∧ ∀ y ∈ (getSpan z 0).streams, y.2.pass = false := by
  refine ⟨rfl, rfl, fun g hg => ?_, rfl, rfl, rfl, rfl, rfl, ?_, ?_⟩
  · obtain rfl : g = 0 := by
      have : rectTiles (getSpan (withTree {}) 0) (leafAt 0 none).rect = [0] := by decide
      change g ∈ rectTiles (getSpan (withTree {}) 0) (leafAt 0 none).rect at hg
      rw [this] at hg
      exact List.mem_singleton.mp hg
    rfl
  · intro a ha; cases ha
  · intro y hy; cases hy

/-- Configuration 0 is the full stream RESET, END at scratch 0x40; its descriptor stands at scratch 0. -/
theorem witness_configuration :
    let z := bytesAt [(0, 0x40), (7, 0x10), (12, 2), (0x42, 0x3E), (0x44, 0xE0), (0x45, 0x13), (0x46, 0x3E)]
      (withSpan { spanH fun x => { x with op := some (.cfg .next true 0x0101 0 (scratch 0x40) 2), st := .blocked } with cfgt := scratch 0 })
    let p := getSpan z 0
    let q : Rect := { h := 1, w := 1 }
    p.live = true ∧ p.ended = false ∧ p.saved = false ∧ p.starting = false ∧ (getH z 0 0).op = some (.cfg .next true 0x0101 0 (scratch 0x40) 2) ∧
    rectOf p 0x0101 = some q ∧ rectBusy z p q = false ∧ (0 : BitVec 8).toNat < (curSpan z).ncfg ∧
    okAnd (readDesc z p (curPort z) 0) (fun d => d == (scratch 0x40, 2)) = true ∧
    okAnd (readCmds z p (.handler 0 0) (scratch 0x40) 2) (fun ws => okAnd (loadWords z 0 q 0 .full ws) fun r => r.2 == ws) = true := by
  refine ⟨rfl, rfl, rfl, rfl, rfl, rfl, rfl, by decide, ?_⟩
  decide +kernel
theorem witness_clear :
    (let s := withRegs [(1, 0x0101)]
     rectOf (curSpan s) (reg s 1) = some { h := 1, w := 1 } ∧ reg s 0 = 0 ∧ (rectOf (curSpan s) (reg s 0)).isSome = true ∧
     rectBusy s (curSpan s) { h := 4, w := 4 } = false) ∧
    ∀ cl : BitVec 4, let s (c : Nat) := withOp (.clear .next 0x0101 cl 32) c
      (getH (s 32) 0 0).op = some (.clear .next 0x0101 cl 32) ∧ rectOf (getSpan (s 32) 0) 0x0101 = some { h := 1, w := 1 } ∧ now (s 31) < 32 ∧
      32 ≤ now (s 32) ∧ rectAccess (s 32) 0 { h := 1, w := 1 } = false := by
  refine ⟨by decide +kernel, fun cl => ⟨rfl, rfl, Nat.lt_succ_self 31, Nat.le_refl 32, rfl⟩⟩

theorem witness_lines :
    let z := withSpan { span [] with prog := scratch 0, hs := [(0, { pc := 15, miss := true, st := .blocked }), (1, { pc := 16, miss := true, st := .blocked })] }
    let wants (h : Nat) : Bool := (getH z 0 h).miss && ((getH z 0 h).pc.toNat / 8 == 1)
    (List.range 16).find? wants = some 0 ∧ okAnd (fetchLine z 0 0 1) (fun _ => true) = true ∧ (getSpan z 0).pbuf.length < 1024 := by decide +kernel
theorem witness_trapDeliver :
    (let tr : Trap := { cause := .ue, agent := 1, tval := 5 }
     let z := withSpan { span [] with fabric := some tr, frozen := true }
     let p := getSpan z 0
     p.trap = none ∧ nextTrap p = some tr ∧ p.ten = true ∧ (∀ h, (getH z 0 h).podFault = none) ∧ (tr.agent ≠ 0 → p.thnd = 0 → inTree p = false) ∧
     ¬ (tr.agent = 0 ∧ tr.h = p.thnd) ∧ (getH z 0 p.thnd).st = .stopped) ∧
    (let tr : Trap := { cause := .align, h := 0, pc := 8 }
     let z := withSpan (spanH fun x => { x with held := some tr, st := .blocked })
     let p := getSpan z 0
     p.trap = none ∧ nextTrap p = some tr ∧ ¬ (tr.agent = 0 ∧ tr.h = p.thnd) ∧ (getH z 0 p.thnd).st = .stopped) := by
  refine ⟨⟨rfl, rfl, rfl, ?_, by decide, by decide, rfl⟩, rfl, rfl, by decide, rfl⟩
  intro h
  rcases h with _ | _ | h <;> rfl

/-- A tile for int8 products: A in buffer 0, B in buffer 1, one accumulator slot, fp32 results; with the fields f beside. -/
def arrayTile (f : Tab (BitVec 12)) : Tile := { cfg := f ++ [(256, 0x820), (260, 0x11), (261, 0x900), (289, 0x10F), (290, 16), (291, 0x13F)] }
/-- Its systolic rectangle is tile 0 alone. -/
def withSys (f : Tab (BitVec 12)) (y : Sys) : State :=
  { withSpan { span [(1, 0x0101), (2, 0x303F)] with sys := { y with rect := { h := 1, w := 1 } } } with tiles := [(0, arrayTile f)] }
def oneSlot (st : BitVec 2) : Sys := { on := true, slots := [{ st := st, int := true, m := 16, n := 64 }], wpres := 1 }
theorem witness_sysmode :
    (let s := withSys [] {}
     let p := getSpan s 0
     let q : Rect := { h := 1, w := 1 }
     s.cur.latch = none ∧ p.sys.on = false ∧ rectOf p (reg s 1) = some q ∧ rectBusy s p q = false ∧ sysBad s p q 1 = false ∧
     (mPmode (getTile s 0) = 0 ∧ mEmom (getTile s 0) = false ∧ (∀ g ∈ rectTiles p q, linkFed (getTile s g) = false) ∧
       voffTrap (getTile s (rectTile p q 0)) (reg s 0) = none) ∧ p.isMatrix = false) ∧
    (let s := withSys [] (oneSlot 0)
     (getSpan s 0).sys.on = true ∧ (getSpan s 0).sys.auto = false ∧ (getSpan s 0).sys.arr = [] ∧ (getSpan s 0).sys.epi = [] ∧
     ∀ a ∈ (getSpan s 0).sys.slots, a.st ≠ 1 ∧ a.st ≠ 2) ∧
    (let s := withSys [] { oneSlot 0 with arr := [.mma 0 true false 64 0 0 0] }
     (getSpan s 0).sys.on = true ∧ (getSpan s 0).sys.arr ≠ []) := by decide +kernel
theorem witness_matrixWords :
    let full : Sys := { oneSlot 1 with arr := List.replicate 8 (.wpre 0 0 false 0 0 0 [] 0 0 []) }
    (let s := withSys [] (oneSlot 1)
     let p := getSpan s 0
     let T := sysTile s p
     let r := ringAfter T p.sys
     p.sys.on = true ∧ p.sys.auto = false ∧ mPmode T = 0 ∧ (∀ x ∈ sysTiles p, linkFed (getTile s x.2) = false) ∧ p.sys.arr.length < 8 ∧
     p.sys.wpres ≠ 0 ∧ (63 : BitVec 7).toNat + 1 ≤ planeK T ∧ (slotAt r.slots r.head).st = 1 ∧ (slotAt r.slots r.head).int = accInt T ∧
     mEmom T = false ∧ voffTrap T (reg s 1) = none ∧ p.sys.epi.length < 4) ∧
    8 ≤ (getSpan (withSys [] full) 0).sys.arr.length ∧ 4 ≤ (getSpan (withSys [] { oneSlot 2 with epi := List.replicate 4 {} }) 0).sys.epi.length ∧
    (let s := withSys [(262, 1)] { oneSlot 2 with momM := 3, momE := 4 }
     let p := getSpan s 0
     mEmom (sysTile s p) = true ∧ (3 : BitVec 6).toNat = p.sys.momM ∧ (4 : BitVec 6).toNat = p.sys.momE ∧ voffTrap (sysTile s p) (reg s 1) = none) ∧
    (let s := withSys [] (oneSlot 0)
     let p := getSpan s 0
     (slotAt p.sys.slots 0).st = 0 ∧ 0 < mRing (sysTile s p) ∧ (reg s 2).toNat % 2 ^ 8 + 1 ≤ mmaxOf (mRing (sysTile s p)) ∧
     (reg s 2).toNat / 2 ^ 8 + 1 ≤ 64 * p.sys.nt ∧ 0 ∉ (ringAfter (sysTile s p) p.sys).used ∧ (ringAfter (sysTile s p) p.sys).used = []) ∧
    (let s := withSys [] (oneSlot 2)
     let p := getSpan s 0
     (slotAt p.sys.slots 0).st = 2 ∧ 0 = p.sys.tail ∧ 0 ∉ (ringAfter (sysTile s p) p.sys).used) := by decide +kernel
theorem witness_matrixOrder :
    let s (y : Sys) := withSys [] y
    tokensMove (getSpan (s (oneSlot 0)) 0) = true ∧
    (∀ c ∈ [ACmd.mma 1 true false 64 0 1 0], isWpre c = false ∧ cmdPlane c ≠ 0) ∧
    (∀ c ∈ [ACmd.mma 0 true false 64 0 2 1], ∃ a b d e f g, c = .mma a b d e f 2 g) ∧ (slotAt (oneSlot 0).slots (oneSlot 0).head).st ≠ 2 ∧
    (∀ c ∈ [ACmd.wpre 1 0 false 0 0 0 [] 1 0 []], mmaPending c = false) ∧ ((slotAt (oneSlot 1).slots 0).m + 15) / 16 ≤ 1 ∧
    (∀ c ∈ [ACmd.wpre 1 0 false 0 0 0 [] 1 0 []], isWpre c = true) ∧ (slotAt (oneSlot 2).slots (oneSlot 2).tail).st = 2 ∧
    mEmom (sysTile (s (oneSlot 2)) (getSpan (s (oneSlot 2)) 0)) = false ∧
    (∀ g ∈ rectTiles (getSpan (s (oneSlot 2)) 0) (getSpan (s (oneSlot 2)) 0).sys.rect, (getTile (s (oneSlot 2)) g).leaf = none) ∧
    (let z := s { oneSlot 2 with epi := [{ run := true, pos := [(0, 64)] }] }
     let p := getSpan z 0
     ∀ x ∈ sysTiles p, epiWords (sysTile z p) (slotAt p.sys.slots 0) (posOfIx p.sys x.1) { run := true, pos := [(0, 64)] } ≤ 64) := by
  refine ⟨by decide, by decide, ?_, by decide, by decide, by decide, by decide, by decide, by decide, by decide, by decide +kernel⟩
  intro c hc
  rw [List.mem_singleton] at hc
  subst hc
  exact ⟨_, _, _, _, _, _, rfl⟩
/-- Entry 0 of both buffers is full. -/
theorem witness_matrixProducts :
    let s (y : Sys) : State := { withSys [] y with tiles := [(0, { arrayTile [] with full := [(0, true), (16, true)] })] }
    let z := s (oneSlot 1)
    let p := getSpan z 0
    let T := getTile z 0
    tokensMove p = true ∧ p.sys.on = true ∧ p.sys.auto = false ∧ p.sys.nt = 1 ∧ p.sys.rect.w = 1 ∧ p.sys.rect.h = 1 ∧ rectTile p p.sys.rect 0 = 0 ∧
    p.det = false ∧ (getSpan z (portSpan z (.matrix 0))).det = false ∧ T.leaf = none ∧
    linkFed T = false ∧ isMatrixFmt (mBfmt T) = true ∧ isPair (mBfmt T) = false ∧ mBen T = false ∧ mBfmt T ≠ 0x2A ∧ planeEntries T = 1 ∧
    T.bptr < bufDepth T (mBbuf T) ∧ isFull T (mBbuf T) T.bptr = true ∧ isPoison z (2 ^ 48 + 1024) 4096 = false ∧
    planeBytes T ≤ bufEsz T (mBbuf T) ∧
    accInt T = true ∧ 16 * 0 < (slotAt p.sys.slots 0).m ∧ (slotAt p.sys.slots 0).m ≤ 256 ∧ isFull T (mAbuf T) 0 = true ∧
    isPoison z (2 ^ 48) (slabBytes T) = false ∧ accPoisoned z (mRing T) 0 0 [0, 15] 0 64 = false := by decide +kernel
theorem witness_epilogue :
    let s := withSys [] { oneSlot 2 with slots := [{ st := 2, int := false, m := 2, n := 64 }], epi := [{ run := true, pos := [(0, 7)] }] }
    let p := getSpan s 0
    let T := getTile s 0
    mEmom T = false ∧ mEsc T = false ∧ mEbias T = false ∧ mAct T = 0 ∧ Rm.of (mErm T) = some .rne ∧ (slotAt p.sys.slots 0).int = false ∧
    accPoisoned s (mRing T) 0 0 [1] 48 16 = false ∧ (slotAt p.sys.slots 0).n ≤ 64 ∧ epiLanes (mOfmt T) = 16 ∧ 7 < (64 + 16 - 1) / 16 * 2 ∧ canEmit s 0 0 0x40 = true := by decide +kernel

/-- Coupler 0 of tile 0 on input A of slot 0, with 4 slots, SP 1, KP 4, KI 1, UPER 5 and IMAX 10. -/
def coupledTile (l : List Token) (k : Cpl) : Tile where
  leaf := some (0, 0)
  cpl := [(0, k)]
  bufs := [(0, l)]
  cfg := [(5, 0x400), (512, 0x800), (515, 1), (516, 4), (517, 1), (518, 5), (519, 10), (521, 1), (522, 1), (524, 9)]
def coupled (l : List Token) (k : Cpl) : State := { withRegs [(2, 5)] with tiles := [(0, coupledTile l k)] }
theorem witness_couplers :
    (∀ l ∈ [[], List.replicate 4 Token.empty, [.empty, .empty]],
      let s := coupled l { timer := 31, integ := 9, flight := [(3, -2)] }
      let x := cplCfg (getTile s 0) 0
      cplRuns s 0 0 = true ∧ 2 ^ uperOf (getTile s 0) 0 ≤ (tget (getTile s 0).cpl 0 {}).timer + 1 ∧ cplSlots (getTile s 0) 0 = 4 ∧
      cplOcc s 0 0 1 = l.length ∧ x.set = 1 ∧ x.imax = 10 ∧ (tget (getTile s 0).cpl 0 {}).flight = (3, -2) :: []) ∧
    (let s := coupled [] { timer := 30 }
     cplRuns s 0 0 = true ∧ (tget (getTile s 0).cpl 0 {}).timer + 1 < 2 ^ uperOf (getTile s 0) 0) ∧
    startOcc (coupled [] { occ := some 3 }) 0 0 = 3 ∧
    (∀ g ∈ [0, 1],
      let s : State := { withSpan (span []) with tiles := [(0, { coupledTile [] {} with rects := [(16, { h := 1, w := 2 })], cfg := [(513, BitVec.ofNat 12 g), (514, 0x800)] ++ (coupledTile [] {}).cfg })] }
      (getTile s 0).leaf = some (0, 0) ∧ producerOf s (getSpan s 0) 0 0 = some (g, 0)) := by decide +kernel
theorem witness_couplerWords :
    (reg (withRegs [(2, 0xFFFF)]) 2).toNat < 2 ^ 16 ∧ okAnd (cplSel (coupled [] {}) (reg (coupled [] {}) 0)) (fun x => x == (0, 0)) = true ∧
    (let s := coupled [] {}
     okAnd (cplSetEff s (reg s 0) (reg s 2) .wmax) (fun r => r.2 == 9) = true ∧ okAnd (cplSetEff s (reg s 0) (reg s 2) .irst) (fun _ => true) = true) := by
  decide +kernel
theorem witness_digests :
    (let s := withRegs []
     s.cur.latch = none ∧ (curH s).podFault = none ∧ (curSpan s).streams = [] ∧
     ∀ a ∈ s.net.acc, isWrite a.kind = true → (pSpace a.ptr = 0 ∨ pSpace a.ptr = 3) → portSpan s a.port ≠ s.cur.sp) ∧
    (let a := { access (.write [1]) 1 .dispatched with ptr := 0x1000 }
     let s := withAcc (withRegs []) [a]
     a ∈ s.net.acc ∧ isWrite a.kind = true ∧ pSpace a.ptr = 0 ∧ portSpan s a.port = s.cur.sp ∧ (∀ n, a.port ≠ .device n) ∧ a.id < s.sched.nextId) :=
  ⟨by decide, List.mem_cons_self .., rfl, rfl, rfl, nofun, by decide⟩

/-- Router stream 0 of tile 0 on its east side holds a word; input A of slot 0 of tile 1, east of it, takes that stream and holds n tokens. -/
def routed (n : Nat) : State :=
  { withRegs [] with
    clusters := [(0, { span := some 0 })]
    tiles := [(0, { bufs := [(36, [.word 7, .drain])] }), (1, { bufs := [(0, List.replicate n .empty)], cfg := [(480, 0x2C)] })] }
theorem witness_router :
    (getClus (routed 0) (0 / 16)).span = some 0 ∧ tokensMove (getSpan (routed 0) 0) = true ∧
    headOf (getTile (routed 0) 0) (32 + 4 * 1 + 0) = some (.word 7) ∧ nbr (getSpan (routed 0) 0) 0 1 = some 1 ∧
    canEmit (routed 0) 0 1 0x2C = true ∧ canEmit (routed 1) 0 1 0x2C = false ∧ 0 ∈ consumerIds ∧ srcOf (getTile (routed 0) 1) 0 = 0x2C := by decide +kernel
/-- Fabric input port 31 feeds that input; an end token waits for port 30, which feeds nothing. -/
def ported (p : Span) : State := { withSpan p with tiles := [(0, { cfg := [(480, 0x50 + 31), (5, 0x400), (2, 0x11), (0, 1)] })] }
theorem witness_ports :
    (let s := ported { span [] with fi := [(31, [.word 7, .drain])] }
     let p := getSpan s 0
     tokensMove p = true ∧ tget p.fi 31 [] = .word 7 :: [.drain] ∧ (∀ x ∈ p.toks, ¬ (x.1 = true ∧ x.2.1 = 31)) ∧ portLinks s p 31 = [0] ∧
     (∀ l ∈ portLinks s p 31, l % 64 ≠ 25 ∧ l % 64 ≠ 27) ∧ p.fiDrain.contains 31 = false ∧
     (∀ l ∈ portLinks s p 31, slotsOf (getTile s (l / 64)) (l % 64) ≠ 0 ∧ (consFmt (getTile s (l / 64)) (l % 64)).isSome = true) ∧ tget p.fiTaken 31 [] = [] ∧ (portLinks s p 31).Nodup ∧
     ∀ l ∈ portLinks s p 31, roomAt s 0 (l / 64) (l % 64) = true) ∧
    (let s := ported { span [] with toks := [(true, 30, 5)] }
     let p := getSpan s 0
     tokensMove p = true ∧ tget p.fi 30 [] = [] ∧ p.toks = [(true, 30, 5)] ∧ portLinks s p 30 = [] ∧
     s.net.bars = []) := by decide +kernel

/-- Tenant 0 has a window on all of stack 0's SRAM beside that on HBM. -/
def withSram (s : State) : State :=
  { s with ctl := { s.ctl with windows := s.ctl.windows ++ [(1, BitVec.ofNat 128 (2 ^ 59 + 2 ^ 58 + 2 ^ 96 * 512))] } }
theorem witness_codebooks :
    let s := withSram (withRegs [(1, scratch 0), (2, 0x3000000000001000), (3, 0x0000100000004000)])
    s.cur.latch = none ∧ (getSpan s s.cur.sp).det = false ∧ pSpace (reg s 2) = 3 ∧ pRank (reg s 2) = 0 ∧
    pOff (reg s 2) + 8192 * 2 ≤ 2 ^ 25 ∧ pOff (reg s 2) % 4096 = 0 ∧ windowBad s (curTenant s) (1 : BitVec 12).toNat [(pOff (reg s 2), 8192 * 2)] = none ∧
    okAnd (acqRead s (reg s 1) (8192 * 2) 64) (fun _ => true) = true ∧
    (reg s 3).toNat / 2 ^ 32 = 0x1000 ∧ (reg s 3).toNat % 2 ^ 32 = 0x4000 ∧
    windowBad s (curTenant s) (1 : BitVec 12).toNat [(0x1000, 1024 * 2), (0x4000, 8192 * 2)] = none ∧
    okAnd (acqRead s (reg s 1) (32 * 2) 64) (fun _ => true) = true ∧ isPoison s (2 ^ 50 + 0x4000) (4096 * 2) = false := by decide +kernel
/-- A run of two pages of one token: G = 2, records at scratch 0x1000, codebooks at 0x4000 and the LUT at 0x1000 of stack 0, results at
scratch 0x2000. Page 0 holds the token, page 1 none. -/
def runDesc : List Word := [0, 0x100000201, 0x4000, 0x1000, scratch 0x1000, 1, scratch 0x2000, 0]
def runBytes : List (Nat × Byte) := [(8, 1), (9, 2), (12, 1), (17, 0x40), (25, 0x10), (33, 0x10), (39, 0x10), (40, 1), (49, 0x20), (55, 0x10)]
theorem witness_attRun :
    let s := bytesAt runBytes (withSram (withRegs [(1, scratch 0), (2, 3)]))
    s.cur.latch = none ∧ okAnd (acqRead s (reg s 1) 64 8) (fun x => wordsOf 8 x.1 == runDesc) = true ∧ runBad runDesc (reg s 2) = none ∧
    runPtrs s runDesc = none := by decide +kernel
def attending (t0 : Byte) (f : Handler → Handler) : State :=
  { paged 0x80 0x80 t0 with spans := (withSpan (spanH fun x => f { x with op := some (.att .next 1), st := .blocked, attDesc := runDesc })).spans }
theorem attends_of (t0 : Byte) (f : Handler → Handler)
    (h : (f { st := .blocked, pc := 8, op := some (.att .next 1), attDesc := runDesc }).op = some (.att .next 1)) : attends (attending t0 f) 0 0 :=
  ⟨rfl, rfl, rfl, rfl, .next, 1, h⟩
theorem witness_attPages :
    let todo := attending 0xE0 fun x => { x with attTodo := [0, 1] }
    let gone := attending 0 fun x => { x with attTodo := [0, 1] }
    let held := attending 0xE0 fun x => { x with attTodo := [0], attHeld := [(0, 0x40000)] }
    let retry := attending 0 fun x => { x with attAbsent := [0] }
    let finished := attending 0xE0 id
    attends todo 0 0 ∧ attends gone 0 0 ∧ attends held 0 0 ∧ attends retry 0 0 ∧ attends finished 0 0 ∧
    (getSpan todo 0).det = false ∧ keyOf (recPtr runDesc 0) = some (2 ^ 49 + 0x1000) ∧ keyOf (recPtr runDesc 1) = some (2 ^ 49 + 0x1080) ∧
    isPoison todo (2 ^ 49 + 0x1000) (recBytes runDesc) = false ∧
    (1 ∈ (getH todo 0 0).attTodo ∧ nValid (getH todo 0 0).attDesc 1 = 0) ∧
    (0 ∈ (getH todo 0 0).attTodo ∧ nValid (getH todo 0 0).attDesc 0 ≠ 0 ∧ tfind (getH todo 0 0).attHeld 0 = none ∧
      walk todo 0 (pOff (pagePtr runDesc 0)) false = .page 0x40000 (2 ^ 16) true ∧ aStk runDesc / 2 ^ (0x40000 / 2 ^ 36) % 2 = 1) ∧
    walk gone 0 (pOff (pagePtr runDesc 0)) false = .absent ∧
    (0 ∈ (getH held 0 0).attTodo ∧ tfind (getH held 0 0).attHeld 0 = some 0x40000 ∧ isPoison held 0x40000 65536 = false ∧
      attNext held 0 0 0 0x40000 = true ∧
      windowBad (withSram held) 0 1 [(aLut runDesc, 1024 * aG runDesc), (aCbk runDesc, 8192 * aG runDesc)] = none ∧
      isPoison held (2 ^ 50 + aLut runDesc) (1024 * aG runDesc) = false ∧ isPoison held (2 ^ 50 + aCbk runDesc) (8192 * aG runDesc) = false) ∧
    ((getH retry 0 0).attTodo = [] ∧ 0 ∈ (getH retry 0 0).attAbsent ∧ (∀ j ∈ (getH retry 0 0).attAbsent, 0 ≤ j) ∧
      walk retry 0 (pOff (pagePtr runDesc 0)) false = .absent) ∧
    (let s := { held with ctl := { held.ctl with tenants := [(0, ((2 ^ 63 : Nat) : Wide) <<< 384)] } }
     tget s.ctl.invAt 0 0 + 11000 ≤ now { s with cycle := 11000 } ∧ now s < tget s.ctl.invAt 0 0 + 11000 ∧
     invRange s 0 = some (0, 65536) ∧ meets (pOff (pagePtr runDesc 0)) 65536 0 65536 = true) ∧
    ((getH finished 0 0).attTodo = [] ∧ (getH finished 0 0).attAbsent = [] ∧ (getH finished 0 0).attFault = []) :=
  ⟨attends_of _ _ rfl, attends_of _ _ rfl, attends_of _ _ rfl, attends_of _ _ rfl, attends_of _ _ rfl, rfl, by decide +kernel⟩
/-- No record holds a token, or the first one does. -/
theorem witness_attMerge :
    let s (l : List (Nat × Byte)) := bytesAt (runBytes ++ l) (withRegs [(1, scratch 0), (2, 3)])
    okAnd (hRead (s []) (reg (s []) 1) 64 8) (fun x => wordsOf 8 x.1 == runDesc) = true ∧ runBad runDesc 3 = none ∧ mergePtrs (s []) runDesc (16 * 4) = none ∧
    okAnd (readRecs runDesc [0, 1] (s [])) (fun x => x.1.isEmpty) = true ∧
    okAnd (readRecs runDesc [0, 1] (s [(0x1008, 1)])) (fun x => x.1.length == 1 && x.1.all fun r => r.a.length == 16) = true ∧
    pSpace (nth runDesc 6 0) ≠ 4 ∧ keyOf (nth runDesc 6 0) = some (2 ^ 49 + 0x2000) ∧ isPoison (s []) (2 ^ 49 + 0x2000) (16 * 4) = false := by decide +kernel

/-- Eight pairs with the ids 0 to 7 and the weight 1, but for the last, which is minus zero; one pair. -/
def pairBytes : List (Nat × Byte) :=
  (List.range 8).flatMap fun i => [(8 * i, BitVec.ofNat 8 i), (8 * i + 6, if i < 7 then 0x80 else 0), (8 * i + 7, if i < 7 then 0x3F else 0x80)]
theorem witness_tokensMade :
    let s := bytesAt pairBytes (withRegs [(1, 5), (2, 0x70000), (3, scratch 0), (4, scratch 0x1000)])
    let ps (n : Nat) (bs : List Byte) := (wordsOf n bs).map fun w => (w.toNat % 2 ^ 32, if w.toNat / 2 ^ 32 = 2 ^ 31 then 0 else w.toNat / 2 ^ 32)
    s.cur.latch = none ∧ (reg s 1).toNat < 2 ^ 32 ∧ (reg s 2).toNat % 2 ^ 16 = 0 ∧
    (∀ n ∈ [1, 8], okAnd (acqRead s (reg s 3) (8 * n) 8) (fun x =>
      (ps n x.1).all (fun p => (d32 p.2).isFin && ((d32 p.2).isZero || !(d32 p.2).sign)) && noRepeats ((ps n x.1).map (·.1))) = true) ∧
    okAnd (acqRead s (reg s 3) (((reg s 2).toNat % 2 ^ 16 + 1) * 4) 64) (fun _ => true) = true ∧
    okAnd (acqRead s (reg s 3) (((reg s 2).toNat % 2 ^ 16 + 1) * 2) 64) (fun _ => true) = true ∧
    okAnd (acqRead s (reg s 4) 128 64) (fun x => (imageBad (BitVec.ofNat 768 (ofBytes (x.1.take 96)))).isNone) = true := by decide +kernel
/-- The digest of the empty position and of the chain after it, with all CSRs zero, stand in the record at scratch 0. -/
def digestBytes : List Byte :=
  [250, 117, 186, 92, 149, 216, 43, 187, 239, 10, 81, 253, 63, 234, 47, 106, 236, 128, 89, 8, 208, 154, 168, 109, 196, 111, 212, 208, 165, 116, 144, 188]
theorem witness_tokensLogged :
    let s := { withRegs [(1, scratch 0)] with mem := (List.range 32).map fun i => (2 ^ 49 + 96 + i, nth digestBytes i 0) }
    let key := ckey (sampleCsrs (curSpan s))
    let pd := posDigest key (tokenOfReg s 3)
    s.cur.latch = none ∧ writable s (reg s 1) 128 64 (2 ^ 49) ∧
    okAnd (acqRead s (reg s 1) 128 64) (fun x =>
      x.1.drop 96 == (record (tokenOfReg s 3) pd (chainNext key (digOf (reg s 2) (reg s 3)) pd)).drop 96) = true := by unfold writable; decide +kernel
/-- Lists of one record at scratch 0x1000 and 0x2000. -/
def matchDesc : List Word := [scratch 0x1000, scratch 0x2000, 1, 0, 0, 0, 0, 0]
def matchState : State := bytesAt [(1, 0x10), (7, 0x10), (9, 0x20), (15, 0x10), (16, 1)] (withRegs [(1, scratch 0)])
theorem witness_match :
    okAnd (acqRead matchState (scratch 0) 64 8) (fun x => wordsOf 8 x.1 == matchDesc &&
      okAnd (matchFrom (scratch 0x1000) (scratch 0x2000) 1 0 x.2) (fun y => y.1 == 1)) = true ∧ matchBad matchDesc = none ∧
    pOff (nth matchDesc 0 0) % 64 = 0 ∧ pOff (nth matchDesc 1 0) % 64 = 0 := by decide +kernel
/-- A table of rows of 64 bytes at scratch 0x1000 with two fp32 elements each and one token; the register holds EMPTY or TEXT. -/
def embDesc : List Word := [scratch 0x1000, 0x4000000002, 0x924, 0, 0, 1, 0, 0]
def embState : State := bytesAt [(1, 0x10), (7, 0x10), (8, 2), (12, 64), (16, 0x24), (17, 0x09), (40, 1)] (withRegs [(1, scratch 0), (2, scratch 0x2000)])
theorem witness_embedding :
    okAnd (acqRead embState (scratch 0) 64 8) (fun y => wordsOf 8 y.1 == embDesc) = true ∧
    embBad embDesc 0 false = none ∧ okAnd (acqRead embState (scratch 0) 64 8) (fun y => okAnd (embValues y.2 embDesc 0 false) (·.1.length == 2)) = true ∧
    embBad embDesc (position 1 0 0 0 0) false = none ∧ okAnd (acqRead embState (scratch 0) 64 8) (fun y =>
      okAnd (embValues y.2 embDesc (position 1 0 0 0 0) false) (·.1.length == 2)) = true ∧
    writable embState (scratch 0x2000) 8 64 (2 ^ 49 + 0x2000) := by unfold writable; decide +kernel

/-- The descriptor of a collapse of two tokens on one tile: T = 1, fp32 logits from byte 0. -/
def colDesc : List Word := [0x3F800000, 0, 0x200000000, 0x0101, 0x200000000, 0, 0, 0]
def colBytes : List (Nat × Byte) := [(2, 0x80), (3, 0x3F), (20, 2), (24, 1), (25, 1), (36, 2)]
theorem witness_collapses :
    let c : Collapse := { ptr := scratch 0, msk := true }
    let r : Collapse := { c with desc := colDesc, running := true, bind := some (0, 0, 4, .open_) }
    let s (c : Collapse) (l : List Token) (pol : MaskPolicy) : State :=
      { bytesAt colBytes (withSpan { spanH fun x => { x with op := some (.col .next 1), st := .blocked } with
          cols := [c], bind := some (0, 0, 4, pol), chmap := [(0, 0)], ch := [(0, l)] }) with cycle := 5 }
    isBound (curSpan (s c [] .open_)) (0 : BitVec 6).toNat = true ∧ maskBlocked (s c [] .open_) = false ∧ maskBlocked (withRegs [(1, 7)]) = false ∧ maskBlocked (s r [] .open_) = true ∧
    maskDue (getSpan (s c [] .open_) 0) = false ∧
    (reg (withRegs [(1, 7)]) 1).toNat % 2 ^ 32 ≠ 0 ∧
    (let z := s c [] .open_
     (getSpan z 0).cols = [c] ∧ colRuns (getSpan z 0) = true ∧ (getSpan z 0).quiesced = false ∧
     okAnd (acqReadAt z (.handler 0 0) c.ptr 64 8) (fun x => wordsOf 8 x.1 == colDesc) = true ∧ colBad (getSpan z 0) colDesc = none ∧
     (getSpan z 0).bind ≠ none) ∧
    (let z := s r [.word 3] .open_
     colRuns (getSpan z 0) = true ∧ maskShort (getSpan z 0) r = false ∧ (getH z 0 0).op = some (.col .next 1) ∧
     okAnd (readSlices (.handler 0 0) colDesc (colSlices (getSpan z 0) colDesc) z) (fun _ => true) = true) ∧
    (let z := s r [] .open_
     (tget (getSpan z 0).ch 0 []).length < (cNv colDesc + 63) / 64 ∧ 0 < now z ∧ 4 < now z ∧ now { z with cycle := 0 } ≤ 0 ∧
     okAnd (readSlices (.handler 0 0) colDesc (colSlices (getSpan z 0) colDesc) z) (fun _ => true) = true ∧ (getSpan z 0).ten = true ∧
     0 ≠ (getSpan z 0).thnd ∧ (getH z 0 (getSpan z 0).thnd).st = .stopped) := by decide +kernel
theorem witness_collapseTrap (c : Collapse) : noTrap (withSpan { spanH fun x => { x with op := some (.col .next 1), st := .blocked } with cols := [c] }) 0 :=
  noTrap_of _ _ rfl rfl fun x hx => by
    simp [withSpan, spanH, getSpan, tget] at hx
    rcases hx with rfl | rfl <;> rfl

/-- Set 0 of cluster 0's tag table: way 0 holds key 512, the others are free, or all are taken by other keys. -/
def tagged (l : Tab Word) : State := { withRegs [(1, 512), (2, 2 ^ 63 + 1024)] with clusters := [(0, { span := some 0, tags := l })] }
theorem witness_tags :
    let at_ (l : Tab Word) (n : Nat) : Word := tget l n 0
    let one : Tab Word := [(0, 2 ^ 63 + 512)]
    let all : Tab Word := (List.range 8).map fun w => (w, BitVec.ofNat 64 (2 ^ 63 + 512 * (w + 2)))
    (0 : BitVec 6).toNat < (getSpan (tagged one) 0).rh * (getSpan (tagged one) 0).rw ∧ (reg (tagged one) 1).toNat % 2 ^ 48 = 512 ∧
    ((at_ one 0).getLsbD 63 = true ∧ (at_ one 0).toNat % 2 ^ 48 = 512) ∧ (at_ [] 0).getLsbD 63 = false ∧
    (∀ w < 8, (at_ all w).getLsbD 63 = true ∧ (at_ all w).toNat % 2 ^ 48 ≠ 512) ∧ ((reg (tagged []) 2).toNat / 2 ^ 56 % 2 ^ 7 = 0) ∧
    (reg (tagged []) 2).getLsbD 63 = true ∧ (reg (tagged []) 2).toNat % 2 ^ 48 % 512 = (reg (tagged []) 0).toNat / 8 ∧
    (∀ w < 8, (at_ one w).getLsbD 63 = true → (at_ one w).toNat % 2 ^ 48 ≠ (reg (tagged []) 2).toNat % 2 ^ 48) := by decide +kernel
/-- Entry 2 in state st with PCNT 1; its queue 0 allows arm. -/
def entered (st : Nat) : State :=
  let s := bytesAt [] (withRegs [(1, 0x4000000000000080), (2, 1), (3, scratch 0)])
  { s with ctl := { s.ctl with entries := [(2, BitVec.ofNat 512 (1 + st * 2 ^ 508))], qctl := [(0, 2 ^ 59)], ready := if st = 2 then [(0, [2])] else [] } }
theorem witness_entryWords :
    ∀ st < 7, okAnd (entryPtr (entered st) (reg (entered st) 1)) (· == 2) = true ∧ (entered st).cur.latch = none ∧
      (entryW (entered st) 2 7).toNat / 2 ^ 60 = st ∧ (entryW (entered st) 2 0).toNat % 2 ^ 32 = 1 ∧ ptrOk (reg (entered st) 3) 56 = true ∧
      okAnd (hRead (entered st) (reg (entered st) 3) 56 8) (fun x =>
        let ws := wordsOf 7 x.1
        (nth ws 0 0).toNat / 2 ^ 32 % 2 ^ 13 == 0 && (nth ws 3 0).toNat % 2 ^ 32 == 0) = true ∧ curTenant (entered st) = 0 ∧
      relWaits (entered st) .module = false ∧ armCheck (entered st) 2 = true ∧ slotOfEntry (entered st) 2 = none ∧ (curSpan (entered st)).ended = false := by
  decide +kernel

/-- Slot 0 of tile 0: opcode, SUB, format and log2 of the lanes of its inputs and of its outputs, constant; f overrides fields; bs are its
inputs. A leaf phase of four positions runs on the tile. -/
def slotTile (f : Tab (BitVec 12)) (opc sub i l o lo imm : Nat) (bs : Tab (List Token)) : Tile :=
  { leaf := some (0, 0), bufs := bs
    cfg := f ++ [(0, BitVec.ofNat 12 opc), (1, BitVec.ofNat 12 sub), (2, BitVec.ofNat 12 (64 * i + 8 * l)), (3, BitVec.ofNat 12 (64 * i + 8 * l)),
      (4, BitVec.ofNat 12 (64 * i + 8 * l)), (10, BitVec.ofNat 12 (64 * o + 8 * lo)), (11, BitVec.ofNat 12 (64 * o + 8 * lo)),
      (13, BitVec.ofNat 12 imm), (9 * 32 + 1, 2 ^ 9)] }
def withTile (T : Tile) : State :=
  { withSpan { span [] with tree := { nodes := [{ leafAt 0 none with shape := { order := [0], ext := [4], pad := [0] } }], running := true } } with
    tiles := [(0, T)] }
/-- A word on each input. -/
def ins (a b d : Wide) : Tab (List Token) := [(0, [.word a]), (1, [.word b]), (2, [.word d])]
/-- The slot is the selector's next choice, with a context that satisfies q. -/
def turnOk (s : State) (opc : Nat) (q : Ctx → Bool) : Bool :=
  match ctxOf s 0 0, selectorPick s 0 with
  | some c, some (0, _, _) => c.opc == opc && q c
  | _, _ => false
theorem turn_of {s : State} {opc : Nat} {q : Ctx → Bool} (h : turnOk s opc q = true) : ∃ c x rot, Turn s 0 0 opc c x rot ∧ q c = true := by
  unfold turnOk at h
  split at h
  · rename_i c x rot h1 h2
    rw [Bool.and_eq_true, beq_iff_eq] at h
    exact ⟨c, x, rot, ⟨h1, h2, h.1⟩, h.2⟩
  · cases h
/-- Each named input shows a word. -/
def wordsStand (c : Ctx) : Bool := (namedIns c.T 0).all fun j => match c.tok j with | .word _ => true | _ => false
/-- Every opcode of the lists has its turn on four fp32, int32 or int8 lanes, with SUB 0 or the constant. -/
theorem witness_floatElements :
    let q (c : Ctx) : Bool := wordsStand c && c.lan 0 == 4 && c.lan 1 == 4 && c.lan 2 == 4 && c.olan 0 == 4 && decide (c.lan 0 * fmtWidth (c.ofmt 0) ≤ 512)
    let ops : List Nat := floatRules.map fun r => r.2.1
    (ops ++ [0x0D, 0x0E, 0x29, 0x32]).all (fun opc =>
      turnOk (withTile (slotTile [] opc 0 0x24 2 0x24 2 1 (ins 0 0 0))) opc q) = true ∧
    [(0x01, 0x80), (0x29, 0x80), (0x32, 1), (0x32, 2)].all (fun (opc, sub) => turnOk (withTile (slotTile [] opc sub 0x24 2 0x24 2 1 (ins 0 0 0))) opc q) = true := by decide +kernel
theorem witness_integerElements :
    let q (c : Ctx) : Bool := wordsStand c && decide (c.olan 0 * fmtWidth (c.ofmt 0) ≤ 512) && decide (c.olan 1 * fmtWidth (c.ofmt 1) ≤ 512)
    let same (c : Ctx) : Bool := q c && c.lan 0 == 4 && c.lan 1 == 4 && c.lan 2 == 4 && c.olan 0 == 4 && isInt (c.ofmt 0) && c.fmt 0 == c.ofmt 0 && c.fmt 1 == c.ofmt 0
    let ints : List Nat := integerRules.map fun r => r.2.1
    let codes : List Nat := codeRules.map fun r => r.2.1
    (ints ++ codes ++ [0x20, 0x21, 0x40]).all (fun opc => turnOk (withTile (slotTile [] opc 0 0x1F 2 0x1F 2 1 (ins 7 1 2))) opc same) = true ∧
    [0x10, 0x13, 0x20].all (fun opc => turnOk (withTile (slotTile [] opc 0x80 0x26 2 0x26 2 1 (ins 7 1 2))) opc same) = true ∧
    [0, 3].all (fun n => turnOk (withTile (slotTile [] 0x41 0 0x1F 2 0x1F 2 n (ins 7 1 2))) 0x41 fun c => q c && decide (c.imm % 128 < c.lan 0)) = true ∧
    turnOk (withTile (slotTile [] 0x42 0 0x1F 2 0x1F 3 0 (ins 7 1 2))) 0x42 (fun c => q c && c.lan 1 == c.lan 0 && c.olan 0 == 2 * c.lan 0) = true ∧
    turnOk (withTile (slotTile [] 0x43 0 0x1F 2 0x1F 1 0 (ins 7 1 2))) 0x43 (fun c => q c && c.lan 0 == 2 * c.olan 0 && c.olan 1 == c.olan 0) = true ∧
    [0, 4].all (fun n => turnOk (withTile (slotTile [] 0x44 0 0x1F 2 0x1F 2 n (ins 7 1 2))) 0x44 fun c =>
      q c && c.olan 0 == c.lan 0 && decide (c.imm % 128 ≤ c.lan 0)) = true := by decide +kernel
/-- Blocks of two of four lanes; in the second word an infinity makes block 0 a bad one. -/
theorem witness_blockElements :
    let q (c : Ctx) : Bool := wordsStand c && decide (c.olan 0 * fmtWidth (c.ofmt 0) ≤ 512) && decide (c.olan 1 * fmtWidth (c.ofmt 1) ≤ 512) &&
      c.lan 0 % 2 ^ (c.sub % 8) == 0 && c.lan 0 == 4
    let f (opc sub l1 lo fo : Nat) (a : Wide) := withTile (slotTile [(3, BitVec.ofNat 12 (64 * 0x24 + 8 * l1)), (4, BitVec.ofNat 12 (64 * 0x24 + 8 * 1)),
      (11, BitVec.ofNat 12 (64 * 0x28 + 8 * 1))] opc sub 0x24 2 fo lo 0 (ins a 0 0))
    [(0 : Wide), 0x7F800000].all (fun a => turnOk (f 0x2A 1 1 2 0x1D a) 0x2A fun c => q c && c.olan 0 == 4 && c.olan 1 == 2 &&
      (c.vals 0).all (fun v => v.isZero || (!v.isFin && a != 0))) = true ∧
    turnOk (f 0x2A 9 1 2 0x1D 5) 0x2A (fun c => q c && c.olan 0 == 4 && c.lan 1 == 2) = true ∧
    turnOk (f 0x2B 1 1 2 0x24 5) 0x2B (fun c => q c && c.olan 0 == 4 && c.lan 1 == 2) = true ∧
    [0x24, 0x25].all (fun fo => [1, 9].all fun sub => turnOk (f 0x30 sub 2 1 fo 5) 0x30 fun c => q c && c.lan 1 == 4 && c.olan 0 == 2 && c.lan 2 == 2) = true := by
  decide +kernel

/-- A group in its first word or its second, which a word, an empty token or the drain token ends. -/
theorem witness_groups :
    let T (opc sub i o lo imm : Nat) (el : Elem) (a : Token) : Tile := { slotTile [(11, BitVec.ofNat 12 (64 * 0x25 + 8 * lo))] opc sub i 2 o lo imm [(0, [a])] with elems := [(0, el)] }
    let z (opc sub i o lo imm : Nat) (el : Elem) (a : Token) (q : Ctx → Bool) : Bool :=
      turnOk (withTile (T opc sub i o lo imm el a)) opc fun c => decide (c.olan 0 * fmtWidth (c.ofmt 0) ≤ 512) && q c
    [1, 2].all (fun imm => [(.word 7 : Token), .empty].all fun a => z 0x33 1 0x24 0x24 1 imm {} a fun c =>
      c.olan 0 == 2 && c.olan 1 == 2 && decide (c.olan 1 * fmtWidth (c.ofmt 1) ≤ 512) && !c.mustFinish && c.el.cand.isEmpty) = true ∧
    z 0x33 1 0x24 0x24 1 9 { grp := 1, cand := [(7, 0), (3, 1)] } .drain (fun c => c.mustFinish && c.el.cand.length == 2 && !outranks 0x24 3 7) = true ∧
    [1, 2].all (fun imm => [(.word 7 : Token), .empty].all fun a => [(0x24, []), (0x25, [5, 6])].all fun (f, l) => z 0x38 1 f f 1 imm { carry := l } a fun c =>
      c.olan 0 == 2 && c.lan 0 == 4 && !c.mustFinish) = true ∧
    z 0x38 1 0x25 0x25 1 9 { grp := 1, carry := [5, 6] } .drain (fun c => c.mustFinish && c.olan 0 == 2) = true ∧
    [1, 2].all (fun imm => [(.word 7 : Token), .empty].all fun a => [(0x24, []), (0x25, [5])].all fun (f, l) =>
      z 0x39 0 f f 2 imm { carry := l } a fun c => c.olan 0 == 4 && !c.mustFinish) = true ∧
    z 0x39 0 0x25 0x25 2 9 { grp := 1, carry := [5] } .drain (fun c => c.mustFinish) = true := by decide +kernel
/-- Two participants of one group, of which the lower is the receiver. -/
def netTile (el : Elem) (sub : Nat) : Tile :=
  { slotTile [(11, BitVec.ofNat 12 (64 * 0x25 + 8 * 2))] 0x3A sub 0x24 2 0x24 2 3 (ins 7 8 0) with elems := [(0, el)], rects := [(0, { h := 1, w := 2 })] }
def netState (a b : Elem) (sub : Nat) : State := { withTile (netTile a sub) with tiles := [(0, netTile a sub), (1, netTile b sub)] }
theorem witness_network :
    let one : Elem := { contrib := [(.word 7, .word 8)] }
    [0, 3].all (fun sub => turnOk (netState {} {} sub) 0x3A fun _ => true) = true ∧
    (∀ sub ∈ [0, 1, 2, 3], ∀ old ∈ [[], [(.empty, .empty)]],
      let s := netState { one with res := old } one sub
      ((ctxOf s 0 0).any fun c => c.opc == 0x3A && c.group == [(0, 0), (1, 0)] && c.receives && c.room (usedOuts c.T 0 true) &&
        decide (c.lan 0 * fmtWidth (c.ofmt 0) ≤ 512) && decide (c.lan 0 ≤ 8) && decide (fmtWidth (c.fmt 0) ≤ 64) && isIeee (c.fmt 0)) = true ∧
      ((ctxOf s 1 0).any fun d => d.el.contrib == [(.word 7, .word 8)] && d.sub == sub && d.lan 0 == 4 && d.fmt 0 == 0x24 && d.ofmt 0 == 0x24 && !d.sat && !d.receives) = true) ∧
    (let s := netState { one with res := [(.empty, .empty)] } {} 0
     ((ctxOf s 0 0).any fun c => c.room (usedOuts c.T 0 true) && c.el.res == [(.empty, .empty)]) = true ∧ ((ctxOf s 1 0).any fun d => d.el.contrib.isEmpty) = true) := by
  decide +kernel

theorem witness_emptyTokens :
    let f (opc pol : Nat) := withTile (slotTile [(2, BitVec.ofNat 12 (64 * 0x25 + 8 * 2 + 2 * pol)), (6, 0x6C0)] opc 0 0x25 2 0x25 2 0
      [(0, [.empty]), (1, [.word 1]), (2, [.word 2])])
    let q (pol : Nat) (c : Ctx) : Bool :=
      (namedIns c.T 0).contains 0 && c.head 0 == some .empty && inPol c.T 0 0 == pol && decide (c.lan 0 * fmtWidth (c.fmt 0) ≤ 512)
    [0x43, 0x44].all (fun opc => [0, 1].all fun pol => turnOk (f opc pol) opc fun c => c.tok 0 == .empty) = true ∧
    policyOps.all (fun r => turnOk (f r.2 0) r.2 (q 0)) = true ∧ [1, 2].all (fun pol => turnOk (f 0x01 pol) 0x01 (q pol)) = true := by decide +kernel
/-- vabs with a drain token, a word, or nothing on its input; mrd without a named input; a slot whose input 1 its own output feeds. -/
theorem witness_drain_pass :
    let f (opc sub : Nat) (bs : Tab (List Token)) (el : Elem) (g : Tab (BitVec 12)) : State :=
      withTile { slotTile g opc sub 0x24 2 0x24 2 0 bs with elems := [(0, el)] }
    let is (s : State) (q : Ctx → Bool) : Bool := (ctxOf s 0 0).any q
    is (f 0x07 0 [(0, [.drain])] {} []) (fun c => namedIns c.T 0 == [0] && c.cycleIns == [] && c.atDrain 0 && !c.el.drained && !c.mustFinish && c.room [0]) = true ∧
    is (f 0x07 0 [(0, [.word 1])] {} []) (fun c => !c.atDrain 0 && !c.el.drained) = true ∧
    is (f 0x60 4 [] {} []) (fun c => namedIns c.T 0 == [] && leafCount c.x == 4 && decide (tget c.x.seq 0 0 < 4)) = true ∧
    is (f 0x01 0 [(0, [.drain]), (1, [.word 1])] {} [(15 * 32 + 1, 0x10), (5, 0x440)]) (fun c => c.cycleIns == [1] && c.atDrain 0 && c.room [0]) = true ∧
    is (f 0x01 0 [(1, [.word 1, .drain])] { drained := true, discard := [1] } []) (fun c => c.el.drained && c.el.discard == [1]) = true ∧
    headOf (getTile (f 0x01 0 [(24, [.drain])] {} []) 0) 24 = some .drain := by decide +kernel

theorem witness_tokenControls :
    let f (opc sub imm : Nat) (el : Elem) (a b d : List Token) : State :=
      withTile { slotTile [] opc sub 0x25 2 0x25 2 imm [(0, a), (1, b), (2, d)] with elems := [(0, el)] }
    let ok (s : State) (opc : Nat) (q : Ctx → Bool) : Bool := turnOk s opc fun c =>
      [0, 1, 2].all (fun j => inPol c.T 0 j == 0) && decide (c.olan 0 * fmtWidth (c.ofmt 0) ≤ 512) && q c
    [(.word 7 : Token), .empty, .word 0].all (fun t =>
      [0x50, 0x52, 0x56].all (fun opc => ok (f opc 0 0 {} [.word 9] [t] []) opc fun c => controlTrue c 1 t == (t == .word 7)) &&
      ok (f 0x51 0 0 {} [.word 9] [.word 8] [t]) 0x51 (fun c => controlTrue c 2 t == (t == .word 7)) &&
      ok (f 0x56 1 0 {} [t] [] []) 0x56 (fun c => isSet c.sub 0) &&
      [0, 1].all (fun sub => ok (f 0x57 sub 5 {} [t] [] []) 0x57 fun _ => true) && ok (f 0x55 0 2 {} [t] [] []) 0x55 (fun c => cfgv c.T 0 11 != 0) &&
      [0, 1, 2].all (fun n => ok (f 0x58 0 n {} [t] [] []) 0x58 fun _ => true)) = true ∧
    ok (f 0x53 0 2 { cnt := 1 } [] [.word 1] []) 0x53 (fun c => c.el.cnt == 1) = true ∧ ok (f 0x53 0 2 { cnt := 1 } [.word 1] [] []) 0x53 (fun _ => true) = true ∧
    ok (f 0x53 0 2 {} [.word 1] [.empty] []) 0x53 (fun c => c.el.cnt == 0) = true ∧
    [3, 0x13].all (fun sub => ok (f 0x54 sub 7 { cnt := 2 } [] [] []) 0x54 fun c => decide (c.el.cnt < c.sub % 16)) = true ∧
    ok (f 0x54 3 7 { cnt := 3 } [.empty] [] []) 0x54 (fun _ => true) = true := by decide +kernel
/-- Slot 0 ready with an age and a ticket count. -/
theorem witness_selector :
    let s (age tk : Nat) (free : Nat) : State := withTile { slotTile [(12, BitVec.ofNat 12 tk)] 0x07 0 0x24 2 0x24 2 0 [(0, [.word 1])] with
      elems := [(0, { age := age })], unitFree := free }
    let pick (s : State) := (selectorPick s 0).map fun r => (r.1, r.2.2)
    (getTile (s 0 0 0) 0).leaf = some (0, 0) ∧ pick (s 4032 1 0) = some (0, 7) ∧ pick (s 4031 1 0) = some (0, 7) ∧ pick (s 9 0 0) = some (0, 0) ∧
    (let z := updTile (s 0 5 0) 0 fun T => { T with seen := some [(0, 9)] }
     pick z = some (0, 7) ∧ pick (updTile z 0 fun T => { T with seen := some [] }) = none) ∧
    pick (s 0 0 1) = none ∧ tickets (s 0 5 0) (getSpan (s 0 5 0) 0) 0 0 = 5 := by decide +kernel

/-- An entry, offset or byte in range or beyond it, in buffer 0 of two entries of 64 bytes. -/
theorem witness_memoryElements :
    let f (opc sub i l o lo imm : Nat) (a b : Token) := withTile (slotTile [] opc sub i l o lo imm [(0, [a]), (1, [b])])
    let s := f 0x60 0 0x1F 0 0x24 2 0 (.word 1) (.word 2)
    (getSpan s (portSpan s (.slot 0 0))).det = false ∧
    turnOk (f 0x60 0 0x1F 0 0x1D 0 0 (.word 0) (.word 7)) 0x60 (fun c => fmtWidth (c.ofmt 0) * c.olan 0 == 6 && !c.entryFault 1) = true ∧
    [0x60, 0x61].all (fun opc => turnOk (f opc 0 0x1F 0 0x24 2 0 .empty .empty) opc fun c => (namedIns c.T 0).any fun j => c.tok j == .empty) = true ∧
    [(0 : Wide), 1, 2, 255].all (fun a => [0x60, 0x61].all fun opc => turnOk (f opc 0 0x1F 0 0x24 2 0 (.word a) (.word 7)) opc fun c =>
      wordsStand c && (c.entryFault 16 == (a == 2 || a == 255)) && (a == 2 || a == 255 || !isPoison s (2 ^ 48 + c.addr.toNat) 16)) = true ∧
    [0x60, 0x61].all (fun opc => turnOk (f opc 0 0x1F 0 0x24 2 63 (.word 0) (.word 7)) opc fun c => c.entryFault 16) = true ∧
    turnOk (f 0x60 4 0x1F 0 0x24 2 0 (.word 0) (.word 7)) 0x60 (fun c => wordsStand c && !c.entryFault 16) = true ∧
    [0, 8].all (fun sub => turnOk (f 0x31 sub 0x25 2 0x25 2 0 (.word (2 ^ 31 + 7)) (.word 0)) 0x31 fun c => wordsStand c && c.olan 0 == c.lan 0) = true ∧
    [0x62, 0x63].all (fun opc => [(0 : Wide), 124, 125, 128].all fun a => turnOk (f opc 0 0x25 0 0x25 0 0 (.word a) (.word 9)) opc fun c =>
      wordsStand c && c.olan 0 == c.lan 0 && c.lan 1 == c.lan 0 &&
      (match c.offsets 32 with | .ok _ => a == 0 || a == 124 | .error t => (t.1 == .ptrSpace && (a == 125 || a == 128)))) = true ∧
    [0x62, 0x63].all (fun opc => turnOk (f opc 0 0x25 0 0x25 0 0 (.word 2) (.word 9)) opc fun c =>
      match c.offsets 32 with | .ok _ => false | .error t => t.1 == .align) = true := by decide +kernel

/-- Entry 2 is READY at the head of queue 0 on die 0, with `tick` tickets and an age. -/
def readyState (tick age next : Nat) : State :=
  { State.reset with ctl := { State.reset.ctl with
      entries := [(2, BitVec.ofNat 512 (tick * 2 ^ 46 + 2 * 2 ^ 508))], qctl := [(0, 2 ^ 59)], ready := [(0, [2])]
      disp := [(0, { x := 1, ages := [(2, age)], nextAt := next })] } }
theorem witness_dispatched :
    (∀ tick ∈ [0, 1], ∀ age ∈ [0, 2 ^ 19],
      let s := readyState tick age 0
      (tget s.ctl.disp 0 {}).nextAt ≤ now s ∧ (getL s 0).v = false ∧ rivals s 0 0 2 ∧ ticksOf s 2 = tick ∧ tget (tget s.ctl.disp 0 {}).ages 2 0 = age) ∧
    now (readyState 1 0 1) < (tget (readyState 1 0 1).ctl.disp 0 {}).nextAt ∧ tget State.reset.ctl.ready 0 [] = [] := by
  unfold rivals; decide +kernel
/-- A graph of two sections, the second after the first: header at scratch 0, records at 0x1000, successor list at 0x2000. -/
def graphBytes : List (Nat × Byte) :=
  [(4, 1), (5, 0x20), (7, 1), (9, 0x10), (15, 0x10), (17, 0x20), (23, 0x10), (0x1003, 1), (0x1006, 0x11), (0x101A, 1), (0x1040, 1), (0x1044, 0x10),
   (0x1046, 0x11), (0x105A, 1), (0x2000, 1)]
def launched (l : Launch) : State := { State.reset with ctl := { State.reset.ctl with launches := [(0, { l with v := true })] } }
def okE {ε α : Type} (r : Except ε α) (q : α → Bool) : Bool := match r with | .ok a => q a | .error _ => false
def errAnd {ε α : Type} (r : Except ε α) (q : ε → Bool) : Bool := match r with | .ok _ => false | .error a => q a
theorem witness_graphChecked :
    let l : Launch := { img := BitVec.ofNat 512 ((2 ^ 60) * 2 ^ 64), v := true }
    let s := bytesAt graphBytes (launched l)
    let z := launched { l with img := BitVec.ofNat 512 ((2 ^ 60 + 8) * 2 ^ 64) }
    (getL s 0).v = true ∧ (getL s 0).checked = false ∧ (getL s 0).sst ≠ .killing ∧ okE (readGraph s (getL s 0)) (fun x => x.1.length == 2 && x.2.1 == [[1], []]) = true ∧
    errAnd (readGraph z (getL z 0)) (fun x => match x.2 with | .trap .. => true | _ => false) = true ∧ (getL z 0).failed = none := by decide +kernel

/-- Cluster 3 holds the configuration of a resident region; cluster 9 another one. -/
def residents : State :=
  { State.reset with clusters := [(3, { resid := some { laff := 1, saff := 2, anchor := 3, rh := 1, rw := 1 } }), (9, { resid := some { anchor := 9, rh := 1, rw := 1 } })] }
theorem witness_regions :
    chooseRegion residents {} 1 2 = some (3, true) ∧ chooseRegion residents {} 0 2 = some (0, false) ∧
    chooseRegion residents { rh := 8, rw := 8 } 1 2 = some (0, false) := by decide +kernel
/-- An armed section: its configuration of two words at scratch 0, its handler table at 0x100, where handler 0 runs. -/
def armedState (tn : Nat) : State :=
  let w : Nat := 0x11 * 2 ^ 48 + 2 ^ 60 * 2 ^ 128 + 2 ^ 16 * 2 ^ 192 + (2 ^ 60 + 0x100) * 2 ^ 384
  bytesAt [(0, 0x40), (7, 0x10), (12, 2), (0x42, 0x3E), (0x44, 0xE0), (0x45, 0x13), (0x46, 0x3E), (0x103, 0x80)]
    { launched { checked := true, img := BitVec.ofNat 512 (tn * 2 ^ 60), secs := [{ record := BitVec.ofNat 512 w, st := .armed 0 }] } with
      ctl := { (launched { checked := true, img := BitVec.ofNat 512 (tn * 2 ^ 60), secs := [{ record := BitVec.ofNat 512 w, st := .armed 0 }] }).ctl with place := [(0, [(0, 0)])] } }
/-- Its span before it is placed. -/
def armedSpan : Span := { rh := 1, rw := 1, cfgt := scratch 0 }
theorem witness_placed :
    (let s := armedState 0
     let l := getL s 0
     (l.secs.getD 0 {}).st = .armed 0 ∧ l.v = true ∧ l.failed = none ∧ l.sst = .running ∧ s.ctl.dogs = [] ∧ (0, 0) ∈ tget s.ctl.place (0 / 16) [] ∧
     wordAt (l.secs.getD 0 {}).record 6 = scratch 0x100 ∧ s.clusters = [] ∧ 0 < l.secs.length) ∧
    sectionSpan (armedState 0) 0 0 = armedSpan ∧ everFits (armedState 0) armedSpan = true ∧
    okE (checkRecords (armedState 0) armedSpan (scratch 0x100)) (fun b => b.length == 192) = true ∧ placeTurn (armedState 0) 0 0 = true ∧
    restoreFirst (armedState 0) 0 = false ∧ regionOf (armedState 0) 0 0 = some (0, false) ∧
    everFits (armedState 3) (sectionSpan (armedState 3) 0 0) = false := by decide +kernel
def startingState (p : Span) (c : Nat) : State :=
  { withSpan { p with starting := true, clearDue := 32, hs := [(0, { pend := true, pc := 8, entry := 8 })] } with cycle := BitVec.ofNat 64 c }
theorem witness_started :
    let z := startingState { span [] with loadPending := true } 50
    (getSpan z 0).live = true ∧ (getSpan z 0).starting = true ∧ (getSpan z 0).ended = false ∧ (getSpan z 0).loadPending = true := by decide +kernel
theorem witness_startedLater :
    now (startingState (span []) 47) < 32 + 16 ∧ 32 + 16 ≤ now (startingState (span []) 48) ∧ (getSpan (startingState (span []) 47) 0).clearDue = 32 ∧
    (getSpan (startingState (span []) 48) 0).args = 0 ∧ (getSpan (startingState (span []) 48) 0).loadPending = false := by decide +kernel
def argsState : State := startingState { span [] with args := scratch 0 } 48
theorem witness_startedArgs :
    okAnd (readRec argsState 0 (.device 0) (scratch 0) 128 1) (fun b => b.length == 128) = true := by decide +kernel

/-- Handler 0 has stopped and handler 1 waits. -/
def quietSpan : Span := { span [] with hs := [(0, {}), (1, { st := .waiting 3 })] }
theorem witness_spanIdle : SpanIdle (withSpan quietSpan) 0 quietSpan where
  first := by decide
  rest := fun h hh => by
    have h1 : ∀ h ≤ 1, (tget quietSpan.hs h {}).held = none ∧ ((tget quietSpan.hs h {}).st = .stopped ∨ (tget quietSpan.hs h {}).st = .waiting 3) := by decide
    exact ⟨(h1 h hh).1, (h1 h hh).2.imp id fun x => ⟨3, x⟩⟩
  tree := by decide
  array := by decide
  streams := fun x hx => absurd (show x ∈ ([] : List (Nat × Stream)) from hx) (List.not_mem_nil)
  tokens := by decide
theorem witness_retired :
    (∀ p ∈ [quietSpan, { span [] with isMatrix := true, tcnt := 2, sys := { emitted := 2 } }], let s := withSpan p
      (getSpan s 0).live = true ∧ (getSpan s 0).starting = false ∧ (getSpan s 0).ended = false ∧ (getSpan s 0).saved = false ∧
      (getL s (getSpan s 0).slot).sst ≠ .killing) ∧
    (tget (span []).hs 0 {}).st ≠ .stopped ∧
    (let s := withSpan { quietSpan with ended := true }
     let z : State := { s with ctl := { s.ctl with launches := [(0, { v := true, checked := true, entry := 5, secs := [{ st := .placed }, { preds := 1 }], succ := [[1], []] })] } }
     let l := getL z 0
     (getSpan z 0).live = true ∧ (getSpan z 0).ended = true ∧ l.sst ≠ .killing ∧ z.net.acc = [] ∧ z.net.bars = [] ∧ (getSpan z 0).det = false ∧
     (∀ x ∈ (getSpan z 0).hs, x.2.podFault = none) ∧ (getSpan z 0).sec < l.secs.length ∧ (l.succ.getD 0 []).Nodup ∧ 0 ∉ l.succ.getD 0 [] ∧
     (∀ n ∈ l.succ.getD 0 [], n < l.secs.length) ∧ (withAcc z [access .read 8 .dispatched]).net.acc ≠ [] ∧
     portSpan z (access .read 8 .dispatched).port = 0) := by decide +kernel
/-- A launch whose sections have retired, or that has failed: not null, or null, with one successor of its tenant that is ARMED. -/
def overLaunch (g : Nat) (f : Option (BitVec 8 × BitVec 12 × Cause × Word)) : State :=
  let s := launched { checked := true, entry := 5, failed := f, secs := [{ st := .retired }, { st := if f.isSome then .waiting else .ended }]
                      img := BitVec.ofNat 512 (g * 2 ^ 64 + (2 ^ 15 + 6) * 2 ^ 128) }
  { s with ctl := { s.ctl with tenants := [(0, (1 : Wide) <<< 319 + (1 : Wide) <<< 64)], entries := [(6, BitVec.ofNat 512 (1 + 2 ^ 508))] } }
theorem witness_launchRetired :
    ∀ g ∈ [0, 64], ∀ f ∈ [none, some (0x15, 0, .configReject, 0x15)],
      let s := overLaunch g f
      let l := getL s 0
      l.v = true ∧ l.checked = true ∧ l.sst ≠ .killing ∧ s.spans = [] ∧ (∀ x ∈ l.secs, x.st = .retired ∨ x.st = .ended ∨ (x.st = .waiting ∧ l.failed ≠ none)) ∧
      eState s 6 = 1 ∧ ePcnt s 6 = 1 ∧ roomForRecord s 0 ∧ lDet l = false ∧ l.img.toNat / 2 ^ 64 % 2 ^ 64 = g ∧
      ¬ ∀ x ∈ (getL (armedState 0) 0).secs, x.st = .retired ∨ x.st = .ended ∨ (x.st = .waiting ∧ (getL (armedState 0) 0).failed ≠ none) := by
  unfold roomForRecord; decide +kernel

/-- A store of v to the CONTROL word at `off`, next to perform. -/
def ctlAcc (off : Nat) (v : Word) : Access :=
  { access (.write ((List.range 8).map fun i => BitVec.ofNat 8 (v.toNat / 2 ^ (8 * i)))) 8 .dispatched with
    ptr := 0x4000000000000000, key := some (2 ^ 80 + off) }
theorem ctlStore_of (s : State) (off : Nat) (v : Word) (h : off % 8 = 0) (h1 : off < 2 ^ 24) :
    CtlStore (withAcc s [ctlAcc off v]) 1 (ctlAcc off v) off v :=
  ⟨rfl, rfl, rfl, ⟨rfl, rfl, h, h1⟩, rfl, rfl⟩
/-- Entry 2 at state st with PCNT n. -/
def entryAt (st n : Nat) : State :=
  { withRegs [] with ctl := { (withRegs []).ctl with entries := [(2, BitVec.ofNat 512 (n + st * 2 ^ 508))], qctl := [(0, 2 ^ 59)] } }
theorem witness_entryStores :
    (∀ i < 8, ∀ st < 7, ∀ n < 2, CtlStore (withAcc (entryAt st n) [ctlAcc (0x80 + 8 * i) (BitVec.ofNat 64 (2 ^ 60))]) 1 (ctlAcc (0x80 + 8 * i) (BitVec.ofNat 64 (2 ^ 60)))
        (0x80 + 8 * i) (BitVec.ofNat 64 (2 ^ 60))) ∧
    (∀ st ∈ List.range 7, ∀ n ∈ List.range 2, let s := entryAt st n
      portTenant s (access .read 8 .dispatched).port = 0 ∧ ownsEntry s 0 2 ∧ (rests s 2 ↔ st = 0 ∨ st = 4 ∨ st = 5 ∨ st = 6) ∧
      fieldOf (entryW s 2 0) 59 54 = 0 ∧ fieldOf (qword s 0) 59 59 = 1 ∧ fieldOf (qword s 0) 63 60 = fieldOf (entryW s 2 0) 63 60 ∧
      fieldOf (entryW s 2 0) 31 0 = n ∧ fieldOf (entryW s 2 7) 63 60 = st) ∧
    (∀ i < 7, (0x80 + 8 * i) % 64 / 8 = i ∧ (0x80 + 8 * i) % 8 = 0) ∧ fieldOf 0 44 32 = 0 ∧ fieldOf 0 31 0 = 0 ∧ fieldOf (2 ^ 32) 44 32 ≠ 0 := by
  refine ⟨fun i hi st _ n _ => ctlStore_of _ _ _ (by omega) (by omega), ?_, by decide, by decide⟩
  unfold ownsEntry rests
  decide +kernel
/-- A store and an atomic of 4 bytes on PCNT. -/
theorem witness_pcntStores :
    ∀ st ∈ [0, 1, 2, 6], ∀ new ∈ [0, 2 ^ 32 - 1],
      ∀ k ∈ [AKind.write ((List.range 4).map fun i => BitVec.ofNat 8 (new / 2 ^ (8 * i))), .amo .swap false (BitVec.ofNat 64 new) 0],
      let a := { access k 4 .dispatched with key := some (2 ^ 80 + 0x80) }
      let s := withAcc (entryAt st 1) [a]
      findAcc s 1 = some a ∧ ctlTurn s a = true ∧ isSc a = false ∧ fieldOf (entryW s 2 7) 63 60 = st ∧
      new = (atomicGives .swap (BitVec.ofNat 32 (entryW s 2 0).toNat) (BitVec.ofNat 32 (BitVec.ofNat 64 new).toNat) 0).toNat := by decide +kernel

def withCtl (f : Control → Control) : State := { withRegs [] with ctl := f (withRegs []).ctl }
theorem witness_qctlStores :
    CtlStore (withAcc (withCtl id) [ctlAcc (2 ^ 18 + 8) (2 ^ 59)]) 1 (ctlAcc (2 ^ 18 + 8) (2 ^ 59)) (2 ^ 18 + 8) (2 ^ 59) ∧
    [((0 : Word), (2 : Word) ^ 59), (3 * 2 ^ 41, 0), (0, 2 ^ 55 + 20 * 2 ^ 49 + 10 * 2 ^ 44), (0, 2 ^ 55 + 44 * 2 ^ 49 + 24 * 2 ^ 44)].all (fun c =>
      let v := c.2
      decide (fieldOf v 57 56 = 0 ∧ fieldOf v 40 32 = 0 ∧ fieldOf v 31 16 = 0 ∧ (fieldOf v 43 41 = fieldOf c.1 43 41 ∨ (fieldOf c.1 43 41 = 3 ∧ fieldOf v 43 41 = 0)) ∧
        (fieldOf v 55 55 = 1 → 20 ≤ fieldOf v 54 49 ∧ fieldOf v 54 49 ≤ 44 ∧ 10 ≤ fieldOf v 48 44 ∧ fieldOf v 48 44 ≤ 24))) = true ∧ fieldOf (2 ^ 56) 57 56 ≠ 0 :=
  ⟨ctlStore_of _ _ _ (by decide) (by decide), by decide +kernel, by decide +kernel⟩
theorem witness_tenantStores :
    (∀ i < 8, CtlStore (withAcc (withCtl id) [ctlAcc (2 ^ 19 + 64 + 8 * i) 0]) 1 (ctlAcc (2 ^ 19 + 64 + 8 * i) 0) (2 ^ 19 + 64 + 8 * i) 0) ∧
    (∀ i < 8, (2 ^ 19 + 64 + 8 * i) % 2 ^ 18 / 64 = 1 ∧ (2 ^ 19 + 64 + 8 * i) % 2 ^ 18 % 64 / 8 = i) ∧
    ([0, 6, 20] : List Word).all (fun x => decide (fieldOf x 63 52 = 0 ∧ fieldOf x 11 6 = 0 ∧ (fieldOf x 5 0 = 0 ∨ (6 ≤ fieldOf x 5 0 ∧ fieldOf x 5 0 ≤ 20)))) = true ∧
    (∀ m < 16, fieldOf (tw (withCtl id) m 4) 63 63 = 1 → m = 0 ∧ fieldOf (tw (withCtl id) m 4) 9 0 ≠ fieldOf (2 ^ 63 + 7 : Word) 9 0) ∧
    ([0, 10 * 2 ^ 32, 30 * 2 ^ 32] : List Word).all (fun x => decide (fieldOf x 39 32 = 0 ∨ (10 ≤ fieldOf x 39 32 ∧ fieldOf x 39 32 ≤ 30))) = true ∧
    ((List.range 16).map fun m => if m = 1 then (128 : Nat) else if fieldOf (tw (withCtl id) m 5) 63 63 = 1 then fieldOf (tw (withCtl id) m 5) 62 56 else 0).sum ≤ 128 ∧
    fieldOf (tw (withCtl id) 1 6) 63 63 = 0 ∧ fieldOf (tw (withCtl fun c => { c with tenants := [(1, (1 : Wide) <<< 447)] }) 1 6) 63 63 = 1 := by
  refine ⟨fun i hi => ctlStore_of _ _ _ (by omega) (by omega), by decide, by decide +kernel, by decide +kernel, by decide +kernel, by decide +kernel, by decide +kernel⟩
/-- Word 0 of a valid HBM window and of a valid SRAM window, stored where word 1 gives it size and base; nothing else is listed. -/
theorem witness_windowStores :
    CtlStore (withAcc (withCtl id) [ctlAcc (3 * 2 ^ 18) (2 ^ 59)]) 1 (ctlAcc (3 * 2 ^ 18) (2 ^ 59)) (3 * 2 ^ 18) (2 ^ 59) ∧
    ([0, 2 ^ 59, 2 ^ 59 + 2 ^ 58] : List Word).all (fun v =>
      let s := withCtl fun c => { c with windows := [(0, BitVec.ofNat 128 (2 ^ 96))] }
      let w := (tget s.ctl.windows 0 0).toNat
      let new := w / 2 ^ 64 * 2 ^ 64 + v.toNat
      decide (fieldOf v 57 0 = 0 ∧ 1 ≤ new / 2 ^ 96 % 2 ^ 32 ∧ (if new / 2 ^ 58 % 2 = 1 then new / 2 ^ 64 % 2 ^ 32 / 512 < 12 ∧ new / 2 ^ 64 % 2 ^ 32 % 512 + new / 2 ^ 96 % 2 ^ 32 ≤ 512
        else hbmExists (new / 2 ^ 64 % 2 ^ 32 * 65536) (new / 2 ^ 96 % 2 ^ 32 * 65536) = true) ∧ fieldOf (tw s (w / 2 ^ 60 % 2 ^ 4) 7) 7 0 = 0)) = true :=
  ⟨ctlStore_of _ _ _ (by decide) (by decide), by decide +kernel⟩
theorem witness_ownerStores :
    CtlStore (withAcc (withCtl id) [ctlAcc (5 * 2 ^ 18 + 16) 3]) 1 (ctlAcc (5 * 2 ^ 18 + 16) 3) (5 * 2 ^ 18 + 16) 3 ∧
    (let s := withCtl id
     (5 * 2 ^ 18 + 16) / 2 ^ 22 * 64 + (5 * 2 ^ 18 + 16) % 2 ^ 18 / 8 = 2 ∧ fieldOf 3 3 0 ≠ fieldOf (tget s.ctl.owners 2 0) 3 0 ∧ fieldOf 3 62 4 = 0 ∧
     fieldOf 0 3 0 = fieldOf (tget s.ctl.owners 2 0) 3 0 ∧
     fieldOf (tget s.ctl.owners 2 0) 63 63 = 0 ∧ (getClus s 2).span = none ∧ (∀ p ∈ s.spans, 2 ∉ regionRanks p.2) ∧ fieldOf (tw s 0 7) 7 0 = 0) :=
  ⟨ctlStore_of _ _ _ (by decide) (by decide), by decide +kernel⟩

/-- The span runs for slot 0, whose launch l is. -/
def slotState (l : Launch) (p : Span) : State := withSpan p |> fun s => { s with ctl := { s.ctl with
  launches := [(0, { l with v := true, checked := true, entry := 5 })], windows := [(0, BitVec.ofNat 128 (2 ^ 59 + 2 ^ 96 * 2 ^ 16))] } }
theorem witness_launchControl (v : Word) (i : Nat) (hi : i < 2) (l : Launch) (p : Span) :
    CtlStore (withAcc (slotState l p) [ctlAcc (4 * 2 ^ 18 + 8 * i) v]) 1 (ctlAcc (4 * 2 ^ 18 + 8 * i) v) (4 * 2 ^ 18 + 8 * i) v :=
  ctlStore_of _ _ _ (by omega) (by omega)
theorem witness_launchCommands :
    (∀ c < 4, fieldOf (BitVec.ofNat 64 (c * 2 ^ 56)) 33 0 = 0 ∧ fieldOf (BitVec.ofNat 64 (c * 2 ^ 56)) 59 56 = c) ∧
    (∀ x ∈ [Sst.running, .frozen, .preempting, .preempted, .killing], (getL (slotState { sst := x } (span [])) 0).sst = x) ∧
    (let s := slotState { sst := .preempted } { span [] with saved := true }
     spansOf s 0 = [0] ∧ (getSpan s 0).saved = true) ∧
    (let s := slotState { sst := .frozen } { span [] with trap := some { h := 0 }, toSys := true, frozen := true }
     spansOf s 0 = [0] ∧ (getSpan s 0).trap = some { h := 0 } ∧ (getSpan s 0).toSys = true ∧ (getSpan s 0).fabric = none ∧
     ∀ x ∈ (getSpan s 0).hs, x.2.held = none) ∧
    (let s := slotState {} (span [])
     let w := window (BitVec.ofNat 128 (2 ^ 59 + 2 ^ 96 * 2 ^ 16))
     w.v = true ∧ w.sram = false ∧ w.owner = 0 ∧ w.base = 0 ∧ (getL s 0).save.toNat * 2 ^ 16 + areaOf s 0 ≤ (w.base + w.size) * 2 ^ 16 ∧
     (∃ q ∈ spansOf s 0, (getSpan s q).saved = false)) ∧
    fieldOf (5 * 2 ^ 16 : Word) 63 52 = 0 ∧ fieldOf (5 * 2 ^ 16 : Word) 15 0 = 0 := by decide +kernel

/-- A quiesced span whose handlers rest. -/
def quiesced : Span := { quietSpan with quiesced := true }
theorem witness_hasDrained : HasDrained (slotState { sst := .preempting } quiesced) 0 where
  quiesced := rfl
  leaves := fun n hn => absurd (show n ∈ ([] : List Node) from hn) (List.not_mem_nil)
  words := by
    have h : ∀ h < 16, (getH (slotState { sst := .preempting } quiesced) 0 h).op = none := by decide
    exact fun k hk => .inl (h k hk)
  accesses := ⟨fun n hn => absurd (show n ∈ ([] : List Access) from hn) (List.not_mem_nil), fun n hn => absurd (show n ∈ ([] : List BarUpd) from hn) (List.not_mem_nil)⟩
  collapses := rfl
  jobs := fun n hn => absurd (show n ∈ ([] : List (Nat × Stream)) from hn) (List.not_mem_nil)
theorem witness_preempt :
    (let s := slotState { sst := .preempting } quiesced
     (getSpan s 0).live = true ∧ (getSpan s 0).saved = false ∧ (getSpan s 0).ended = false ∧ (getSpan s 0).starting = false ∧
     (getL s (getSpan s 0).slot).sst = .preempting ∧ s.tiles = [] ∧ regionRanks (getSpan s 0) = [0]) ∧
    (let u := slotState { sst := .preempted, resume := true } { quiesced with saved := true }
     (getL u 0).resume = true ∧ (getL u 0).sst = .preempted ∧ takeable u 0 0 ∧ (getSpan u 0).saved = true ∧ (getSpan u 0).saveAt % 2 ^ 16 = 0 ∧
     (getSpan u 0).saveAt + (getSpan u 0).rh * (getSpan u 0).rw * 10551296 + 16384 ≤ 2 ^ 48) ∧
    (getL (slotState { sst := .preempted } { quiesced with saved := true }) 0).resume = false ∧
    (let s := { slotState { sst := .preempting } (span []) with cycle := 1048576 }
     (getL s 0).v = true ∧ (getL s 0).sst = .preempting ∧ fieldOf (tw s 0 5) 39 32 = 0 ∧ 0 + 2 ^ 20 ≤ now s ∧ spansOf s 0 = [0] ∧ (getSpan s 0).saved = false ∧
     (getSpan s 0).quiesced = false) := by unfold takeable; decide +kernel
theorem witness_notDrained : ¬ HasDrained (slotState { sst := .preempting } (span [])) 0 := fun h => by cases h.quiesced
theorem witness_killDone :
    let s : State := slotState { sst := .killing } { quietSpan with ended := true } |> fun s => { s with
      clusters := [(0, { span := some 0 })], ctl := { s.ctl with tenants := [(0, (1 : Wide) <<< 64 + (1 : Wide) <<< 448)] } }
    let a := { access .read 8 .dispatched with ptr := 0x5000000000000000 }
    (getL s 0).v = true ∧ (getL s 0).sst = .killing ∧ s.net.acc = [] ∧ spansOf s 0 = [0] ∧ (getClus s 0).span = some 0 ∧ roomForRecord s 0 ∧
    portSpan (withAcc s [a]) a.port = 0 ∧ pSpace a.ptr = 5 ∧ a.tag ≠ .probe := by unfold roomForRecord; decide +kernel

/-- Queue 0 with a watchdog of 2^20 cycles and a grace of 2^10, at WST st; its launch holds slot 0. -/
def dogState (st : Nat) (d : Dog) (c : Nat) : State := slotState {} (span []) |> fun s => { s with
  cycle := BitVec.ofNat 64 c, ctl := { s.ctl with qctl := [(0, BitVec.ofNat 64 (2 ^ 55 + 20 * 2 ^ 49 + 10 * 2 ^ 44 + st * 2 ^ 41))], dogs := [(0, d)], tenants := [(0, (1 : Wide) <<< 64)] } }
theorem witness_watchdog :
    (∀ st < 4, let w := qword (dogState st {} 0) 0
      fieldOf w 55 55 = 1 ∧ fieldOf w 43 41 = st ∧ fieldOf w 54 49 = 20 ∧ fieldOf w 48 44 = 10 ∧ fieldOf w 63 60 = 0) ∧
    (tget (dogState 0 { timer := 1048576 } 0).ctl.dogs 0 {}).timer = 2 ^ 20 ∧ (tget (dogState 0 { timer := 1048575 } 0).ctl.dogs 0 {}).timer < 2 ^ 20 ∧
    (let s := dogState 1 { since := 7 } 1031
     (tget s.ctl.dogs 0 {}).since + 2 ^ 10 ≤ now s ∧ now { s with cycle := 1030 } < (tget s.ctl.dogs 0 {}).since + 2 ^ 10 ∧ (s.ctl.launches.map (·.1)).Nodup ∧
     (0, getL s 0) ∈ s.ctl.launches ∧ (getL s 0).v = true ∧ (getL s 0).img.toNat / 2 ^ 54 % 2 ^ 6 = 0 ∧ spansOf s 0 = [0]) ∧
    (let s := dogState 2 { since := 7, clusters := [3] } 65543
     (tget s.ctl.dogs 0 {}).slots = [] ∧ (tget s.ctl.dogs 0 {}).since + 65536 ≤ now s) ∧
    (tget (dogState 2 { slots := [0] } 0).ctl.dogs 0 {}).slots ≠ [] ∧ roomForRecord (dogState 2 {} 0) 0 ∧ (tget (dogState 2 {} 0).ctl.dogs 0 {}).clusters = [] := by
  unfold roomForRecord; decide +kernel
theorem witness_ownerClear :
    let s (c : Nat) : State := withCtl (fun x => { x with owners := [(2, 2 ^ 63 + 3)] }) |> fun s => { s with cycle := BitVec.ofNat 64 c, clusters := [(2, { clearDue := 65536 })] }
    fieldOf (tget (s 0).ctl.owners 2 0) 63 63 = 1 ∧ now (s 65535) < (getClus (s 0) 2).clearDue ∧ (getClus (s 0) 2).clearDue ≤ now (s 65536) ∧
    fieldOf (tget (withCtl id).ctl.owners 2 0) 63 63 = 0 := by decide +kernel

def inHbm : State := withCtl fun c => { c with windows := [(0, BitVec.ofNat 128 (2 ^ 59 + 2 ^ 96))] }
theorem witness_peerRequests :
    let w := window (BitVec.ofNat 128 (2 ^ 59 + 2 ^ 96))
    w.v = true ∧ w.sram = false ∧ w.base * 2 ^ 16 ≤ 0xFF00 ∧ 0xFF00 + 256 ≤ (w.base + w.size) * 2 ^ 16 ∧ 0xFF00 % 2 ^ 8 + 256 ≤ 2 ^ 8 ∧ 0xFF08 % 8 = 0 ∧
    isPoison inHbm 0xFF00 256 = false ∧ isPoison { inHbm with poison := [0xFF00 / 64] } 0xFF00 256 = true ∧ ¬ (0xFF01 % 2 ^ 8 + 256 ≤ 2 ^ 8) ∧
    ¬ (0x10000 + 1 ≤ (w.base + w.size) * 2 ^ 16) := by decide +kernel
/-- Tenant 0's block names node 0 at reset; CONTROL words that a tenant may read and write, and one that is not mapped. -/
theorem witness_aperture :
    let s := State.reset
    fieldOf (tw s 0 4) 63 63 = 1 ∧ fieldOf (tw s 0 4) 9 0 = 0 ∧ (∀ m < 16, fieldOf (tw s m 4) 63 63 = 1 → fieldOf (tw s m 4) 9 0 ≠ 5) ∧
    ctlMapped 0x80 = true ∧ ctlMapped (7 * 2 ^ 18) = false ∧ ctlReadOk s 0 0x80 = true ∧
    (∀ i < 16, ctlMapped (0x80 + i) = true ∧ ctlReadOk s 0 (0x80 + i) = true) ∧
    (ctlStore s 0 0x80 0 8 (fun _ => 7) true).isSome = true ∧ (ctlStore s 0 0x80 0 8 (fun _ => 2 ^ 32) true).isNone = true := by decide +kernel
theorem witness_module :
    State.reset.power = true ∧ { State.reset with power := false }.power = false ∧ State.reset.spans = [] ∧ State.reset.firm.rollback.toNat ≤ (0 : BitVec 64).toNat ∧
    (0 : BitVec 64).toNat < ({ State.reset.firm with rollback := 1 }).rollback.toNat ∧ hbmExists 0 64 = true ∧ hbmExists (64 * (2 ^ 40)) 64 = false ∧
    2 ^ 49 ≤ 64 * 2 ^ 43 ∧ 64 * 2 ^ 43 < 2 ^ 49 + 2 ^ 30 ∧ 2 ^ 51 ≤ 64 * 2 ^ 45 ∧ 64 * 2 ^ 45 < 2 ^ 51 + 4096 * 2 ^ 17 := by decide +kernel

/-- Every word that the decode tests above write out is a well-formed control word. -/
theorem witness_encoding : (Instr.nop .next).isWord = true ∧ (Instr.nop .next).wf = true ∧ decode 0x0000F00000000000 = some (.nop .next) := by decide
theorem witness_pick :
    let p (rot : Tab Nat) (hs : Tab Handler) : Span := { span [] with nhnd := 15, hs := hs, rot := rot }
    let r (n : BitVec 3) : Handler := { st := .runnable, prio := n }
    pickHandler (p [] [(0, r 3), (15, r 3)]) = some 0 ∧ pickHandler (p [(3, 0)] [(0, r 3), (15, r 3)]) = some 15 ∧
    pickHandler (p [] [(0, r 3), (7, r 4)]) = some 7 ∧ pickHandler (p [] [(0, { r 3 with mask := true })]) = none ∧
    (span []).live = true ∧ (span []).starting = false ∧ (span []).saved = false ∧ (span []).ended = false ∧ (span []).frozen = false ∧
    (span []).quiesced = false := by decide
/-- The schedule names one issue of span 0 after no cycle: its line stands in the buffer, or not; its word decodes and passes the checks. -/
def toIssue (b : Tab (List Word)) (i : Instr) : State := { withSpan { span [] with pbuf := b } with sched := { agenda := [(0, i)], nextId := 9 } }
theorem witness_steps :
    (∀ i ∈ [Instr.handlerIssue 0, .nop .next, .powerOn], (toIssue [] i).sched.agenda = (0, i) :: [] ∧ (toIssue [] i).power = true) ∧
    (let s := passCycles 0 { toIssue [(1, [0xF00000000000])] (.handlerIssue 0) with sched := { nextId := 9 } }
     pickHandler (getSpan s 0) = some 0 ∧ tfind (getSpan s 0).pbuf ((getH s 0 0).pc.toNat / 8) = some [0xF00000000000] ∧
     tget (getSpan s 0).pbufGaps ((getH s 0 0).pc.toNat / 8) [] = [] ∧ decode (nth [0xF00000000000] ((getH s 0 0).pc.toNat % 8) 0) = some (.nop .next) ∧
     issueCheck { updSpan s 0 (fun p => { p with rot := tput p.rot 0 0 }) with cur := { sp := 0, h := 0, pc := 8, word := 0xF00000000000 } } (.nop .next) = none) ∧
    tfind (getSpan (toIssue [] (.handlerIssue 0)) 0).pbuf ((getH (toIssue [] (.handlerIssue 0)) 0 0).pc.toNat / 8) = none := by decide +kernel
/-- A step of that machine runs the word: the handler goes on at the next one. -/
theorem test_step_runs_word :
    (getH (after (step (toIssue [(1, [0xF00000000000])] (.handlerIssue 0)))) 0 0).pc = 9 := by decide +kernel
/-- A word placed to be fetched from reset runs in the next step. -/
theorem test_fetch_word : rdReg (after (step (State.reset.withFetchWord 64 0x00001714FFFFFFFE))) 0 0 5 = 0xFFFFFFFFFFFFFFFE := by decide +kernel
theorem witness_memoryKept : MemoryKept State.reset ∧ Powered State.reset := ⟨rfl, rfl⟩

/-! ## Witnesses, continued: words of one cycle, own traps, the SC order, peers, jobs -/

/-- The two entries of channel 0 are words that this cycle's sends have placed, or one of them is older. -/
theorem witness_headOpen :
    let s (k : Nat × Nat) := withSpan { spanCh [.word 7, .empty] with chNow := [(0, k)] }
    headOpen (curSpan (s (0, 2))) 0 = true ∧ headOpen (curSpan (s (1, 1))) 0 = true ∧ headOpen (curSpan (s (0, 1))) 0 = false ∧
    headOpen (curSpan (withSpan (spanCh [.word 7, .empty]))) 0 = false := by decide
/-- Link 1 of tile 0 ends on channel 0, holds a word or a drain token, and the channel has one entry left; the last of the 7 entries is a
token of this cycle. -/
theorem witness_linkArrival :
    let s (x : HState) (k : Token) : State := { withSpan { spanCh (List.replicate 7 .empty) with
        chNow := [(0, (1, 0))], hs := [(0, { st := x, pc := 8 }), (1, {})] } with
      clusters := [(0, { span := some 0 })], tiles := [(0, { bufs := [(27, [k])], cfg := [(508, 0xC00)] })] }
    ∀ x ∈ [HState.stopped, .waiting 0, .waiting 63, .runnable], ∀ k ∈ [Token.word 5, .empty, .drain],
      let z := s x k
      let kind := (tget (getTile z 0).cfg (15 * 32 + 27 + 1) 0).toNat
      (getSpan z 0).live = true ∧ (getSpan z 0).saved = false ∧ (getClus z (0 / 16)).span = some 0 ∧ kind / 2 ^ 10 % 2 ^ 2 = 3 ∧ kind % 2 ^ 6 = 0 ∧
      (tget (getSpan z 0).ch 0 []).length < 8 ∧ tget (getTile z 0).bufs 27 [] = k :: [] ∧ (tget (getTile z 0).waits 27 []).length ≤ 0 ∧
      tfind (getSpan z 0).chmap 0 = some 0 ∧ (getH z 0 0).st = x := by decide +kernel
/-- The trap handler runs, with no trap delivered, or with one: its own trap, and a double trap. -/
def trapping (o : Option Trap) : State :=
  { withSpan { span [] with trap := o, hs := [(0, { st := .blocked, pc := 8 }), (1, { st := .runnable, entry := 64, pc := 70, regs := [(4, 77)] })] } with
    cur := { sp := 0, h := 1, pc := 70 } }
theorem witness_ownTraps :
    (let s := trapping none
     noTrap s 0 ∧ (getSpan s 0).ten = true ∧ s.cur.h < 16 ∧ s.cur.h = (getSpan s 0).thnd) ∧
    (let s := trapping (some { h := 0, pc := 8 })
     (getSpan s 0).trap.isSome = true ∧ (getSpan s 0).toSys = false ∧ (getSpan s 0).ten = true ∧ s.cur.h = (getSpan s 0).thnd ∧
     (getSpan s 0).live = true ∧ (getL s (getSpan s 0).slot).v = true ∧ (getL s (getSpan s 0).slot).sst ≠ .killing) ∧
    (let tr : Trap := { h := 1, pc := 70 }
     let p := getSpan (trapping (some tr)) 0
     p.trap = some tr ∧ p.ten = true ∧ p.toSys = false ∧ (trapping (some tr)).cur.h = p.thnd ∧ p.fabric = none ∧
     (∀ g, g ≠ tr.h → (getH (trapping (some tr)) 0 g).held = none) ∧ tr.agent = 0 ∧ (tget p.csr 0x20 0).getLsbD 63 = false ∧ tr.h = p.thnd) := by
  refine ⟨⟨noTrap_of _ _ rfl rfl (by decide), rfl, by decide, rfl⟩, ⟨rfl, rfl, rfl, rfl, rfl, rfl, by decide⟩,
    rfl, rfl, rfl, rfl, rfl, fun g _ => held_none _ (by decide) g, rfl, by decide, rfl⟩
/-- A fabric fault whose FRZ software has cleared. -/
theorem witness_eretCleared :
    let tr : Trap := { agent := 1 }
    let s := { withSpan { span [] with trap := some tr, frozen := true, hs := [(0, {}), (1, { st := .runnable })] } with cur := { h := 1 } }
    let p := getSpan s s.cur.sp
    p.trap = some tr ∧ p.ten = true ∧ p.toSys = false ∧ s.cur.h = p.thnd ∧ p.fabric = none ∧ (∀ g, (getH s s.cur.sp g).held = none) ∧
    tr.agent ≠ 0 ∧ (tget p.csr 0x20 0).getLsbD 63 = false :=
  ⟨rfl, rfl, rfl, rfl, rfl, held_none _ (by decide), by decide, by decide⟩

/-- Two registers of QCTL whose second word is past the layout of CONTROL: the word may begin (R446). -/
theorem witness_beginsInControl :
    let s := withRegs [(1, 0x40000000000401F8)]
    beginsOk (reg s 1) 16 = true ∧ ptrOk (reg s 1) 16 = false ∧ pOff (reg s 1) % 8 = 0 ∧ pSpace (reg s 1) = 4 ∧ reachable s (reg s 1) 16 false 8 ∧
    beginsOk 0x4000000000040200 16 = false := by unfold reachable; decide
/-- A recorded fault of a posted SC write, for which each kind of memory word waits; one of another write, for which a plain word does not. -/
theorem witness_failedSc :
    let s (b : Bool) := updH (withRegs [(1, scratch 8)]) 0 0 fun x => { x with podFault := some (.podTimeout, 5, b) }
    faultDue (s true) false .plain .tile = some (.podTimeout, 5) ∧ faultDue (s true) false .acq .tile = some (.podTimeout, 5) ∧
    faultDue (s false) false .plain .tile = none ∧ faultDue (s false) true .plain .tile = none ∧
    faultDue (s false) true .sc .pod = some (.podTimeout, 5) ∧ noFailedSc (s false) ∧ noFailedSc (withRegs []) := by
  refine ⟨by decide, by decide, by decide, by decide, by decide, ?_, ?_⟩ <;> intro f h <;> cases h <;> rfl

/-- An access that is alone in its port and dispatched has its turn when the SC order lets it. -/
theorem inTurn_of (s : State) (a : Access) (h : s.net.acc = [a]) (h1 : a.stat = .dispatched) (h2 : scTurn s a) : InTurn s a.id a where
  here := by simp [findAcc, h]
  dispatched := h1
  turn := fun e he => by simp [aheadOf, h] at he
  sc := h2
/-- An SC access of scope sc, at the home k, of handler 0, whose die is 0: with the token at the node of its home or elsewhere, and g grants;
with serialiser d of the die. -/
def scAccess (k : AKind) (sc : Scope) (key : Option Nat) : Access := { access k 8 .dispatched with ord := .sc, scope := sc, key := key }
def scState (a : Access) (node g d : Nat) : State :=
  let s := withAcc (withRegs []) [a]
  { s with net := { s.net with scNode := node, scGrants := g, serial := [(0, d)] } }
def scRing : Access := scAccess .read .module (some (2 ^ 49))
def scDie : Access := scAccess .read .die (some (2 ^ 49))
def scFence : Access := { scAccess (.fence .sc) .module none with n := 0 }
theorem ringTurn_of (node g d : Nat) (h : node = 0 ∧ g < 8) : scTurn (scState scRing node g d) scRing :=
  fun _ => ⟨fun _ => ⟨h.1.symm, h.2⟩, fun h1 => absurd (.inl rfl) h1⟩
theorem dieTurn_of (d : Nat) (h : tget (scState scDie 5 8 d).net.serial (portDie (scState scDie 5 8 d) scDie.port) 0 = 0 ∨
    tget (scState scDie 5 8 d).net.serial (portDie (scState scDie 5 8 d) scDie.port) 0 = scDie.id + 1) : scTurn (scState scDie 5 8 d) scDie :=
  fun _ => ⟨fun h1 => (by rcases h1 with h1 | h1 <;> cases h1), fun _ => h⟩
theorem witness_scPerforms :
    isSc scRing = true ∧ ringOrders scRing ∧ isSc scDie = true ∧ ¬ ringOrders scDie ∧ isFence scFence.kind = true ∧ scFence.key = none ∧
    scTurn (scState scRing 0 7 9) scRing ∧ scTurn (scState scDie 5 8 0) scDie ∧ scTurn (scState scDie 5 8 2) scDie ∧
    ¬ scTurn (scState scRing 1 7 0) scRing ∧ ¬ scTurn (scState scRing 0 8 0) scRing ∧ ¬ scTurn (scState scDie 0 0 9) scDie ∧
    scTurn (scState scFence 0 0 0) scFence :=
  ⟨rfl, .inl rfl, rfl, fun h => (by rcases h with h | h <;> cases h), rfl, rfl, ringTurn_of _ _ _ ⟨rfl, by decide⟩, dieTurn_of 0 (by decide),
   dieTurn_of 2 (by decide), fun h => absurd ((h rfl).1 (.inl rfl)).1 (by decide), fun h => absurd ((h rfl).1 (.inl rfl)).2 (by decide),
   fun h => absurd ((h rfl).2 fun h => by rcases h with h | h <;> cases h) (by decide), fun _ => ⟨fun _ => ⟨rfl, by decide⟩, fun h => absurd (.inl rfl) h⟩⟩
theorem witness_mayPerformSc : MayPerform (scState scRing 0 7 9) 1 scRing (2 ^ 49) :=
  { inTurn_of _ scRing rfl rfl (ringTurn_of _ _ _ ⟨rfl, by decide⟩) with home := rfl, memory_ := .inl (by decide), sound := by decide, free := rfl }
theorem plainTurn (s : State) (a : Access) (h : isSc a = false) : scTurn s a := fun h1 => by rw [h] at h1; cases h1
/-- An access to a peer's byte. -/
theorem witness_mayPerformPeer : ∃ s a, MayPerform s 1 a (2 ^ 64 + 2 ^ 52 * 4095) ∧ a.kind = .write [1, 2] :=
  let a : Access := { access (.write [1, 2]) 2 .dispatched with key := some (2 ^ 64 + 2 ^ 52 * 4095) }
  ⟨withAcc (withRegs []) [a], a, { inTurn_of (withAcc (withRegs []) [a]) a rfl rfl (plainTurn _ _ rfl) with
     home := rfl, memory_ := .inr ⟨by decide, rfl⟩, sound := by decide, free := rfl }, rfl⟩
/-- Reads of CONTROL space: of a mapped word, of one past the layout, of one that tenant 1 may not read, of the second word of an lds once
the first is there, and counted waits of both widths, whose condition holds or not. -/
def ctlRead (k : AKind) (n o : Nat) : Access := { access k n .dispatched with ptr := 0x4000000000000000, key := some (2 ^ 80 + o) }
theorem mayReadControl_of (tn : BitVec 4) (k : AKind) (n o : Nat) (h : k = .read ∨ ∃ c cmp, k = .cwait c cmp ∧ (n = 8 ∨ n = 4))
    (h1 : isSc (ctlRead k n o) = false) :
    MayReadControl (withAcc (withSpan { span [] with tenant := tn }) [ctlRead k n o]) 1 (ctlRead k n o) o :=
  { inTurn_of (withAcc (withSpan { span [] with tenant := tn }) [ctlRead k n o]) (ctlRead k n o) rfl rfl (plainTurn _ _ h1) with
    home := rfl, kind := h
    after := fun b hb hg hp hi => by
      rw [show b = ctlRead k n o from List.mem_singleton.mp hb] at hi; exact absurd hi (Nat.lt_irrefl _) }
theorem witness_controlReads :
    let s := withRegs []
    let s1 := withSpan { span [] with tenant := 1 }
    let v (n : Nat) := ofBytes (ctlBytes s (2 ^ 18 + 8) n)
    ctlMapped (2 ^ 18 + 8) = true ∧ ctlReadOk s 0 (2 ^ 18 + 8) = true ∧ ctlMapped (2 ^ 18 + 512) = false ∧
    ctlMapped (2 ^ 18) = true ∧ portTenant s1 (.handler 0 0) = 1 ∧ ctlReadOk s1 1 (2 ^ 18) = false ∧
    countHolds .eq (BitVec.ofNat 64 (v 8)) 0 = true ∧ countHolds .ne (BitVec.ofNat 32 (v 4)) (BitVec.ofNat 32 (0 : Word).toNat) = false ∧
    MayReadControl (withAcc s [ctlRead .read 8 (2 ^ 18 + 512)]) 1 (ctlRead .read 8 (2 ^ 18 + 512)) (2 ^ 18 + 512) ∧
    MayReadControl (withAcc s1 [ctlRead .read 8 (2 ^ 18)]) 1 (ctlRead .read 8 (2 ^ 18)) (2 ^ 18) ∧
    MayReadControl (withAcc s [ctlRead (.cwait .eq 0) 8 (2 ^ 18 + 8)]) 1 (ctlRead (.cwait .eq 0) 8 (2 ^ 18 + 8)) (2 ^ 18 + 8) ∧
    MayReadControl (withAcc s [ctlRead (.cwait .ne 0) 4 (2 ^ 18 + 8)]) 1 (ctlRead (.cwait .ne 0) 4 (2 ^ 18 + 8)) (2 ^ 18 + 8) :=
  ⟨by decide +kernel, by decide +kernel, by decide +kernel, by decide +kernel, by decide, by decide +kernel, by decide +kernel, by decide +kernel,
   mayReadControl_of 0 _ _ _ (.inl rfl) rfl, mayReadControl_of 1 _ _ _ (.inl rfl) rfl, mayReadControl_of 0 _ _ _ (.inr ⟨_, _, rfl, .inl rfl⟩) rfl,
   mayReadControl_of 0 _ _ _ (.inr ⟨_, _, rfl, .inr rfl⟩) rfl⟩
theorem witness_controlReadAfter :
    let b : Access := { ctlRead .read 8 (2 ^ 18) with id := 0, stat := .performed }
    let a := ctlRead .read 8 (2 ^ 18 + 8)
    let s := withAcc (withRegs []) [b, a]
    findAcc s 1 = some a ∧ a.stat = .dispatched ∧ (∀ e ∈ aheadOf s a, isFence e.kind = false → e.stat = .dispatched → overlap e a = false) ∧
    isSc a = false ∧ a.key = some (2 ^ 80 + (2 ^ 18 + 8)) ∧
    (∀ c ∈ s.net.acc, c.grp = a.grp → c.port = a.port → c.id < a.id → c.stat = .performed ∧ c.fault = none) ∧ b.grp = a.grp ∧ b.id < a.id := by decide +kernel

/-- A request of a job in the queue before its cycle, and in it. -/
theorem witness_jobDispatch :
    let a : Access := { access .read 8 .queued with tag := .job 0 7, issued := 3 }
    let s (c : Word) := { withAcc (withRegs []) [a] with cycle := c }
    findAcc (s 2) 1 = some a ∧ a.phase = none ∧ a.posted = false ∧ isJobTag a.tag = true ∧ now (s 2) < a.issued ∧ a.issued ≤ now (s 3) := by decide
/-- A read of a job's queue while a drain waits, one that the job issued after the drain; a FAULTED stream, a faulted job. -/
theorem witness_drainJobs :
    let a (m : Nat) : Access := { access (.write [1]) 1 .queued with port := .stream 0 9, tag := .job 0 m, ptr := scratch 0 }
    let s (m : Nat) := withAcc (withSpan { span [] with streams := [(9, { st := .active, kind := 5, jobs := [{ started := true }] })] }) [a m]
    drainHeld (s 2) 0 .module 3 ∧ ¬ drainHeld (s 3) 0 .module 3 ∧
    drainHeld (withSpan { span [] with streams := [(9, { st := .active, kind := 5, jobs := [{ err := some (0, .ue, 0) }] })] }) 0 .module 3 ∧
    drainHeld (withSpan { span [] with streams := [(9, { st := .faulted, kind := 0 })] }) 0 .module 3 := by
  refine ⟨.inl ⟨_, List.mem_cons_self .., by decide, nofun, by decide, rfl, by decide⟩, ?_, .inr ⟨_, List.mem_cons_self .., .inr ⟨_, List.mem_cons_self .., nofun⟩⟩,
    .inr ⟨_, List.mem_cons_self .., .inl rfl⟩⟩
  rintro (⟨a, ha, -, -, h, -⟩ | ⟨x, hx, h⟩)
  · rw [List.mem_singleton.mp ha] at h; exact absurd h (by decide)
  · rw [List.mem_singleton.mp hx] at h
    rcases h with h | ⟨j, hj, h⟩
    · cases h
    · rw [List.mem_singleton.mp hj] at h; exact h rfl
/-- A posted SC store of the handler is outstanding, or none is; the three marks of bar.wait: its first issue, after the wait for the
acquire, while it waits, and once an update has woken it. -/
theorem witness_acquireOut :
    acquireOut (withAcc (withRegs []) [{ access (.write [1]) 1 .dispatched with posted := true, ord := .sc }]) ∧ ¬ acquireOut (withRegs []) ∧
    (let s (o : Option (Word × Word × Word × Nat)) : State := { withRegs [] with cur := { (withRegs []).cur with latch := o } }
     latchMark (s none) = none ∧ latchMark (s (some (scratch 0, 0, 0, 2))) = some 2 ∧ latchMark (s (some (scratch 0, 0, 5, 1))) = some 1 ∧
     latchMark (s (some (scratch 0, 0, 0, 0))) = some 0) :=
  ⟨⟨_, List.mem_cons_self .., rfl, rfl, rfl⟩, fun ⟨a, ha, _⟩ => (by cases ha), rfl, rfl, rfl, rfl⟩
/-- A peer access without a translation, before PODTO and after it. -/
theorem witness_peerReply :
    let a : Access := { access .read 8 .walking with ptr := 0x5000000000000000, key := none, asked := 5 }
    let s (c : Word) := { withAcc (withRegs []) [a] with cycle := c }
    let n := podTo (s 0) (getSpan (s 0) 0).tenant.toNat
    findAcc (s 0) 1 = some a ∧ now (s 100) < a.asked + n ∧ a.asked + n ≤ now (s (BitVec.ofNat 64 (5 + n))) := by decide +kernel

/-! ## Witnesses, continued: streams -/

/-- The read of position q of a RING stream of four positions is complete: an inner one, or the last. -/
theorem witness_ringFill :
    ∀ q ∈ [1, 3],
      let a : Access := { access .read 64 .performed with port := .stream 0 3, tag := .pos q, data := List.replicate 64 5 }
      let z := withAcc (ringed [] 2 { next := q + 1, doneP := q, stage := [(q, 1)] }) [a]
      let x := getStream z 0 3
      let g := ringTile (getSpan z 0) x
      (getSpan z 0).det = false ∧ bufDepth (getTile z g) (ringBuf x) = 2 ∧ x.kind = 2 ∧ x.pass = true ∧ x.cancel = false ∧ (getSpan z 0).live = true ∧
      (getSpan z 0).ended = false ∧ (getSpan z 0).frozen = false ∧ (getL z (getSpan z 0).slot).sst ≠ .killing ∧ findAcc z a.id = some a ∧
      a.fault = none ∧ a.data.length = bufEsz (getTile z g) (ringBuf x) ∧ z.net.acc.filter (fun b => b.grp == a.grp && b.port == a.port) = [a] := by decide +kernel
/-- A token that is still on its way to an fo port; one that stands there, while a span is quiesced and its leaves still run. -/
theorem witness_portOutWaits :
    (let z := withStream (passing 1 {}) fun p => { p with fo := [(0, [.word 7])], foWaits := [(0, [2])], quiesced := true }
     let x := getStream z 0 3
     moves (getSpan z 0) = true ∧ x.kind = 1 ∧ x.pass = true ∧ x.st = .active ∧ x.cancel = false ∧ x.resp = [] ∧ tget (getSpan z 0).fo x.port [] = .word 7 :: [] ∧
     x.next < shapeCount x.shape ∧ 0 < (tget (getSpan z 0).foWaits x.port []).length) ∧
    (let z := withStream (passing 1 {}) fun p => { p with fo := [(0, [.word 7, .empty])], foWaits := [(0, [2])], quiesced := true }
     (tget (getSpan z 0).foWaits 0 []).length ≤ [Token.empty].length ∧ flows (getSpan z 0) = false) := by decide +kernel
/-- A fence token that stands behind the first two positions, to which the read of position 1 is made again. -/
theorem witness_tokenBehind :
    let f : Access := { access (.fence .ar) 0 .queued with port := .stream 0 3, key := none, tries := 2 }
    tokenBehind 0 3 1 f ∧ ¬ tokenBehind 0 3 2 f := by unfold tokenBehind; decide

/-- The gather of `gather`, whose second element is next: its index, its pointers, its requests. -/
theorem witness_jobIssue :
    let j := gather { started := true, issued := 1, bmp := 1 }
    let z := withJob j
    let x := getStream z 0 9
    flows (getSpan z 0) = true ∧ x.st = .active ∧ x.cancel = false ∧ x.jobs = j :: [{}] ∧ j.err = none ∧ j.started = true ∧ j.issued < jN j ∧
    j.bmp.getLsbD j.issued = false ∧ x.reqAt ≤ now z ∧ (∀ a ∈ z.net.acc, a.id < z.sched.nextId ∧ (a.port = .stream 0 9 → isFence a.kind = false)) ∧
    jRb j = 64 ∧ okAnd (jobIndex z 0 9 j j.issued) (fun i => okAnd (jobPtrs j j.issued i.1) (fun p => p == (scratch 0x1080, scratch 0x2040))) = true ∧
    elementOk z 0 j (scratch 0x1080) false ∧ elementOk z 0 j (scratch 0x2040) true ∧
    now { z with cycle := 0 } < (getStream (withSpan { span [] with streams := [(9, { x with reqAt := 1 })] }) 0 9).reqAt := by
  unfold elementOk; decide +kernel
/-- The same with indices at a peer: the first index has to be read there. -/
theorem witness_jobIndexAtPeer :
    let j : Job := { started := true, desc := [scratch 0x1000, scratch 0x2000, 0x5000000000000000, 128 * 2 ^ 32 + 64, 2 + 4 * 2 ^ 8] }
    let z := withSpan { span [] with streams := [(9, { st := .active, kind := 5, jobs := [j] })] }
    (match jobIndex z 0 9 j 0 with | .error (.peer q n _ _) => decide (q = 0x5000000000000000 ∧ n = 4) | _ => false) = true ∧ jRb j = 64 ∧
    (∀ a ∈ z.net.acc, a.port = .stream 0 9 → a.tag ≠ .fetch) := by decide +kernel
/-- Element 0 in flight: its read of the second half is complete, a write of the first half stands before it; then nothing of it is left. -/
theorem witness_jobElement :
    let j := gather { started := true, issued := 1, flight := [(0, 7)], ptrs := [(0, (scratch 0x1000, scratch 0x2000))] }
    let w : Access := { access (.write (List.replicate 32 1)) 32 .queued with id := 2, grp := 2, port := .stream 0 9, tag := .job 0 7, ptr := scratch 0x2000 }
    let a : Access := { access .read 32 .performed with port := .stream 0 9, tag := .job 0 7, ptr := scratch 0x1020, data := List.replicate 32 1 }
    let z := withAcc (withJob j) [w, a]
    (getSpan z 0).live = true ∧ (getL z (getSpan z 0).slot).sst ≠ .killing ∧ j.flight = [(0, 7)] ∧ j.redo = [] ∧ z.net.acc = [w] ++ a :: [] ∧
    (∀ o ∈ [w] ++ [], o.id ≠ a.id ∧ ¬ (o.grp = a.grp ∧ o.port = a.port)) ∧ a.fault = none ∧ a.data.length = a.n ∧ a.n ≠ 0 ∧
    a.ptr.toNat = (scratch 0x1000).toNat + 32 ∧ pOff (scratch 0x2000) + 32 + a.n ≤ 2 ^ 50 ∧
    (∃ o ∈ z.net.acc, o.port = .stream 0 9 ∧ o.tag = .job 0 7) ∧ (∀ o ∈ (withJob j).net.acc, o.port = .stream 0 9 → o.tag ≠ .job 0 7) ∧
    (List.range 64).countP (fun i => j.bmp.getLsbD i || decide (i = 0)) ≠ jN j ∧
    (List.range 64).countP (fun i => ({ j with bmp := 2 } : Job).bmp.getLsbD i || decide (i = 0)) = jN { j with bmp := 2 } ∧ j.late = false := by decide +kernel
/-- A fence token behind requests that a fault has dropped, of each kind of stream, and behind a write that is under way. -/
def remaking (x : Stream) : State := withSpan { span [] with streams := [(3, { x with st := .active })] }
theorem witness_toRemake :
    toRemake (remaking { kind := 0, next := 1, redoTo := 3 }) 0 3 2 ∧ toRemake (remaking { kind := 1, resp := [(1, none)] }) 0 3 2 ∧
    toRemake (remaking { kind := 3, stage := [(1, 1)] }) 0 3 2 ∧ toRemake (remaking { kind := 5, jobs := [{ issued := 1, again := 2 }] }) 0 3 2 :=
  ⟨.inl (by decide +kernel), .inr (.inl (by decide +kernel)), .inr (.inr (.inl (by decide +kernel))), .inr (.inr (.inr (by decide +kernel)))⟩
theorem witness_nothingToRemake :
    ¬ toRemake (remaking { kind := 0, next := 2, redoTo := 3 }) 0 3 2 ∧
    (let f : Access := { access (.fence .ar) 0 .queued with port := .stream 0 3, key := none, scope := .die, id := 2, grp := 2 }
     let w : Access := { access (.write [1]) 1 .dispatched with port := .stream 0 3 }
     let z := withAcc (remaking { kind := 1 }) [w, f]
     findAcc z 2 = some f ∧ w ∈ aheadOf z f ∧ writeIn z w f.scope = true) := by
  refine ⟨?_, by decide +kernel⟩
  rintro (⟨-, -, h⟩ | ⟨h, -⟩ | ⟨h, -⟩ | ⟨h, -⟩)
  · exact absurd h (by decide)
  · exact absurd h (by decide)
  · exact absurd h (by decide)
  · exact absurd h (by decide)
/-- A cancelled stream whose job's only request is still in the queue. -/
theorem witness_scancelQueued :
    let j := gather { started := true, issued := 1, flight := [(0, 7)], ptrs := [(0, (scratch 0x1000, scratch 0x2000))] }
    let a : Access := { access .read 64 .queued with port := .stream 0 9, tag := .job 0 7 }
    let z := withAcc (withJob j) [a]
    (∀ b ∈ z.net.acc, b.port = .stream z.cur.sp 9 → isFence b.kind = true ∨ isQueued b = true ∨ (b.fault.isSome = true ∧ isJobTag b.tag = false)) ∧
    (∀ k ∈ (getStream z z.cur.sp 9).jobs, k.started = true → ∀ f ∈ k.flight, ∃ b ∈ z.net.acc, b.port = .stream z.cur.sp 9 ∧ b.tag = .job f.1 f.2 ∧ isQueued b = true) := by
  decide +kernel

/-! ## Witnesses, continued: trees, the matrix unit, ports, attention -/

/-- A matrix section whose count is full while its leaf 0 runs, on tile 0 alone. -/
theorem witness_leafEndCounted :
    let z : State := { withSpan { span [] with
        isMatrix := true, tcnt := 2, sys := { emitted := 2 }, tree := oneLeaf fun x => { x with running := true, started := 1, seq := [(0, 3)] } } with
      tiles := [(0, { leaf := some (0, 0) })] }
    let p := getSpan z 0
    let x := nodeAt p.tree 0
    p.live = true ∧ p.frozen = false ∧ p.ended = false ∧ p.saved = false ∧ x.running = true ∧ isLeafNode x = true ∧ p.isMatrix = true ∧ p.tcnt ≤ p.sys.emitted ∧
    (∀ g ∈ rectTiles p x.rect, tileDrained z x g = true) := by decide +kernel
theorem witness_otherTilesIdle (T : Tile) (g : Nat) (h : g ≠ 0) : (getTile { State.reset with tiles := [(0, T)] } g).leaf = none := by
  show (tget [(0, T)] g {}).leaf = none
  rw [tget, if_neg (fun e => h e.symm)]; rfl
/-- The trap handler's own recorded trap. -/
theorem witness_ownTrapDeliver :
    let tr : Trap := { cause := .align, h := 1, pc := 70 }
    let z := withSpan { span [] with hs := [(0, { st := .runnable, pc := 8 }), (1, { held := some tr, st := .blocked, entry := 64, pc := 70 })] }
    let p := getSpan z 0
    p.trap = none ∧ nextTrap p = some tr ∧ p.ten = true ∧ tr.agent = 0 ∧ tr.h = p.thnd ∧ (getH z 0 0).podFault = none ∧ (getH z 0 1).podFault = none := by
  decide

/-- An epilogue command that waits on a full slot, or whose tile has emitted its 64 words, in a section whose count may end with it. -/
def counted (run : Bool) (emitted : Nat) (leaf : Option (Nat × Nat)) : State :=
  let y : Sys := { oneSlot 2 with rect := { h := 1, w := 1 }, emitted := emitted, epi := [{ run := run, pos := [(0, 64)] }] }
  { withSpan { span [] with isMatrix := true, tcnt := 2, sys := y } with tiles := [(0, { arrayTile [] with leaf := leaf })] }
theorem witness_matrixCount :
    (let s := counted false 1 none
     let p := getSpan s 0
     tokensMove p = true ∧ p.sys.on = true ∧ p.sys.auto = false ∧ (slotAt p.sys.slots p.sys.tail).st = 2 ∧ mEmom (sysTile s p) = false ∧
     (∀ g ∈ rectTiles p p.sys.rect, (getTile s g).leaf = none) ∧ p.isMatrix = true ∧ p.sys.emitted < p.tcnt) ∧
    ∀ n ∈ [0, 1], ∀ leaf ∈ [none, some (0, 0)],
      let s := counted true n leaf
      let p := getSpan s 0
      (∀ c ∈ p.sys.epi, ∀ x ∈ sysTiles p, epiWords (sysTile s p) (slotAt p.sys.slots c.slot) (posOfIx p.sys x.1) c ≤ tget c.pos x.2 0) ∧
      (∀ c ∈ p.sys.epi, ¬ (mEmom (sysTile s p) = true ∧ c.m ≠ c.e1)) ∧ p.sys.emitted + rectCount p.sys.rect / max 1 p.sys.nt = n + 1 ∧ p.tcnt = 2 ∧
      (∀ g ∈ rectTiles p (wholeRect p), leaf = none → (getTile s g).leaf = none) ∧
      (leaf ≠ none → ∃ g ∈ rectTiles p (wholeRect p), (getTile s g).leaf ≠ none) := by decide +kernel
/-- A job whose element is on its way to GLOBAL space: the digest waits. -/
theorem witness_digestJob :
    let j := gather { started := true, issued := 1, flight := [(0, 0)], ptrs := [(0, (scratch 0x1000, 0x2000))] }
    let z := { withJob j with sched := { State.reset.sched with nextId := 5 } }
    (∃ x ∈ (getSpan z 0).streams, ∃ j ∈ x.2.jobs, ∃ f ∈ j.flight, (tfind j.ptrs f.1).isSome = true ∧ f.2 < z.sched.nextId) ∧
    tfind j.ptrs 0 = some (scratch 0x1000, 0x2000) ∧ pSpace 0x2000 = 0 ∧ z.cur.latch = none ∧ (curH z).podFault = none := by decide +kernel

/-- What enters port 31: a waiting token, the drain token, nothing, or nothing because two tokens stand there; port 30 has no link. -/
def entering (toks : List (Bool × Nat × Word)) (dr : List Nat) (q : List Token) : Span := { span [] with toks := toks, fiDrain := dr, fi := [(31, q)] }
theorem witness_portEnters :
    let t : Bool × Nat × Word := (true, 31, 5)
    let o : Bool × Nat × Word := (true, 30, 6)
    let enters (p : Span) (q : List Token) (toks : List (Bool × Nat × Word)) (dr : List Nat) : Prop := PortEnters (ported p) p 0 31 q toks dr
    enters (entering [o, t] [] []) [.word 5] [o] [] ∧ enters (entering [o] [31] []) [.drain] [o] [] ∧ enters (entering [] [] []) [] [] [] ∧
    enters (entering [t] [] [.empty, .empty]) [.empty, .empty] [t] [] := by
  have no : ∀ (w : Word) p, ¬ ∃ b ∈ (ported p).net.bars, b.sp = 0 ∧ b.sid = w.toNat / 2 ^ 43 % 2 ^ 5 ∧ b.arrive = true := by
    rintro w p ⟨b, hb, -⟩; cases hb
  have other : ∀ x ∈ [((true, 30, 6) : Bool × Nat × Word)], ¬ x.2.1 = 31 := by decide
  refine ⟨.inl ⟨[(true, 30, 6)], 5, [], rfl, fun x hx h => other x hx h.2.1, no _ _, by decide, rfl, rfl, rfl⟩,
    .inr (.inl ⟨fun x hx h => other x hx h.2.1, List.mem_singleton.mpr rfl, by decide, rfl, rfl, by decide⟩),
    .inr (.inr ⟨.inr ⟨fun x hx => absurd hx List.not_mem_nil, List.not_mem_nil⟩, rfl, rfl, rfl⟩), .inr (.inr ⟨.inl (by decide), rfl, rfl, rfl⟩)⟩
/-- Links of port 31: inputs A and B of slot 0 of tile 0; B is full, or has had the head, or both have room. -/
def twoLinks (full : Bool) (taken : List Nat) : State :=
  { withSpan { span [] with fi := [(31, [.word 7, .drain])], fiTaken := [(31, taken)] } with
    tiles := [(0, { bufs := if full then [(1, List.replicate 1 .empty)] else [], cfg := [(480, 0x50 + 31), (481, 0x50 + 31), (5, 0x410), (2, 0x11), (3, 0x11), (0, 1)] })] }
theorem witness_portLinks :
    (∀ full ∈ [true, false], ∀ taken ∈ [[], [1]],
      let s := twoLinks full taken
      let links := portLinks s (getSpan s 0) 31
      tokensMove (getSpan s 0) = true ∧ links = [0, 1] ∧ links.Nodup ∧ (∀ l ∈ links, l % 64 ≠ 25 ∧ l % 64 ≠ 27 ∧ slotsOf (getTile s (l / 64)) (l % 64) ≠ 0) ∧
      roomAt s 0 0 0 = true ∧ roomAt s 0 0 1 = !full ∧ (consFmt (getTile s 0) 0).isSome = true) ∧
    portLinks (twoLinks false []) (getSpan (twoLinks false []) 0) 30 = [] := by decide +kernel

/-- The walk of page 0 for attention is complete: it maps the page on stack 0, or on a stack that the run does not name, it finds it absent
or not readable, or reads a poisoned line; the page is asked for first, or once more. -/
def attWalking (t0 : Byte) (f : Handler → Handler) : State :=
  let a : Access := { access .read 65536 .walking with ptr := pagePtr runDesc 0, tag := .att 0, key := none }
  withAcc (attending t0 f) [a]
theorem witness_attWalks :
    let a : Access := { access .read 65536 .walking with ptr := pagePtr runDesc 0, tag := .att 0, key := none }
    let first := fun (x : Handler) => { x with attTodo := [0] }
    let again := fun (x : Handler) => { x with attAbsent := [0], attRetry := true }
    let elsewhere := fun (x : Handler) => { x with attTodo := [0], attDesc := runDesc.set 5 0 }
    let w (s : State) := walk s (getSpan s 0).tenant.toNat (pOff (pagePtr (getH s 0 0).attDesc 0)) false
    (∀ t0 ∈ [0xE0, 0, 0xC0], ∀ f ∈ [first, again, elsewhere], findAcc (attWalking t0 f) 1 = some a ∧ spanKilled (attWalking t0 f) 0 = false) ∧ pSpace a.ptr = 0 ∧
    attends (attWalking 0xE0 first) 0 0 ∧ (getSpan (attWalking 0xE0 first) 0).det = false ∧
    w (attWalking 0xE0 first) = .page 0x40000 (2 ^ 16) true ∧ aStk runDesc / 2 ^ (0x40000 / 2 ^ 36) % 2 = 1 ∧
    w (attWalking 0 first) = .absent ∧ w (attWalking 0 again) = .absent ∧
    w { attWalking 0xE0 first with poison := [0x20000 / 64] } = .poison ∧
    ((getH (attWalking 0 first) 0 0).attAbsent = [] ∧ tfind (getH (attWalking 0 first) 0 0).attHeld 0 = none ∧ 0 ∈ (getH (attWalking 0 first) 0 0).attTodo) ∧
    0 ∈ (getH (attWalking 0 again) 0 0).attAbsent ∧
    (w (attWalking 0xE0 elsewhere) = .page 0x40000 (2 ^ 16) true ∧ aStk (getH (attWalking 0xE0 elsewhere) 0 0).attDesc / 2 ^ (0x40000 / 2 ^ 36) % 2 = 0) ∧
    w { attWalking 0xE0 first with ctl := { (attWalking 0xE0 first).ctl with windows := [] } } = .fail := by
  refine ⟨by decide +kernel, by decide, ⟨rfl, rfl, rfl, rfl, .next, 1, rfl⟩, rfl, by decide +kernel⟩
/-- R337's worked example: page 0 holds M = 2, L = 1, a(0) = a(1) = 1, page 1 M = 1, L = 2.5, a(0) = 3, a(1) = 4. -/
def mergeBytes : List (Nat × Byte) :=
  [(0x1003, 0x40), (0x1006, 0x80), (0x1007, 0x3F), (0x1008, 1), (0x1042, 0x80), (0x1043, 0x3F), (0x1046, 0x80), (0x1047, 0x3F),
   (0x1082, 0x80), (0x1083, 0x3F), (0x1086, 0x20), (0x1087, 0x40), (0x1088, 3), (0x10C2, 0x40), (0x10C3, 0x40), (0x10C6, 0x80), (0x10C7, 0x40)]
def merging : State := bytesAt (runBytes ++ mergeBytes) (withRegs [(1, scratch 0), (2, 3)])
theorem witness_attMergeTwo :
    okAnd (readRecs runDesc [0, 1] merging) (fun x => x.1.length == 2 && x.1.all fun r => r.a.length == 16) = true := by decide +kernel
theorem test_att_merge_two :
    let t := after (exec (.attMerge .next 6 1 2 false) merging)
    rdReg t 0 0 6 = 2 ∧ valueAt t 32 (2 ^ 49 + 0x2000) 4 = 0x3F8E38E4 ∧ valueAt t 32 (2 ^ 49 + 0x2004) 4 = 0x3FAAAAAB ∧ valueAt t 32 (2 ^ 49 + 0x2008) 4 = 0 := by
  decide +kernel

/-! ## Witnesses, continued: launch control, the watchdog, the module, the pick -/

/-- A constrained collapse behind a tk.mask of handler 1 that waits for collapse 7, which is over. -/
theorem witness_maskDue :
    let z := withSpan { span [] with
      cols := [{ ptr := scratch 0, msk := true, id := 8 }], bind := some (0, 0, 4, .open_), hs := [(1, { op := some (.wait (.tkMask .next 1 .open_ 0) 0 7 0 0), st := .blocked })] }
    colRuns (getSpan z 0) = true ∧ maskDue (getSpan z 0) = true ∧ ∀ c ∈ (getSpan z 0).cols, c.running = false ∧ c.msk = true := by decide +kernel
/-- Entry 5 is RUNNING for the launch of slot 0, of which the handler's own span is part, or another one. -/
def running (own : Bool) (sst : Sst) : State :=
  let s := { withRegs [(1, 0x4000000000000140)] with spans := [(0, { span [(1, 0x4000000000000140)] with slot := if own then 0 else 1 })] }
  { s with ctl := { s.ctl with
      entries := [(5, BitVec.ofNat 512 ((if sst = .killing then 6 else 3) * 2 ^ 508))], qctl := [(0, 2 ^ 59)]
      launches := [(0, { v := true, checked := true, entry := 5, uid := 4, sst := sst }), (1, { v := true, checked := true, entry := 6, uid := 5 })] } }
theorem witness_killRunning :
    (∀ own ∈ [true, false], let s := running own .running
      s.cur.latch = none ∧ okAnd (entryPtr s (reg s 1)) (· == 5) = true ∧ fieldOf (entryW s 5 7) 63 60 = 3 ∧ slotOfEntry s 5 = some 0 ∧ (getL s 0).entry = 5 ∧
      (s.cur.sp ∈ spansOf s 0 ↔ own = true) ∧ (curSpan s).ended = false) ∧
    (let s := running false .killing
     fieldOf (entryW s 5 7) 63 60 = 6 ∧ ∃ x ∈ s.ctl.launches, x.2.v = true ∧ x.2.entry = 5 ∧ x.2.sst = .killing ∧ x.2.uid = 4) ∧
    (∀ x ∈ (running false .running).ctl.launches, ¬ (x.2.v = true ∧ x.2.uid = 4 ∧ x.2.sst = .killing)) := by decide +kernel

/-- A launch whose graph stands in GLOBAL space, whose page has to be translated first. -/
theorem witness_graphXlat :
    let z := launched {}
    (getL z 0).v = true ∧ (getL z 0).checked = false ∧ (getL z 0).sst ≠ .killing ∧ (getL z 0).failed = none ∧
    errAnd (readGraph z (getL z 0)) (fun x => match x.2 with | .xlat .. => true | _ => false) = true := by decide +kernel
/-- Stores past the words that each unit has: the first word past its table, a unit of another die that only die 0 has, the unassigned units. -/
theorem witness_missingWords (v : Word) :
    (∀ off ∈ [2 ^ 18 + 512, 2 ^ 22 + 2 ^ 18, 2 * 2 ^ 18 + 1024, 2 * 2 ^ 18 + 1024 + 48, 2 ^ 23 + 2 * 2 ^ 18, 3 * 2 ^ 18 + 1024, 2 ^ 22 + 3 * 2 ^ 18, 4 * 2 ^ 18 + 256 + 8,
        5 * 2 ^ 18 + 512, 6 * 2 ^ 18, 15 * 2 ^ 18],
      CtlStore (withAcc (withCtl id) [ctlAcc off v]) 1 (ctlAcc off v) off v) ∧
    (let there (off : Nat) : Prop := off < 2 ^ 22 ∧ off % 2 ^ 18 < if off / 2 ^ 18 % 2 ^ 4 = 1 then 512 else 1024
     ¬ there (2 ^ 18 + 512) ∧ ¬ there (2 ^ 22 + 2 ^ 18) ∧ ¬ there (2 * 2 ^ 18 + 1024) ∧ ¬ there (2 ^ 23 + 2 * 2 ^ 18) ∧ ¬ there (3 * 2 ^ 18 + 1024) ∧
     ¬ there (2 ^ 22 + 3 * 2 ^ 18) ∧ there (2 ^ 18 + 504) ∧ there (2 * 2 ^ 18 + 1016) ∧ there (3 * 2 ^ 18 + 1016)) := by
  refine ⟨fun off h => ctlStore_of _ _ _ ?_ ?_, by decide⟩
  · revert off; decide
  · revert off; decide

/-- The rings of tenants 0 and 3, for a watchdog of tenant 3 whose reset is done; a saved span whose cluster 0 no span holds. -/
def dogOwned : State := slotState {} (span []) |> fun s => { s with
  cycle := 65543, ctl := { s.ctl with
    qctl := [(0, BitVec.ofNat 64 (3 * 2 ^ 60 + 2 ^ 55 + 20 * 2 ^ 49 + 10 * 2 ^ 44 + 2 * 2 ^ 41))], dogs := [(0, { since := 7, clusters := [3] })]
    tenants := [(0, BitVec.ofNat 512 ((0x1000 + 6) * 2 ^ 64)), (3, BitVec.ofNat 512 ((0x2000 + 6) * 2 ^ 64))] } }
theorem witness_dogRecords :
    fieldOf (qword dogOwned 0) 63 60 = 3 ∧ fieldOf (qword dogOwned 0) 43 41 = 2 ∧ (tget dogOwned.ctl.dogs 0 {}).slots = [] ∧
    (tget dogOwned.ctl.dogs 0 {}).since + 65536 ≤ now dogOwned ∧ roomForRecord dogOwned 3 ∧ roomForRecord dogOwned 0 ∧
    (tw dogOwned 0 1).toNat / 2 ^ 12 % 2 ^ 40 * 4096 + 64 ≤ (tw dogOwned 3 1).toNat / 2 ^ 12 % 2 ^ 40 * 4096 := by unfold roomForRecord; decide +kernel
theorem witness_dogClusters :
    let s (p : Span) (c : Tab Cluster) : State := { dogState 1 { since := 7 } 1031 with spans := [(0, p)], clusters := c }
    (let z := s (span []) [(0, { span := some 0 })]
     0 ∈ spansOf z 0 ∧ 0 ∈ regionRanks (getSpan z 0) ∧ (getClus z 0).span = some 0) ∧
    (let z := s { span [] with saved := true } []
     0 ∈ spansOf z 0 ∧ 0 ∈ regionRanks (getSpan z 0) ∧ (getSpan z 0).saved = true ∧ (getClus z 0).span = none ∧ clusOwner z 0 = (getSpan z 0).tenant.toNat) ∧
    (getClus (s { span [] with saved := true } [(0, { span := some 9 })]) 0).span = some 9 := by decide +kernel
/-- A module whose images the root accepts; one whose service image has no valid signature, and one whose version is below the counter. -/
theorem witness_boots :
    let boots (f : Firm) : Bool := f.rootSigned && f.svcSigned && decide (f.rollback.toNat ≤ f.rootVer.toNat) && decide (f.rollback.toNat ≤ f.svcVer.toNat)
    boots State.reset.firm = true ∧ boots { State.reset.firm with svcSigned := false } = false ∧ boots { State.reset.firm with rollback := 1 } = false ∧
    boots { State.reset.firm with rollback := 1, rootVer := 1, svcVer := 1 } = true := by decide
/-- A handler made RUNNABLE in this cycle, a core that has picked, and a section whose count has expired, against one whose count has not. -/
theorem witness_pickOnce :
    let p (x : Handler) : Span := { span [] with hs := [(0, x)] }
    pickHandler (p { st := .runnable, fresh := true }) = none ∧ canIssue (p { st := .runnable, fresh := true }) 0 = false ∧
    pickHandler { p { st := .runnable } with picked := true } = none ∧ canIssue { p { st := .runnable } with picked := true } 0 = true ∧
    pickHandler { p { st := .runnable } with isMatrix := true, tcnt := 1, sys := { emitted := 1 } } = none ∧
    pickHandler { p { st := .runnable } with isMatrix := true, tcnt := 2, sys := { emitted := 1 } } = some 0 := by decide

end Sys2Proof.Tests
end

namespace Sys2Proof.Machine

/-! ## What the functions on w bits give (R147) -/

theorem sOut_eq_outside (w : Nat) (i : Int) : sOut w i = outside w i := by
  simp only [sOut, outside, Bool.decide_or]
theorem zf_eq_withZero {w : Nat} (r : BitVec w) : zf r = withZero r := by
  simp only [zf, withZero, BitVec.toNat_eq, BitVec.ofNat_eq_ofNat, BitVec.toNat_zero]

section
variable {w : Nat} (a b : BitVec w)

theorem ofInt_toInt_sub : BitVec.ofInt w (a.toInt - b.toInt) = a - b :=
  BitVec.eq_of_toInt_eq (by rw [BitVec.toInt_ofInt, BitVec.toInt_sub])
theorem aluAdd_eq : aluAdd a b = (BitVec.ofInt w (a.toInt + b.toInt), outside w (a.toInt + b.toInt)) := by
  rw [aluAdd, sOut_eq_outside, BitVec.ofInt_add, BitVec.ofInt_toInt, BitVec.ofInt_toInt]
theorem aluSub_eq : aluSub a b = (BitVec.ofInt w (a.toInt - b.toInt), outside w (a.toInt - b.toInt)) := by
  rw [aluSub, sOut_eq_outside, ofInt_toInt_sub]
theorem aluAnd_eq : aluAnd a b = withZero (BitVec.ofNat w (a.toNat &&& b.toNat)) := by
  rw [aluAnd, zf_eq_withZero, ← BitVec.toNat_and, BitVec.ofNat_toNat, BitVec.setWidth_eq]
theorem aluOr_eq : aluOr a b = withZero (BitVec.ofNat w (a.toNat ||| b.toNat)) := by
  rw [aluOr, zf_eq_withZero, ← BitVec.toNat_or, BitVec.ofNat_toNat, BitVec.setWidth_eq]
theorem aluXor_eq : aluXor a b = withZero (BitVec.ofNat w (a.toNat ^^^ b.toNat)) := by
  rw [aluXor, zf_eq_withZero, ← BitVec.toNat_xor, BitVec.ofNat_toNat, BitVec.setWidth_eq]
theorem aluSll_eq : aluSll a b = withZero (BitVec.ofNat w (a.toNat * 2 ^ (b.toNat % w))) := by
  rw [aluSll, zf_eq_withZero, ← Nat.shiftLeft_eq]; rfl
theorem aluSrl_eq : aluSrl a b = withZero (BitVec.ofNat w (a.toNat / 2 ^ (b.toNat % w))) := by
  rw [aluSrl, zf_eq_withZero, ← Nat.shiftRight_eq_div_pow, ← BitVec.toNat_ushiftRight, BitVec.ofNat_toNat,
    BitVec.setWidth_eq]
theorem aluSra_eq : aluSra a b = withZero (BitVec.ofInt w (a.toInt / ((2 ^ (b.toNat % w) : Nat) : Int))) := by
  rw [aluSra, zf_eq_withZero, ← Int.shiftRight_eq_div_pow]; rfl
theorem aluMin_eq : aluMin a b = if a.toInt ≤ b.toInt then (a, false) else (b, true) := by
  simp only [aluMin, BitVec.slt_iff_toInt_lt, ← Int.not_le, ite_not]
theorem aluMax_eq : aluMax a b = if b.toInt ≤ a.toInt then (a, false) else (b, true) := by
  simp only [aluMax, BitVec.slt_iff_toInt_lt, ← Int.not_le, ite_not]
theorem aluMinu_eq : aluMinu a b = if a.toNat ≤ b.toNat then (a, false) else (b, true) := by
  simp only [aluMinu, BitVec.ult_iff_toNat_lt, ← Nat.not_le, ite_not]
theorem aluMaxu_eq : aluMaxu a b = if b.toNat ≤ a.toNat then (a, false) else (b, true) := by
  simp only [aluMaxu, BitVec.ult_iff_toNat_lt, ← Nat.not_le, ite_not]

end

/-! ## Register-form words -/

/-- WD extends the model's function as the table's (R86), so two functions that agree on every width agree at WD. -/
theorem alu2_eq_atWd {f g : (w : Nat) → BitVec w → BitVec w → BitVec w × Bool} (hfg : ∀ w a b, f w a b = g w a b)
    (wd : Wd) (a b : Word) : alu2 wd f a b = atWd wd g a b := by
  cases wd with
  | w64 => exact hfg 64 a b
  | w32s => simp only [alu2, atWidth, atWd, hfg]; rfl
  | w32z => simp only [alu2, atWidth, atWd, hfg, BitVec.ofNat_toNat]
/-- A one-cycle register-form word writes what its table gives, whenever its function agrees with the table on every width. -/
theorem aluWord_ends {f g : (w : Nat) → BitVec w → BitVec w → BitVec w × Bool} (hfg : ∀ w a b, f w a b = g w a b)
    (nx : Nx) (o : RegOp) (s : State) :
    ∃ t, aluWord f nx o s = .next t ∧
      Ends s t nx o.sd (atWd o.wd g (reg s o.sa) (reg s o.sb)).1 (flagIf o.fe o.fd (atWd o.wd g (reg s o.sa) (reg s o.sb)).2) := by
  rw [aluWord, aluWrites, alu2_eq_atWd hfg]
  exact pureWord_ends ..

/-- R147: every row of the table of one-cycle words. -/
theorem cycleRules_end (r : (Nx → RegOp → Instr) × ((w : Nat) → BitVec w → BitVec w → BitVec w × Bool)) (hr : r ∈ cycleRules)
    (nx : Nx) (o : RegOp) (s : State) :
    ∃ t, exec (r.1 nx o) s = .next t ∧
      Ends s t nx o.sd (atWd o.wd r.2 (reg s o.sa) (reg s o.sb)).1 (flagIf o.fe o.fd (atWd o.wd r.2 (reg s o.sa) (reg s o.sb)).2) := by
  simp only [cycleRules, List.mem_cons, List.not_mem_nil, or_false] at hr
  obtain rfl | rfl | rfl | rfl | rfl | rfl | rfl | rfl | rfl | rfl | rfl | rfl := hr
  · exact aluWord_ends (fun _ => aluAdd_eq) nx o s
  · exact aluWord_ends (fun _ => aluSub_eq) nx o s
  · exact aluWord_ends (fun _ => aluAnd_eq) nx o s
  · exact aluWord_ends (fun _ => aluOr_eq) nx o s
  · exact aluWord_ends (fun _ => aluXor_eq) nx o s
  · exact aluWord_ends (fun _ => aluSll_eq) nx o s
  · exact aluWord_ends (fun _ => aluSrl_eq) nx o s
  · exact aluWord_ends (fun _ => aluSra_eq) nx o s
  · exact aluWord_ends (fun _ => aluMin_eq) nx o s
  · exact aluWord_ends (fun _ => aluMax_eq) nx o s
  · exact aluWord_ends (fun _ => aluMinu_eq) nx o s
  · exact aluWord_ends (fun _ => aluMaxu_eq) nx o s

/-! ## Immediate-form words (R149, R153) -/

/-- An immediate-form word writes what its function gives on s[SA] and the sign-extended immediate. -/
theorem immWord_ends {f : Word → Word → Word × Bool} {nx : Nx} {o : ImmOp} {s : State} {v : Word} {fl : Bool}
    (h : f (reg s o.sa) (o.imm.signExtend 64) = (v, fl)) :
    ∃ t, immWord f nx o s = .next t ∧ Ends s t nx o.sd v (flagIf o.fe o.fd fl) := by
  rw [immWord, immWrites, h]
  exact pureWord_ends ..
/-- An immediate shift writes what its function gives on s[SA] and the shift count, with the flag "res = 0". -/
theorem shWord_ends {f : Word → Word → Word × Bool} {nx : Nx} {o : ShOp} {s : State} {v : Word}
    (h : f (reg s o.sa) (o.sh.zeroExtend 64) = withZero v) :
    ∃ t, shWord f nx o s = .next t ∧ Ends s t nx o.sd v (flagIf o.fe o.fd (decide (v.toNat = 0))) := by
  rw [shWord, shWrites, h]
  exact pureWord_ends ..

/-- A six-bit shift count is within a word's width, so that "mod w" leaves it as it is. -/
theorem shiftCount_mod (sh : BitVec 6) : (sh.zeroExtend 64).toNat % 64 = sh.toNat := by
  have : sh.toNat < 64 := sh.isLt
  rw [BitVec.toNat_setWidth]; omega
/-- The value of li.hi: the immediate above the old low half. -/
theorem append_truncate (hi : BitVec 32) (v : Word) :
    (hi ++ v.truncate 32 : Word) = BitVec.ofNat 64 (hi.toNat * 2 ^ 32 + v.toNat % 2 ^ 32) := by
  have hhi : hi.toNat < 2 ^ 32 := hi.isLt
  apply BitVec.eq_of_toNat_eq
  rw [BitVec.toNat_append, BitVec.toNat_setWidth, BitVec.toNat_ofNat,
    ← Nat.shiftLeft_add_eq_or_of_lt (Nat.mod_lt _ (by decide)), Nat.shiftLeft_eq]
  omega

/-- Settles O2: the model's function of each word agrees with its table on words of every width, a word of one cycle ends with
what its function gives (`pureWord_ends`), and the write of s0 is discarded there (R79). -/
theorem registerAndImmediateWordsCompute : Obligations.RegisterAndImmediateWordsCompute := by
  unfold Obligations.RegisterAndImmediateWordsCompute
  refine ⟨⟨rdReg_zero, fun s => rdReg_zero s _ _, cycleRules_end⟩, ?imm, ?sh, fun nx sd imm s => ⟨?li, ?liHi⟩⟩
  case imm =>
    intro nx o s
    exact ⟨immWord_ends (by rw [aluAdd_eq, BitVec.toInt_signExtend_of_le (by decide)]),
      immWord_ends rfl, immWord_ends rfl, immWord_ends rfl⟩
  case sh =>
    intro nx o s
    exact ⟨shWord_ends (by rw [aluSll_eq, shiftCount_mod]), shWord_ends (by rw [aluSrl_eq, shiftCount_mod]),
      shWord_ends (by rw [aluSra_eq, shiftCount_mod])⟩
  case li => exact pureWord_ends1 ..
  case liHi =>
    rw [← append_truncate]
    exact pureWord_ends1 ..

end Sys2Proof.Machine

namespace Sys2Proof.Machine

/-! ## Products and quotients (R138, R147, R148) -/

section
variable {w : Nat} (a b : BitVec w)

theorem aluMul_eq : aluMul a b = (BitVec.ofInt w (a.toInt * b.toInt), outside w (a.toInt * b.toInt)) := by
  rw [aluMul, sOut_eq_outside]
theorem aluMulh_eq : aluMulh a b = (BitVec.ofInt w (a.toInt * b.toInt / ((2 ^ w : Nat) : Int)), outside w (a.toInt * b.toInt)) := by
  rw [aluMulh, sOut_eq_outside]

theorem eq_zero_iff_toNat : b = 0 ↔ b.toNat = 0 := BitVec.toNat_eq.trans (by rw [BitVec.ofNat_eq_ofNat, BitVec.toNat_zero])
theorem allOnes_eq_ofNat : BitVec.allOnes w = BitVec.ofNat w (2 ^ w - 1) :=
  BitVec.eq_of_toNat_eq (by rw [BitVec.toNat_allOnes, BitVec.toNat_ofNat, Nat.mod_eq_of_lt (Nat.sub_one_lt_of_lt (Nat.two_pow_pos w))])
/-- The quotient that overflows is that of the smallest number by -1. -/
theorem divOv_iff : divOv a b = true ↔ a.toInt = -((2 ^ (w - 1) : Nat) : Int) ∧ b.toInt = -1 := by
  simp only [divOv, Bool.and_eq_true, decide_eq_true_eq]

theorem aluDiv_eq : aluDiv a b = ((divides true w a b).1, (divides true w a b).2.2) := by
  simp only [aluDiv, divides, eq_zero_iff_toNat, divOv_iff, allOnes_eq_ofNat, if_true]
  split
  · rfl
  · split <;> rfl
theorem aluRem_eq : aluRem a b = ((divides true w a b).2.1, (divides true w a b).2.2) := by
  simp only [aluRem, divides, eq_zero_iff_toNat, divOv_iff, allOnes_eq_ofNat, if_true]
  split
  · rfl
  · split <;> rfl
theorem aluDivu_eq : aluDivu a b = ((divides false w a b).1, (divides false w a b).2.2) := by
  simp only [aluDivu, divides, eq_zero_iff_toNat, allOnes_eq_ofNat, Bool.false_eq_true, if_false]
  split <;> rfl
theorem aluRemu_eq : aluRemu a b = ((divides false w a b).2.1, (divides false w a b).2.2) := by
  simp only [aluRemu, divides, eq_zero_iff_toNat, allOnes_eq_ofNat, Nat.mod_eq_sub_mul_div, Bool.false_eq_true, if_false]
  split <;> rfl

end

/-- A register-form word of n cycles stays in its stage with the writes its table gives, whenever its function agrees with the
table on every width. -/
theorem aluLate_stays {f g : (w : Nat) → BitVec w → BitVec w → BitVec w × Bool} (hfg : ∀ w a b, f w a b = g w a b)
    (n : Nat) (nx : Nx) (o : RegOp) (s : State) :
    ∃ t, aluLate n f nx o s = .next t ∧ Stays s t (.late (now s + n)
      { regs := [(o.sd, (atWd o.wd g (reg s o.sa) (reg s o.sb)).1)]
        flag := flagIf o.fe o.fd (atWd o.wd g (reg s o.sa) (reg s o.sb)).2 } nx) := by
  rw [aluLate, aluWrites, alu2_eq_atWd hfg]
  exact lateWord_stays ..

/-- R147: every multiplication stays four cycles. -/
theorem productRules_stay (r : (Nx → RegOp → Instr) × ((w : Nat) → BitVec w → BitVec w → BitVec w × Bool)) (hr : r ∈ productRules)
    (nx : Nx) (o : RegOp) (s : State) :
    ∃ t, exec (r.1 nx o) s = .next t ∧ Stays s t (.late (now s + 4)
      { regs := [(o.sd, (atWd o.wd r.2 (reg s o.sa) (reg s o.sb)).1)]
        flag := flagIf o.fe o.fd (atWd o.wd r.2 (reg s o.sa) (reg s o.sb)).2 } nx) := by
  simp only [productRules, List.mem_cons, List.not_mem_nil, or_false] at hr
  obtain rfl | rfl | rfl := hr
  · exact aluLate_stays (fun _ => aluMul_eq) 4 nx o s
  · exact aluLate_stays (fun _ => aluMulh_eq) 4 nx o s
  · exact aluLate_stays (fun _ _ _ => rfl) 4 nx o s

/-- R138, R148: every division stays 36 cycles at 64 bits and 20 at 32. -/
theorem divisionRules_stay (r : (Nx → RegOp → Instr) × ((w : Nat) → BitVec w → BitVec w → BitVec w × Bool)) (hr : r ∈ divisionRules)
    (nx : Nx) (o : RegOp) (s : State) :
    ∃ t, exec (r.1 nx o) s = .next t ∧ Stays s t (.late (now s + if o.wd = .w64 then 36 else 20)
      { regs := [(o.sd, (atWd o.wd r.2 (reg s o.sa) (reg s o.sb)).1)]
        flag := flagIf o.fe o.fd (atWd o.wd r.2 (reg s o.sa) (reg s o.sb)).2 } nx) := by
  simp only [divisionRules, List.mem_cons, List.not_mem_nil, or_false] at hr
  obtain rfl | rfl | rfl | rfl := hr
  · exact aluLate_stays (fun _ => aluDiv_eq) (divCycles o) nx o s
  · exact aluLate_stays (fun _ => aluDivu_eq) (divCycles o) nx o s
  · exact aluLate_stays (fun _ => aluRem_eq) (divCycles o) nx o s
  · exact aluLate_stays (fun _ => aluRemu_eq) (divCycles o) nx o s

/-- The end of a stage whose writes stand ready: they land once its cycles are over, and until then nothing changes (R82, R138). -/
theorem exec_operationStageEnd_late {s : State} {sp h due : Nat} {w : Writes} {nx : Nx} (hop : (getH s sp h).op = some (.late due w nx)) :
    exec (.operationStageEnd sp h) s =
      if now s < due then .next s else .next (landWord s sp h (getH s sp h).pc (now s - 1) w nx) := by
  show execOperationStageEnd sp h s = _
  simp only [execOperationStageEnd, hop]
theorem operationStageEnd_waits {s : State} {sp h due : Nat} {w : Writes} {nx : Nx} (hop : (getH s sp h).op = some (.late due w nx))
    (hdue : now s < due) : exec (.operationStageEnd sp h) s = .next s := by
  rw [exec_operationStageEnd_late hop, if_pos hdue]
/-- A result that is due reaches its register unless a word issued later has overtaken it (R139). -/
theorem operationStageEnd_lands {s : State} {sp h due : Nat} {d : Reg} {v : Word} {fl : Option (BitVec 3 × Bool)} {nx : Nx}
    (hop : (getH s sp h).op = some (.late due { regs := [(d, v)], flag := fl } nx)) (hdue : due ≤ now s) :
    ∃ t, exec (.operationStageEnd sp h) s = .next t ∧ WordEnds s t sp h (getH s sp h).pc nx (reaches s sp h (now s - 1) d) v fl :=
  ⟨_, by rw [exec_operationStageEnd_late hop, if_neg (Nat.not_lt.2 hdue)], landWord_ends ..⟩

/-- Settles O1: each word's function agrees with its table on words of every width, so that the writes the word keeps in its
stage are the table's (`aluLate_stays`); at the end of the stage they land (`operationStageEnd_lands`). -/
theorem productsAndQuotientsCompute : Obligations.ProductsAndQuotientsCompute := by
  unfold Obligations.ProductsAndQuotientsCompute
  refine ⟨fun r hr nx o s => ⟨productRules_stay r hr nx o s, fun u due sp h hop => ⟨?lands, ?waits⟩⟩,
    fun r hr nx o s => ⟨divisionRules_stay r hr nx o s, fun u due sp h hop => ?quotient⟩⟩
  case lands => exact operationStageEnd_lands hop
  case waits => exact operationStageEnd_waits hop
  case quotient => exact operationStageEnd_lands hop

end Sys2Proof.Machine

namespace Sys2Proof.Machine

/-! ## The rotation among a list of handlers (R137) -/

/-- A handler's place in the turn that begins after `last` and wraps from 15 to 0. -/
def turnAfter (last h : Nat) : Nat := if last < h then h else h + 16
/-- The first handler of a list after `last`, else the first of all. -/
def firstAfter (last : Nat) (l : List Nat) : Option Nat := (l.find? fun h => last < h).or l.head?

theorem turnAfter_inj {last g h : Nat} (hg : g < 16) (hh : h < 16) (e : turnAfter last g = turnAfter last h) : g = h := by
  unfold turnAfter at e
  split at e <;> split at e <;> omega

theorem firstAfter_eq_none {last : Nat} {l : List Nat} : firstAfter last l = none ↔ l = [] := by
  rw [firstAfter, Option.or_eq_none_iff, List.head?_eq_none_iff]
  exact ⟨And.right, fun h => ⟨h ▸ rfl, h⟩⟩

section
variable {last h : Nat} {l : List Nat} (sorted : l.Pairwise (· < ·)) (small : ∀ g ∈ l, g < 16)
include sorted small

/-- In an ascending list of handlers the first after `last` is there, and no other of the list has its turn before it. -/
theorem firstAfter_turn (hf : firstAfter last l = some h) : h ∈ l ∧ ∀ g ∈ l, turnAfter last h ≤ turnAfter last g := by
  rw [firstAfter, Option.or_eq_some_iff] at hf
  rcases hf with found | ⟨missing, first⟩
  · obtain ⟨later, before, after, rfl, hbefore⟩ := List.find?_eq_some_iff_append.1 found
    have hlast : last < h := by simpa using later
    have hafter : ∀ g ∈ after, h < g := (List.pairwise_cons.1 (List.pairwise_append.1 sorted).2.1).1
    have hh : h < 16 := small h (by simp)
    refine ⟨by simp, fun g hg => ?_⟩
    simp only [turnAfter, hlast, if_true]
    rcases List.mem_append.1 hg with early | late
    · have : ¬ last < g := by simpa using hbefore g early
      rw [if_neg this]; omega
    · have : h ≤ g := (List.mem_cons.1 late).elim (fun e => Nat.le_of_eq e.symm) fun k => Nat.le_of_lt (hafter g k)
      split <;> omega
  · obtain ⟨rest, rfl⟩ := List.head?_eq_some_iff.1 first
    have none_after : ∀ g ∈ h :: rest, ¬ last < g := by simpa using List.find?_eq_none.1 missing
    refine ⟨List.mem_cons_self, fun g hg => ?_⟩
    have : h ≤ g := (List.mem_cons.1 hg).elim (fun e => Nat.le_of_eq e.symm) fun k =>
      Nat.le_of_lt ((List.pairwise_cons.1 sorted).1 g k)
    simp only [turnAfter, none_after g hg, none_after h List.mem_cons_self, if_false]
    omega

/-- It is the only one of which this is true. -/
theorem firstAfter_eq_some_iff : firstAfter last l = some h ↔ h ∈ l ∧ ∀ g ∈ l, turnAfter last h ≤ turnAfter last g := by
  refine ⟨firstAfter_turn sorted small, fun ⟨hmem, hleast⟩ => ?_⟩
  cases hf : firstAfter last l with
  | none => exact absurd (firstAfter_eq_none.1 hf) (List.ne_nil_of_mem hmem)
  | some g =>
    obtain ⟨gmem, gleast⟩ := firstAfter_turn sorted small hf
    rw [turnAfter_inj (small g gmem) (small h hmem) (Nat.le_antisymm (gleast h hmem) (hleast g gmem))]

end

/-! ## The pick -/

/-- The priority of handler h. -/
def prioOf (p : Span) (h : Nat) : Nat := (tget p.hs h {}).prio.toNat
/-- The handlers the core can pick, in ascending order. -/
def pickable (p : Span) : List Nat := if p.picked then [] else (List.range 16).filter (canIssue p)
/-- The highest priority among them. -/
def topPrio (p : Span) : Nat := (pickable p).foldl (fun m h => max m (prioOf p h)) 0
/-- Those of them that have it. -/
def topPickable (p : Span) : List Nat := (pickable p).filter fun h => prioOf p h == topPrio p

/-- The model's pick, in these terms. -/
theorem pickHandler_eq_firstAfter (p : Span) : pickHandler p = firstAfter (tget p.rot (topPrio p) 15) (topPickable p) := by
  have or_eq (o x : Option Nat) : (match o with | some h => some h | none => x) = o.or x := by cases o <;> rfl
  exact or_eq _ _

theorem mem_pickable {p : Span} {h : Nat} : h ∈ pickable p ↔ p.picked = false ∧ h < 16 ∧ canIssue p h = true := by
  unfold pickable
  cases p.picked <;> simp
theorem pickable_sorted (p : Span) : (pickable p).Pairwise (· < ·) := by
  unfold pickable
  split
  · exact List.Pairwise.nil
  · exact List.pairwise_lt_range.filter _

theorem topPrio_eq_max (p : Span) : topPrio p = ((pickable p).map (prioOf p)).max?.getD 0 := by
  rw [topPrio, ← List.foldl_map (g := max), List.foldl_max, Nat.zero_max]
/-- A handler that can be picked has the highest priority exactly if no other has a higher one. -/
theorem prioOf_eq_topPrio_iff {p : Span} {h : Nat} (hh : h ∈ pickable p) :
    prioOf p h = topPrio p ↔ ∀ g ∈ pickable p, prioOf p g ≤ prioOf p h := by
  have bound : ∀ g ∈ pickable p, prioOf p g ≤ topPrio p := fun g hg =>
    topPrio_eq_max p ▸ List.le_max?_getD_of_mem (List.mem_map_of_mem hg)
  refine ⟨fun e => e ▸ bound, fun highest => Nat.le_antisymm (bound h hh) ?_⟩
  have top : ((pickable p).map (prioOf p)).max? = some (prioOf p h) :=
    List.max?_eq_some_iff.2 ⟨List.mem_map_of_mem hh, List.forall_mem_map.2 highest⟩
  exact Nat.le_of_eq (by rw [topPrio_eq_max, top, Option.getD_some])
theorem mem_topPickable {p : Span} {h : Nat} :
    h ∈ topPickable p ↔ h ∈ pickable p ∧ ∀ g ∈ pickable p, prioOf p g ≤ prioOf p h := by
  rw [topPickable, List.mem_filter, beq_iff_eq]
  exact and_congr_right prioOf_eq_topPrio_iff

/-- R137: the core picks the handler of the highest priority whose turn comes first at that priority. -/
theorem pickHandler_eq_some_iff {p : Span} {h : Nat} : pickHandler p = some h ↔ h ∈ pickable p ∧ ∀ g ∈ pickable p,
    prioOf p g < prioOf p h ∨
      (prioOf p g = prioOf p h ∧ turnAfter (tget p.rot (prioOf p h) 15) h ≤ turnAfter (tget p.rot (prioOf p g) 15) g) := by
  have sorted : (topPickable p).Pairwise (· < ·) := (pickable_sorted p).filter _
  have small : ∀ g ∈ topPickable p, g < 16 := fun g hg => (mem_pickable.1 (mem_topPickable.1 hg).1).2.1
  rw [pickHandler_eq_firstAfter, firstAfter_eq_some_iff sorted small, mem_topPickable]
  constructor
  · rintro ⟨⟨hh, highest⟩, first⟩
    refine ⟨hh, fun g hg => (Nat.lt_or_eq_of_le (highest g hg)).imp_right fun e => ⟨e, ?_⟩⟩
    rw [e, (prioOf_eq_topPrio_iff hh).2 highest]
    exact first g (mem_topPickable.2 ⟨hg, e ▸ highest⟩)
  · rintro ⟨hh, next⟩
    have highest : ∀ g ∈ pickable p, prioOf p g ≤ prioOf p h := fun g hg => (next g hg).elim Nat.le_of_lt fun e => Nat.le_of_eq e.1
    refine ⟨⟨hh, highest⟩, fun g hg => ?_⟩
    obtain ⟨gmem, ghighest⟩ := mem_topPickable.1 hg
    rcases next g gmem with lower | ⟨e, first⟩
    · exact absurd (ghighest h hh) (Nat.not_le.2 lower)
    · rwa [e, (prioOf_eq_topPrio_iff hh).2 highest] at first
theorem topPickable_eq_nil {p : Span} : topPickable p = [] ↔ pickable p = [] := by
  refine ⟨fun e => ?_, fun e => by rw [topPickable, e, List.filter_nil]⟩
  cases top : ((pickable p).map (prioOf p)).max? with
  | none => exact List.map_eq_nil_iff.1 (List.max?_eq_none_iff.1 top)
  | some k =>
    obtain ⟨hmem, highest⟩ := List.max?_eq_some_iff.1 top
    obtain ⟨h, hh, rfl⟩ := List.mem_map.1 hmem
    exact absurd (e ▸ mem_topPickable.2 ⟨hh, List.forall_mem_map.1 highest⟩) List.not_mem_nil
/-- Nothing is picked exactly if nothing can be. -/
theorem pickHandler_eq_none_iff {p : Span} : pickHandler p = none ↔ p.picked = true ∨ ∀ g < 16, canIssue p g = false := by
  rw [pickHandler_eq_firstAfter, firstAfter_eq_none, topPickable_eq_nil, List.eq_nil_iff_forall_not_mem]
  cases hp : p.picked <;> simp [mem_pickable, hp]

/-- R134, R136, R142, R405: which handlers of a span that runs may issue. -/
theorem canIssue_iff {p : Span} (hlive : p.live = true) (hstarting : p.starting = false) (hsaved : p.saved = false)
    (hended : p.ended = false) (hfrozen : p.frozen = false) (hquiesced : p.quiesced = false)
    (hcount : p.isMatrix = true → p.sys.emitted < p.tcnt) (h : Nat) :
    canIssue p h = true ↔ h ≤ p.nhnd ∧ (tget p.hs h {}).st = .runnable ∧ (tget p.hs h {}).fresh = false ∧
      (tget p.hs h {}).mask = false ∧ (tget p.hs h {}).held = none := by
  have hover : tcntOver p = false := by simpa [tcntOver] using hcount
  have hheld : heldByFreeze p h = false := by simp [heldByFreeze, hfrozen]
  simp [canIssue, hlive, hstarting, hsaved, hended, hquiesced, hover, hheld, and_assoc]

/-! ## The issue of a picked handler's word (R81, R137) -/

theorem exec_handlerIssue_none {s : State} {sp : Nat} (hp : pickHandler (getSpan s sp) = none) :
    exec (.handlerIssue sp) s = .next s := by
  show execHandlerIssue sp s = _
  simp only [execHandlerIssue, hp]
theorem exec_handlerIssue_some {s : State} {sp h : Nat} (hp : pickHandler (getSpan s sp) = some h) :
    exec (.handlerIssue sp) s = .next (issueFrom s sp h) := by
  show execHandlerIssue sp s = _
  simp only [execHandlerIssue, hp]

/-- The checks at decode look at the word being issued, its span's channel map and tree, and its handler's return stack alone
(R84, R85, R161). -/
theorem issueCheck_congr {s t : State} (hcur : t.cur = s.cur) (hchan : (curSpan t).chmap = (curSpan s).chmap)
    (htree : (curSpan t).tree = (curSpan s).tree) (hstack : (curH t).rstack = (curH s).rstack) (i : Instr) :
    issueCheck t i = issueCheck s i := by
  simp only [issueCheck, issueCheck.declCheck, boundTo, illegalT, hcur, hchan, htree, hstack] <;> rfl
/-- A handler whose word has issued in cycle c. -/
def issuedIn (c : Nat) (x : Handler) : Handler := { x with issued := c }
/-- When a word issued is not among what they look at. -/
theorem issueCheck_issuedIn (s : State) (sp h c : Nat) (i : Instr) : issueCheck (updH s sp h (issuedIn c)) i = issueCheck s i := by
  have hspan := (onlyHandlers_updH s sp h (issuedIn c)).2 s.cur.sp
  refine issueCheck_congr (updH_cur ..) ?chan ?tree ?stack i
  case chan => exact (congrArg Span.chmap hspan :)
  case tree => exact (congrArg Span.tree hspan :)
  case stack =>
    rw [curH, updH_cur, getH_updH]
    split
    · next here => rw [curH, here.1, here.2, issuedIn]
    · rfl

/-- A word that the program buffer holds, that could be read with its line. -/
theorem bufferedWord_eq_some {p : Span} {pc : Nat} {l : List Word} (hl : tfind p.pbuf (pc / 8) = some l)
    (hgap : pc % 8 ∉ tget p.pbufGaps (pc / 8) []) : bufferedWord p pc = some (nth l (pc % 8) 0) := by
  have : (tget p.pbufGaps (pc / 8) []).contains (pc % 8) = false := by simpa using hgap
  simp only [bufferedWord, hl, this, Bool.false_eq_true, if_false]

/-- A core that has picked handler h at priority k. -/
def pickedAt (k h : Nat) (p : Span) : Span := { p with rot := tput p.rot k h, picked := true }
/-- The core has picked handler h, whose word w is the one being issued. -/
def pickedFor (s : State) (sp h : Nat) (w : Word) : State :=
  { updSpan s sp (pickedAt (getH s sp h).prio.toNat h) with
    cur := { sp := sp, h := h, pc := (getH s sp h).pc, word := w, latch := none } }
/-- That word is the instruction j, staged to run, and its cycle is noted. -/
def stagedFor (s : State) (sp h : Nat) (w : Word) (j : Instr) : State :=
  let t := updH (pickedFor s sp h w) sp h (issuedIn (now s))
  { t with sched := { t.sched with staged := some j } }

/-- A word of the program buffer that decodes and passes the checks is staged. -/
theorem issueFrom_eq_stagedFor {s : State} {sp h : Nat} {w : Word} {j : Instr}
    (hw : bufferedWord (getSpan s sp) (getH s sp h).pc.toNat = some w) (hj : decode w = some j)
    (hc : issueCheck (pickedFor s sp h w) j = none) : issueFrom s sp h = stagedFor s sp h w j := by
  have hissue : issueFrom s sp h = decodeStage (updH (pickedFor s sp h w) sp h (issuedIn (now s))) := by
    unfold getH at hw
    simp only [issueFrom, hw]
    rfl
  have hdecode : decode (updH (pickedFor s sp h w) sp h (issuedIn (now s))).cur.word = some j := hj
  rw [← issueCheck_issuedIn _ sp h (now s)] at hc
  rw [hissue]
  simp only [decodeStage, hdecode, hc]
  rfl

section
variable (s : State) (sp h : Nat) (w : Word) (j : Instr)

/-- The pick changes no handler. -/
theorem getH_pickedFor (q g : Nat) : getH (pickedFor s sp h w) q g = getH s q g := by
  have hspan : getSpan (pickedFor s sp h w) q = if q = sp then pickedAt (getH s sp h).prio.toNat h (getSpan s sp) else getSpan s q :=
    getSpan_updSpan ..
  rw [getH, hspan]
  split
  · next here => rw [here]; rfl
  · rfl
theorem getH_stagedFor (q g : Nat) :
    getH (stagedFor s sp h w j) q g = if q = sp ∧ g = h then issuedIn (now s) (getH s sp h) else getH s q g := by
  rw [← getH_pickedFor s sp h w, ← getH_pickedFor s sp h w]
  exact getH_updH ..
/-- Staging the picked word changes nothing of the span but the handler's own part. -/
theorem getSpan_stagedFor : getSpan (stagedFor s sp h w j) sp =
    { pickedAt (getH s sp h).prio.toNat h (getSpan s sp) with hs := (getSpan (stagedFor s sp h w j) sp).hs } := by
  have hpick : getSpan (pickedFor s sp h w) sp = pickedAt (getH s sp h).prio.toNat h (getSpan s sp) := getSpan_updSpan_same ..
  have hstage : getSpan (stagedFor s sp h w j) sp = getSpan (updH (pickedFor s sp h w) sp h (issuedIn (now s))) sp := rfl
  rw [hstage, getSpan_updH, if_pos rfl, hpick]
theorem stagedFor_picked : (getSpan (stagedFor s sp h w j) sp).picked = true := by
  rw [getSpan_stagedFor]; rfl
/-- h is the handler last picked at its priority; those of the other priorities are as before. -/
theorem stagedFor_rot (k : Nat) : tget (getSpan (stagedFor s sp h w j) sp).rot k 15 =
    if k = (getH s sp h).prio.toNat then h else tget (getSpan s sp).rot k 15 := by
  rw [getSpan_stagedFor]
  exact tget_tput ..

end

/-- Settles O57: the model's pick is the handler of the highest priority whose turn comes first (`pickHandler_eq_some_iff`), a
span that runs hinders no handler (`canIssue_iff`), and the picked handler's word is staged with its cycle noted
(`issueFrom_eq_stagedFor`). -/
theorem pickedHandlerIsNextInTurn : Obligations.PickedHandlerIsNextInTurn := by
  unfold Obligations.PickedHandlerIsNextInTurn
  refine ⟨fun p => ⟨fun h => ?turn, pickHandler_eq_none_iff, canIssue_iff⟩, fun s sp => ⟨exec_handlerIssue_none, ?issue⟩⟩
  case turn =>
    rw [pickHandler_eq_some_iff]
    simp only [mem_pickable]
    constructor
    · rintro ⟨⟨hp, hh, hcan⟩, next⟩
      exact ⟨hp, hh, hcan, fun g hg hgcan => next g ⟨hp, hg, hgcan⟩⟩
    · rintro ⟨hp, hh, hcan, next⟩
      exact ⟨⟨hp, hh, hcan⟩, fun g ⟨_, hg, hgcan⟩ => next g hg hgcan⟩
  case issue =>
    intro h l j hpick x w u hl hgap hj hc
    exact ⟨stagedFor s sp h w j,
      by rw [exec_handlerIssue_some hpick, issueFrom_eq_stagedFor (bufferedWord_eq_some hl hgap) hj hc],
      rfl, rfl, stagedFor_picked s sp h w j, stagedFor_rot s sp h w j, getH_stagedFor s sp h w j, rfl⟩

end Sys2Proof.Machine
